-- ==== Sys2Proof/Word.lean ====
section
/-! DEFINITION. The word types of the device and their plainest arithmetic: bytes, 16-bit saturating counters and
32-bit part time. -/
namespace Sys2Proof

/-- One byte of a frame, a record, a page or the configuration memory. -/
abbrev Byte := BitVec 8

/-- A part time: the 32-bit wrapping millisecond clock (00 section 5.3). -/
abbrev Time := BitVec 32

/-- A dump number (R122) or a journal sequence number (R103): 32 bits. -/
abbrev Num := BitVec 32

/-- A 16-bit counter that stays at 65,535 (00 section 5.5). -/
abbrev Counter := BitVec 16

/-- One more on a 16-bit counter that saturates at 65,535 (00 section 5.5; R22, R99, R113, R156, R160). -/
def Counter.inc (c : Counter) : Counter := if c = 0xFFFF#16 then c else c + 1#16

/-- One more on an 8-bit count that stays at 255 (R96, R128). -/
def satByte (b : Byte) : Byte := if b = 0xFF#8 then b else b + 1#8

end Sys2Proof
end

