-- ==== Sys2Proof/Syntax.lean ====
section
/-! DEFINITION. The commands the device takes: one constructor of `Instr` for each row of spec/opcode_table.json.
A request command (IDENT to RESTART, and UNKNOWN_KIND) means: the named port takes up the oldest frame of its input
queue, which is a frame of that kind (R163); the frame itself came by RECEIVE_FRAME (R162).  An event of an outstanding
read names it by its position and its number, and a granule window also by the granules received before it (log 57). -/
namespace Sys2Proof

/-- The two domains, A = 0 and B = 1 (00 Table 0-1). -/
inductive Dom where
  | a
  | b
deriving DecidableEq, Repr

/-- The three serial ports (R160): the Service Port and one platform port for each domain. -/
inductive PortId where
  | service
  | platform (d : Dom)
deriving DecidableEq, Repr

/-- The levels of one domain's three inputs (00 Table 0-3). -/
structure PinLevels where
  powerGood : Bool
  fatal : Bool
  resetRequest : Bool
deriving DecidableEq, Repr

/-- The input levels sampled as the device leaves hard reset (R23, R79, R168). -/
structure Levels where
  a : PinLevels
  b : PinLevels
  attached : Bool
deriving DecidableEq, Repr

/-- The name of an outstanding read in the events that belong to it (R86, R87; log 57): its position and its number. -/
structure ReadName where
  pos : Fin 2
  number : Nat
deriving DecidableEq, Repr

/-- The name of a granule window (R86; log 57): its read, and the granules received when it began. -/
structure WindowName where
  read : ReadName
  granules : Nat
deriving DecidableEq, Repr

/-- The commands, in the order of spec/opcode_table.json. -/
inductive Instr where
  | hardReset (levels : Levels)
  | configLoadComplete
  | startUpScanComplete
  | restartTakesEffect
  | fatalLine (d : Dom) (level : Bool)
  | powerGoodFall (d : Dom)
  | powerGoodRise (d : Dom)
  | resetRequestEdge (d : Dom)
  | attach
  | detach
  | hang (d : Dom)
  | holdTimerExpiry (d : Dom)
  | linkRetryTimerExpiry (d : Dom)
  | trainingExpiry (d : Dom)
  | trainingComplete (d : Dom)
  | targetRetrainRequest (d : Dom)
  | targetClaim (d : Dom) (read : ReadName)
  | claimWindowExpiry (d : Dom) (read : ReadName)
  | granuleArrival (d : Dom) (read : ReadName) (data : List Byte) (parityGood : Bool)
  | granuleWindowExpiry (d : Dom) (window : WindowName)
  | disconnect (d : Dom) (read : ReadName)
  | targetAbort (d : Dom) (read : ReadName)
  | programComplete (pos : Fin 8)
  | programFailed (pos : Fin 8)
  | storeReadComplete (pos : Fin 8) (stillHeld : Bool)
  | eraseComplete (pos : Fin 8)
  | eraseFailed (pos : Fin 8)
  | storeSaveEnd (matched : Bool)
  | intakeStepComplete (d : Dom)
  | agingExpiry (d : Dom) (slot : Fin 16)
  | crashTaken (d : Dom)
  | receiveFrame (p : PortId) (kind : Byte) (tag : Byte) (dom : Byte) (body : List Byte) (crc : BitVec 16)
  | frameGapTimeout (p : PortId)
  | peerHoldExpiry (p : PortId)
  | frameSent (p : PortId)
  | unknownKind (p : PortId)
  | ident (p : PortId)
  | status (p : PortId)
  | arm (p : PortId)
  | disarm (p : PortId)
  | planAdd (p : PortId)
  | planDelete (p : PortId)
  | planClear (p : PortId)
  | planRead (p : PortId)
  | latchSet (p : PortId)
  | latchRead (p : PortId)
  | event (p : PortId)
  | heartbeat (p : PortId)
  | crash (p : PortId)
  | capture (p : PortId)
  | abort (p : PortId)
  | releaseHold (p : PortId)
  | dir (p : PortId)
  | manifest (p : PortId)
  | cursor (p : PortId)
  | read (p : PortId)
  | journalRead (p : PortId)
  | release (p : PortId)
  | protect (p : PortId)
  | verify (p : PortId)
  | linkStatus (p : PortId)
  | counters (p : PortId)
  | configGet (p : PortId)
  | configSet (p : PortId)
  | configSave (p : PortId)
  | configSaveEnd (matched : Bool)
  | view (p : PortId)
  | restart (p : PortId)
  | resetRequestFall (d : Dom)
  | syncPairFound (p : PortId)
  | oversize (p : PortId)
deriving DecidableEq, Repr

end Sys2Proof
end

