-- ==== Sys2Proof/Decode.lean ====
section
/-! DEFINITION. The command a table word spells.  No row of spec/opcode_table.json gives bits (its "fields" are all
empty), so no word spells a command; a frame's bytes reach the device by RECEIVE_FRAME and are read in
Machine/Operands.lean. -/
namespace Sys2Proof

/-- The command that an `nbits`-bit word `w` spells by the table's bits: none, since no row of the table has bits. -/
def decodeTableWord (_nbits _w : Nat) : Option Instr := none

end Sys2Proof
end

