-- ==== Sys2Proof/Config.lean ====
section
/-! DEFINITION. What the part fixes (constants of the spec) and what the spec leaves open (opaque free values). -/
namespace Sys2Proof.Config

/-- Bytes of a page (R143). -/
def pageBytes : Nat := 4096
/-- Pages of a block (R143). -/
def blockPages : Nat := 128
/-- Blocks of the array (R143). -/
def arrayBlocks : Nat := 2048
/-- Staging pages (R64). -/
def stagingPages : Nat := 64
/-- The most staging pages one channel or one copier holds (R64, R110). -/
def holderCap : Nat := 16
/-- The most staging pages the directory holds while it programs a manifest (R131). -/
def manifestCap : Nat := 4
/-- Plan entries at most (R25). -/
def planMax : Nat := 48
/-- Trigger list entries at most (R6). -/
def triggerMax : Nat := 8
/-- Link history entries at most (R128). -/
def historyMax : Nat := 8
/-- Hole list entries at most (R73). -/
def holeMax : Nat := 32
/-- Directory entries at most (R121). -/
def directoryMax : Nat := 16
/-- Retired list entries at most (R153). -/
def retiredMax : Nat := 32
/-- Ring records at most (R103). -/
def ringMax : Nat := 4096
/-- Intake queue records at most (R104). -/
def intakeMax : Nat := 32
/-- Pre-window records at most (R109). -/
def preMax : Nat := 2048
/-- Post-window records at most (R111). -/
def postMax : Nat := 512
/-- The failure run that ends a section UNREACHABLE (R72). -/
def runMax : Nat := 16
/-- Close reserve, ms (R42). -/
def closeReserve : Nat := 250
/-- Store rate S, B/ms (R42). -/
def storeRate : Nat := 640000
/-- The system reserve, pages (R44). -/
def systemReserve : Nat := 61
/-- Training time allowed, ms (R81). -/
def trainingMs : Nat := 5
/-- Retry timer, ms (R82). -/
def retryMs : Nat := 100
/-- A latched record's aging time, ms (R115). -/
def agingMs : Nat := 60001

/-- FREE VALUE (log 9, log 10): what the configuration memory holds after a save cut by a hard reset, or one whose
read-back did not match: 0 the contents before the save, 1 the image the save was writing, any other value a
partly written image.  No body: nothing in Lean can evaluate it. -/
opaque saveLeaves : Nat → BitVec 2

/-- FREE VALUE (log 11): whether a page of a block whose erase was cut reads erased (true) or unreadable (false). -/
opaque cutPageErased : Nat → Bool

/-- FREE VALUE (log 11): a page of a block whose erase was cut that reads unreadable, whatever the others do. -/
opaque cutPageSpoiled : Nat → Fin 128

/-- FREE VALUE (log 21): a check word the spec gives no value for (a VERIFY notice with NO_CHECK, and the computed
check of a verify that met an unreadable page). -/
opaque freeCheck : Nat → BitVec 32

end Sys2Proof.Config
end

