-- ==== Sys2Proof/Machine/State.lean ====
section
/-! DEFINITION. Everything the spec gives the device to hold, as plain data, and the device right after a hard reset. -/
namespace Sys2Proof.Machine

/-- One thing for each domain (00 Table 0-2: blocks "per domain"). -/
structure Two (α : Type) where
  a : α
  b : α
deriving DecidableEq, Repr

/-- The reasons a command can stop the device.  None: the spec gives every command of the table an effect, or says
that the event is ignored, so no command faults. -/
inductive Fault where
deriving DecidableEq, Repr

/-- The reasons a command can be refused. -/
inductive Refusal where
  /-- Raised by an arm of `exec` whose command has no meaning yet; no arm uses it.  Safe. -/
  | notModelled (mnemonic : String)
deriving DecidableEq, Repr

/-! ### Domains (chapter 1) -/

/-- Domain states (R2, Table 1-3). -/
inductive DomainState where
  | disarmed | armed | triggered | harvesting | closing | settled
deriving DecidableEq, Repr

/-- Trigger causes (Table 1-4). -/
inductive TriggerCause where
  | fatalLine | crashNotice | hang | manual
deriving DecidableEq, Repr

/-- End causes (R12 to R16, Table 1-1). -/
inductive EndCause where
  | complete | holdExpired | holdReleased | aborted | powerLost | linkLost
deriving DecidableEq, Repr

/-- Reasons a hold line is released for (R18). -/
inductive ReleaseReason where
  | expired | released | closed
deriving DecidableEq, Repr

/-- Failure causes of an opening (R5). -/
inductive FailureCause where
  | noDirectory | noSpace | noNumber
deriving DecidableEq, Repr

/-- A trigger entry (R3): the crash code is present only for CRASH_NOTICE. -/
structure TriggerEntry where
  cause : TriggerCause
  time : Time
  code : Option (BitVec 32)
deriving DecidableEq, Repr

/-- A wall-time pair (R10): the wall time and the part time of its arrival. -/
structure WallTime where
  wall : BitVec 64
  arrival : Time
deriving DecidableEq, Repr

/-- The domain record (R1, Table 1-1). -/
structure Domain where
  state : DomainState
  triggerTime : Option Time
  openDump : Option Num
  endCause : Option EndCause
  /-- hold window in force, ms -/
  holdWindow : Option Nat
  holdEnable : Option Bool
  holdLine : Bool
  holdTimer : Option Time
  heartbeatTimer : Option Time
  wallTime : Option WallTime
  fatalLevel : Bool
  resetRequestLevel : Bool
  missed : Counter
  late : Counter
  overflow : Counter
  heldResets : Counter
  heartbeats : Counter
deriving DecidableEq, Repr

/-! ### Region plans (chapter 2) -/

/-- A region plan entry (R26, Table 2-1). -/
structure PlanEntry where
  tag : BitVec 16
  base : Nat
  length : Nat
  priority : Nat
  floor : Nat
  atomic : Bool
  label : Byte
deriving DecidableEq, Repr

/-- A region plan (R25): the entries in index order and the plan generation. -/
structure Plan where
  entries : List PlanEntry
  generation : BitVec 16
deriving DecidableEq, Repr

/-! ### Sections and dumps (chapters 3, 4, 7) -/

/-- Harvest link modes (Table 3-2). -/
inductive Mode where
  | wide | narrow | single
deriving DecidableEq, Repr

/-- Section kinds (R124). -/
inductive SectionKind where
  | latch | journalPre | journalPost | region
deriving DecidableEq, Repr

/-- Section states (R124, Table 7-4). -/
inductive SectionState where
  | pending | skipped | active | done | partly | lost
deriving DecidableEq, Repr

/-- Section causes (R124, Table 9-12). -/
inductive SectionCause where
  | budgetSpace | budgetTime | unreachable | aborted | holdExpired | holdReleased | powerLost | linkLost | partReset
deriving DecidableEq, Repr

/-- Hole causes (R73). -/
inductive HoleCause where
  | noClaim | stall | targetAbort | parity
deriving DecidableEq, Repr

/-- A hole list entry (R73). -/
structure Hole where
  offset : Nat
  length : Nat
  cause : HoleCause
deriving DecidableEq, Repr

/-- A section record (R124, Table 7-3), with its delivery mark (R138).  State `partly` is PARTIAL. -/
structure SectionRecord where
  index : Nat
  kind : SectionKind
  state : SectionState
  cause : Option SectionCause
  tag : BitVec 16
  base : Nat
  label : Byte
  atomic : Bool
  planned : Nat
  floor : Nat
  admitted : Nat
  truncated : Bool
  written : Nat
  startTime : Option Time
  linkMode : Option Mode
  holes : List Hole
  holeOverflow : Bool
  crc : Option (BitVec 32)
  delivered : Nat
deriving DecidableEq, Repr

/-- Dump states (R123). -/
inductive DumpState where
  | opened | closed | incomplete
deriving DecidableEq, Repr

/-- A link history entry (R128). -/
structure HistoryEntry where
  mode : Mode
  time : Time
deriving DecidableEq, Repr

/-- The five domain counters as copied into a dump at its close (R130). -/
structure DomainCounters where
  missed : Counter
  late : Counter
  overflow : Counter
  heldResets : Counter
  heartbeats : Counter
deriving DecidableEq, Repr

/-- A dump entry of the directory (R123, Table 7-2). -/
structure DumpEntry where
  number : Num
  domain : Dom
  state : DumpState
  triggers : List TriggerEntry
  triggerTime : Time
  closeTime : Option Time
  endCause : Option EndCause
  planGeneration : Option (BitVec 16)
  wallTime : Option WallTime
  holdWindow : Nat
  holdEnable : Bool
  modeAtOpening : Mode
  history : List HistoryEntry
  historyOverflow : Byte
  /-- pre-copy drops -/
  preDrops : Option (BitVec 32)
  /-- post-lost and post-overflow -/
  postCounts : Option (BitVec 32 × BitVec 32)
  countersAtClose : Option DomainCounters
  sections : List SectionRecord
  manifestCheck : Option (BitVec 32)
  isProtected : Bool
  fetched : Bool
deriving DecidableEq, Repr

/-- What a verify re-reads: a section's data pages or the manifest (R141). -/
inductive VerifyTarget where
  | data (index : Nat)
  | manifest
deriving DecidableEq, Repr

/-- The verify in progress (R121, R142): `left` is the count of content bytes still to feed, known for the manifest
from its first page; `unreadable` says that a page was found unreadable (R154). -/
structure Verify where
  dump : Num
  target : VerifyTarget
  pagesRead : Nat
  crc : BitVec 32
  left : Nat
  unreadable : Bool
deriving DecidableEq, Repr

/-- The directory (R121, Table 7-1). -/
structure Directory where
  entries : List DumpEntry
  nextNumber : Num
  verify : Option Verify
deriving DecidableEq, Repr

/-- The directory's work on a domain's open dump: the latch snapshot's data page fixed at the opening and not yet
staged (R119), the built manifest's bytes (R130) and how many of its 16 pages have been asked for (R131). -/
structure Work where
  latchPage : Option (List Byte)
  manifest : Option (List Byte)
  manifestAsked : Nat
deriving DecidableEq, Repr

/-- The admission record of an open dump (R40, R41): its shares.  The reservation is computed from them. -/
structure Admission where
  dump : Num
  headerShare : Nat
  manifestShare : Nat
  shares : List Nat
deriving DecidableEq, Repr

/-! ### Staging pages and store work (chapters 4, 8) -/

/-- Page kinds of a spare area (Table 8-1). -/
inductive PageKind where
  | dumpHeader | sectionHeader | data | manifest | retiredMark
deriving DecidableEq, Repr

/-- The fields of a spare area (Table 8-1): they name a page of a dump. -/
structure PageKey where
  dump : Num
  kind : PageKind
  index : Nat
  seq : Nat
deriving DecidableEq, Repr

/-- The holders of staging pages (R64); `nobody` is a page left to its section when its channel or copier has gone
back to IDLE. -/
inductive Holder where
  | channel (c : Fin 4)
  | copier (d : Dom)
  | directory
  | nobody
deriving DecidableEq, Repr

/-- A given staging page (R64): which page it is to become, its holder and its bytes so far (bytes beyond the list
are 0x00). -/
structure StagingPage where
  key : PageKey
  holder : Holder
  data : List Byte
deriving DecidableEq, Repr

/-- A waiting request for 1 or 2 staging pages (R64). -/
structure StagingRequest where
  holder : Holder
  keys : List PageKey
deriving DecidableEq, Repr

/-- The staging buffer (R64): the given pages, and the requests in the order made.  64 less the given pages are free. -/
structure Staging where
  pages : List StagingPage
  requests : List StagingRequest
deriving DecidableEq, Repr

/-- A queued program (R146): a staging page, or the RETIRED_MARK of a block for its page (R153). -/
inductive ProgramItem where
  | page (key : PageKey)
  | mark (block : Nat) (page : Nat)
deriving DecidableEq, Repr

/-- Who asked for a store read (R145); `nobody` is a read whose requester has gone (R142, R144). -/
inductive Reader where
  | cursor
  | verify
  | nobody
deriving DecidableEq, Repr

/-- A queued store read (R154). -/
structure StoreRead where
  reader : Reader
  key : PageKey
deriving DecidableEq, Repr

/-- An operation in flight (R145).  Array pages are numbered block × 128 + page. -/
inductive StoreOp where
  | program (item : ProgramItem) (at_ : Nat)
  | read (request : StoreRead) (at_ : Nat)
  /-- `withheld` says that the block was WITHHELD on the dirty list (R150). -/
  | erase (block : Nat) (withheld : Bool)
deriving DecidableEq, Repr

/-- Block states (R144, Table 8-2). -/
inductive BlockState where
  | erased | spare | opened | full | dirty | erasing | retired | withheld
deriving DecidableEq, Repr

/-- A block table entry (R144): the state, the owning dump and the next unassigned page. -/
structure Block where
  state : BlockState
  owner : Option Num
  nextPage : Nat
deriving DecidableEq, Repr

/-- What an erase gate waits for (R155): the erase of the dump header block, or a save that writes dump number 0 for
the retired header block. -/
inductive Gate where
  | erase (block : Nat)
  | save (block : Nat)
deriving DecidableEq, Repr

/-- A dirty list entry (R150). -/
structure DirtyEntry where
  block : Nat
  gate : Option Gate
deriving DecidableEq, Repr

/-- A retired list entry (R153, Table 10-1). -/
structure RetiredEntry where
  block : Nat
  dump : Num
deriving DecidableEq, Repr

/-- A relocation wait (R152): whether it began at a taking, and the pages of the withdrawn block still counted. -/
structure RelocationWait where
  dump : Num
  atTaking : Bool
  counted : Nat
deriving DecidableEq, Repr

/-- The store's record of a dump (R147).  The relocation-wait flag is membership of `Store.waits`. -/
structure StoreRecord where
  dump : Num
  blocks : List Nat
  openBlock : Option Nat
  remainder : Nat
  debt : Nat
  pageMap : List (PageKey × Nat)
  programmed : Nat
deriving DecidableEq, Repr

/-- The capture store but for the array's pages (R144 to R156).  `blocks` lists the entries that are not
ERASED-in-the-pool, by rising block number. -/
structure Store where
  blocks : List (Nat × Block)
  pool : List Nat
  spares : List Nat
  dirty : List DirtyEntry
  retired : List RetiredEntry
  records : List StoreRecord
  waits : List RelocationWait
  programs : List ProgramItem
  reads : List StoreRead
  inFlight : Vector (Option StoreOp) 8
  programFailures : Counter
  eraseFailures : Counter
deriving DecidableEq, Repr

/-- A page of the array that is not erased (R143): programmed with its spare fields and data (held up to the last
non-zero byte), or unreadable. -/
inductive ArrayPage where
  | programmed (spare : PageKey) (data : List Byte)
  | unreadable
deriving DecidableEq, Repr

/-- The flash array (R143): pages by number, strictly rising; an unlisted page is erased. -/
abbrev Flash := List (Nat × ArrayPage)

/-! ### Harvest channels (chapter 4) -/

/-- Channel states (R58). -/
inductive ChannelState where
  | idle | waitLock | fetching | stalled | ending
deriving DecidableEq, Repr

/-- A run of section offsets. -/
structure Extent where
  offset : Nat
  length : Nat
deriving DecidableEq, Repr

/-- A read in hand (R62, R63): its extent, whether it is partial, its attempt count and its phase. -/
structure HandRead where
  offset : Nat
  length : Nat
  isPartial : Bool
  attempts : Nat
  outstanding : Bool
deriving DecidableEq, Repr

/-- Why a channel is ENDING: every admitted byte is handled (R74), or the section ends short with a cause (R72, R76). -/
inductive Ending where
  | full
  | short (cause : SectionCause)
deriving DecidableEq, Repr

/-- What a channel holds of its section (R57), fixed at the pick: the dump, section index and domain, and the base,
admitted length and atomic flag of the section. -/
structure Job where
  dump : Num
  index : Nat
  domain : Dom
  base : Nat
  admitted : Nat
  atomic : Bool
deriving DecidableEq, Repr

/-- The channel record (R57, Table 4-1), with the running CRC (R68), the data pages given and passed (R65, R67) and
the reason for ENDING.  Pages held and lock held are read from the staging buffer and from the link. -/
structure Channel where
  state : ChannelState
  job : Option Job
  retryLimit : Nat
  fetchPos : Nat
  hand : List HandRead
  handled : Nat
  above : List Extent
  holesAbove : List Hole
  failureRun : Nat
  crc : BitVec 32
  given : Nat
  passed : Nat
  ending : Option Ending
deriving DecidableEq, Repr

/-! ### Harvest links (chapter 5) -/

/-- Link states (R80). -/
inductive LinkState where
  | down | training | up
deriving DecidableEq, Repr

/-- A read holding an outstanding position (R79, R85): `granules` counts a burst's granules (1 for a partial read),
`mask` is a partial read's byte mask, `received` the granules so far and `mismatch` a parity mismatch noted.  `number` is
the model's own name of the read, by which the link events know it (log 57). -/
structure LinkRead where
  number : Nat
  channel : Fin 4
  address : Nat
  length : Nat
  granules : Nat
  mask : Option (BitVec 64)
  locked : Bool
  issueTime : Time
  claimed : Bool
  received : List (List Byte)
  mismatch : Bool
deriving DecidableEq, Repr

/-- A waiting grant request (R91). -/
structure GrantRequest where
  channel : Fin 4
  address : Nat
  length : Nat
  locked : Bool
deriving DecidableEq, Repr

/-- A channel's claim on the lock with the byte range it locks (R93). -/
structure LockClaim where
  channel : Fin 4
  base : Nat
  length : Nat
deriving DecidableEq, Repr

/-- The seven link counters (R99). -/
structure LinkCounters where
  readsIssued : Counter
  disconnects : Counter
  noClaims : Counter
  stalls : Counter
  targetAborts : Counter
  parityErrors : Counter
  retrains : Counter
deriving DecidableEq, Repr

/-- The harvest link record (R79, Table 5-1), with the lock designate of R93.  `issued` is the model's own count of the
reads ever issued, which numbers them (log 57). -/
structure Link where
  state : LinkState
  mode : Mode
  widen : Bool
  trainingExpiry : Option Time
  retryTimer : Option Time
  positions : Vector (Option LinkRead) 2
  requests : List GrantRequest
  lastGranted : Fin 4
  lockHolder : Option LockClaim
  designate : Option LockClaim
  lockQueue : List LockClaim
  downshifts : Byte
  stayedUp : Bool
  paritySeen : Bool
  shifted : Bool
  abortSeen : Bool
  counters : LinkCounters
  issued : Nat
deriving DecidableEq, Repr

/-! ### Journals and latch slots (chapter 6) -/

/-- An event record (R102, Table 6-1). -/
structure EventRecord where
  sequence : Num
  time : Time
  origin : Nat
  eventClass : Byte
  severity : Nat
  payload : List Byte
  checkBad : Bool
deriving DecidableEq, Repr

/-- Which copy a copier runs (R103). -/
inductive CopyKind where
  | pre
  | post
deriving DecidableEq, Repr

/-- A journal copy in flight (R109 to R111): its window (first sequence and record count), how many records are
copied, whether the section header page has passed, the records dropped while it ran, the running CRC, and the
figures of its header page. -/
structure Copy where
  kind : CopyKind
  dump : Num
  first : Num
  count : Nat
  copied : Nat
  headerPassed : Bool
  drops : BitVec 32
  crc : BitVec 32
  mark : Num
  postEnd : Num
  postLost : BitVec 32
  postOverflow : BitVec 32
  began : Time
deriving DecidableEq, Repr

/-- A latch slot (R114, Table 6-4); the arrival time is the latched record's time field. -/
structure Slot where
  slotClass : Byte
  keepBad : Bool
  record : Option EventRecord
  aging : Option Time
  aged : Bool
  received : Bool
  checkError : Bool
deriving DecidableEq, Repr

/-- A journal (R103, Table 6-2) and its domain's 16 latch slots (R114).  `nextSequence` is absent when exhausted. -/
structure Journal where
  ring : List EventRecord
  nextSequence : Option Num
  intake : List EventRecord
  intakeStep : Bool
  holdOff : Bool
  mark : Option Num
  copier : Option Copy
  overwrites : Counter
  dropped : Counter
  overruns : Counter
  slots : Vector Slot 16
deriving DecidableEq, Repr

/-! ### Ports (chapter 9) -/

/-- A frame (R161) less its sync bytes, length and CRC.  `notice` says that the device made it as a notice (R164): the
reply to an unknown kind can have a kind of the notices' range (log 55), and only the notices are counted. -/
structure Frame where
  kind : Byte
  tag : Byte
  domain : Byte
  body : List Byte
  notice : Bool := false
deriving DecidableEq, Repr

/-- The receiver of a port (R160): RECEIVING holds the bytes of one frame so far. -/
inductive Receiver where
  | hunting
  | receiving (bytes : List Byte)
deriving DecidableEq, Repr

/-- A store page as read for a cursor READ (R154): its bytes, or absent when found unreadable. -/
structure PageRead where
  seq : Nat
  data : Option (List Byte)
deriving DecidableEq, Repr

/-- A request that completes later than it is taken (R163): a held CRASH (R105), a READ waiting for its store reads
(R172: the clamped count, whether it was clamped, and the bytes from `offset` up to `stop`), a CONFIG SAVE (R179). -/
inductive Processing where
  | crash (code : BitVec 32)
  | read (dump : Num) (index offset stop count : Nat) (adjusted : Bool) (pages : List PageRead)
  | configSave
deriving DecidableEq, Repr

/-- A port record (R160, Table 9-1).  `line` is the frame now on the line (R164). -/
structure Port where
  receiver : Receiver
  input : List Frame
  processing : Option Processing
  reserved : Nat
  output : List Frame
  line : Option Frame
  outgoingHold : Option (BitVec 16)
  peerHold : Option Time
  framesGood : Counter
  crcErrors : Counter
  oversizes : Counter
  truncated : Counter
  overruns : Counter
deriving DecidableEq, Repr

/-- The Service Port's view (R169). -/
inductive View where
  | auto
  | manual (d : Dom)
deriving DecidableEq, Repr

/-- The read cursor when open (R171). -/
structure Cursor where
  dump : Num
  index : Nat
  offset : Nat
deriving DecidableEq, Repr

/-- The fields of the port record that only the Service Port keeps (R160). -/
structure Service where
  holdOff : Bool
  noticesLost : Counter
  attached : Bool
  view : View
  autoDomain : Dom
  cursor : Option Cursor
  noticeTag : Byte
deriving DecidableEq, Repr

/-! ### Settings and start-up (chapter 10) -/

/-- The eight settings of a domain (R175, Table 10-2). -/
structure Settings where
  holdEnable : Bool
  holdWindow : Nat
  heartbeatTimeout : Nat
  freshness : Nat
  derate : Nat
  retry : Nat
  threshold : Nat
  autoArm : Bool
deriving DecidableEq, Repr

/-- A slot's programming: class and keep-bad (R114). -/
structure SlotProgram where
  slotClass : Byte
  keepBad : Bool
deriving DecidableEq, Repr

/-- The eight settings of a domain as an image's bytes hold them, each on/off setting a byte (R175, Table 10-2). -/
structure StoredSettings where
  holdEnable : Byte
  holdWindow : Nat
  heartbeatTimeout : Nat
  freshness : Nat
  derate : Nat
  retry : Nat
  threshold : Nat
  autoArm : Byte
deriving DecidableEq, Repr

/-- A slot's programming as an image's bytes hold it: class and keep-bad (R175). -/
structure StoredSlot where
  slotClass : Byte
  keepBad : Byte
deriving DecidableEq, Repr

/-- A configuration image (R175, Table 10-1): identity, retired list, and both domain blocks' settings and slot
programming, as its bytes hold them. -/
structure Image where
  serial : List Byte
  asset : List Byte
  retired : List RetiredEntry
  storedSettings : Two StoredSettings
  storedSlots : Two (List StoredSlot)
deriving DecidableEq, Repr

/-- The two kinds of save (R179). -/
inductive SaveKind where
  | config
  | store
deriving DecidableEq, Repr

/-- A save in flight and the image it writes (R179). -/
structure Save where
  kind : SaveKind
  image : Image
deriving DecidableEq, Repr

/-- What the configuration memory holds: 2,048 bytes, or a partly written image, whose check fails (R179). -/
inductive ConfigMemory where
  | bytes (contents : List Byte)
  | torn
deriving DecidableEq, Repr

/-- The running configuration less the slot programming (held in the slots) and the retired list (held in the
store), and the configuration memory's side (R175 to R179). -/
structure Configuration where
  memory : ConfigMemory
  serial : List Byte
  asset : List Byte
  settings : Two Settings
  stored : Image
  fault : Bool
  unsaved : Bool
  save : Option Save
  savePending : Bool
deriving DecidableEq, Repr

/-- The phases of start-up (R180): the scan and the rebuild end in one command. -/
inductive StartUp where
  | load | scan | finished
deriving DecidableEq, Repr

/-- A restart on its way (R163): accepted and its reply not yet sent, or its reply sent. -/
inductive RestartPhase where
  | none | replyWaiting | due
deriving DecidableEq, Repr

/-- The device. -/
structure State where
  /-- MODEL'S OWN: the commands waiting, first in first out -/
  pending : List Instr
  /-- MODEL'S OWN: the index of the next free value (Config) -/
  freeCount : Nat
  partTime : Time
  startUp : StartUp
  restart : RestartPhase
  powerGood : Two Bool
  domains : Two Domain
  plans : Two Plan
  admissions : Two (Option Admission)
  works : Two Work
  channels : Vector Channel 4
  lastPicked : Option Dom
  staging : Staging
  links : Two Link
  journals : Two Journal
  directory : Directory
  store : Store
  flash : Flash
  servicePort : Port
  platformPorts : Two Port
  service : Service
  config : Configuration
deriving DecidableEq, Repr

/-! ### Values after a hard reset -/

/-- The domain record after hard reset with the input levels sampled (R1, Table 1-1; R23). -/
def Domain.afterReset (p : PinLevels) : Domain :=
  { state := .disarmed, triggerTime := none, openDump := none, endCause := none, holdWindow := none
    holdEnable := none, holdLine := false, holdTimer := none, heartbeatTimer := none, wallTime := none
    fatalLevel := p.fatal, resetRequestLevel := p.resetRequest, missed := 0, late := 0, overflow := 0
    heldResets := 0, heartbeats := 0 }

/-- An idle channel (R57, Table 4-1). -/
def Channel.idle : Channel :=
  { state := .idle, job := none, retryLimit := 0, fetchPos := 0, hand := [], handled := 0, above := []
    holesAbove := [], failureRun := 0, crc := 0xFFFFFFFF#32, given := 0, passed := 0, ending := none }

/-- The link record after hard reset or restart, before any training (R79, Table 5-1). -/
def Link.afterReset : Link :=
  { state := .down, mode := .wide, widen := false, trainingExpiry := none, retryTimer := none
    positions := Vector.replicate 2 none, requests := [], lastGranted := 3, lockHolder := none
    designate := none, lockQueue := [], downshifts := 0, stayedUp := false, paritySeen := false
    shifted := false, abortSeen := false
    counters := { readsIssued := 0, disconnects := 0, noClaims := 0, stalls := 0, targetAborts := 0,
                  parityErrors := 0, retrains := 0 }
    issued := 0 }

/-- An unassigned, empty latch slot (R114, R120). -/
def Slot.unassigned : Slot :=
  { slotClass := 0, keepBad := false, record := none, aging := none, aged := false, received := false
    checkError := false }

/-- A journal after hard reset (R103, Table 6-2). -/
def Journal.afterReset : Journal :=
  { ring := [], nextSequence := some 1, intake := [], intakeStep := false, holdOff := false, mark := none
    copier := none, overwrites := 0, dropped := 0, overruns := 0, slots := Vector.replicate 16 Slot.unassigned }

/-- No work of the directory on an open dump. -/
def Work.empty : Work := { latchPage := none, manifest := none, manifestAsked := 0 }

/-- A port after hard reset, with nothing yet to send (R160, Table 9-1). -/
def Port.afterReset : Port :=
  { receiver := .hunting, input := [], processing := none, reserved := 0, output := [], line := none
    outgoingHold := none, peerHold := none, framesGood := 0, crcErrors := 0, oversizes := 0, truncated := 0
    overruns := 0 }

/-- The defaults of Table 10-2. -/
def Settings.default : Settings :=
  { holdEnable := true, holdWindow := 90, heartbeatTimeout := 30, freshness := 5, derate := 80, retry := 3
    threshold := 4, autoArm := true }

/-- The defaults of Table 10-2 as an image's bytes hold them. -/
def StoredSettings.default : StoredSettings :=
  { holdEnable := 1, holdWindow := 90, heartbeatTimeout := 30, freshness := 5, derate := 80, retry := 3
    threshold := 4, autoArm := 1 }

/-- The defaults image (R176): spaces, an empty retired list, default settings, every slot unassigned. -/
def Image.default : Image :=
  { serial := List.replicate 16 0x20#8, asset := List.replicate 32 0x20#8, retired := []
    storedSettings := ⟨StoredSettings.default, StoredSettings.default⟩
    storedSlots := ⟨List.replicate 16 ⟨0, 0⟩, List.replicate 16 ⟨0, 0⟩⟩ }

/-- The store while its block table is unknown (R144, log 33). -/
def Store.unknown : Store :=
  { blocks := [], pool := [], spares := [], dirty := [], retired := [], records := [], waits := [], programs := []
    reads := [], inFlight := Vector.replicate 8 none, programFailures := 0, eraseFailures := 0 }

/-- The frame of a HOLD the device sends (R161): tag 0, domain 0xFF, the count little-endian. -/
def Frame.hold (n : BitVec 16) : Frame :=
  { kind := 0x7F, tag := 0, domain := 0xFF, body := [n.setWidth 8, (n >>> 8).setWidth 8] }

/-- All three inputs of a domain low. -/
def PinLevels.low : PinLevels := { powerGood := false, fatal := false, resetRequest := false }

/-- The device right after a hard reset (R180) with every input low (log 5), an erased array (log 7) and a blank
configuration memory (log 6): start-up has begun with the configuration load, and each platform port has put its
HOLD(0) on the line (R120). -/
def State.reset : State :=
  { pending := [], freeCount := 0, partTime := 0, startUp := .load, restart := .none
    powerGood := ⟨false, false⟩
    domains := ⟨Domain.afterReset PinLevels.low, Domain.afterReset PinLevels.low⟩
    plans := ⟨{ entries := [], generation := 0 }, { entries := [], generation := 0 }⟩
    admissions := ⟨none, none⟩
    works := ⟨Work.empty, Work.empty⟩
    channels := Vector.replicate 4 Channel.idle
    lastPicked := none
    staging := { pages := [], requests := [] }
    links := ⟨Link.afterReset, Link.afterReset⟩
    journals := ⟨Journal.afterReset, Journal.afterReset⟩
    directory := { entries := [], nextNumber := 1, verify := none }
    store := Store.unknown
    flash := []
    servicePort := Port.afterReset
    platformPorts := ⟨{ Port.afterReset with line := some (Frame.hold 0) },
                      { Port.afterReset with line := some (Frame.hold 0) }⟩
    service := { holdOff := false, noticesLost := 0, attached := false, view := .auto, autoDomain := .a
                 cursor := none, noticeTag := 0 }
    config := { memory := .bytes (List.replicate 2048 0xFF#8), serial := Image.default.serial
                asset := Image.default.asset, settings := ⟨Settings.default, Settings.default⟩, stored := Image.default
                fault := false, unsaved := false, save := none, savePending := false } }

end Sys2Proof.Machine
end

