-- ==== Sys2Proof/Machine/Bytes.lean ====
section
/-! DEFINITION. Bytes: little-endian fields (00 section 5.2), padding, the CRC-16 of R161 and the CRC-32 of R68. -/
namespace Sys2Proof.Machine

/-- `n` as `size` bytes, least significant first (00 section 5.2); higher bits are dropped. -/
def le : Nat → Nat → List Byte
  | 0, _ => []
  | size + 1, n => BitVec.ofNat 8 n :: le size (n / 256)

/-- The number that little-endian bytes spell. -/
def ofLe : List Byte → Nat
  | [] => 0
  | b :: bs => b.toNat + 256 * ofLe bs

/-- `size` bytes of a list from an offset; bytes beyond its end read 0x00. -/
def slice (bs : List Byte) (offset size : Nat) : List Byte :=
  let got := (bs.drop offset).take size
  got ++ List.replicate (size - got.length) 0

/-- The little-endian field of `size` bytes at an offset. -/
def field (bs : List Byte) (offset size : Nat) : Nat := ofLe (slice bs offset size)

/-- The list cut or filled with 0x00 to exactly `size` bytes (R161: bytes not given to a field are 0x00). -/
def padTo (size : Nat) (bs : List Byte) : List Byte := slice bs 0 size

/-- A flag as a byte: 1 set, 0 clear. -/
def flagByte (b : Bool) : Byte := if b then 1 else 0

/-- Flags packed into a byte, bit 0 first. -/
def flagBits : List Bool → Nat
  | [] => 0
  | b :: bs => (if b then 1 else 0) + 2 * flagBits bs

/-- Whether bit `i` of a byte is set. -/
def bitSet (b : Byte) (i : Nat) : Bool := b.getLsbD i

/-- Trailing 0x00 bytes dropped: the one form in which a page's bytes are held. -/
def trimZeros : List Byte → List Byte
  | [] => []
  | b :: bs =>
    match trimZeros bs with
    | [] => if b = 0 then [] else [b]
    | r => b :: r

/-- `bytes` written over `bs` at an offset; a gap is filled with 0x00. -/
def writeAt (bs : List Byte) (offset : Nat) (bytes : List Byte) : List Byte :=
  slice bs 0 offset ++ bytes ++ bs.drop (offset + bytes.length)

/-- One bit of the CRC-16: polynomial 0x1021, most significant bit first (R161). -/
def crc16Bit (c : BitVec 16) : BitVec 16 :=
  if c.msb then (c <<< 1) ^^^ 0x1021#16 else c <<< 1

/-- One byte into the CRC-16. -/
def crc16Byte (c : BitVec 16) (b : Byte) : BitVec 16 :=
  let x := c ^^^ (b.setWidth 16 <<< 8)
  crc16Bit (crc16Bit (crc16Bit (crc16Bit (crc16Bit (crc16Bit (crc16Bit (crc16Bit x)))))))

/-- The CRC-16 of R161: initial value 0xFFFF, no reflection, no final exclusive-or. -/
def crc16 (bs : List Byte) : BitVec 16 := bs.foldl crc16Byte 0xFFFF#16

/-- The initial value of the CRC-32 (R68). -/
def crc32Init : BitVec 32 := 0xFFFFFFFF#32

/-- One bit of the CRC-32: polynomial 0x04C11DB7 in reflected form (R68). -/
def crc32Bit (c : BitVec 32) : BitVec 32 :=
  if c.getLsbD 0 then (c >>> 1) ^^^ 0xEDB88320#32 else c >>> 1

/-- One byte into the running CRC-32. -/
def crc32Byte (c : BitVec 32) (b : Byte) : BitVec 32 :=
  let x := c ^^^ b.setWidth 32
  crc32Bit (crc32Bit (crc32Bit (crc32Bit (crc32Bit (crc32Bit (crc32Bit (crc32Bit x)))))))

/-- Bytes fed into a running CRC-32 (R68). -/
def crc32Feed (c : BitVec 32) (bs : List Byte) : BitVec 32 := bs.foldl crc32Byte c

/-- The final exclusive-or of the CRC-32 (R68). -/
def crc32Final (c : BitVec 32) : BitVec 32 := c ^^^ 0xFFFFFFFF#32

/-- The CRC-32 of R68 over a list of bytes. -/
def crc32 (bs : List Byte) : BitVec 32 := crc32Final (crc32Feed crc32Init bs)

/-- `a / b` rounded up, for `b > 0`. -/
def ceilDiv (a b : Nat) : Nat := (a + b - 1) / b

end Sys2Proof.Machine
end

