-- ==== Sys2Proof/Machine/Ops.lean ====
section
/-! DEFINITION. The named operations on the device's parts: per-domain access, the clock, the flash array, the block
table, the directory and the staging buffer. -/
namespace Sys2Proof.Machine

/-! ### Two domains -/

/-- The part of a domain. -/
def Two.get {α : Type} (t : Two α) : Dom → α
  | .a => t.a
  | .b => t.b

/-- The part of a domain replaced. -/
def Two.set {α : Type} (t : Two α) (d : Dom) (x : α) : Two α :=
  match d with
  | .a => { t with a := x }
  | .b => { t with b := x }

/-- The domain that is not `d`. -/
def otherDom : Dom → Dom
  | .a => .b
  | .b => .a

/-- A domain's number in layouts (00 Table 0-1). -/
def domByte : Dom → Byte
  | .a => 0
  | .b => 1

/-- The levels of a domain among the sampled inputs. -/
def levelsOf (lv : Levels) : Dom → PinLevels
  | .a => lv.a
  | .b => lv.b

def State.domain (s : State) (d : Dom) : Domain := s.domains.get d
def State.setDomain (s : State) (d : Dom) (x : Domain) : State := { s with domains := s.domains.set d x }
def State.plan (s : State) (d : Dom) : Plan := s.plans.get d
def State.setPlan (s : State) (d : Dom) (x : Plan) : State := { s with plans := s.plans.set d x }
def State.link (s : State) (d : Dom) : Link := s.links.get d
def State.setLink (s : State) (d : Dom) (x : Link) : State := { s with links := s.links.set d x }
def State.journal (s : State) (d : Dom) : Journal := s.journals.get d
def State.setJournal (s : State) (d : Dom) (x : Journal) : State := { s with journals := s.journals.set d x }
def State.admission (s : State) (d : Dom) : Option Admission := s.admissions.get d
def State.setAdmission (s : State) (d : Dom) (x : Option Admission) : State :=
  { s with admissions := s.admissions.set d x }
def State.work (s : State) (d : Dom) : Work := s.works.get d
def State.setWork (s : State) (d : Dom) (x : Work) : State := { s with works := s.works.set d x }
def State.channel (s : State) (c : Fin 4) : Channel := s.channels[c]
def State.setChannel (s : State) (c : Fin 4) (x : Channel) : State := { s with channels := s.channels.set c x }
def State.settings (s : State) (d : Dom) : Settings := s.config.settings.get d

/-- The record of a port. -/
def State.port (s : State) : PortId → Port
  | .service => s.servicePort
  | .platform d => s.platformPorts.get d

/-- The record of a port replaced. -/
def State.setPort (s : State) (p : PortId) (x : Port) : State :=
  match p with
  | .service => { s with servicePort := x }
  | .platform d => { s with platformPorts := s.platformPorts.set d x }

/-! ### The clock (00 section 5.3) -/

/-- A duration in milliseconds as a difference of part times. -/
def ms (n : Nat) : Time := BitVec.ofNat 32 n

/-- The part time carried to an expiry that it has not reached (log 2); intervals are meaningful up to 2^31 ms. -/
def State.reach (s : State) (t : Time) : State :=
  if (t - s.partTime).toNat < 2 ^ 31 then { s with partTime := t } else s

/-- The milliseconds since a part time, as the wrapping difference. -/
def State.since (s : State) (t : Time) : Nat := (s.partTime - t).toNat

/-! ### The flash array (R143) -/

/-- What a page of the array holds; absent is erased. -/
def Flash.page (f : Flash) (at_ : Nat) : Option ArrayPage :=
  match f with
  | [] => none
  | (k, p) :: rest => if k = at_ then some p else Flash.page rest at_

/-- A page of the array set, keeping the addresses rising. -/
def Flash.put (f : Flash) (at_ : Nat) (p : ArrayPage) : Flash :=
  match f with
  | [] => [(at_, p)]
  | (k, q) :: rest =>
    if at_ < k then (at_, p) :: (k, q) :: rest
    else if at_ = k then (at_, p) :: rest
    else (k, q) :: Flash.put rest at_ p

/-- Every page of a block erased (R145). -/
def Flash.eraseBlock (f : Flash) (block : Nat) : Flash :=
  f.filter fun e => e.1 / Config.blockPages ≠ block

/-- Every page of a block that holds something reads unreadable (R150). -/
def Flash.spoilBlock (f : Flash) (block : Nat) : Flash :=
  (List.range Config.blockPages).foldl (fun g i => g.put (block * Config.blockPages + i) .unreadable) f

/-- Whether page i of a block whose erase was cut reads erased, by free values; one page at least does not (R150; log
11). -/
def cutKeepsErased (seed i : Nat) : Bool :=
  Config.cutPageErased (seed + i) && i != (Config.cutPageSpoiled seed).val

/-- The pages of a block after its erase was cut: each erased or unreadable, and one at least unreadable (R143, R150). -/
def Flash.cutErase (f : Flash) (block seed : Nat) : Flash :=
  (List.range Config.blockPages).foldl
    (fun g i => if cutKeepsErased seed i then g else g.put (block * Config.blockPages + i) .unreadable)
    (f.eraseBlock block)

/-- Whether a page's bytes are held in their one form: no trailing 0x00. -/
def ArrayPage.trimmed : ArrayPage → Bool
  | .programmed _ data => data == trimZeros data
  | .unreadable => true

/-- The canonical form of the array: addresses strictly rising, and every page's bytes in their one form.  An erased
page has no entry, since `ArrayPage` has no erased case. -/
def Flash.wf (f : Flash) : Bool :=
  decide (f.Pairwise fun x y => x.1 < y.1) && f.all fun e => e.2.trimmed

/-! ### The block table (R144) -/

/-- A block that is ERASED and in the pool. -/
def Block.pooled : Block := { state := .erased, owner := none, nextPage := 0 }

/-- The table entry of a block; an unlisted block is ERASED in the pool. -/
def Store.block (st : Store) (b : Nat) : Block :=
  match st.blocks.find? (fun e => e.1 == b) with
  | some e => e.2
  | none => Block.pooled

/-- An entry put into a table, keeping the block numbers rising and listing no pooled block. -/
def putBlock (t : List (Nat × Block)) (b : Nat) (x : Block) : List (Nat × Block) :=
  match t with
  | [] => if x = Block.pooled then [] else [(b, x)]
  | (k, y) :: rest =>
    if b < k then (if x = Block.pooled then (k, y) :: rest else (b, x) :: (k, y) :: rest)
    else if b = k then (if x = Block.pooled then rest else (b, x) :: rest)
    else (k, y) :: putBlock rest b x

def Store.setBlock (st : Store) (b : Nat) (x : Block) : Store := { st with blocks := putBlock st.blocks b x }

/-- A block's state replaced, its owner and next page kept. -/
def Store.setBlockState (st : Store) (b : Nat) (x : BlockState) : Store :=
  st.setBlock b { st.block b with state := x }

/-! ### Store records (R147) -/

/-- The store record of a dump. -/
def Store.record (st : Store) (n : Num) : Option StoreRecord := st.records.find? fun r => r.dump == n

/-- The store record of a dump changed. -/
def Store.updRecord (st : Store) (n : Num) (f : StoreRecord → StoreRecord) : Store :=
  { st with records := st.records.map fun r => if r.dump = n then f r else r }

/-- The dump's open-block remainder (R149); 0 without a record. -/
def Store.remainder (st : Store) (n : Num) : Nat :=
  match st.record n with
  | some r => r.remainder
  | none => 0

/-- The dump's programmed pages (R147); 0 without a record. -/
def Store.programmed (st : Store) (n : Num) : Nat :=
  match st.record n with
  | some r => r.programmed
  | none => 0

/-- Where a page of a dump lies (R154), by its dump's page map. -/
def Store.locate (st : Store) (k : PageKey) : Option Nat :=
  match st.record k.dump with
  | none => none
  | some r => (r.pageMap.find? fun e => e.1 == k).map (·.2)

/-- Whether a dump is in a relocation wait (R152). -/
def Store.isWaiting (st : Store) (n : Num) : Bool := st.waits.any fun w => w.dump == n

/-- The key of data page `seq` of a section. -/
def dataKey (n : Num) (index seq : Nat) : PageKey := { dump := n, kind := .data, index := index, seq := seq }

/-- The count of a section's data pages programmed without a gap from sequence 1, looking at most `bound` pages up. -/
def Store.gapless (st : Store) (n : Num) (index bound : Nat) : Nat :=
  let mapped := match st.record n with
    | some r => r.pageMap.length
    | none => 0
  ((List.range (min bound mapped)).takeWhile fun i => (st.locate (dataKey n index (i + 1))).isSome).length

/-! ### The directory -/

/-- The directory entry of a dump (R121). -/
def State.dump (s : State) (n : Num) : Option DumpEntry := s.directory.entries.find? fun e => e.number == n

/-- The directory entry of a dump changed. -/
def State.updDump (s : State) (n : Num) (f : DumpEntry → DumpEntry) : State :=
  { s with directory := { s.directory with
      entries := s.directory.entries.map fun e => if e.number = n then f e else e } }

/-- A dump's section record. -/
def DumpEntry.sect (e : DumpEntry) (i : Nat) : Option SectionRecord := e.sections[i]?

/-- A section record of a dump changed. -/
def State.updSection (s : State) (n : Num) (i : Nat) (f : SectionRecord → SectionRecord) : State :=
  s.updDump n fun e => { e with sections := e.sections.modify i f }

/-- The section record of a dump, by index. -/
def State.sect (s : State) (n : Num) (i : Nat) : Option SectionRecord :=
  match s.dump n with
  | some e => e.sect i
  | none => none

/-- The open dump of a domain (R2). -/
def State.openEntry (s : State) (d : Dom) : Option DumpEntry :=
  match (s.domain d).openDump with
  | some n => s.dump n
  | none => none

/-! ### The staging buffer (R64) -/

/-- Free staging pages. -/
def Staging.free (b : Staging) : Nat := Config.stagingPages - b.pages.length

/-- Staging pages held by a holder (R57, R110, R131). -/
def Staging.heldBy (b : Staging) (h : Holder) : Nat := (b.pages.filter fun p => p.holder == h).length

/-- The staging page that is to become a page of a dump. -/
def Staging.find (b : Staging) (k : PageKey) : Option StagingPage := b.pages.find? fun p => p.key == k

/-- A staging page's bytes changed. -/
def Staging.updData (b : Staging) (k : PageKey) (f : List Byte → List Byte) : Staging :=
  { b with pages := b.pages.map fun p => if p.key = k then { p with data := f p.data } else p }

/-- A staging page freed. -/
def Staging.freePage (b : Staging) (k : PageKey) : Staging :=
  { b with pages := b.pages.filter fun p => p.key ≠ k }

/-- A request for staging pages joins the end of the waiting requests. -/
def State.askPages (s : State) (h : Holder) (keys : List PageKey) : State :=
  { s with staging := { s.staging with requests := s.staging.requests ++ [{ holder := h, keys := keys }] } }

/-- A holder's waiting requests withdrawn (R76; log 67). -/
def State.withdrawPages (s : State) (h : Holder) : State :=
  { s with staging := { s.staging with requests := s.staging.requests.filter fun r => r.holder ≠ h } }

/-- Whether a holder has a request waiting. -/
def Staging.asks (b : Staging) (h : Holder) : Bool := b.requests.any fun r => r.holder == h

/-- A page passes to the end of the program queue (R146). -/
def State.passPage (s : State) (k : PageKey) : State :=
  { s with store := { s.store with programs := s.store.programs ++ [.page k] } }

/-- A free value is drawn: the index it was drawn at, and the next index. -/
def State.drawn (s : State) (n : Nat) : State := { s with freeCount := s.freeCount + n }

end Sys2Proof.Machine
end

