-- ==== Sys2Proof/Machine/Layout.lean ====
section
/-! DEFINITION. The layouts of chapter 9 section 9.12 and of Table 10-1: codes, records, pages and images as bytes, and
the reading back of the pages the start-up scan finds. -/
namespace Sys2Proof.Machine

/-! ### Codes (Table 9-12) -/

def DomainState.code : DomainState → Nat
  | .disarmed => 0 | .armed => 1 | .triggered => 2 | .harvesting => 3 | .closing => 4 | .settled => 5
def TriggerCause.code : TriggerCause → Nat
  | .fatalLine => 1 | .crashNotice => 2 | .hang => 3 | .manual => 4
def Mode.code : Mode → Nat
  | .wide => 0 | .narrow => 1 | .single => 2
def SectionState.code : SectionState → Nat
  | .pending => 0 | .skipped => 1 | .active => 2 | .done => 3 | .partly => 4 | .lost => 5
def SectionCause.code : SectionCause → Nat
  | .budgetSpace => 1 | .budgetTime => 2 | .unreachable => 3 | .aborted => 4 | .holdExpired => 5
  | .holdReleased => 6 | .powerLost => 7 | .linkLost => 8 | .partReset => 9
def EndCause.code : EndCause → Nat
  | .complete => 1 | .aborted => 4 | .holdExpired => 5 | .holdReleased => 6 | .powerLost => 7 | .linkLost => 8
def FailureCause.code : FailureCause → Nat
  | .noDirectory => 1 | .noSpace => 2 | .noNumber => 3
def DumpState.code : DumpState → Nat
  | .opened => 0 | .closed => 1 | .incomplete => 2
def HoleCause.code : HoleCause → Nat
  | .noClaim => 1 | .stall => 2 | .targetAbort => 3 | .parity => 4
def ReleaseReason.code : ReleaseReason → Nat
  | .expired => 1 | .released => 2 | .closed => 3
def LinkState.code : LinkState → Nat
  | .down => 0 | .training => 1 | .up => 2
def SectionKind.code : SectionKind → Nat
  | .latch => 0 | .journalPre => 1 | .journalPost => 2 | .region => 3
def PageKind.code : PageKind → Nat
  | .dumpHeader => 1 | .sectionHeader => 2 | .data => 3 | .manifest => 4 | .retiredMark => 5

/-- The code of an absent field is 0 (log 20). -/
def codeOr {α : Type} (f : α → Nat) : Option α → Nat
  | some x => f x
  | none => 0

def modeOfCode : Nat → Mode
  | 0 => .wide
  | 1 => .narrow
  | _ => .single
def stateOfCode : Nat → SectionState
  | 0 => .pending
  | 1 => .skipped
  | 2 => .active
  | 3 => .done
  | 4 => .partly
  | _ => .lost
def causeOfCode : Nat → Option SectionCause
  | 1 => some .budgetSpace
  | 2 => some .budgetTime
  | 3 => some .unreachable
  | 4 => some .aborted
  | 5 => some .holdExpired
  | 6 => some .holdReleased
  | 7 => some .powerLost
  | 8 => some .linkLost
  | 9 => some .partReset
  | _ => none
def endOfCode : Nat → Option EndCause
  | 1 => some .complete
  | 4 => some .aborted
  | 5 => some .holdExpired
  | 6 => some .holdReleased
  | 7 => some .powerLost
  | 8 => some .linkLost
  | _ => none
def triggerOfCode : Nat → TriggerCause
  | 1 => .fatalLine
  | 2 => .crashNotice
  | 3 => .hang
  | _ => .manual
def holeOfCode : Nat → HoleCause
  | 1 => .noClaim
  | 2 => .stall
  | 3 => .targetAbort
  | _ => .parity
def kindOfCode : Nat → SectionKind
  | 0 => .latch
  | 1 => .journalPre
  | 2 => .journalPost
  | _ => .region

/-! ### Records -/

/-- An event record, 64 bytes (Table 9-8). -/
def EventRecord.bytes (r : EventRecord) : List Byte :=
  padTo 64 (le 4 r.sequence.toNat ++ le 4 r.time.toNat ++ le 1 r.origin ++ [r.eventClass] ++ le 1 r.severity
    ++ le 1 r.payload.length ++ [flagByte r.checkBad] ++ [0, 0, 0] ++ r.payload)

/-- Whether a slot is fresh at a part time under a freshness window in ms (R116). -/
def Slot.fresh (x : Slot) (now : Time) (window : Nat) : Bool :=
  match x.record with
  | some r => !x.aged && decide ((now - r.time).toNat ≤ window)
  | none => false

/-- A latch slot entry, 64 bytes (Table 9-9). -/
def Slot.bytes (x : Slot) (now : Time) (window : Nat) : List Byte :=
  let flags := flagBits [x.keepBad, x.record.isSome, x.fresh now window, x.received, x.checkError, x.aged]
  match x.record with
  | some r =>
    padTo 64 ([x.slotClass] ++ le 1 flags ++ le 4 (now - r.time).toNat ++ le 4 r.sequence.toNat
      ++ le 4 r.time.toNat ++ le 1 (r.origin % 16 + 16 * (r.severity % 4)) ++ le 1 r.payload.length ++ r.payload)
  | none => padTo 64 ([x.slotClass] ++ le 1 flags)

/-- The LATCH data page: 16 slots of 256 bytes in slot order (R119, Table 9-11). -/
def latchPage (slots : Vector Slot 16) (now : Time) (window : Nat) : List Byte :=
  slots.toList.flatMap fun x => padTo 256 (x.bytes now window)

/-- A section record, 64 bytes (Table 9-10), its flags bits 0 to 4 in the table's order (log 30); the CRC is present when
`showCrc` and the record has one. -/
def SectionRecord.bytes (x : SectionRecord) (showCrc : Bool) : List Byte :=
  let crc := if showCrc then x.crc else none
  padTo 64 (le 1 x.index ++ le 1 x.kind.code ++ le 1 x.state.code ++ le 1 (codeOr SectionCause.code x.cause)
    ++ le 1 (flagBits [x.truncated, x.atomic, x.holeOverflow, x.startTime.isSome, crc.isSome]) ++ [x.label]
    ++ le 2 x.tag.toNat ++ le 8 x.base ++ le 8 x.planned ++ le 8 x.floor ++ le 8 x.admitted ++ le 8 x.written
    ++ le 4 (codeOr BitVec.toNat x.startTime) ++ le 1 (codeOr Mode.code x.linkMode) ++ le 1 x.holes.length
    ++ [0, 0] ++ le 4 (codeOr BitVec.toNat crc))

/-- A section record with the fields the dump header page plans it with (R127): nothing decided after the opening. -/
def SectionRecord.plannedOnly (x : SectionRecord) : SectionRecord :=
  { x with state := .pending, cause := none, admitted := 0, truncated := false, written := 0, startTime := none
           linkMode := none, holes := [], holeOverflow := false, crc := none }

/-- A section record read back from its 64 bytes (Table 9-10), with no holes and a delivery mark of 0. -/
def SectionRecord.ofBytes (bs : List Byte) : SectionRecord :=
  let flags : Byte := BitVec.ofNat 8 (field bs 4 1)
  let kind := kindOfCode (field bs 1 1)
  let started := bitSet flags 3
  { index := field bs 0 1
    kind := kind
    state := stateOfCode (field bs 2 1)
    cause := causeOfCode (field bs 3 1)
    tag := BitVec.ofNat 16 (field bs 6 2)
    base := field bs 8 8
    label := BitVec.ofNat 8 (field bs 5 1)
    atomic := bitSet flags 1
    planned := field bs 16 8
    floor := field bs 24 8
    admitted := field bs 32 8
    truncated := bitSet flags 0
    written := field bs 40 8
    startTime := if started then some (BitVec.ofNat 32 (field bs 48 4)) else none
    linkMode := if started && kind == .region then some (modeOfCode (field bs 52 1)) else none
    holes := []
    holeOverflow := bitSet flags 2
    crc := if bitSet flags 4 then some (BitVec.ofNat 32 (field bs 56 4)) else none
    delivered := 0 }

/-- A hole entry, 16 bytes: offset 6, length 6, cause 1. -/
def Hole.bytes (h : Hole) : List Byte := padTo 16 (le 6 h.offset ++ le 6 h.length ++ le 1 h.cause.code)

def Hole.ofBytes (bs : List Byte) : Hole :=
  { offset := field bs 0 6, length := field bs 6 6, cause := holeOfCode (field bs 12 1) }

/-- A trigger entry, 12 bytes: cause 1, time 4, crash code 4. -/
def TriggerEntry.bytes (t : TriggerEntry) : List Byte :=
  padTo 12 (le 1 t.cause.code ++ le 4 t.time.toNat ++ le 4 (codeOr BitVec.toNat t.code))

def TriggerEntry.ofBytes (bs : List Byte) : TriggerEntry :=
  let cause := triggerOfCode (field bs 0 1)
  { cause := cause
    time := BitVec.ofNat 32 (field bs 1 4)
    code := if cause = .crashNotice then some (BitVec.ofNat 32 (field bs 5 4)) else none }

/-- A link history entry, 8 bytes: mode 1, time 4. -/
def HistoryEntry.bytes (h : HistoryEntry) : List Byte := padTo 8 (le 1 h.mode.code ++ le 4 h.time.toNat)

def HistoryEntry.ofBytes (bs : List Byte) : HistoryEntry :=
  { mode := modeOfCode (field bs 0 1), time := BitVec.ofNat 32 (field bs 1 4) }

/-- The five domain counters, 10 bytes, in the order of Table 9-16. -/
def DomainCounters.bytes (c : DomainCounters) : List Byte :=
  le 2 c.missed.toNat ++ le 2 c.late.toNat ++ le 2 c.overflow.toNat ++ le 2 c.heldResets.toNat
    ++ le 2 c.heartbeats.toNat

def DomainCounters.ofBytes (bs : List Byte) : DomainCounters :=
  { missed := BitVec.ofNat 16 (field bs 0 2), late := BitVec.ofNat 16 (field bs 2 2)
    overflow := BitVec.ofNat 16 (field bs 4 2), heldResets := BitVec.ofNat 16 (field bs 6 2)
    heartbeats := BitVec.ofNat 16 (field bs 8 2) }

/-- A domain's five counters as they stand (R22). -/
def Domain.counters (x : Domain) : DomainCounters :=
  { missed := x.missed, late := x.late, overflow := x.overflow, heldResets := x.heldResets
    heartbeats := x.heartbeats }

/-- The dump block, 48 bytes (Table 9-13). -/
def DumpEntry.block (e : DumpEntry) : List Byte :=
  padTo 48 (le 4 e.number.toNat ++ [domByte e.domain] ++ le 1 e.state.code ++ le 1 (codeOr EndCause.code e.endCause)
    ++ le 1 e.modeAtOpening.code ++ le 4 e.triggerTime.toNat ++ le 4 (codeOr BitVec.toNat e.closeTime)
    ++ le 4 e.holdWindow ++ le 2 (codeOr BitVec.toNat e.planGeneration)
    ++ le 1 (flagBits [e.holdEnable, e.wallTime.isSome, e.planGeneration.isSome, e.closeTime.isSome,
        e.countersAtClose.isSome, e.preDrops.isSome, e.manifestCheck.isSome])
    ++ le 1 e.sections.length ++ le 1 e.triggers.length ++ le 1 e.history.length ++ [e.historyOverflow] ++ [0]
    ++ le 8 (codeOr (fun w => w.wall.toNat) e.wallTime) ++ le 4 (codeOr (fun w => w.arrival.toNat) e.wallTime)
    ++ le 4 (codeOr BitVec.toNat e.manifestCheck))

/-- The journal counts, 12 bytes: pre-copy drops, post-lost, post-overflow, 0 where absent. -/
def DumpEntry.journalCounts (e : DumpEntry) : List Byte :=
  le 4 (codeOr BitVec.toNat e.preDrops) ++ le 4 (codeOr (fun c => c.1.toNat) e.postCounts)
    ++ le 4 (codeOr (fun c => c.2.toNat) e.postCounts)

/-- A dump entry read back from a dump block, with empty lists. -/
def DumpEntry.ofBlock (bs : List Byte) : DumpEntry :=
  let flags : Byte := BitVec.ofNat 8 (field bs 22 1)
  { number := BitVec.ofNat 32 (field bs 0 4)
    domain := if field bs 4 1 = 0 then .a else .b
    state := .incomplete
    triggers := []
    triggerTime := BitVec.ofNat 32 (field bs 8 4)
    closeTime := if bitSet flags 3 then some (BitVec.ofNat 32 (field bs 12 4)) else none
    endCause := endOfCode (field bs 6 1)
    planGeneration := if bitSet flags 2 then some (BitVec.ofNat 16 (field bs 20 2)) else none
    wallTime := if bitSet flags 1
      then some { wall := BitVec.ofNat 64 (field bs 28 8), arrival := BitVec.ofNat 32 (field bs 36 4) } else none
    holdWindow := field bs 16 4
    holdEnable := bitSet flags 0
    modeAtOpening := modeOfCode (field bs 7 1)
    history := []
    historyOverflow := BitVec.ofNat 8 (field bs 26 1)
    preDrops := none
    postCounts := none
    countersAtClose := none
    sections := []
    manifestCheck := none
    isProtected := false
    fetched := false }

/-- The opening trigger's entry, as bytes; a dump always has one. -/
def DumpEntry.firstTrigger (e : DumpEntry) : List Byte :=
  match e.triggers with
  | t :: _ => t.bytes
  | [] => padTo 12 []

/-- The dump as it stood at its opening (R127): without plan generation, end cause, later triggers or history. -/
def DumpEntry.atOpening (e : DumpEntry) : DumpEntry :=
  { e with state := .opened, closeTime := none, endCause := none, planGeneration := none
           triggers := e.triggers.take 1, history := [], historyOverflow := 0, preDrops := none, postCounts := none
           countersAtClose := none, manifestCheck := none }

/-- The dump header page (R127, Table 9-11): the dump block of the opening, the opening trigger entry, and one
section record per section with its planned fields. -/
def DumpEntry.headerPage (e : DumpEntry) : List Byte :=
  e.atOpening.block ++ e.firstTrigger ++ e.sections.flatMap fun x => x.plannedOnly.bytes false

/-- A section header page (R61, Table 9-11): dump number 4, section index 1, kind 1, and at 16 the section record as
at its start. -/
def sectionHeaderPage (n : Num) (x : SectionRecord) : List Byte :=
  padTo 16 (le 4 n.toNat ++ le 1 x.index ++ le 1 x.kind.code) ++ x.bytes false

/-- A journal section's header page (R110, R111, Table 9-11): as any section header page, and at 80 the mark, first
sequence, record count, post end, post-lost and post-overflow. -/
def journalHeaderPage (n : Num) (x : SectionRecord) (c : Copy) : List Byte :=
  sectionHeaderPage n x ++ le 4 c.mark.toNat ++ le 4 c.first.toNat ++ le 4 c.count ++ le 4 c.postEnd.toNat
    ++ le 4 c.postLost.toNat ++ le 4 c.postOverflow.toNat

/-- The manifest's content after its length field, in the order of R130 and Table 9-11. -/
def DumpEntry.manifestBody (e : DumpEntry) : List Byte :=
  e.block ++ e.triggers.flatMap TriggerEntry.bytes
    ++ e.sections.flatMap (fun x => x.bytes true ++ x.holes.flatMap Hole.bytes)
    ++ e.history.flatMap HistoryEntry.bytes
    ++ (match e.countersAtClose with
        | some c => c.bytes
        | none => padTo 10 [])
    ++ e.journalCounts

/-- The manifest content with its own length in bytes in front (R131; log 25). -/
def DumpEntry.manifestContent (e : DumpEntry) : List Byte :=
  let body := e.manifestBody
  le 4 (body.length + 4) ++ body

/-- The manifest check: the CRC-32 of the content (R131). -/
def DumpEntry.checkOfManifest (e : DumpEntry) : BitVec 32 := crc32 e.manifestContent

/-- The manifest as its pages hold it: the content, then the check, then 0x00 (R131). -/
def DumpEntry.manifestBytes (e : DumpEntry) : List Byte :=
  e.manifestContent ++ le 4 e.checkOfManifest.toNat

/-! ### Reading a manifest back (R135) -/

/-- `n` records of `size` bytes, and the bytes after them. -/
def readMany {α : Type} (f : List Byte → α) (size : Nat) : Nat → List Byte → List α × List Byte
  | 0, bs => ([], bs)
  | n + 1, bs =>
    let r := readMany f size n (bs.drop size)
    (f (slice bs 0 size) :: r.1, r.2)

/-- `n` section records of 64 bytes, each followed by its hole entries. -/
def readSections : Nat → List Byte → List SectionRecord × List Byte
  | 0, bs => ([], bs)
  | n + 1, bs =>
    let one := SectionRecord.ofBytes (slice bs 0 64)
    let holes := readMany Hole.ofBytes 16 (field bs 53 1) (bs.drop 64)
    let r := readSections n holes.2
    ({ one with holes := holes.1 } :: r.1, r.2)

/-- A CLOSED dump's entry read from its manifest bytes (R135): protected and fetched clear, delivery marks 0. -/
def DumpEntry.ofManifest (bs : List Byte) (check : BitVec 32) : DumpEntry :=
  let block := slice bs 4 48
  let e := DumpEntry.ofBlock block
  let flags : Byte := BitVec.ofNat 8 (field block 22 1)
  let triggers := readMany TriggerEntry.ofBytes 12 (field block 24 1) (bs.drop 52)
  let sections := readSections (field block 23 1) triggers.2
  let history := readMany HistoryEntry.ofBytes 8 (field block 25 1) sections.2
  let rest := history.2
  { e with
    state := .closed
    triggers := triggers.1
    sections := sections.1
    history := history.1
    countersAtClose := if bitSet flags 4 then some (DomainCounters.ofBytes rest) else none
    preDrops := if bitSet flags 5 then some (BitVec.ofNat 32 (field rest 10 4)) else none
    postCounts := if bitSet flags 5
      then some (BitVec.ofNat 32 (field rest 14 4), BitVec.ofNat 32 (field rest 18 4)) else none
    manifestCheck := some check }

/-! ### Other layouts -/

/-- A plan entry, 32 bytes (Table 9-14). -/
def PlanEntry.bytes (x : PlanEntry) (index : Nat) : List Byte :=
  padTo 32 (le 1 index ++ le 1 x.priority ++ le 2 x.tag.toNat ++ le 8 x.base ++ le 8 x.length ++ le 8 x.floor
    ++ [flagByte x.atomic] ++ [x.label])

/-- The first 16 bytes of a spare area: dump number 4, page kind 1, section index 1, page sequence 4 and the check,
the CRC-16 over those 10 bytes (Table 9-11). -/
def PageKey.spareBytes (k : PageKey) : List Byte :=
  let head := le 4 k.dump.toNat ++ le 1 k.kind.code ++ le 1 k.index ++ le 4 k.seq
  padTo 16 (head ++ le 2 (crc16 head).toNat)

/-- The bytes of a frame on the line (R161): sync, body length, kind, tag, domain, body and CRC-16. -/
def Frame.lineBytes (f : Frame) : List Byte :=
  let covered := le 2 f.body.length ++ [f.kind, f.tag, f.domain] ++ f.body
  [0x5E, 0xA1] ++ covered ++ le 2 (crc16 covered).toNat

/-- The settings that an image's bytes give (R175, Table 10-2): an on/off byte is off at 0 and on at any other value. -/
def StoredSettings.running (x : StoredSettings) : Settings :=
  { holdEnable := x.holdEnable != 0, holdWindow := x.holdWindow, heartbeatTimeout := x.heartbeatTimeout
    freshness := x.freshness, derate := x.derate, retry := x.retry, threshold := x.threshold, autoArm := x.autoArm != 0 }

/-- Settings as an image's bytes hold them: an on/off setting that is on is 1 (log 64). -/
def Settings.toStored (x : Settings) : StoredSettings :=
  { holdEnable := flagByte x.holdEnable, holdWindow := x.holdWindow, heartbeatTimeout := x.heartbeatTimeout
    freshness := x.freshness, derate := x.derate, retry := x.retry, threshold := x.threshold
    autoArm := flagByte x.autoArm }

/-- The slot programming that an image's bytes give (R175): keep-bad is clear at 0 and set at any other value. -/
def StoredSlot.program (x : StoredSlot) : SlotProgram := { slotClass := x.slotClass, keepBad := x.keepBad != 0 }

/-- A slot's programming as an image's bytes hold it: a keep-bad that is set is 1 (log 64). -/
def SlotProgram.toStored (x : SlotProgram) : StoredSlot := { slotClass := x.slotClass, keepBad := flagByte x.keepBad }

/-- The settings of both domains that an image gives, not yet clamped (R176). -/
def Image.settings (im : Image) : Two Settings := ⟨im.storedSettings.a.running, im.storedSettings.b.running⟩

/-- The slot programming of both domains that an image gives (R176). -/
def Image.slots (im : Image) : Two (List SlotProgram) :=
  ⟨im.storedSlots.a.map StoredSlot.program, im.storedSlots.b.map StoredSlot.program⟩

/-- A domain block of the configuration image, 48 bytes (Table 10-2, R175). -/
def blockBytes (x : StoredSettings) (slots : List StoredSlot) : List Byte :=
  padTo 16 ([x.holdEnable] ++ le 2 x.holdWindow ++ le 1 x.heartbeatTimeout ++ le 1 x.freshness
    ++ le 1 x.derate ++ le 1 x.retry ++ le 1 x.threshold ++ [x.autoArm])
    ++ padTo 32 (slots.flatMap fun p => [p.slotClass, p.keepBad])

/-- The domain block of running settings and slot programming (R177, R179). -/
def settingsBytes (x : Settings) (slots : List SlotProgram) : List Byte :=
  blockBytes x.toStored (slots.map SlotProgram.toStored)

/-- Retired entries, 32 of 6 bytes (Table 10-1). -/
def retiredBytes (l : List RetiredEntry) : List Byte :=
  padTo 192 (l.flatMap fun r => le 2 r.block ++ le 4 r.dump.toNat)

/-- The 2,048 bytes of a configuration image (R175, Table 10-1). -/
def Image.bytes (im : Image) : List Byte :=
  let rest := padTo 2046 (padTo 254 (le 2 1 ++ padTo 16 im.serial ++ padTo 32 im.asset ++ le 1 im.retired.length
      ++ [0, 0, 0] ++ retiredBytes im.retired)
    ++ blockBytes im.storedSettings.a im.storedSlots.a ++ blockBytes im.storedSettings.b im.storedSlots.b)
  le 2 (crc16 rest).toNat ++ rest

/-- A domain block's settings as read, not yet clamped (Table 10-2). -/
def readSettings (bs : List Byte) : StoredSettings :=
  { holdEnable := BitVec.ofNat 8 (field bs 0 1), holdWindow := field bs 1 2, heartbeatTimeout := field bs 3 1
    freshness := field bs 4 1, derate := field bs 5 1, retry := field bs 6 1, threshold := field bs 7 1
    autoArm := BitVec.ofNat 8 (field bs 8 1) }

/-- A domain block's 16 slot programmings (R175). -/
def readSlots (bs : List Byte) : List StoredSlot :=
  (readMany (fun x => { slotClass := BitVec.ofNat 8 (field x 0 1), keepBad := BitVec.ofNat 8 (field x 1 1) })
    2 16 (bs.drop 16)).1

/-- The image that a good 2,048 bytes hold, its fields as read; absent for a bad image (R175). -/
def Image.ofBytes (bs : List Byte) : Option Image :=
  if field bs 0 2 = (crc16 (slice bs 2 2046)).toNat ∧ field bs 2 2 = 1 ∧ field bs 52 1 ≤ Config.retiredMax then
    some {
      serial := slice bs 4 16
      asset := slice bs 20 32
      retired := (readMany (fun x => { block := field x 0 2, dump := BitVec.ofNat 32 (field x 2 4) })
        6 (field bs 52 1) (bs.drop 56)).1
      storedSettings := ⟨readSettings (slice bs 256 48), readSettings (slice bs 304 48)⟩
      storedSlots := ⟨readSlots (slice bs 256 48), readSlots (slice bs 304 48)⟩ }
  else none

end Sys2Proof.Machine
end

