-- ==== Sys2Proof/Machine/Flags.lean ====
section
/-! DEFINITION. Status bytes and flag words computed from the state: what IDENT, STATUS, LINK STATUS, READ and
CONFIG GET report as flags. -/
namespace Sys2Proof.Machine

/-- The part name, 16 characters (R174): "ISAROW HC-240" and three spaces. -/
def partName : List Byte :=
  [0x49, 0x53, 0x41, 0x52, 0x4F, 0x57, 0x20, 0x48, 0x43, 0x2D, 0x32, 0x34, 0x30, 0x20, 0x20, 0x20]

/-- IDENT's flags: config-fault, starting, attached (R174). -/
def State.identFlags (s : State) : Nat :=
  flagBits [s.config.fault, s.startUp != .finished, s.service.attached]

/-- The IDENT body, 70 bytes (R174). -/
def State.identBody (s : State) : List Byte :=
  partName ++ [0x01] ++ padTo 16 s.config.serial ++ padTo 32 s.config.asset ++ le 1 s.identFlags
    ++ le 4 s.partTime.toNat

/-- STATUS input levels: power-good, fatal-error, reset-request (Table 9-12). -/
def State.inputLevels (s : State) (d : Dom) : Nat :=
  flagBits [s.powerGood.get d, (s.domain d).fatalLevel, (s.domain d).resetRequestLevel]

/-- The time remaining on a timer: its expiry minus the part time, or 0 when stopped (R22). -/
def State.remaining (s : State) : Option Time → Nat
  | some t => (t - s.partTime).toNat
  | none => 0

/-- LINK STATUS flags: widen request, stayed-up, parity-seen, shifted, abort-seen (Table 9-15). -/
def Link.flags (l : Link) : Nat := flagBits [l.widen, l.stayedUp, l.paritySeen, l.shifted, l.abortSeen]

/-- What a LINK STATUS does to the sticky flags (R98): parity-seen, shifted and abort-seen clear; stayed-up is set if
the link is UP and left clear otherwise. -/
def Link.statusTaken (l : Link) : Link :=
  { l with paritySeen := false, shifted := false, abortSeen := false, stayedUp := l.state == .up }

/-- The seven link counters at 0 (R99). -/
def LinkCounters.zero : LinkCounters :=
  { readsIssued := 0, disconnects := 0, noClaims := 0, stalls := 0, targetAborts := 0, parityErrors := 0
    retrains := 0 }

/-- The seven link counters, 2 bytes each (Table 9-15). -/
def LinkCounters.bytes (c : LinkCounters) : List Byte :=
  le 2 c.readsIssued.toNat ++ le 2 c.disconnects.toNat ++ le 2 c.noClaims.toNat ++ le 2 c.stalls.toNat
    ++ le 2 c.targetAborts.toNat ++ le 2 c.parityErrors.toNat ++ le 2 c.retrains.toNat

/-- CONFIG GET flags: config-fault, save in flight, unsaved changes, in the order R177 lists them (log 30). -/
def State.configFlags (s : State) : Nat :=
  flagBits [s.config.fault, s.config.save.isSome, s.config.unsaved]

end Sys2Proof.Machine
end

