-- ==== Sys2Proof/Machine/Ports.lean ====
section
/-! DEFINITION. The ports' own operations (chapter 9): starting frames on the line, replies, notices and HOLD. -/
namespace Sys2Proof.Machine

/-- With the line free, a port starts its outgoing HOLD, else, while the peer does not hold it, its oldest queued
frame (R164 to R166; log 13: the frame leaves its queue as it starts). -/
def Port.advance (q : Port) : Port :=
  match q.line with
  | some _ => q
  | none =>
    match q.outgoingHold with
    | some n => { q with line := some (Frame.hold n), outgoingHold := none }
    | none =>
      match q.peerHold, q.output with
      | none, f :: fs => { q with line := some f, output := fs }
      | _, _ => q

/-- A port starts what it can; the Service Port starts nothing more once its RESTART reply has been sent (R163). -/
def State.advancePort (s : State) (p : PortId) : State :=
  if p = .service ∧ s.restart = .due then s else s.setPort p (s.port p).advance

/-- A HOLD becomes due on a port; one still waiting is replaced (R166). -/
def State.sendHold (s : State) (p : PortId) (n : BitVec 16) : State :=
  (s.setPort p { s.port p with outgoingHold := some n }).advancePort p

/-- The Service Port's pacing after a frame joined its input queue (R166). -/
def State.paceArrival (s : State) (p : PortId) : State :=
  match p with
  | .service =>
    if (s.port p).input.length = 3 ∧ s.service.holdOff = false then
      ({ s with service := { s.service with holdOff := true } }).sendHold p 0xFFFF
    else s
  | .platform _ => s

/-- The Service Port's pacing after a frame left its input queue (R166). -/
def State.paceDeparture (s : State) (p : PortId) : State :=
  match p with
  | .service =>
    if (s.port p).input.length = 1 ∧ s.service.holdOff = true then
      ({ s with service := { s.service with holdOff := false } }).sendHold p 0
    else s
  | .platform _ => s

/-- A request completes (R163): its reply takes its reserved place, or is discarded where a detach has removed the
place (R168), and its frame leaves the input queue. -/
def State.complete (s : State) (p : PortId) (reply : Frame) : State :=
  let q := s.port p
  let out := if q.reserved = 0 then q.output else q.output ++ [reply]
  ((s.setPort p { q with input := q.input.tail, processing := none, reserved := 0, output := out }).paceDeparture
    p).advancePort p

/-- Whether a frame of an output queue is a notice, and not a reply (R164). -/
def Frame.isNotice (f : Frame) : Bool := f.notice

/-- Whether a notice finds a place: fewer than 24 notices queued and, with the reserved place, fewer than 32 frames
(R164). -/
def Port.noticeFits (q : Port) : Bool :=
  decide ((q.output.filter Frame.isNotice).length < 24 ∧ q.output.length + q.reserved < 32)

/-- A notice of a kind, for a domain byte, with a body (R164): only while attached; it takes the notice tag, and is
queued or counted as lost. -/
def State.notice (s : State) (kind dom : Byte) (body : List Byte) : State :=
  if s.service.attached then
    let tag := s.service.noticeTag
    let s := { s with service := { s.service with noticeTag := tag + 1 } }
    let q := s.servicePort
    if q.noticeFits then
      (s.setPort .service
        { q with output := q.output ++ [{ kind := kind, tag := tag, domain := dom, body := body, notice := true }] }).advancePort
          .service
    else { s with service := { s.service with noticesLost := s.service.noticesLost.inc } }
  else s

/-- The TRIGGER notice of an opening that succeeded (R4, Table 9-17). -/
def State.noticeOpened (s : State) (d : Dom) (cause : TriggerCause) (n : Num) (generation : BitVec 16) : State :=
  s.notice 0xC0 (domByte d) (le 1 cause.code ++ le 1 1 ++ le 4 n.toNat ++ le 1 0 ++ le 2 generation.toNat
    ++ le 4 s.partTime.toNat)

/-- The TRIGGER notice of an opening that failed (R5, Table 9-17). -/
def State.noticeOpenFailed (s : State) (d : Dom) (cause : TriggerCause) (why : FailureCause) : State :=
  s.notice 0xC0 (domByte d) (le 1 cause.code ++ le 1 2 ++ le 4 0 ++ le 1 why.code ++ le 2 0
    ++ le 4 s.partTime.toNat)

/-- The SECTION_END notice of a section (R74, Table 9-17). -/
def State.noticeSectionEnd (s : State) (d : Dom) (n : Num) (x : SectionRecord) : State :=
  s.notice 0xC1 (domByte d) (le 4 n.toNat ++ le 1 x.index ++ le 2 x.tag.toNat ++ le 1 x.state.code
    ++ le 1 (codeOr SectionCause.code x.cause) ++ le 8 x.written ++ le 1 x.holes.length ++ [flagByte x.holeOverflow]
    ++ le 4 (codeOr BitVec.toNat x.crc))

/-- The DUMP_CLOSED notice (R132, Table 9-17). -/
def State.noticeDumpClosed (s : State) (d : Dom) (n : Num) (cause : Option EndCause) (check : BitVec 32)
    (pages : Nat) : State :=
  s.notice 0xC2 (domByte d) (le 4 n.toNat ++ le 1 (codeOr EndCause.code cause) ++ le 4 check.toNat ++ le 4 pages)

/-- The HOLD_RELEASED notice (R18, Table 9-17). -/
def State.noticeHoldReleased (s : State) (d : Dom) (reason : ReleaseReason) (n : Num) : State :=
  s.notice 0xC3 (domByte d) (le 1 reason.code ++ le 4 n.toNat)

/-- The LINK notice (R97, Table 9-17): kind 1 SHIFT or 2 LOST. -/
def State.noticeLink (s : State) (d : Dom) (kind : Nat) (before after : Mode) : State :=
  s.notice 0xC4 (domByte d) (le 1 kind ++ le 1 before.code ++ le 1 after.code ++ le 4 s.partTime.toNat
    ++ le 4 (codeOr BitVec.toNat (s.domain d).openDump))

/-- The VERIFY notice (R142, Table 9-17): result 1 MATCH, 2 MISMATCH, 3 NO_CHECK. -/
def State.noticeVerify (s : State) (n : Num) (which result : Nat) (recorded computed : BitVec 32) : State :=
  s.notice 0xC5 0xFF (le 4 n.toNat ++ le 1 which ++ le 1 result ++ le 4 recorded.toNat ++ le 4 computed.toNat)

/-- The IDENT notice (R168, R174). -/
def State.noticeIdent (s : State) : State := s.notice 0xC6 0xFF s.identBody

/-- The HOLD quantum of a port is 25/36 ms on the Service Port and 16/75 ms on a platform port (Table 9-4): `n` quanta
in whole milliseconds, rounded up (log 23). -/
def holdMs (p : PortId) (n : Nat) : Nat :=
  match p with
  | .service => ceilDiv (n * 25) 36
  | .platform _ => ceilDiv (n * 16) 75

end Sys2Proof.Machine
end

