-- ==== Sys2Proof/Machine/Journal.lean ====
section
/-! DEFINITION. The event journal and the latch slots (chapter 6): appends, latching, device records, the trigger mark
and the copy windows. -/
namespace Sys2Proof.Machine

/-! ### Latch slots (R114 to R117) -/

/-- A record offered to a slot (R115): a slot acts only on its own class, and on a check-bad record only with
keep-bad set. -/
def Slot.offer (x : Slot) (r : EventRecord) : Slot :=
  if x.slotClass = r.eventClass ∧ x.slotClass ≠ 0 then
    if r.checkBad = true ∧ x.keepBad = false then x
    else { x with record := some r, aging := some (r.time + ms Config.agingMs), aged := false, received := true
                  checkError := r.checkBad }
  else x

/-- A slot programmed anew, its contents cleared (R117). -/
def Slot.programmed (c : Byte) (keepBad : Bool) : Slot :=
  { slotClass := c, keepBad := keepBad, record := none, aging := none, aged := false, received := false
    checkError := false }

/-- A slot under a reloaded programming (R120): kept where unchanged, else cleared. -/
def Slot.reprogram (x : Slot) (p : SlotProgram) : Slot :=
  if x.slotClass = p.slotClass ∧ x.keepBad = p.keepBad then x else Slot.programmed p.slotClass p.keepBad

/-- The slot's programming. -/
def Slot.program (x : Slot) : SlotProgram := { slotClass := x.slotClass, keepBad := x.keepBad }

/-- Every slot under a loaded programming (R120), in slot order; a programming beyond the list is unassigned. -/
def Journal.reprogram (j : Journal) (ps : List SlotProgram) : Journal :=
  { j with slots := j.slots.mapIdx fun i x => x.reprogram (ps.getD i { slotClass := 0, keepBad := false }) }

/-- A record offered to all 16 slots in slot order (R115). -/
def Journal.offer (j : Journal) (r : EventRecord) : Journal :=
  { j with slots := j.slots.map fun x => x.offer r }

/-! ### The ring (R108) -/

/-- The sequence of the oldest record in the ring. -/
def Journal.oldest (j : Journal) : Option Num := j.ring.head?.map EventRecord.sequence

/-- The sequence of the newest record in the ring. -/
def Journal.newest (j : Journal) : Option Num := j.ring.getLast?.map EventRecord.sequence

/-- Whether a sequence lies in a copy's window and has not yet been copied (R108). -/
def Copy.needs (c : Copy) (q : Num) : Bool :=
  decide (c.first.toNat + c.copied ≤ q.toNat ∧ q.toNat < c.first.toNat + c.count)

/-- Whether a copy in flight still needs the oldest record of the ring (R108). -/
def Journal.oldestNeeded (j : Journal) : Bool :=
  match j.copier, j.oldest with
  | some c, some q => c.needs q
  | _, _ => false

/-- A record dropped at its append (R108): counted, counted for the copy in flight (R110), and still offered to the
slots, with sequence 0. -/
def Journal.drop (j : Journal) (r : EventRecord) : Journal :=
  let dropped := { j with dropped := j.dropped.inc, copier := j.copier.map fun c => { c with drops := c.drops + 1 } }
  Journal.offer dropped { r with sequence := 0 }

/-- One record appended (R108).  An exhausted journal keeps its records and drops the new one (log 36). -/
def Journal.append (j : Journal) (r : EventRecord) : Journal :=
  match j.nextSequence with
  | none => j.drop r
  | some q =>
    if Config.ringMax ≤ j.ring.length ∧ j.oldestNeeded = true then j.drop r
    else
      let full := decide (Config.ringMax ≤ j.ring.length)
      let placed := { r with sequence := q }
      let grown := { j with
        ring := (if full then j.ring.tail else j.ring) ++ [placed]
        overwrites := if full then j.overwrites.inc else j.overwrites
        nextSequence := if q = 0xFFFFFFFF#32 then none else some (q + 1) }
      grown.offer placed

/-- A device record appended to a domain's journal (R107): origin 15, check-bad clear, timed now. -/
def State.appendDevice (s : State) (d : Dom) (cls : Byte) (severity : Nat) (payload : List Byte) : State :=
  s.setJournal d ((s.journal d).append
    { sequence := 0, time := s.partTime, origin := 15, eventClass := cls, severity := severity
      payload := payload, checkBad := false })

/-- The TRIGGER record (Table 6-3): the crash code only for CRASH_NOTICE. -/
def State.recordTrigger (s : State) (d : Dom) (cause : TriggerCause) (code : Option (BitVec 32)) (n : Num) : State :=
  s.appendDevice d 0xF0 3 (le 1 cause.code ++ le 4 n.toNat
    ++ (match code with
        | some c => le 4 c.toNat
        | none => []))

/-- The LINK_SHIFT record (Table 6-3). -/
def State.recordLinkShift (s : State) (d : Dom) (before after : Mode) : State :=
  s.appendDevice d 0xF1 2 (le 1 before.code ++ le 1 after.code
    ++ le 4 (codeOr BitVec.toNat (s.domain d).openDump))

/-- The HOLD_RELEASE record (Table 6-3). -/
def State.recordHoldRelease (s : State) (d : Dom) (reason : ReleaseReason) (n : Num) : State :=
  s.appendDevice d 0xF2 1 (le 1 reason.code ++ le 4 n.toNat)

/-- The DUMP_CLOSED record (Table 6-3). -/
def State.recordDumpClosed (s : State) (d : Dom) (n : Num) (cause : Option EndCause) (check : BitVec 32) : State :=
  s.appendDevice d 0xF3 1 (le 4 n.toNat ++ le 1 (codeOr EndCause.code cause) ++ le 4 check.toNat)

/-- The DUMP_FAILED record (Table 6-3). -/
def State.recordDumpFailed (s : State) (d : Dom) (cause : TriggerCause) (why : FailureCause) : State :=
  s.appendDevice d 0xF4 3 (le 1 cause.code ++ le 1 why.code)

/-- The STORE_RETIRE record (Table 6-3). -/
def State.recordStoreRetire (s : State) (d : Dom) (block : Nat) (n : Num) (listFull : Bool) : State :=
  s.appendDevice d 0xF5 2 (le 2 block ++ le 4 n.toNat ++ [flagByte listFull])

/-! ### Copies (R109 to R111) -/

/-- The pre-copy at an opening (R109): the mark is the newest record, the window the newest min(n, 2,048) records. -/
def Journal.startPre (j : Journal) (n : Num) (now : Time) : Journal :=
  let mark := j.newest.getD 0
  let k := min j.ring.length Config.preMax
  { j with
    mark := some mark
    copier := some { kind := .pre, dump := n, first := mark - BitVec.ofNat 32 k + 1, count := k, copied := 0
                     headerPassed := false, drops := 0, crc := crc32Init, mark := mark, postEnd := 0, postLost := 0
                     postOverflow := 0, began := now } }

/-- The figures of a post-copy (R111): post end, post-lost, post-overflow, first sequence and record count. -/
structure PostFigures where
  postEnd : Num
  lost : Nat
  overflow : Nat
  first : Num
  count : Nat
deriving DecidableEq, Repr

/-- The post-copy's figures as the journal fixes them (R111).  The first sequence of a window of no record is the one
after the mark and the lost records all the same, 0 after a mark of 0xFFFFFFFF (log 60). -/
def Journal.postFigures (j : Journal) : PostFigures :=
  let mark := j.mark.getD 0
  let last := j.newest.getD mark
  let c := last.toNat - mark.toNat
  let lost := min c ((j.oldest.getD 0).toNat - (mark.toNat + 1))
  let count := min (c - lost) Config.postMax
  { postEnd := last, lost := lost, overflow := c - lost - count, first := BitVec.ofNat 32 (mark.toNat + 1 + lost)
    count := count }

/-- The post-copy at closing (R111). -/
def Journal.startPost (j : Journal) (n : Num) (now : Time) : Journal :=
  let p := j.postFigures
  { j with
    copier := some { kind := .post, dump := n, first := p.first, count := p.count, copied := 0
                     headerPassed := false, drops := 0, crc := crc32Init, mark := j.mark.getD 0
                     postEnd := p.postEnd, postLost := BitVec.ofNat 32 p.lost
                     postOverflow := BitVec.ofNat 32 p.overflow, began := now } }

/-- The section a copy fills (R110, R111). -/
def CopyKind.index : CopyKind → Nat
  | .pre => 1
  | .post => 2

/-- The up to 64 records a copy's next data page takes, in ascending sequence (R110). -/
def Journal.nextRecords (j : Journal) (c : Copy) : List EventRecord :=
  let start := c.first.toNat + c.copied - (j.oldest.getD 0).toNat
  (j.ring.drop start).take (min 64 (c.count - c.copied))

end Sys2Proof.Machine
end

