-- ==== Sys2Proof/Machine/Admission.lean ====
section
/-! DEFINITION. Admission and the harvest budget (chapter 3): reservations and claims, the cost functions, the walk of a
pass, first passes and re-plans. -/
namespace Sys2Proof.Machine

/-! ### Reservations, claims and the pool (R41, R46, R47, R149) -/

/-- All shares of an admission record (R41). -/
def Admission.total (a : Admission) : Nat := a.headerShare + a.manifestShare + a.shares.sum

/-- A dump's reservation: all shares less the pages programmed (R41). -/
def State.reservationOf (s : State) (a : Admission) : Nat := a.total - s.store.programmed a.dump

/-- The reservation of a domain's open dump; 0 without one. -/
def State.reservation (s : State) (d : Dom) : Nat :=
  match s.admission d with
  | some a => s.reservationOf a
  | none => 0

/-- Rounded up to whole blocks. -/
def roundBlocks (n : Nat) : Nat := ceilDiv n Config.blockPages * Config.blockPages

/-- The claim of a domain's open dump on the pool (R46); 0 without one. -/
def State.claim (s : State) (d : Dom) : Nat :=
  match s.admission d with
  | some a => roundBlocks (s.reservationOf a - s.store.remainder a.dump)
  | none => 0

/-- E_pool, pages (R149). -/
def Store.poolPages (st : Store) : Nat := st.pool.length * Config.blockPages

/-- P_avail of a dump with a reservation and a remainder (R47). -/
def State.pagesAvailable (s : State) (d : Dom) (res rem : Nat) : Nat :=
  (s.store.poolPages + rem) - (s.claim (otherDom d) + res)

/-! ### Rates and costs (R43) -/

/-- The mode rate, B/ms (R43). -/
def Mode.rate : Mode → Nat
  | .wide => 400000
  | .narrow => 100000
  | .single => 25000

/-- Whether a domain counts in the rate share h (R2). -/
def Domain.sharesRate (x : Domain) : Bool := x.state == .triggered || x.state == .harvesting

/-- The rate share h: the domains in TRIGGERED or HARVESTING (R42). -/
def State.rateShare (s : State) : Nat :=
  (if (s.domain .a).sharesRate then 1 else 0) + (if (s.domain .b).sharesRate then 1 else 0)

/-- The mode input of a pass: WIDE while the link is DOWN (R42). -/
def Link.planMode (l : Link) : Mode := if l.state = .down then .wide else l.mode

/-- R × D for a dump of a domain (R43). -/
def State.rateDerate (s : State) (d : Dom) : Nat :=
  min (s.link d).planMode.rate (Config.storeRate / s.rateShare) * (s.settings d).derate

/-- The time cost t(L), ms, under R × D (R43). -/
def timeCost (rd len : Nat) : Nat := ceilDiv (len * 100) rd

/-- The page cost pages(L) (R43). -/
def pageCost (len : Nat) : Nat := 1 + ceilDiv len Config.pageBytes

/-! ### The walk (R49 to R52) -/

/-- What a walk has left to give. -/
structure Budget where
  pages : Nat
  time : Nat
deriving DecidableEq, Repr

/-- A visited section's new record and share, and the budget after it. -/
structure Visit where
  sect : SectionRecord
  share : Nat
  budget : Budget
deriving DecidableEq, Repr

/-- The candidate length L' of a truncated admission (R51). -/
def truncatedLength (rd : Nat) (b : Budget) (planned : Nat) : Nat :=
  min (planned / Config.pageBytes * Config.pageBytes)
    (min ((b.pages - 1) * Config.pageBytes)
      (b.time * rd / 100 / Config.pageBytes * Config.pageBytes))

/-- An admission of `len` bytes: the section becomes PENDING and its costs are deducted (R50, R51). -/
def admitLength (rd : Nat) (b : Budget) (x : SectionRecord) (len : Nat) (truncated : Bool) : Visit :=
  { sect := { x with state := .pending, admitted := len, truncated := truncated, cause := none }
    share := pageCost len
    budget := { pages := b.pages - pageCost len, time := b.time - timeCost rd len } }

/-- One visit: whole admission, else truncated admission, else skip (R50 to R52, Table 3-5). -/
def visit (rd : Nat) (b : Budget) (x : SectionRecord) : Visit :=
  if pageCost x.planned ≤ b.pages ∧ timeCost rd x.planned ≤ b.time then admitLength rd b x x.planned false
  else if x.floor < x.planned ∧ x.floor ≤ truncatedLength rd b x.planned ∧ 0 < truncatedLength rd b x.planned then
    admitLength rd b x (truncatedLength rd b x.planned) true
  else
    { sect := { x with state := .skipped, admitted := 0, truncated := false
                       cause := some (if b.pages < pageCost x.planned then .budgetSpace else .budgetTime) }
      share := 0
      budget := b }

/-- Whether a walk visits a section (R49). -/
def SectionRecord.visited (x : SectionRecord) : Bool :=
  x.kind == .region && (x.state == .pending || x.state == .skipped)

/-- The walk over the sections in ascending index with their shares (R49). -/
def walk (rd : Nat) : Budget → List SectionRecord → List Nat → List SectionRecord × List Nat
  | _, [], shares => ([], shares)
  | b, x :: xs, shares =>
    if x.visited then
      let v := visit rd b x
      let r := walk rd v.budget xs shares.tail
      (v.sect :: r.1, v.share :: r.2)
    else
      let r := walk rd b xs shares.tail
      (x :: r.1, shares.headD 0 :: r.2)

/-- The shares with every PENDING REGION section's share released (R49). -/
def releaseShares (xs : List SectionRecord) (shares : List Nat) : List Nat :=
  List.zipWith (fun x n => if x.kind = .region ∧ x.state = .pending then 0 else n) xs shares

/-! ### Passes (R42, R45, R48, R53) -/

/-- The handled length of a section a channel holds (R45, R57): its prefix and above-prefix extents; else 0. -/
def Channel.handledOf (c : Channel) (n : Num) (i : Nat) : Nat :=
  match c.job with
  | some j => if j.dump = n ∧ j.index = i then c.handled + (c.above.map Extent.length).sum else 0
  | none => 0

def State.handledLength (s : State) (n : Num) (i : Nat) : Nat :=
  (s.channels.toList.map fun c => c.handledOf n i).sum

/-- The time cost of the ACTIVE REGION sections' remainders (R45). -/
def State.activeCost (s : State) (rd : Nat) (e : DumpEntry) : Nat :=
  ((e.sections.filter fun x => x.kind == .region && x.state == .active).map fun x =>
    timeCost rd (x.admitted - s.handledLength e.number x.index)).sum

/-- T_avail of a pass over a domain's open dump (R45); a negative result is 0. -/
def State.timeAvailable (s : State) (d : Dom) (rd : Nat) (e : DumpEntry) : Nat :=
  (s.domain d).holdWindow.getD 0 - s.since ((s.domain d).triggerTime.getD s.partTime) - Config.closeReserve
    - s.activeCost rd e

/-- A pass over a domain's open dump (R42 to R52): the shares of PENDING sections are released, the figures taken,
and the sections walked. -/
def State.pass (s : State) (d : Dom) : State :=
  match s.admission d with
  | none => s
  | some a =>
    match s.dump a.dump with
    | none => s
    | some e =>
      let rd := s.rateDerate d
      let released := { a with shares := releaseShares e.sections a.shares }
      let budget := { pages := s.pagesAvailable d (s.reservationOf released) (s.store.remainder a.dump)
                      time := s.timeAvailable d rd e : Budget }
      let w := walk rd budget e.sections released.shares
      (s.updDump a.dump fun x => { x with sections := w.1 }).setAdmission d (some { a with shares := w.2 })

/-- The space test of an opening (R48 step 1): P_avail with a reservation of 0 is at least 61. -/
def State.spaceFor (s : State) (d : Dom) : Bool := decide (Config.systemReserve ≤ s.pagesAvailable d 0 0)

/-- Whether a domain's open dump is eligible for a re-plan (R53). -/
def State.eligible (s : State) (d : Dom) : Bool :=
  (s.domain d).sharesRate && (s.domain d).endCause.isNone

/-- A re-plan of a domain's open dump, if it is eligible (R53). -/
def State.replan (s : State) (d : Dom) : State := if s.eligible d then s.pass d else s

/-- Re-plans of both open dumps, the dump of lower number first (R53). -/
def State.replanAll (s : State) : State :=
  match (s.domain .a).openDump, (s.domain .b).openDump with
  | some m, some n => if n < m then (s.replan .b).replan .a else (s.replan .a).replan .b
  | _, _ => (s.replan .a).replan .b

/-- The page share a section keeps at its end (R41): its header page and its written data pages. -/
def endShare (written : Nat) : Nat := 1 + ceilDiv written Config.pageBytes

/-- A section's share set in its dump's admission record (R41). -/
def State.setShare (s : State) (d : Dom) (i : Nat) (n : Nat) : State :=
  match s.admission d with
  | some a => s.setAdmission d (some { a with shares := a.shares.set i n })
  | none => s

/-- A section's share (R41). -/
def State.share (s : State) (d : Dom) (i : Nat) : Nat :=
  match s.admission d with
  | some a => a.shares.getD i 0
  | none => 0

end Sys2Proof.Machine
end

