-- ==== Sys2Proof/Machine/Store.lean ====
section
/-! DEFINITION. The capture store (chapter 8): the spare reserve and relocation waits, retirement and saves of the retired
list, placing and starting operations, releases, and the outcomes of programs, reads and erases. -/
namespace Sys2Proof.Machine

/-! ### The spare reserve and relocation waits (R149, R152) -/

/-- A block given to a dump as its open block: OPEN, owned, next page 0, at the end of the dump's block list; a
previous open block becomes FULL (R147). -/
def Store.giveBlock (st : Store) (n : Num) (b : Nat) (f : StoreRecord → StoreRecord) : Store :=
  let prev := (st.record n).bind StoreRecord.openBlock
  let st := match prev with
    | some p => if (st.block p).state = BlockState.opened then st.setBlockState p BlockState.full else st
    | none => st
  (st.setBlock b { state := .opened, owner := some n, nextPage := 0 }).updRecord n fun r =>
    f { r with blocks := r.blocks ++ [b], openBlock := some b }

/-- One block taken from the pool head into the spare reserve, when the refill test of R149 allows it. -/
def State.refillOnce (s : State) : Option State :=
  match s.store.pool with
  | [] => none
  | b :: rest =>
    if s.store.spares.length < 2 ∧ Config.blockPages + (s.claim .a + s.claim .b) ≤ s.store.poolPages then
      let st : Store := { s.store with pool := rest, spares := s.store.spares ++ [b] }
      some { s with store := st.setBlock b { state := .spare, owner := none, nextPage := 0 } }
    else none

/-- The remainder and debt of a dump whose relocation wait ends with a new block (R152). -/
def RelocationWait.settle (w : RelocationWait) (r : StoreRecord) : StoreRecord :=
  if w.atTaking then { r with remainder := r.remainder + Config.blockPages - w.counted - r.debt, debt := 0 }
  else { r with remainder := r.remainder + Config.blockPages - w.counted }

/-- A dump enters a relocation wait (R152); a dump already waiting adds what is now counted to the wait it is in. -/
def Store.enterWait (st : Store) (n : Num) (atTaking : Bool) (counted : Nat) : Store :=
  if st.isWaiting n then
    { st with waits := st.waits.map fun w => if w.dump = n then { w with counted := w.counted + counted } else w }
  else { st with waits := st.waits ++ [{ dump := n, atTaking := atTaking, counted := counted }] }

/-- The oldest relocation wait ends when the reserve holds a block (R152). -/
def State.endWait (s : State) : State :=
  match s.store.waits, s.store.spares with
  | w :: ws, b :: bs =>
    let st : Store := { s.store with waits := ws, spares := bs }
    { s with store := st.giveBlock w.dump b w.settle }
  | _, _ => s

/-- The refill test repeated until the reserve holds 2 or the condition fails (R149). -/
def refillLoop : Nat → State → State
  | 0, s => s
  | n + 1, s =>
    match s.refillOnce with
    | some t => refillLoop n t.endWait
    | none => s

def State.refill (s : State) : State := refillLoop s.store.pool.length s

/-! ### Saves of the configuration memory (R153, R179) -/

/-- A save of the retired list starts, or is marked pending while a save is in flight (R153). -/
def State.startStoreSave (s : State) : State :=
  match s.config.save with
  | some _ => { s with config := { s.config with savePending := true } }
  | none =>
    { s with config := { s.config with
        save := some { kind := .store, image := { s.config.stored with retired := s.store.retired } } } }

/-- The store's pending save starts when no save is in flight (R153, R179). -/
def State.startPendingSave (s : State) : State :=
  if s.config.savePending ∧ s.config.save = none then
    ({ s with config := { s.config with savePending := false } }).startStoreSave
  else s

/-- What the configuration memory holds after a save that did not end in a match, by a free value (log 9, log 10). -/
def leftBySave (seed : Nat) (before : ConfigMemory) (image : Image) : ConfigMemory :=
  match Config.saveLeaves seed with
  | 0#2 => before
  | 1#2 => .bytes image.bytes
  | _ => .torn

/-- Erase gates waiting on a save clear when a matching save wrote dump number 0 for their header block (R155). -/
def Store.clearSaveGates (st : Store) (image : Image) : Store :=
  { st with dirty := st.dirty.map fun e =>
      match e.gate with
      | some (.save b) => if image.retired.any (fun r => r.block == b && r.dump == 0) then { e with gate := none } else e
      | _ => e }

/-- Erase gates waiting on a block's erase clear (R150, R155). -/
def Store.clearEraseGates (st : Store) (b : Nat) : Store :=
  { st with dirty := st.dirty.map fun e => if e.gate = some (.erase b) then { e with gate := none } else e }

/-- A save ends (R179): with a match its image becomes the stored image, config-fault clears and the gates it opens
clear; with a mismatch config-fault is set. -/
def State.saveEnded (s : State) (sv : Save) (matched : Bool) : State :=
  if matched then
    { s with
      store := s.store.clearSaveGates sv.image
      config := { s.config with memory := .bytes sv.image.bytes, stored := sv.image, fault := false, save := none } }
  else
    ({ s with
      config := { s.config with
        memory := leftBySave s.freeCount s.config.memory sv.image, fault := true, save := none } }).drawn 1

/-! ### Retirement (R153) -/

/-- A block withdrawn after a failure, with the number of the dump whose pages it holds, or 0: RETIRED and listed with
a save started, or WITHHELD when the retired list is full (R153). -/
def State.retire (s : State) (b : Nat) (n : Num) : State :=
  if s.store.retired.length < Config.retiredMax then
    let st : Store := { s.store with retired := s.store.retired ++ [{ block := b, dump := n }] }
    ({ s with store := st.setBlockState b .retired }).startStoreSave
  else { s with store := s.store.setBlockState b .withheld }

/-- The RETIRED_MARK program of a withdrawn block, for its next unassigned page, if it has one (R153). -/
def Store.markFor (st : Store) (b : Nat) : List ProgramItem :=
  if (st.block b).nextPage < Config.blockPages then [.mark b (st.block b).nextPage] else []

/-- A rewrite placed at the head of the program queue, with the mark (if any) behind it (R151, R153). -/
def Store.queueRewrite (st : Store) (k : PageKey) (marks : List ProgramItem) : Store :=
  { st with programs := .page k :: marks ++ st.programs }

/-- Marks assigned: the block's next page moves past its mark, if it has one. -/
def Store.assignMarks (st : Store) (b : Nat) (marks : List ProgramItem) : Store :=
  if marks = [] then st
  else st.setBlock b { st.block b with nextPage := (st.block b).nextPage + marks.length }

/-! ### Placing and starting (R146, R147) -/

/-- Where a program of a dump may go. -/
inductive Placement where
  /-- the open block's next page -/
  | here (block page : Nat)
  /-- a block taken from the pool head -/
  | pool (block : Nat)
  /-- a block taken from the spare reserve, settling a debt (R151) -/
  | spare (block : Nat)
  /-- a debt is held and the reserve is empty: the dump enters a relocation wait (R152) -/
  | wait
  /-- the pool is empty, which the claim law of R47 excludes -/
  | nowhere
deriving DecidableEq, Repr

/-- The place of a dump's next program (R147, R151). -/
def Store.place (st : Store) (n : Num) : Placement :=
  match st.record n with
  | none => .nowhere
  | some r =>
    let need : Placement :=
      if 0 < r.debt then
        match st.spares with
        | b :: _ => .spare b
        | [] => .wait
      else
        match st.pool with
        | b :: _ => .pool b
        | [] => .nowhere
    match r.openBlock with
    | some b => if (st.block b).nextPage < Config.blockPages then .here b (st.block b).nextPage else need
    | none => need

/-- The first free in-flight position. -/
def Store.freePosition (st : Store) : Option (Fin 8) := (List.finRange 8).find? fun i => st.inFlight[i].isNone

/-- An operation put into a position. -/
def Store.fly (st : Store) (i : Fin 8) (op : StoreOp) : Store := { st with inFlight := st.inFlight.set i (some op) }

/-- Whether a queued program is eligible (R146). -/
def Store.programEligible (st : Store) : ProgramItem → Bool
  | .mark _ _ => true
  | .page k => !st.isWaiting k.dump && (st.place k.dump != .nowhere)

/-- The oldest eligible program starts in a position, its place fixed now (R147); a dump that must take a block with
a debt and no spare enters its relocation wait instead (R152). -/
def State.startProgram (s : State) (i : Fin 8) (item : ProgramItem) : State :=
  let st : Store := { s.store with programs := s.store.programs.erase item }
  match item with
  | .mark b p => { s with store := st.fly i (.program item (b * Config.blockPages + p)) }
  | .page k =>
    match s.store.place k.dump with
    | .here b p =>
      let placed := st.setBlock b { st.block b with nextPage := p + 1 }
      { s with store := placed.fly i (.program item (b * Config.blockPages + p)) }
    | .pool b =>
      let taken : Store := { st with pool := st.pool.tail }
      let st := taken.giveBlock k.dump b fun r => { r with remainder := r.remainder + Config.blockPages }
      let placed := st.setBlock b { st.block b with nextPage := 1 }
      { s with store := placed.fly i (.program item (b * Config.blockPages)) }
    | .spare b =>
      let taken : Store := { st with spares := st.spares.tail }
      let st := taken.giveBlock k.dump b fun r =>
        { r with remainder := r.remainder + Config.blockPages - r.debt, debt := 0 }
      let placed := st.setBlock b { st.block b with nextPage := 1 }
      ({ s with store := placed.fly i (.program item (b * Config.blockPages)) } : State).refill
    | .wait =>
      { s with store := s.store.enterWait k.dump true 0 }
    | .nowhere => s

/-- The store starts one piece of work when a position is free (R146): the oldest eligible program, else the oldest
read, else the first eligible dirty block.  A WITHHELD block too is ERASING while its erase is in flight (log 63). -/
def State.storeStep (s : State) : Option State :=
  match s.store.freePosition with
  | none => none
  | some i =>
    match s.store.programs.find? s.store.programEligible with
    | some item => some (s.startProgram i item)
    | none =>
      match s.store.reads with
      | r :: rs =>
        let st : Store := { s.store with reads := rs }
        match st.locate r.key with
        | some a => some { s with store := st.fly i (.read r a) }
        | none => some { s with store := st }
      | [] =>
        match s.store.dirty.find? fun e => e.gate.isNone with
        | some e =>
          let st : Store := { s.store with dirty := s.store.dirty.erase e }
          let started := st.setBlockState e.block .erasing
          some { s with store := started.fly i (.erase e.block ((st.block e.block).state == .withheld)) }
        | none => none

/-! ### Outcomes (R148, R150, R151) -/

/-- The operation of a position, which its outcome frees (R145). -/
def State.land (s : State) (i : Fin 8) : State :=
  { s with store := { s.store with inFlight := s.store.inFlight.set i none } }

/-- The bytes of a staging page as a program writes them. -/
def Staging.programData (b : Staging) (k : PageKey) : List Byte :=
  match b.find k with
  | some p => trimZeros (p.data.take Config.pageBytes)
  | none => []

/-- The store's own steps at a page program's completion (R148, 1 to 3): the array holds the page, the page map and
the counts change, and the staging page is freed. -/
def State.pageProgrammed (s : State) (k : PageKey) (a : Nat) : State :=
  { s with
    flash := s.flash.put a (.programmed k (s.staging.programData k))
    store := s.store.updRecord k.dump fun r =>
      { r with pageMap := r.pageMap ++ [(k, a)], programmed := r.programmed + 1, remainder := r.remainder - 1 }
    staging := s.staging.freePage k }

/-- A RETIRED_MARK page (R144: dump number 0). -/
def markKey : PageKey := { dump := 0, kind := .retiredMark, index := 0, seq := 0 }

/-- The relocation of a failed page whose block is the dump's open block (R151, first list).  The block is listed under
its dump's number, also where no page of the dump is programmed in it yet (log 62). -/
def State.relocateOpen (s : State) (k : PageKey) (b : Nat) : State :=
  let lost := Config.blockPages - (s.store.block b).nextPage + 1
  let marks := s.store.markFor b
  let s := s.retire b k.dump
  let s := { s with store := (s.store.assignMarks b marks).updRecord k.dump fun r => { r with openBlock := none } }
  let s := match s.store.spares with
    | x :: xs =>
      let st : Store := { s.store with spares := xs }
      let moved := st.giveBlock k.dump x fun r =>
        { r with remainder := r.remainder - lost + Config.blockPages }
      { s with store := moved }
    | [] => { s with store := s.store.enterWait k.dump false lost }
  ({ s with store := s.store.queueRewrite k marks } : State).refill

/-- The relocation of a failed page in another block of its dump (R151): a FULL block is withdrawn, the page is
counted as a debt, and the rewrite is queued at the head.  The block is listed under its dump's number (log 62). -/
def State.relocateOther (s : State) (k : PageKey) (b : Nat) : State :=
  let fresh := (s.store.block b).state == .full
  let marks := if fresh then s.store.markFor b else []
  let s := if fresh then s.retire b k.dump else s
  let owing := (s.store.assignMarks b marks).updRecord k.dump fun r => { r with debt := r.debt + 1 }
  { s with store := owing.queueRewrite k marks }

/-- The domain of a dump in the directory (A where the directory holds no such dump). -/
def State.domainOf (s : State) (n : Num) : Dom :=
  match s.dump n with
  | some e => e.domain
  | none => .a

/-- The store's steps at a program failure (R151, R153): the page reads unreadable, the failure counter increments,
and a page of a dump is relocated and recorded in the journal of the dump's domain. -/
def State.programFailure (s : State) (item : ProgramItem) (a : Nat) : State :=
  let s := { s with flash := s.flash.put a .unreadable
                    store := { s.store with programFailures := s.store.programFailures.inc } }
  match item with
  | .mark _ _ => s
  | .page k =>
    let b := a / Config.blockPages
    let open_ := (s.store.record k.dump).bind StoreRecord.openBlock
    let s := if open_ = some b then s.relocateOpen k b else s.relocateOther k b
    s.recordStoreRetire (s.domainOf k.dump) b k.dump ((s.store.block b).state == .withheld)

/-- An erase completes (R150): the block joins the pool tail, or stays WITHHELD with no owner; gates clear, the refill
test is made and every open dump is re-planned. -/
def State.eraseDone (s : State) (b : Nat) (withheld : Bool) : State :=
  let st := s.store
  let st := if withheld then st.setBlock b { state := .withheld, owner := none, nextPage := 0 }
    else Store.setBlock { st with pool := st.pool ++ [b] } b Block.pooled
  (({ s with flash := s.flash.eraseBlock b, store := st.clearEraseGates b }).refill).replanAll

/-- An erase fails (R150): the block's pages read unreadable, it is retired with dump number 0, the erase-failure
counter increments and gates clear; no re-plan starts. -/
def State.eraseFailure (s : State) (b : Nat) : State :=
  let s := { s with flash := s.flash.spoilBlock b
                    store := Store.setBlock { s.store with eraseFailures := s.store.eraseFailures.inc } b
                      { state := .erasing, owner := none, nextPage := Config.blockPages } }
  let s := s.retire b 0
  { s with store := s.store.clearEraseGates b }

/-! ### Release (R155) -/

/-- Whether a block goes to the dirty list at a release (R155): FULL or WITHHELD. -/
def Store.goesDirty (st : Store) (b : Nat) : Bool := (st.block b).state == .full || (st.block b).state == .withheld

/-- A block of a released dump handed over (R155): to the dirty list with a gate, or, when RETIRED, its entry's dump
number set to 0. -/
def Store.handOver (st : Store) (gate : Option Gate) (b : Nat) : Store :=
  let st := if st.goesDirty b then
      Store.setBlockState { st with dirty := st.dirty ++ [{ block := b, gate := gate }] } b
        (if (st.block b).state = BlockState.full then .dirty else .withheld)
    else { st with retired := st.retired.map fun r => if r.block = b then { r with dump := 0 } else r }
  st.setBlock b { st.block b with owner := none }

/-- The dump's header block first, then its other blocks in the order taken (R139, R155). -/
def StoreRecord.releaseOrder (r : StoreRecord) : List Nat :=
  match r.pageMap.find? fun e => e.1.kind == .dumpHeader with
  | some e => (e.2 / Config.blockPages) :: r.blocks.filter fun b => b ≠ e.2 / Config.blockPages
  | none => r.blocks

/-- The blocks of a released dump that join the dirty list: what the RELEASE reply counts (R155). -/
def Store.releaseCount (st : Store) (n : Num) : Nat :=
  match st.record n with
  | some r => ((r.releaseOrder).filter st.goesDirty).length
  | none => 0

/-- The store's steps at a RELEASE (R155).  DESIGN CHOICE (log 66): a save of the retired list starts if any block of the
dump is RETIRED, also where the dump header block is not. -/
def State.releaseBlocks (s : State) (n : Num) : State :=
  match s.store.record n with
  | none => s
  | some r =>
    match r.releaseOrder with
    | [] => { s with store := { s.store with records := s.store.records.filter fun x => x.dump ≠ n } }
    | h :: others =>
      let gate : Gate := if s.store.goesDirty h then .erase h else .save h
      let anyRetired := (h :: others).any fun b => !s.store.goesDirty b
      let st := others.foldl (fun st b => st.handOver (some gate) b) (s.store.handOver none h)
      let s := { s with store := { st with records := st.records.filter fun x => x.dump ≠ n } }
      if anyRetired then s.startStoreSave else s

/-! ### Readable length (R154) -/

/-- The readable length of a section: the lesser of its written length and 4,096 times its data pages programmed
without a gap (R154). -/
def State.readable (s : State) (n : Num) (x : SectionRecord) : Nat :=
  min x.written (Config.pageBytes * s.store.gapless n x.index (ceilDiv x.written Config.pageBytes))

end Sys2Proof.Machine
end

