-- ==== Sys2Proof/Machine/Harvest.lean ====
section
/-! DEFINITION. The domain controller's shared operations and the directory's section and dump ends: releasing the hold
line, ending a harvest, ending sections, closing a dump, arming (chapters 1, 3, 4 and 7). -/
namespace Sys2Proof.Machine

/-! ### The hold line (R18) -/

/-- Release of the hold line for a reason: nothing for a line already released, else the line drops, a HOLD_RELEASE
record is appended and the HOLD_RELEASED notice is sent (R18). -/
def State.releaseLine (s : State) (d : Dom) (reason : ReleaseReason) : State :=
  let x := s.domain d
  if x.holdLine then
    let n := x.openDump.getD 0
    ((s.setDomain d { x with holdLine := false }).recordHoldRelease d reason n).noticeHoldReleased d reason n
  else s

/-! ### The heartbeat timer and arming (R9, R20) -/

/-- The heartbeat timer's expiry at a start (R9); a start not made leaves it stopped (log 42). -/
def State.heartbeatExpiry (s : State) (d : Dom) : Option Time :=
  if s.powerGood.get d ∧ (s.settings d).heartbeatTimeout ≠ 0 then
    some (s.partTime + ms ((s.settings d).heartbeatTimeout * 1000))
  else none

/-- The heartbeat timer is started (R9). -/
def State.startHeartbeat (s : State) (d : Dom) : State :=
  s.setDomain d { s.domain d with heartbeatTimer := s.heartbeatExpiry d }

/-- Entry into ARMED (R20): the heartbeat timer starts and the link's widen request is set (R81). -/
def State.enterArmed (s : State) (d : Dom) : State :=
  ((s.setDomain d { s.domain d with state := .armed }).startHeartbeat d).setLink d { s.link d with widen := true }

/-! ### The end of a harvest (R11 to R16, R76, R77, R129) -/

/-- The cause that an end cause gives to sections (Table 9-12); COMPLETE ends none. -/
def EndCause.toSection : EndCause → Option SectionCause
  | .complete => none
  | .aborted => some .aborted
  | .holdExpired => some .holdExpired
  | .holdReleased => some .holdReleased
  | .powerLost => some .powerLost
  | .linkLost => some .linkLost

/-- A channel's waiting lock request, in the queue or as designate, is withdrawn (R95). -/
def Link.withdrawLock (l : Link) (c : Fin 4) : Link :=
  { l with
    lockQueue := l.lockQueue.filter fun x => x.channel ≠ c
    designate := match l.designate with
      | some x => if x.channel = c then none else some x
      | none => none }

/-- A channel's section is to end short with a cause (R72, R76): the channel enters ENDING, withdraws its lock and
page requests, and keeps in hand only the reads outstanding at the link.  R76 gives the withdrawal of a waiting page
request at the harvest end.  DESIGN CHOICE (log 67): it is withdrawn too where the failure run reaches 16, of which R72
is silent. -/
def State.channelShort (s : State) (c : Fin 4) (cause : SectionCause) : State :=
  let ch := s.channel c
  let s := (s.withdrawPages (.channel c)).setChannel c
    { ch with state := .ending, ending := some (.short cause), hand := ch.hand.filter HandRead.outstanding }
  match ch.job with
  | some j => s.setLink j.domain ((s.link j.domain).withdrawLock c)
  | none => s

/-- Whether a channel is to be ended short at the harvest end of a dump (R76): it holds a section of the dump and is
not yet ENDING. -/
def Channel.endsWith (ch : Channel) (n : Num) : Bool :=
  match ch.job with
  | some j => j.dump == n && ch.state != .ending && ch.state != .idle
  | none => false

/-- A PENDING REGION section at a harvest end becomes LOST (R77). -/
def SectionRecord.lost (x : SectionRecord) (cause : SectionCause) : SectionRecord :=
  if x.kind = .region ∧ x.state = .pending then { x with state := .lost, cause := some cause, written := 0 } else x

/-- The sections of a dump at its harvest end (R76, R77): PENDING REGION sections are LOST with a share of 0, and
channels holding ACTIVE ones enter ENDING. -/
def State.endSections (s : State) (d : Dom) (n : Num) (cause : SectionCause) : State :=
  let s := match s.admission d, s.dump n with
    | some a, some e => s.setAdmission d (some { a with shares := releaseShares e.sections a.shares })
    | _, _ => s
  let s := s.updDump n fun e => { e with sections := e.sections.map fun x => x.lost cause }
  (List.finRange 4).foldl (fun t c => if (t.channel c).endsWith n then t.channelShort c cause else t) s

/-- The refill test of a section end or a dump's close (R149): it is made only where the domain's claim has fallen below
what it was before. -/
def State.refillIfFell (s : State) (d : Dom) (before : Nat) : State := if s.claim d < before then s.refill else s

/-- The domain enters CLOSING with an end cause (R11, R12, R76, R129); the refill test is made if LOST sections have
lowered the dump's claim (R55, R149), and the other domain's open dump is re-planned (R53). -/
def State.enterClosing (s : State) (d : Dom) (cause : EndCause) : State :=
  let before := s.claim d
  let s := s.setDomain d { s.domain d with state := .closing, endCause := some cause }
  match (s.domain d).openDump with
  | none => s
  | some n =>
    let s := s.updDump n fun e => { e with endCause := some cause }
    let s := match cause.toSection with
      | some c => s.endSections d n c
      | none => s
    (s.refillIfFell d before).replan (otherDom d)

/-- An event that ends the harvest (R13 to R16): in TRIGGERED the cause is recorded if none is, in HARVESTING the
domain enters CLOSING, and elsewhere nothing changes. -/
def State.endHarvest (s : State) (d : Dom) (cause : EndCause) : State :=
  let x := s.domain d
  match x.state with
  | .triggered => s.setDomain d { x with endCause := some (x.endCause.getD cause) }
  | .harvesting => s.enterClosing d cause
  | _ => s

/-- Whether a dump's harvest is complete (R12): no REGION section PENDING or ACTIVE, and the pre-copy DONE. -/
def DumpEntry.harvested (e : DumpEntry) : Bool :=
  e.sections.all fun x =>
    match x.kind with
    | .region => x.state != .pending && x.state != .active
    | .journalPre => x.state == .done
    | _ => true

/-- The completion test (R12). -/
def State.completionTest (s : State) (d : Dom) : State :=
  match (s.domain d).state, s.openEntry d with
  | .harvesting, some e => if e.harvested then s.enterClosing d .complete else s
  | _, _ => s

/-- The open dump's header page is programmed (R11). -/
def State.headerProgrammed (s : State) (d : Dom) : State :=
  let x := s.domain d
  match x.state, x.endCause with
  | .triggered, none => (s.setDomain d { x with state := .harvesting }).completionTest d
  | .triggered, some c => s.enterClosing d c
  | _, _ => s

/-! ### Section ends (R41, R53, R74, R128) -/

/-- What pages returned at a section's end start (R53): re-plans of every open dump while this one is eligible, else,
for a REGION section, of the other domain's (log 29). -/
def State.pagesReturned (s : State) (d : Dom) (x : SectionRecord) : State :=
  if s.eligible d then s.replanAll else if x.kind = .region then s.replan (otherDom d) else s

/-- A section that ended from ACTIVE is reported to the directory (R74, R128): its share is settled, the refill test is made
if that lowers the dump's claim (R149), returned pages start re-plans, the SECTION_END notice is sent and the completion
test made. -/
def State.sectionEnded (s : State) (d : Dom) (n : Num) (i : Nat) : State :=
  match s.sect n i with
  | none => s
  | some x =>
    let returned := decide (endShare x.written < s.share d i)
    let before := s.claim d
    let s := (s.setShare d i (endShare x.written)).refillIfFell d before
    let s := if returned then s.pagesReturned d x else s
    (s.noticeSectionEnd d n x).completionTest d

/-! ### The close of a dump (R132, R138, R17) -/

/-- Whether every section of a dump is delivered (R138). -/
def DumpEntry.allDelivered (e : DumpEntry) : Bool := e.sections.all fun x => x.delivered == x.written

/-- The fetched flag evaluated (R138). -/
def DumpEntry.evalFetched (e : DumpEntry) : DumpEntry :=
  { e with fetched := e.fetched || (e.state != .opened && e.allDelivered) }

/-- The store at a dump's close (R147, R149): its open block becomes FULL and nothing stays counted. -/
def Store.closeDump (st : Store) (n : Num) : Store :=
  let st := match (st.record n).bind StoreRecord.openBlock with
    | some b => st.setBlockState b .full
    | none => st
  st.updRecord n fun r => { r with openBlock := none, remainder := 0, debt := 0 }

/-- The domain's fields of one dump cleared (R1, R5, R17). -/
def Domain.withoutDump (x : Domain) : Domain :=
  { x with triggerTime := none, openDump := none, endCause := none, holdWindow := none, holdEnable := none }

/-- The CLOSED report taken by the domain controller (R17). -/
def State.closedReport (s : State) (d : Dom) : State :=
  let s := s.releaseLine d .closed
  s.setDomain d { (s.domain d).withoutDump with holdTimer := none, state := .settled }

/-- Whether a domain is closing a dump (R132 is taken in CLOSING alone). -/
def State.closing (s : State) (d : Dom) (n : Num) : Bool :=
  (s.domain d).state == .closing && (s.domain d).openDump == some n

/-- The last manifest page of the dump a domain is closing is programmed (R132, in the order of its steps). -/
def State.dumpClosed (s : State) (d : Dom) (n : Num) : State :=
  match (if s.closing d n then s.dump n else none) with
  | none => s
  | some e =>
    let check := e.checkOfManifest
    let before := s.claim d
    let s := s.updDump n fun e => { e with state := .closed, manifestCheck := some check }
    let s := (({ s with store := s.store.closeDump n }).setAdmission d none).refillIfFell d before
    let s := (s.setJournal d { s.journal d with mark := none }).setWork d Work.empty
    let s := s.recordDumpClosed d n e.endCause check
    let s := s.noticeDumpClosed d n e.endCause check (s.store.programmed n)
    let s := (s.closedReport d).updDump n DumpEntry.evalFetched
    s.replan (otherDom d)

end Sys2Proof.Machine
end

