-- ==== Sys2Proof/Machine/Channel.lean ====
section
/-! DEFINITION. The harvest channels (chapter 4): cutting reads, asking for and filling staging pages, taking read
outcomes, the hole list, and the end of a section. -/
namespace Sys2Proof.Machine

/-! ### Cutting the range (R62) -/

/-- The next read cut from a range of addresses `base` to `base + admitted` at a section offset (R62): the head, a
burst of up to 4 whole granules that stops at a 4 KiB boundary, or the tail. -/
def cutRead (base admitted offset : Nat) : HandRead :=
  let a := base + offset
  let left := admitted - offset
  if a % 64 ≠ 0 then
    { offset := offset, length := min (64 - a % 64) left, isPartial := true, attempts := 0, outstanding := false }
  else if left < 64 then
    { offset := offset, length := left, isPartial := true, attempts := 0, outstanding := false }
  else
    let granules := min 4 (min (left / 64) ((4096 - a % 4096) / 64))
    { offset := offset, length := 64 * granules, isPartial := false, attempts := 0, outstanding := false }

/-- The section's data page that holds a section offset (R61). -/
def pageOf (offset : Nat) : Nat := offset / Config.pageBytes + 1

/-- The data pages a read still needs, beyond those given (R65). -/
def HandRead.needs (r : HandRead) (given : Nat) : List Nat :=
  (List.range (pageOf (r.offset + r.length - 1) - given)).map fun i => given + 1 + i

/-! ### Filling and passing pages (R60, R61, R67) -/

/-- A given staging page is filled with bytes and passes to the program queue. -/
def State.stage (s : State) (k : PageKey) (bytes : List Byte) : State :=
  State.passPage { s with staging := s.staging.updData k fun _ => bytes } k

/-- The key of a section's header page (R61). -/
def headerKey (n : Num) (i : Nat) : PageKey := { dump := n, kind := .sectionHeader, index := i, seq := 0 }

/-- The section header page is given (R60, steps 3 and 4): it is filled and passed, and the channel asks for the lock in
WAIT_LOCK if the section is atomic, else enters FETCHING. -/
def State.headerGiven (s : State) (c : Fin 4) : State :=
  let ch := s.channel c
  match ch.job with
  | none => s
  | some j =>
    match s.sect j.dump j.index with
    | none => s
    | some x =>
      let s := s.stage (headerKey j.dump j.index) (sectionHeaderPage j.dump x)
      if j.atomic then
        let l := s.link j.domain
        (s.setChannel c { ch with state := .waitLock }).setLink j.domain
          { l with lockQueue := l.lockQueue ++ [{ channel := c, base := j.base, length := j.admitted }] }
      else s.setChannel c { ch with state := .fetching }

/-- A read whose pages are given enters the hand awaiting a grant (R63). -/
def Channel.takeInHand (ch : Channel) (r : HandRead) : Channel :=
  { ch with state := .fetching, hand := ch.hand ++ [r], fetchPos := r.offset + r.length }

/-- The next new read of a channel (R62), if its section still has one. -/
def Channel.nextRead (ch : Channel) : Option HandRead :=
  match ch.job with
  | some j => if ch.fetchPos < j.admitted then some (cutRead j.base j.admitted ch.fetchPos) else none
  | none => none

/-- The data pages of a channel's request are given (R65): the read enters the hand. -/
def State.dataGiven (s : State) (c : Fin 4) (count : Nat) : State :=
  let ch := s.channel c
  match ch.nextRead with
  | some r => s.setChannel c (Channel.takeInHand { ch with given := ch.given + count } r)
  | none => s

/-- A channel about to cut a new read (R63, R65): with the pages given, the read enters the hand; with pages to ask
for, the channel is STALLED with its request in the buffer, or without one while its cap of 16 forbids it. -/
def State.cutStep (s : State) (c : Fin 4) : Option State :=
  let ch := s.channel c
  if ch.hand.length < 2 ∧ (ch.state = .fetching ∨ ch.state = .stalled) ∧ s.staging.asks (.channel c) = false then
    match ch.nextRead, ch.job with
    | some r, some j =>
      let pages := r.needs ch.given
      if pages = [] then some (s.setChannel c (ch.takeInHand r))
      else if s.staging.heldBy (.channel c) + pages.length ≤ Config.holderCap then
        some ((s.setChannel c { ch with state := .stalled }).askPages (.channel c)
          (pages.map fun p => dataKey j.dump j.index p))
      else if ch.state = .fetching then some (s.setChannel c { ch with state := .stalled })
      else none
    | _, _ => none
  else none

/-- One data page passes, with its bytes below `upTo` kept and fed into the section's CRC (R67, R68, R76). -/
def State.passData (s : State) (c : Fin 4) (j : Job) (p upTo : Nat) : State :=
  let ch := s.channel c
  let k := dataKey j.dump j.index p
  let len := min Config.pageBytes (upTo - Config.pageBytes * (p - 1))
  let held := match s.staging.find k with
    | some q => q.data
    | none => []
  let bytes := slice held 0 len
  (s.stage k bytes).setChannel c { ch with passed := p, crc := crc32Feed ch.crc bytes }

/-- The next data page passes when every byte of it below the admitted length is handled (R67). -/
def State.passStep (s : State) (c : Fin 4) : Option State :=
  let ch := s.channel c
  match ch.job with
  | none => none
  | some j =>
    let p := ch.passed + 1
    if p ≤ ch.given ∧ min (Config.pageBytes * p) j.admitted ≤ ch.handled then some (s.passData c j p j.admitted)
    else none

/-! ### Handled extents and the hole list (R66, R73) -/

/-- What the end of a read moves: the handled prefix, the lists above it, and the section's hole list. -/
structure Progress where
  handled : Nat
  above : List Extent
  holesAbove : List Hole
  holes : List Hole
  overflow : Bool
deriving DecidableEq, Repr

/-- A hole enters the hole list: merge, append or overflow (R73). -/
def enterHole (holes : List Hole) (overflow : Bool) (h : Hole) : List Hole × Bool :=
  match holes.getLast? with
  | none => ([h], overflow)
  | some l =>
    if h.offset = l.offset + l.length ∧ h.cause = l.cause then
      (holes.dropLast ++ [{ l with length := l.length + h.length }], overflow)
    else if holes.length < Config.holeMax then (holes ++ [h], overflow)
    else (holes.dropLast ++ [{ l with length := h.offset + h.length - l.offset }], true)

/-- The prefix moves over one handled extent that begins at it, and over the hole there, if any (R66). -/
def Progress.absorb (p : Progress) : Option Progress :=
  match p.above.find? fun x => x.offset == p.handled with
  | none => none
  | some x =>
    let moved := { p with handled := p.handled + x.length, above := p.above.erase x }
    match p.holesAbove.find? fun h => h.offset == p.handled with
    | none => some moved
    | some h =>
      let entered := enterHole p.holes p.overflow h
      some { moved with holesAbove := p.holesAbove.erase h, holes := entered.1, overflow := entered.2 }

/-- The prefix moves over every handled extent that begins where it stands (R66). -/
def Progress.run : Nat → Progress → Progress
  | 0, p => p
  | n + 1, p =>
    match p.absorb with
    | some q => Progress.run n q
    | none => p

/-- An extent is marked handled, with its hole if it ended as one (R66). -/
def Progress.mark (p : Progress) (x : Extent) (hole : Option HoleCause) : Progress :=
  let q := { p with
    above := p.above ++ [x]
    holesAbove := match hole with
      | some c => p.holesAbove ++ [{ offset := x.offset, length := x.length, cause := c }]
      | none => p.holesAbove }
  Progress.run q.above.length q

/-- A read of a channel's section has ended over an extent (R66): the channel's prefix and lists, and the section's
written length and hole list, follow. -/
def State.handle (s : State) (c : Fin 4) (j : Job) (x : Extent) (hole : Option HoleCause) : State :=
  let ch := s.channel c
  match s.sect j.dump j.index with
  | none => s
  | some rec =>
    let p := Progress.mark { handled := ch.handled, above := ch.above, holesAbove := ch.holesAbove
                             holes := rec.holes, overflow := rec.holeOverflow } x hole
    (s.setChannel c { ch with handled := p.handled, above := p.above, holesAbove := p.holesAbove }).updSection
      j.dump j.index fun r => { r with written := p.handled, holes := p.holes, holeOverflow := p.overflow }

/-- Bytes of a read land in the section's one or two staging pages at their offset (R66). -/
def State.placeBytes (s : State) (j : Job) (offset : Nat) (bytes : List Byte) : State :=
  let p := pageOf offset
  let here := offset % Config.pageBytes
  let room := Config.pageBytes - here
  let first := s.staging.updData (dataKey j.dump j.index p) fun b => writeAt b here (bytes.take room)
  { s with staging :=
      if bytes.length ≤ room then first
      else first.updData (dataKey j.dump j.index (p + 1)) fun b => writeAt b 0 (bytes.drop room) }

/-! ### Read outcomes (R69 to R72, R76) -/

/-- The outcome of one issue of a read (R88, Table 5-3), with the bytes delivered. -/
inductive ReadOutcome where
  | data (bytes : List Byte)
  | disconnect (bytes : List Byte)
  | noClaim
  | stall
  | targetAbort
  | parity (bytes : List Byte)
  | retrain
  | linkDown
deriving DecidableEq, Repr

/-- A read in hand changed, by its offset. -/
def Channel.updRead (ch : Channel) (offset : Nat) (f : HandRead → HandRead) : Channel :=
  { ch with hand := ch.hand.map fun r => if r.offset = offset then f r else r }

/-- A read leaves the hand. -/
def Channel.dropRead (ch : Channel) (offset : Nat) : Channel :=
  { ch with hand := ch.hand.filter fun r => r.offset ≠ offset }

/-- A read ends clean (R69): its bytes are kept, its extent handled, and the failure run is 0. -/
def State.endClean (s : State) (c : Fin 4) (j : Job) (r : HandRead) (bytes : List Byte) : State :=
  let s := (s.placeBytes j r.offset bytes).handle c j { offset := r.offset, length := r.length } none
  s.setChannel c { (s.channel c).dropRead r.offset with failureRun := 0 }

/-- A read ends as a hole with a cause (R70, R71): its bytes are what the outcome leaves, its extent is handled, and the
failure run rises by one, to at most 16. -/
def State.endHole (s : State) (c : Fin 4) (j : Job) (r : HandRead) (cause : HoleCause) (bytes : List Byte) : State :=
  let s := (s.placeBytes j r.offset bytes).handle c j { offset := r.offset, length := r.length } (some cause)
  let ch := (s.channel c).dropRead r.offset
  s.setChannel c { ch with failureRun := min Config.runMax (ch.failureRun + 1) }

/-- A failed issue (R70): the attempt count rises; below the retry limit the read awaits a grant again, and at the
limit it ends as a hole. -/
def State.failedIssue (s : State) (c : Fin 4) (j : Job) (r : HandRead) (cause : HoleCause) (bytes : List Byte) : State :=
  let ch := s.channel c
  if r.attempts + 1 < ch.retryLimit then
    s.setChannel c (ch.updRead r.offset fun x => { x with attempts := x.attempts + 1, outstanding := false })
  else s.endHole c j r cause bytes

/-- After a DISCONNECT the received granules are kept and the rest of the burst awaits a grant (R69). -/
def State.disconnected (s : State) (c : Fin 4) (j : Job) (r : HandRead) (bytes : List Byte) : State :=
  let s := (s.placeBytes j r.offset bytes).handle c j { offset := r.offset, length := bytes.length } none
  s.setChannel c ((s.channel c).updRead r.offset fun x =>
    { x with offset := x.offset + bytes.length, length := x.length - bytes.length, outstanding := false })

/-- Zero bytes over a read's extent (R70, R71). -/
def HandRead.zeros (r : HandRead) : List Byte := List.replicate r.length 0

/-- What a channel that is FETCHING or STALLED does with an outcome (R69 to R71). -/
def State.takeOutcome (s : State) (c : Fin 4) (j : Job) (r : HandRead) : ReadOutcome → State
  | .data bytes => s.endClean c j r bytes
  | .disconnect bytes => s.disconnected c j r bytes
  | .noClaim => s.failedIssue c j r .noClaim r.zeros
  | .stall => s.failedIssue c j r .stall r.zeros
  | .parity bytes => s.failedIssue c j r .parity bytes
  | .targetAbort => s.endHole c j r .targetAbort r.zeros
  | .retrain => s.setChannel c ((s.channel c).updRead r.offset fun x => { x with outstanding := false })
  | .linkDown => s.setChannel c ((s.channel c).dropRead r.offset)

/-- What a channel that is ENDING short does with an outcome (R72, R76): delivered clean bytes are kept and handled, and
the read leaves the hand. -/
def State.takeLastOutcome (s : State) (c : Fin 4) (j : Job) (r : HandRead) (o : ReadOutcome) : State :=
  let kept (bytes : List Byte) : State :=
    (s.placeBytes j r.offset bytes).handle c j { offset := r.offset, length := bytes.length } none
  let s := match o with
    | .data bytes => kept bytes
    | .disconnect bytes => kept bytes
    | _ => s
  s.setChannel c ((s.channel c).dropRead r.offset)

/-- After an outcome (R66, R72): every admitted byte handled makes the channel ENDING (log 15), else a failure run of
16 ends the section short, its waiting page request withdrawn (log 67). -/
def State.afterOutcome (s : State) (c : Fin 4) (j : Job) : State :=
  let ch := s.channel c
  if ch.handled = j.admitted then s.setChannel c { ch with state := .ending, ending := some .full }
  else if ch.failureRun = Config.runMax then s.channelShort c .unreachable
  else s

/-- An outcome of a read at an address is taken by its channel (R69 to R72, R76). -/
def State.deliver (s : State) (c : Fin 4) (address : Nat) (o : ReadOutcome) : State :=
  let ch := s.channel c
  match ch.job with
  | none => s
  | some j =>
    match ch.hand.find? fun r => r.outstanding && j.base + r.offset == address with
    | none => s
    | some r =>
      match ch.state with
      | .ending => s.takeLastOutcome c j r o
      | _ => (s.takeOutcome c j r o).afterOutcome c j

/-! ### The end of a section (R74, R76) -/

/-- The state and cause a section ends with. -/
def Ending.result : Ending → SectionState × Option SectionCause
  | .full => (.done, none)
  | .short c => (.partly, some c)

/-- The section's data pages not yet passed, up to the one that holds its last written byte, pass (R74, R76). -/
def State.passRest (s : State) (c : Fin 4) (j : Job) (written : Nat) : Nat → State
  | 0 => s
  | n + 1 =>
    let p := (s.channel c).passed + 1
    if Config.pageBytes * (p - 1) < written then (s.passData c j p written).passRest c j written n else s

/-- A holder's pages stay given to their section when it goes back to IDLE (R64, R110). -/
def Staging.disown (b : Staging) (h : Holder) : Staging :=
  { b with pages := b.pages.map fun p => if p.holder = h then { p with holder := .nobody } else p }

/-- A channel's staging pages at its section's end (R64, R76): pages beyond the last passed one are freed, and the
others stay given to the section, held by nobody. -/
def Staging.leave (b : Staging) (c : Fin 4) (last : Nat) : Staging :=
  Staging.disown { b with
    pages := b.pages.filter fun p => !(p.holder == .channel c && p.key.kind == .data && decide (last < p.key.seq)) }
    (.channel c)

/-- A channel in ENDING with no read in hand ends its section (R74, R76): the remaining pages pass, the lock is released
if held, no request of the channel waits, the section takes its final state, and the end is reported. -/
def State.finishStep (s : State) (c : Fin 4) : Option State :=
  let ch := s.channel c
  match ch.state, ch.job, ch.ending with
  | .ending, some j, some why =>
    if ch.hand = [] then
      let s := s.passRest c j ch.handled (ch.given - ch.passed)
      let done := s.channel c
      let l := s.link j.domain
      let s := match l.lockHolder with
        | some x => if x.channel = c then s.setLink j.domain { l with lockHolder := none } else s
        | none => s
      let s := s.updSection j.dump j.index fun r =>
        { r with state := why.result.1, cause := why.result.2, written := ch.handled
                 crc := some (crc32Final done.crc) }
      let s := State.withdrawPages { s with staging := s.staging.leave c done.passed } (.channel c)
      some ((s.setChannel c Channel.idle).sectionEnded j.domain j.dump j.index)
    else none
  | _, _, _ => none

/-! ### Choosing a section (R59, R60) -/

/-- The PENDING REGION section of lowest index of a domain's open dump, if the domain is HARVESTING (R59). -/
def State.pickable (s : State) (d : Dom) : Option (Num × SectionRecord) :=
  match (s.domain d).state, s.openEntry d with
  | .harvesting, some e =>
    (e.sections.find? fun x => x.kind == .region && x.state == .pending).map fun x => (e.number, x)
  | _, _ => none

/-- The domain a pick prefers (R59). -/
def State.preferred (s : State) : Dom :=
  match s.lastPicked with
  | some d => otherDom d
  | none => .a

/-- A channel takes a section (R60). -/
def State.pick (s : State) (c : Fin 4) (d : Dom) (n : Num) (x : SectionRecord) : State :=
  let s := s.updSection n x.index fun r =>
    { r with state := .active, startTime := some s.partTime, linkMode := some (s.link d).mode, written := 0
             holes := [], holeOverflow := false }
  let job : Job := { dump := n, index := x.index, domain := d, base := x.base, admitted := x.admitted
                     atomic := x.atomic }
  let s := s.setChannel c
    { Channel.idle with state := .stalled, job := some job, retryLimit := (s.settings d).retry }
  ({ s with lastPicked := some d }).askPages (.channel c) [headerKey n x.index]

/-- One pick: the lowest-numbered IDLE channel takes a section of the preferred domain, or of the other (R59). -/
def State.pickStep (s : State) : Option State :=
  match (List.finRange 4).find? fun c => (s.channel c).state == .idle with
  | none => none
  | some c =>
    match s.pickable s.preferred with
    | some p => some (s.pick c s.preferred p.1 p.2)
    | none =>
      match s.pickable (otherDom s.preferred) with
      | some p => some (s.pick c (otherDom s.preferred) p.1 p.2)
      | none => none

end Sys2Proof.Machine
end

