-- ==== Sys2Proof/Machine/Link.lean ====
section
/-! DEFINITION. The harvest link (chapter 5): trainings and mode changes, the ends of reads with their counters and
flags, the downshift, the grant requests and the arbiter, and the lock. -/
namespace Sys2Proof.Machine

/-! ### Modes and trainings (R80, R81, R128) -/

/-- A mode change reported to a dump (R128): not kept once the manifest is built, else appended, or counted as history
overflow when 8 entries are held. -/
def DumpEntry.reportMode (e : DumpEntry) (m : Mode) (t : Time) : DumpEntry :=
  if e.closeTime.isSome then e
  else if e.history.length < Config.historyMax then { e with history := e.history ++ [{ mode := m, time := t }] }
  else { e with historyOverflow := satByte e.historyOverflow }

/-- The mode field of a link is given a value: on a change the downshift count is 0 (R81), and the change is reported
to the directory while the domain has an open dump (R80). -/
def State.setMode (s : State) (d : Dom) (m : Mode) : State :=
  let l := s.link d
  if l.mode = m then s
  else
    let s := s.setLink d { l with mode := m, downshifts := 0 }
    match (s.domain d).openDump with
    | some n => s.updDump n fun e => e.reportMode m s.partTime
    | none => s

/-- A training starts in a mode (R81); stayed-up clears (R98). -/
def State.startTraining (s : State) (d : Dom) (m : Mode) : State :=
  let s := s.setMode d m
  s.setLink d { s.link d with
    state := .training, trainingExpiry := some (s.partTime + ms Config.trainingMs), retryTimer := none
    widen := false, stayedUp := false }

/-- The link enters DOWN (R82, R83): its mode is WIDE, its training expiry is removed and stayed-up clears; the retry
timer takes the value given. -/
def State.linkDown (s : State) (d : Dom) (retry : Option Time) : State :=
  let s := s.setMode d .wide
  s.setLink d { s.link d with state := .down, trainingExpiry := none, retryTimer := retry, stayedUp := false }

/-- The next narrower mode (R97); SINGLE has none. -/
def Mode.narrower : Mode → Option Mode
  | .wide => some .narrow
  | .narrow => some .single
  | .single => none

/-! ### The ends of reads (R84, R88, R89, R97) -/

/-- Table 5-4: the counter and flag an outcome changes. -/
def Link.countOutcome (l : Link) : ReadOutcome → Link
  | .disconnect _ => { l with counters := { l.counters with disconnects := l.counters.disconnects.inc } }
  | .noClaim => { l with counters := { l.counters with noClaims := l.counters.noClaims.inc } }
  | .stall => { l with counters := { l.counters with stalls := l.counters.stalls.inc } }
  | .targetAbort =>
    { l with counters := { l.counters with targetAborts := l.counters.targetAborts.inc }, abortSeen := true }
  | .parity _ =>
    { l with counters := { l.counters with parityErrors := l.counters.parityErrors.inc }, paritySeen := true
             downshifts := satByte l.downshifts }
  | .data _ | .retrain | .linkDown => l

/-- One outstanding read ends with an outcome that changes no counter (RETRAIN or LINK_DOWN): its position is freed and
the outcome goes to its channel. -/
def State.dropOutstanding (s : State) (d : Dom) (o : ReadOutcome) (pos : Fin 2) : State :=
  let l := s.link d
  match l.positions[pos] with
  | some r => (s.setLink d { l with positions := l.positions.set pos none }).deliver r.channel r.address o
  | none => s

/-- Every outstanding read of a link ends RETRAIN (R84) or LINK_DOWN (R83). -/
def State.dropAll (s : State) (d : Dom) (o : ReadOutcome) : State :=
  (s.dropOutstanding d o 0).dropOutstanding d o 1

/-- A training from UP (R84, R97): the outstanding reads end RETRAIN, the retrains counter increments and the training
starts in a mode. -/
def State.retrain (s : State) (d : Dom) (m : Mode) : State :=
  let s := s.dropAll d .retrain
  let l := s.link d
  (s.setLink d { l with counters := { l.counters with retrains := l.counters.retrains.inc } }).startTraining d m

/-- A downshift from a mode to a narrower one (R97, in the order of its steps). -/
def State.downshift (s : State) (d : Dom) (before after : Mode) : State :=
  let s := s.setLink d { s.link d with shifted := true }
  let s := s.retrain d after
  ((s.recordLinkShift d before after).noticeLink d 1 before after).replan d

/-- After a PARITY outcome (R96): a count at or past the running threshold downshifts a link that is not SINGLE. -/
def State.parityCounted (s : State) (d : Dom) : State :=
  let l := s.link d
  match l.mode.narrower with
  | some m => if (s.settings d).threshold ≤ l.downshifts.toNat then s.downshift d l.mode m else s
  | none => s

/-- An outstanding read ends with an outcome (R85, R89): the position is freed, the counters and flags change, a PARITY
may downshift the link, and the outcome goes to the channel. -/
def State.endRead (s : State) (d : Dom) (pos : Fin 2) (r : LinkRead) (o : ReadOutcome) : State :=
  let l := s.link d
  let s := s.setLink d (Link.countOutcome { l with positions := l.positions.set pos none } o)
  let s := match o with
    | .parity _ => s.parityCounted d
    | _ => s
  s.deliver r.channel r.address o

/-- The bytes of received granules that belong to the section: all of a burst, or a partial read's masked bytes
(R85); granules not received are 0x00 (Table 5-3). -/
def LinkRead.delivered (r : LinkRead) (granules : List (List Byte)) (size : Nat) : List Byte :=
  slice granules.flatten (r.address % 64) size

/-! ### Grant requests and the arbiter (R91 to R94) -/

/-- The granule numbers of a byte range: first and last. -/
def granuleSpan (base length : Nat) : Nat × Nat := (base / 64, (base + length - 1) / 64)

/-- Whether two byte ranges touch a granule in common (R94). -/
def touches (base length base' length' : Nat) : Bool :=
  let x := granuleSpan base length
  let y := granuleSpan base' length'
  decide (x.1 ≤ y.2 ∧ y.1 ≤ x.2)

/-- Whether a claim on the lock, held or of the designate, blocks a request (R91, R94). -/
def LockClaim.blocks (x : LockClaim) (q : GrantRequest) : Bool :=
  x.channel != q.channel && touches x.base x.length q.address q.length

/-- Whether a request is eligible for a grant (R91). -/
def Link.eligible (l : Link) (q : GrantRequest) : Bool :=
  l.state == .up && !(l.lockHolder.toList ++ l.designate.toList).any fun x => x.blocks q

/-- The request a channel makes of a domain's link (R63, R91): for the lowest-addressed read of its hand that awaits a
grant, while it is FETCHING or STALLED. -/
def State.wanted (s : State) (d : Dom) (c : Fin 4) : Option GrantRequest :=
  let ch := s.channel c
  match ch.job with
  | none => none
  | some j =>
    if j.domain = d ∧ (ch.state = .fetching ∨ ch.state = .stalled) then
      let waiting := ch.hand.filter fun r => !r.outstanding
      let lowest := waiting.foldl (fun (m : Option HandRead) r =>
        match m with
        | some x => if r.offset < x.offset then some r else some x
        | none => some r) none
      lowest.map fun r =>
        { channel := c, address := j.base + r.offset, length := r.length
          locked := match (s.link d).lockHolder with
            | some x => x.channel == c
            | none => false }
    else none

/-- The grant requests of a link follow its channels (R91; log 14): made, re-aimed and withdrawn. -/
def State.askStep (s : State) (d : Dom) : Option State :=
  let wanted := (List.finRange 4).filterMap fun c => s.wanted d c
  if (s.link d).requests = wanted then none else some (s.setLink d { s.link d with requests := wanted })

/-- The byte mask of a partial read (R85): the bytes of its granule that it wants, bit i for the byte at the granule's
address plus i (log 54). -/
def byteMask (address length : Nat) : BitVec 64 := BitVec.ofNat 64 ((2 ^ length - 1) * 2 ^ (address % 64))

/-- A granted request is issued into a position (R85, R92), under the next number of its link's reads (log 57). -/
def State.issue (s : State) (d : Dom) (pos : Fin 2) (q : GrantRequest) : State :=
  let l := s.link d
  let burst := q.address % 64 = 0 ∧ q.length % 64 = 0
  let r : LinkRead :=
    { number := l.issued, channel := q.channel, address := q.address, length := q.length
      granules := if burst then q.length / 64 else 1
      mask := if burst then none else some (byteMask q.address q.length)
      locked := q.locked, issueTime := s.partTime, claimed := false, received := [], mismatch := false }
  let s := s.setLink d { l with
    positions := l.positions.set pos (some r), requests := l.requests.filter fun x => x.channel ≠ q.channel
    lastGranted := q.channel, counters := { l.counters with readsIssued := l.counters.readsIssued.inc }
    issued := l.issued + 1 }
  let ch := s.channel q.channel
  match ch.job with
  | some j => s.setChannel q.channel (ch.updRead (q.address - j.base) fun x => { x with outstanding := true })
  | none => s

/-- One grant (R92): the channels are looked at in number order from the one after the last granted, and the first
with an eligible request is granted into a free position. -/
def State.grantStep (s : State) (d : Dom) : Option State :=
  let l := s.link d
  match (List.finRange 2).find? fun p => l.positions[p].isNone with
  | none => none
  | some pos =>
    let order : List (Fin 4) := [l.lastGranted + 1, l.lastGranted + 2, l.lastGranted + 3, l.lastGranted]
    match order.findSome? fun c => l.requests.find? fun q => q.channel == c && l.eligible q with
    | some q => some (s.issue d pos q)
    | none => none

/-! ### The lock (R93) -/

/-- Whether an outstanding read of another channel touches a claim's granules (R93). -/
def Link.touched (l : Link) (x : LockClaim) : Bool :=
  l.positions.toList.any fun p =>
    match p with
    | some r => r.channel != x.channel && touches x.base x.length r.address r.length
    | none => false

/-- One step of the lock (R93): with the lock free, the first of the queue becomes designate; a designate whose granules
no other channel's outstanding read touches becomes the holder, and its channel enters FETCHING. -/
def State.lockStep (s : State) (d : Dom) : Option State :=
  let l := s.link d
  match l.lockHolder, l.designate, l.lockQueue with
  | some _, _, _ => none
  | none, none, x :: rest => some (s.setLink d { l with designate := some x, lockQueue := rest })
  | none, some x, _ =>
    if l.touched x then none
    else some ((s.setLink d { l with lockHolder := some x, designate := none }).setChannel x.channel
      { s.channel x.channel with state := .fetching })
  | none, none, [] => none

end Sys2Proof.Machine
end

