-- ==== Sys2Proof/Machine/Pump.lean ====
section
/-! DEFINITION. What the device does of itself within a command (95): staging pages are served, channels, copiers, the
directory's closing and the store take their next steps, one after another until none is enabled (log 4). -/
namespace Sys2Proof.Machine

/-! ### The journal copiers (R110, R111) -/

/-- A copier's section has ended (R110, R111): the record takes the CRC, the copier is IDLE, its pages stay given to
the section, the entry takes the pre-copy drops, and the end is reported. -/
def State.copyEnded (s : State) (d : Dom) (c : Copy) : State :=
  let s := s.updSection c.dump c.kind.index fun r => { r with state := .done, crc := some (crc32Final c.crc) }
  let s := match c.kind with
    | .pre => s.updDump c.dump fun e => { e with preDrops := some c.drops }
    | .post => s
  let s := s.setJournal d { s.journal d with copier := none }
  let s := { s with staging := s.staging.disown (.copier d) }
  s.sectionEnded d c.dump c.kind.index

/-- The copy section ends when every record of its window is copied (R110, R111). -/
def State.copyTest (s : State) (d : Dom) (c : Copy) : State :=
  if c.copied = c.count then s.copyEnded d c else s

/-- A copier's header page is given: it is filled and passed (R110, R111). -/
def State.copierHeader (s : State) (d : Dom) : State :=
  let j := s.journal d
  match j.copier with
  | none => s
  | some c =>
    match s.sect c.dump c.kind.index with
    | none => s
    | some x =>
      let c := { c with headerPassed := true }
      let s := s.stage (headerKey c.dump c.kind.index) (journalHeaderPage c.dump x c)
      (s.setJournal d { j with copier := some c }).copyTest d c

/-- A copier's data page is given (R110): it takes the next up to 64 records from the ring and passes. -/
def State.copierData (s : State) (d : Dom) (k : PageKey) : State :=
  let j := s.journal d
  match j.copier with
  | none => s
  | some c =>
    let records := j.nextRecords c
    let bytes := records.flatMap EventRecord.bytes
    let copied := c.copied + min 64 (c.count - c.copied)
    let c := { c with copied := copied, crc := crc32Feed c.crc bytes }
    let s := (s.stage k bytes).updSection c.dump c.kind.index fun r => { r with written := 64 * copied }
    (s.setJournal d { j with copier := some c }).copyTest d c

/-- A copier asks for its next page when it holds fewer than 16 and pages remain to copy (R110). -/
def State.copierStep (s : State) (d : Dom) : Option State :=
  match (s.journal d).copier with
  | none => none
  | some c =>
    if c.headerPassed ∧ c.copied < c.count ∧ s.staging.asks (.copier d) = false
        ∧ s.staging.heldBy (.copier d) < Config.holderCap then
      some (s.askPages (.copier d) [dataKey c.dump c.kind.index (c.copied / 64 + 1)])
    else none

/-! ### The directory's pages (R119, R126, R127, R131) -/

/-- The key of a dump's header page. -/
def dumpHeaderKey (n : Num) : PageKey := { dump := n, kind := .dumpHeader, index := 0, seq := 0 }

/-- The key of a manifest page. -/
def manifestKey (n : Num) (seq : Nat) : PageKey := { dump := n, kind := .manifest, index := 0, seq := seq }

/-- The dump header page is given (R126 step 7, R127). -/
def State.dumpHeaderGiven (s : State) (n : Num) : State :=
  match s.dump n with
  | some e => s.stage (dumpHeaderKey n) e.headerPage
  | none => s

/-- The two LATCH pages are given (R119, R127): both are filled and passed, and LATCH ends DONE. -/
def State.latchGiven (s : State) (n : Num) : State :=
  match s.dump n with
  | none => s
  | some e =>
    match e.sect 0, (s.work e.domain).latchPage with
    | some x, some bytes =>
      let s := (s.stage (headerKey n 0) (sectionHeaderPage n x)).stage (dataKey n 0 1) bytes
      let s := s.updSection n 0 fun r =>
        { r with state := .done, written := Config.pageBytes, crc := some (crc32 (padTo Config.pageBytes bytes)) }
      (s.setWork e.domain { s.work e.domain with latchPage := none }).sectionEnded e.domain n 0
    | _, _ => s

/-- A manifest page is given (R131): it takes its 4,096 bytes of the built manifest and passes. -/
def State.manifestGiven (s : State) (k : PageKey) : State :=
  match (s.work (s.domainOf k.dump)).manifest with
  | some bytes => s.stage k (slice bytes (Config.pageBytes * k.seq) Config.pageBytes)
  | none => s

/-- The directory asks for the next manifest page while it holds fewer than 4 and pages remain (R131). -/
def State.manifestStep (s : State) (d : Dom) : Option State :=
  let w := s.work d
  match w.manifest, (s.domain d).openDump with
  | some _, some n =>
    let mine (k : PageKey) : Bool := k.dump == n && k.kind == .manifest
    let held := (s.staging.pages.filter fun p => mine p.key).length
    let waiting := s.staging.requests.any fun r => r.keys.any mine
    if w.manifestAsked < 16 ∧ held < Config.manifestCap ∧ waiting = false then
      some ((s.setWork d { w with manifestAsked := w.manifestAsked + 1 }).askPages .directory
        [manifestKey n w.manifestAsked])
    else none
  | _, _ => none

/-! ### Serving the staging buffer (R64) -/

/-- What the holder of newly given pages does with them. -/
def State.given (s : State) (r : StagingRequest) : State :=
  match r.holder, r.keys with
  | .channel c, k :: _ => if k.kind = .sectionHeader then s.headerGiven c else s.dataGiven c r.keys.length
  | .copier d, k :: _ => if k.kind = .sectionHeader then s.copierHeader d else s.copierData d k
  | .directory, k :: _ =>
    match k.kind with
    | .dumpHeader => s.dumpHeaderGiven k.dump
    | .manifest => s.manifestGiven k
    | _ => s.latchGiven k.dump
  | _, _ => s

/-- The oldest waiting request is served when the free pages cover its whole count (R64). -/
def State.serveStep (s : State) : Option State :=
  match s.staging.requests with
  | [] => none
  | r :: rest =>
    if r.keys.length ≤ s.staging.free then
      let pages := r.keys.map fun k => { key := k, holder := r.holder, data := [] : StagingPage }
      some (State.given { s with staging := { pages := s.staging.pages ++ pages, requests := rest } } r)
    else none

/-! ### Closing (R129, R130) -/

/-- Whether every staging page of a dump has its program complete (R129). -/
def Staging.clearOf (b : Staging) (n : Num) : Bool := !b.pages.any fun p => p.key.dump == n

/-- Whether a section state is final (Table 7-4). -/
def SectionState.isFinal : SectionState → Bool
  | .pending | .active => false
  | .skipped | .done | .partly | .lost => true

/-- Whether every section other than JOURNAL_POST is final (R129). -/
def DumpEntry.settledSections (e : DumpEntry) : Bool :=
  e.sections.all fun x => x.kind == .journalPost || x.state.isFinal

/-- The post-copy starts (R111, R130). -/
def State.startPost (s : State) (d : Dom) (n : Num) : State :=
  let j := (s.journal d).startPost n s.partTime
  let p := (s.journal d).postFigures
  let s := s.setJournal d j
  let s := s.updDump n fun e =>
    { e with postCounts := some (BitVec.ofNat 32 p.lost, BitVec.ofNat 32 p.overflow) }
  let s := s.updSection n 2 fun r => { r with state := .active, startTime := some s.partTime }
  s.askPages (.copier d) [headerKey n 2]

/-- The manifest is built (R130): the close time and the domain counters are taken, and the bytes fixed. -/
def State.buildManifest (s : State) (d : Dom) (n : Num) : State :=
  let s := s.updDump n fun e =>
    { e with closeTime := some s.partTime, countersAtClose := some (s.domain d).counters }
  match s.dump n with
  | some e => s.setWork d { s.work d with manifest := some e.manifestBytes, manifestAsked := 0 }
  | none => s

/-- One step of a closing (R129, R130): with every section final and every page programmed the post-copy starts; with
the post-copy ended and every page programmed the manifest is built. -/
def State.closingStep (s : State) (d : Dom) : Option State :=
  match (s.domain d).state, s.openEntry d with
  | .closing, some e =>
    if e.settledSections ∧ s.staging.clearOf e.number then
      match (e.sect 2).map SectionRecord.state, (s.work d).manifest with
      | some .pending, _ => some (s.startPost d e.number)
      | some .done, none => some (s.buildManifest d e.number)
      | _, _ => none
    else none
  | _, _ => none

/-! ### The pump -/

/-- The steps of the device's own work, in the model's fixed order (log 4). -/
def State.steps (s : State) : List (Unit → Option State) :=
  [fun _ => s.serveStep]
    ++ (List.finRange 4).flatMap (fun c =>
        [fun _ => s.passStep c, fun _ => s.finishStep c, fun _ => s.cutStep c])
    ++ [Dom.a, Dom.b].flatMap (fun d =>
        [fun _ => s.lockStep d, fun _ => s.askStep d, fun _ => s.grantStep d])
    ++ [fun _ => s.pickStep]
    ++ [Dom.a, Dom.b].flatMap (fun d =>
        [fun _ => s.copierStep d, fun _ => s.closingStep d, fun _ => s.manifestStep d])
    ++ [fun _ => s.storeStep]

/-- The first enabled step, taken. -/
def State.pump (s : State) : Option State := s.steps.findSome? fun f => f ()

/-- Steps taken until none is enabled, or a bound is reached. -/
def settleLoop : Nat → State → State
  | 0, s => s
  | n + 1, s =>
    match s.pump with
    | some t => settleLoop n t
    | none => s

/-- The device's own work within a command, run to rest (95; log 4). -/
def State.settle (s : State) : State := settleLoop 4096 s

end Sys2Proof.Machine
end

