-- ==== Sys2Proof/Machine/Triggers.lean ====
section
/-! DEFINITION. Taking a trigger and opening a dump (R3 to R8, R37, R48, R109, R119, R125, R126). -/
namespace Sys2Proof.Machine

/-- What a trigger did (Table 1-6). -/
inductive Disposition where
  | opened (dump : Num)
  | openFailed (why : FailureCause)
  | appended
  | overflowed
  | late
  | missed
deriving DecidableEq, Repr

/-! ### Opening a dump -/

/-- The check of an opening that fails first, if any (R125). -/
def State.openingFailure (s : State) (d : Dom) : Option FailureCause :=
  if Config.directoryMax ≤ s.directory.entries.length then some .noDirectory
  else if s.directory.nextNumber = 0xFFFFFFFF#32 then some .noNumber
  else if s.spaceFor d then none
  else some .noSpace

/-- A fixed section at the opening (R124, Table 3-4). -/
def fixedSection (index : Nat) (kind : SectionKind) (state : SectionState) (len : Nat) (start : Option Time) :
    SectionRecord :=
  { index := index, kind := kind, state := state, cause := none, tag := 0, base := 0, label := 0, atomic := false
    planned := len, floor := len, admitted := len, truncated := false, written := 0, startTime := start
    linkMode := none, holes := [], holeOverflow := false, crc := none, delivered := 0 }

/-- A REGION section made from a plan entry (R37 steps 3 and 4). -/
def PlanEntry.toSection (x : PlanEntry) (index : Nat) : SectionRecord :=
  { index := index, kind := .region, state := .pending, cause := none, tag := x.tag, base := x.base
    label := x.label, atomic := x.atomic, planned := x.length, floor := x.floor, admitted := 0, truncated := false
    written := 0, startTime := none, linkMode := none, holes := [], holeOverflow := false, crc := none
    delivered := 0 }

/-- The plan's entries in harvest order: ascending priority, then ascending index (R27, R37 step 1). -/
def Plan.harvestOrder (p : Plan) : List PlanEntry :=
  (List.range 8).flatMap fun k => p.entries.filter fun x => x.priority == k

/-- The REGION sections of a snapshot: sections 3, 4, 5 and onward (R37 step 2). -/
def Plan.snapshot (p : Plan) : List SectionRecord := p.harvestOrder.mapIdx fun i x => x.toSection (i + 3)

/-- The entry of a dump as its opening creates it (R126 steps 1, 2, 4 and 5). -/
def State.newEntry (s : State) (d : Dom) (n : Num) (t : TriggerEntry) : DumpEntry :=
  let x := s.domain d
  { number := n, domain := d, state := .opened, triggers := [t], triggerTime := t.time, closeTime := none
    endCause := none, planGeneration := some (s.plan d).generation, wallTime := x.wallTime
    holdWindow := x.holdWindow.getD 0, holdEnable := x.holdEnable.getD false, modeAtOpening := (s.link d).mode
    history := [], historyOverflow := 0, preDrops := none, postCounts := none, countersAtClose := none
    sections := [fixedSection 0 .latch .active 4096 (some t.time),
                 fixedSection 1 .journalPre .active 131072 (some t.time),
                 fixedSection 2 .journalPost .pending 32768 none] ++ (s.plan d).snapshot
    manifestCheck := none, isProtected := false, fetched := false }

/-- An empty store record (R147). -/
def StoreRecord.new (n : Num) : StoreRecord :=
  { dump := n, blocks := [], openBlock := none, remainder := 0, debt := 0, pageMap := [], programmed := 0 }

/-- The admission record with the system reserve given (R44, R48 step 2): 61 pages, and 0 for each REGION section. -/
def Admission.opening (n : Num) (sections : Nat) : Admission :=
  { dump := n, headerShare := 1, manifestShare := 16, shares := [2, 33, 9] ++ List.replicate (sections - 3) 0 }

/-- The number given out, and the entry with its plan snapshot and its empty store record made (R126 steps 1 and 2). -/
def State.addDump (s : State) (d : Dom) (t : TriggerEntry) : State :=
  let n := s.directory.nextNumber
  { s with
    directory := { s.directory with entries := s.directory.entries ++ [s.newEntry d n t], nextNumber := n + 1 }
    store := { s.store with records := s.store.records ++ [StoreRecord.new n] } }

/-- The first work of dump `n` (R126; log 35): the header page request, the trigger mark and the pre-copy, and the latch
snapshot as the slots stand now. -/
def State.startDumpWork (s : State) (d : Dom) (n : Num) (now : Time) : State :=
  let s := s.askPages .directory [dumpHeaderKey n]
  let s := (s.setJournal d ((s.journal d).startPre n s.partTime)).askPages (.copier d) [headerKey n 1]
  let page := latchPage (s.journal d).slots now ((s.settings d).freshness * 1000)
  (s.setWork d { Work.empty with latchPage := some page }).askPages .directory [headerKey n 0, dataKey n 0 1]

/-- An opening whose checks have passed (R126, in the order of its steps; log 35): the number and the entry, the first
work, the system reserve and the walk. -/
def State.openDump (s : State) (d : Dom) (t : TriggerEntry) : State :=
  let n := s.directory.nextNumber
  let sections := 3 + (s.plan d).snapshot.length
  (((s.addDump d t).startDumpWork d n t.time).setAdmission d (some (Admission.opening n sections))).pass d

/-! ### Taking a trigger -/

/-- The end cause recorded at an opening (R4 step 5). -/
def State.causeAtOpening (s : State) (d : Dom) : Option EndCause :=
  if s.powerGood.get d = false then some .powerLost
  else if (s.link d).state = .down then some .linkLost
  else none

/-- A trigger that starts a dump, taken (R4): the domain is TRIGGERED, its TRIGGER record is appended, and the automatic
view follows it. -/
def State.triggerStarts (s : State) (d : Dom) (cause : TriggerCause) (code : Option (BitVec 32)) : State :=
  let s := s.setDomain d
    { s.domain d with state := .triggered, heartbeatTimer := none, triggerTime := some s.partTime }
  let s := s.recordTrigger d cause code 0
  { s with service := { s.service with autoDomain := d } }

/-- The opening fails (R5): the domain is SETTLED, with its DUMP_FAILED record and notice. -/
def State.openingFails (s : State) (d : Dom) (cause : TriggerCause) (why : FailureCause) : State :=
  let s := s.setDomain d { (s.domain d).withoutDump with state := .settled }
  (s.recordDumpFailed d cause why).noticeOpenFailed d cause why

/-- The opening is made (R4): the hold settings in force are taken, the dump is opened, and the hold timer and line start;
the notice and the re-plan of the other open dump follow. -/
def State.openingSucceeds (s : State) (d : Dom) (cause : TriggerCause) (code : Option (BitVec 32)) : State :=
  let n := s.directory.nextNumber
  let w := (s.settings d).holdWindow * 1000
  let enable := (s.settings d).holdEnable
  let s := s.setDomain d { s.domain d with openDump := some n, holdWindow := some w, holdEnable := some enable }
  let s := s.openDump d { cause := cause, time := s.partTime, code := code }
  let s := s.setDomain d { s.domain d with
    holdTimer := some (s.partTime + ms w), holdLine := enable, endCause := s.causeAtOpening d }
  (s.noticeOpened d cause n (s.plan d).generation).replan (otherDom d)

/-- A trigger that starts a dump (R4, R5). -/
def State.startDump (s : State) (d : Dom) (cause : TriggerCause) (code : Option (BitVec 32)) : State × Disposition :=
  let s := s.triggerStarts d cause code
  match s.openingFailure d with
  | some why => (s.openingFails d cause why, .openFailed why)
  | none => (s.openingSucceeds d cause code, .opened s.directory.nextNumber)

/-- A trigger taken while a dump is open (R6): appended with its TRIGGER record while the list holds fewer than 8
entries, else counted as overflow. -/
def State.appendTrigger (s : State) (d : Dom) (cause : TriggerCause) (code : Option (BitVec 32)) :
    State × Disposition :=
  match s.openEntry d with
  | some e =>
    if e.triggers.length < Config.triggerMax then
      ((s.updDump e.number fun x =>
          { x with triggers := x.triggers ++ [{ cause := cause, time := s.partTime, code := code }] }).recordTrigger
            d cause code e.number, .appended)
    else (s.setDomain d { s.domain d with overflow := (s.domain d).overflow.inc }, .overflowed)
  | none => (s.setDomain d { s.domain d with overflow := (s.domain d).overflow.inc }, .overflowed)

/-- A missed trigger counted (R6, R8, R23). -/
def State.countMissed (s : State) (d : Dom) : State :=
  s.setDomain d { s.domain d with missed := (s.domain d).missed.inc }

/-- A late trigger counted (R6). -/
def State.countLate (s : State) (d : Dom) : State :=
  s.setDomain d { s.domain d with late := (s.domain d).late.inc }

/-- A trigger taken by a domain controller (R4, R6, Table 1-5). -/
def State.takeTrigger (s : State) (d : Dom) (cause : TriggerCause) (code : Option (BitVec 32)) : State × Disposition :=
  match (s.domain d).state with
  | .armed => s.startDump d cause code
  | .settled => if cause = .manual then s.startDump d cause code else (s.countLate d, .late)
  | .triggered | .harvesting => s.appendTrigger d cause code
  | .closing => (s.countLate d, .late)
  | .disarmed => (s.countMissed d, .missed)

/-- Whether a trigger opened a dump: what the device's own work follows. -/
def Disposition.isOpened : Disposition → Bool
  | .opened _ => true
  | .openFailed _ | .appended | .overflowed | .late | .missed => false

/-- The device's own work after a trigger, if it opened a dump. -/
def State.worked (s : State) (x : Disposition) : State := if x.isOpened then s.settle else s

end Sys2Proof.Machine
end

