-- ==== Sys2Proof/Machine/Operands.lean ====
section
/-! DEFINITION. How a request reaches its owning rule and how its reply comes back: the tests of R163, permissions
(R170), body sizes (Table 9-6), the domain a request names (R169), and the taking up of the oldest frame. -/
namespace Sys2Proof.Machine

/-! ### Status codes (Table 9-3) -/

def stOk : Byte := 0x00
def stOkAdjusted : Byte := 0x01
def stAccepted : Byte := 0x02
def stBusy : Byte := 0x10
def stUnknownKind : Byte := 0x11
def stMalformed : Byte := 0x12
def stRange : Byte := 0x13
def stNotFound : Byte := 0x14
def stState : Byte := 0x15
def stFull : Byte := 0x16
def stDuplicate : Byte := 0x17
def stDenied : Byte := 0x18

/-- OK, or OK_ADJUSTED where a value was clamped. -/
def stOkIf (adjusted : Bool) : Byte := if adjusted then stOkAdjusted else stOk

/-! ### The tests (R163) -/

/-- Whether a kind is a request kind of Table 9-6. -/
def isRequestKind (k : Nat) : Bool := decide (1 ≤ k ∧ k ≤ 0x1F)

/-- Whether a port may make a request of a kind (R170, Table 9-6). -/
def permitted (p : PortId) (k : Nat) : Bool :=
  match p with
  | .service => decide (k ≤ 0x0A ∨ 0x0E ≤ k)
  | .platform _ => decide (k ≤ 0x0D)

/-- Whether a body's size fits its kind (Table 9-6). -/
def bodyFits (k : Nat) (body : List Byte) : Bool :=
  let n := body.length
  match k with
  | 0x05 => n == 29
  | 0x06 => n == 2
  | 0x08 => n == 1
  | 0x09 => n == 3
  | 0x0B => decide (5 ≤ n) && n == 5 + field body 3 1
  | 0x0C => n == 0 || n == 8
  | 0x0D => n == 4
  | 0x12 => n == 6
  | 0x13 => n == 13
  | 0x14 => n == 2
  | 0x15 => n == 5
  | 0x16 => n == 5
  | 0x17 => n == 5
  | 0x18 => n == 5
  | 0x19 => n == 1
  | 0x1C =>
    let item := field body 0 1
    if 1 ≤ item ∧ item ≤ 8 then n == 3
    else if item = 9 then n == 17
    else if item = 10 then n == 33
    else n == 3 || n == 17 || n == 33
  | 0x1E => n == 1
  | _ => n == 0

/-- Whether a request names a domain (Table 9-6, R178). -/
def namesDomain (k : Nat) (body : List Byte) : Bool :=
  decide ((3 ≤ k ∧ k ≤ 0x10) ∨ k = 0x15 ∨ k = 0x19
    ∨ (k = 0x1C ∧ 1 ≤ field body 0 1 ∧ field body 0 1 ≤ 8))

/-- The domain of the Service Port's view (R169). -/
def State.viewDomain (s : State) : Dom :=
  match s.service.view with
  | .auto => s.service.autoDomain
  | .manual d => d

/-- The domain a domain byte resolves to on a port (R169). -/
def State.resolve (s : State) (p : PortId) (b : Byte) : Dom :=
  match p with
  | .platform d => d
  | .service => if b = 0 then .a else if b = 1 then .b else s.viewDomain

/-- The domain test (R163 test 4): the status it refuses with, if it fails. -/
def domainTest (p : PortId) (b : Byte) : Option Byte :=
  if b ≠ 0 ∧ b ≠ 1 ∧ b ≠ 0xFF then some stMalformed
  else
    match p with
    | .platform d => if b = domByte (otherDom d) then some stDenied else none
    | .service => none

/-- Tests 1 to 5 of R163: the status of the first that fails. -/
def State.refusal (s : State) (p : PortId) (f : Frame) : Option Byte :=
  let k := f.kind.toNat
  if isRequestKind k = false then some stUnknownKind
  else if permitted p k = false then some stDenied
  else if bodyFits k f.body = false then some stMalformed
  else
    match (if namesDomain k f.body then domainTest p f.domain else none) with
    | some st => some st
    | none => if s.startUp ≠ .finished ∧ k ≠ 0x01 ∧ k ≠ 0x0B then some stBusy else none

/-! ### Taking up a request -/

/-- Whether a port may begin a request (R163): none is in processing, the output queue has a free place, and no
accepted RESTART waits for its effect. -/
def State.mayBegin (s : State) (p : PortId) : Bool :=
  let q := s.port p
  q.processing.isNone && decide (q.output.length + q.reserved < 32)
    && (match p with
        | .service => s.restart == .none
        | .platform _ => true)

/-- The frame a port takes up next (R163). -/
def State.nextFrame (s : State) (p : PortId) : Option Frame :=
  if s.mayBegin p then (s.port p).input.head? else none

/-- A reply to a frame (R161): its kind plus 0x80, its tag, a domain byte, the status and a body.  R161 gives the reply
kinds 0x81 to 0x9F alone; the reply to an unknown kind is its kind plus 0x80 too (log 55). -/
def Frame.reply (f : Frame) (dom : Byte) (status : Byte) (body : List Byte) : Frame :=
  { kind := f.kind + 0x80, tag := f.tag, domain := dom, body := status :: body }

/-- What an owning rule answers over a new state: a reply with its status and body, or nothing yet for a request that
completes later; `work` and `heldWork` say that the device's own work follows within the command (95; log 4), and
`after` what follows the reply itself (R141: the verify goes on after its ACCEPTED reply). -/
inductive Answer where
  | reply (s : State) (status : Byte) (body : List Byte)
  | held (s : State)
  | work (s : State) (status : Byte) (body : List Byte)
  | heldWork (s : State)
  | after (s : State) (status : Byte) (body : List Byte) (act : State → State)

/-- One reply place reserved at the start of processing (R163). -/
def State.reserve (s : State) (p : PortId) : State := s.setPort p { s.port p with reserved := 1 }

/-- A refusal at tests 1 to 5 (R163; log 19): the status alone, and a CRASH or CAPTURE refused BUSY counts as a missed
trigger of its domain (R23). -/
def State.refuse (s : State) (p : PortId) (f : Frame) (status : Byte) : State :=
  let s := if status = stBusy ∧ (f.kind = 0x0D ∨ f.kind = 0x0E) then s.countMissed (s.resolve p f.domain) else s
  s.complete p (f.reply 0xFF status [])

/-- The domain byte of a reply (R161): the domain acted on, or 0xFF for a request that names none. -/
def State.replyDomain (s : State) (p : PortId) (f : Frame) : Byte :=
  if namesDomain f.kind.toNat f.body then domByte (s.resolve p f.domain) else 0xFF

/-- The owning rule's answer carried back (R163). -/
def Answer.finish (x : Answer) (p : PortId) (f : Frame) (dom : Byte) : State :=
  match x with
  | .reply s status body => s.complete p (f.reply dom status body)
  | .held s => s
  | .work s status body => (s.complete p (f.reply dom status body)).settle
  | .heldWork s => s.settle
  | .after s status body act => act (s.complete p (f.reply dom status body))

/-- A port takes up its oldest frame, which is of a kind (R163): the tests, then the owning rule.  A command for a
frame that is not there changes nothing (log 3). -/
def State.request (s : State) (p : PortId) (kind : Byte) (act : State → Frame → Dom → Answer) : State :=
  match s.nextFrame p with
  | none => s
  | some f =>
    if f.kind = kind then
      let s := s.reserve p
      match s.refusal p f with
      | some status => s.refuse p f status
      | none => (act s f (s.resolve p f.domain)).finish p f (s.replyDomain p f)
    else s

/-- An accepted request that only answers OK with a body. -/
def Answer.ok (s : State) (body : List Byte) : Answer := .reply s stOk body

/-- An accepted request that answers OK with a body and is followed by the device's own work. -/
def Answer.okWork (s : State) (body : List Byte) : Answer := .work s stOk body

/-- A request refused by its owning rule with the status alone. -/
def Answer.refused (s : State) (status : Byte) : Answer := .reply s status []

end Sys2Proof.Machine
end

