-- ==== Sys2Proof/Machine/DomainRequests.lean ====
section
/-! DEFINITION. The requests that the domain controllers carry out (chapter 1): STATUS, ARM, DISARM, HEARTBEAT, CRASH
with CRASH_TAKEN, CAPTURE, ABORT and RELEASE HOLD. -/
namespace Sys2Proof.Machine

/-! ### STATUS (R22) -/

/-- One domain's part of the STATUS reply, 29 bytes (Table 9-6). -/
def State.statusBytes (s : State) (d : Dom) : List Byte :=
  let x := s.domain d
  le 1 x.state.code ++ [flagByte x.holdLine] ++ le 4 (s.remaining x.holdTimer) ++ le 4 (s.remaining x.heartbeatTimer)
    ++ le 4 (codeOr BitVec.toNat x.openDump) ++ le 1 (codeOr EndCause.code x.endCause)
    ++ [flagByte x.wallTime.isSome] ++ le 8 (codeOr (fun w => w.wall.toNat) x.wallTime)
    ++ le 4 (codeOr (fun w => w.arrival.toNat) x.wallTime) ++ le 1 (s.inputLevels d)

/-- STATUS (R22): it changes nothing. -/
def statusAct (s : State) (_ : Frame) (_ : Dom) : Answer := .ok s (s.statusBytes .a ++ s.statusBytes .b)

/-! ### ARM and DISARM (R20, R21) -/

/-- ARM (R20). -/
def armAct (s : State) (_ : Frame) (d : Dom) : Answer :=
  match (s.domain d).state with
  | .disarmed | .settled => .ok (s.enterArmed d) []
  | .armed => .ok s []
  | .triggered | .harvesting | .closing => .refused s stState

/-- DISARM (R21). -/
def disarmAct (s : State) (_ : Frame) (d : Dom) : Answer :=
  match (s.domain d).state with
  | .armed | .settled => .ok (s.setDomain d { s.domain d with state := .disarmed, heartbeatTimer := none }) []
  | .disarmed | .triggered | .harvesting | .closing => .refused s stState

/-! ### HEARTBEAT (R10) -/

/-- The heartbeat counted and its wall-time value kept (R10). -/
def Domain.heartbeat (x : Domain) (body : List Byte) (now : Time) : Domain :=
  { x with
    heartbeats := x.heartbeats.inc
    wallTime := if body = [] then x.wallTime
      else some { wall := BitVec.ofNat 64 (field body 0 8), arrival := now } }

/-- HEARTBEAT (R10): in ARMED the timer restarts, and in SETTLED with auto-arm on and power good the domain is armed. -/
def heartbeatAct (s : State) (f : Frame) (d : Dom) : Answer :=
  let s := s.setDomain d ((s.domain d).heartbeat f.body s.partTime)
  match (s.domain d).state with
  | .armed => .ok (s.startHeartbeat d) []
  | .settled => .ok (if (s.settings d).autoArm ∧ s.powerGood.get d then s.enterArmed d else s) []
  | .disarmed | .triggered | .harvesting | .closing => .ok s []

/-! ### CRASH and CAPTURE (R7, R8, R105) -/

/-- The reply body of a trigger: its disposition, with the dump number or the failure cause (Table 9-6; log 43). -/
def Disposition.bytes : Disposition → List Byte
  | .opened n => le 1 1 ++ le 4 n.toNat
  | .openFailed why => le 1 2 ++ le 1 why.code
  | .appended => le 1 3
  | .overflowed => le 1 4
  | .late => le 1 5
  | .missed => le 1 6

/-- The answer of a trigger's request (R7, R8): OK with the disposition, and the device's own work if a dump opened. -/
def Answer.trigger (r : State × Disposition) : Answer :=
  if r.2.isOpened then .okWork r.1 r.2.bytes else .ok r.1 r.2.bytes

/-- CRASH (R7, R105): taken at once when the domain's intake queue is empty, else held at the port. -/
def crashAct (s : State) (f : Frame) (d : Dom) : Answer :=
  let code := BitVec.ofNat 32 (field f.body 0 4)
  if (s.journal d).intake = [] then
    Answer.trigger (s.takeTrigger d .crashNotice (some code))
  else .held (s.setPort (.platform d) { s.port (.platform d) with processing := some (.crash code) })

/-- The held CRASH of a platform port is taken once its intake queue is empty (R105). -/
def State.crashTaken (s : State) (d : Dom) : State :=
  let q := s.port (.platform d)
  match q.processing, q.input with
  | some (.crash code), f :: _ =>
    if (s.journal d).intake = [] then
      let r := s.takeTrigger d .crashNotice (some code)
      (r.1.complete (.platform d) (f.reply (domByte d) stOk r.2.bytes)).worked r.2
    else s
  | _, _ => s

/-- CAPTURE (R8): a MANUAL trigger in ARMED and SETTLED, refused elsewhere and counted as missed in DISARMED. -/
def captureAct (s : State) (_ : Frame) (d : Dom) : Answer :=
  match (s.domain d).state with
  | .armed | .settled =>
    Answer.trigger (s.takeTrigger d .manual none)
  | .disarmed => .refused (s.countMissed d) stState
  | .triggered | .harvesting | .closing => .refused s stState

/-! ### ABORT and RELEASE HOLD (R14, R15) -/

/-- ABORT (R15): it ends the harvest and leaves the hold line. -/
def abortAct (s : State) (_ : Frame) (d : Dom) : Answer :=
  match (s.domain d).state with
  | .triggered | .harvesting => .okWork (s.endHarvest d .aborted) []
  | .closing | .disarmed | .armed | .settled => .refused s stState

/-- RELEASE HOLD (R14): it releases the line and ends the harvest. -/
def releaseHoldAct (s : State) (_ : Frame) (d : Dom) : Answer :=
  match (s.domain d).state with
  | .triggered | .harvesting => .okWork ((s.releaseLine d .released).endHarvest d .holdReleased) []
  | .closing => .ok (s.releaseLine d .released) []
  | .disarmed | .armed | .settled => .refused s stState

/-! ### The commands -/

def execStatus (p : PortId) (s : State) : Host.Outcome State Fault Refusal := .next (s.request p 0x02 statusAct)
def execArm (p : PortId) (s : State) : Host.Outcome State Fault Refusal := .next (s.request p 0x03 armAct)
def execDisarm (p : PortId) (s : State) : Host.Outcome State Fault Refusal := .next (s.request p 0x04 disarmAct)
def execHeartbeat (p : PortId) (s : State) : Host.Outcome State Fault Refusal :=
  .next (s.request p 0x0C heartbeatAct)
def execCrash (p : PortId) (s : State) : Host.Outcome State Fault Refusal := .next (s.request p 0x0D crashAct)
def execCrashTaken (d : Dom) (s : State) : Host.Outcome State Fault Refusal := .next (s.crashTaken d)
def execCapture (p : PortId) (s : State) : Host.Outcome State Fault Refusal := .next (s.request p 0x0E captureAct)
def execAbort (p : PortId) (s : State) : Host.Outcome State Fault Refusal := .next (s.request p 0x0F abortAct)
def execReleaseHold (p : PortId) (s : State) : Host.Outcome State Fault Refusal :=
  .next (s.request p 0x10 releaseHoldAct)

end Sys2Proof.Machine
end

