-- ==== Sys2Proof/Machine/JournalRequests.lean ====
section
/-! DEFINITION. The commands of the journals and latch slots (chapter 6): EVENT, JOURNAL READ, LATCH SET, LATCH READ,
INTAKE_STEP_COMPLETE and AGING_EXPIRY. -/
namespace Sys2Proof.Machine

/-! ### EVENT and the intake queue (R104 to R106) -/

/-- The field test of R104: whether an EVENT body is refused with RANGE. -/
def eventOutOfRange (body : List Byte) : Bool :=
  decide (field body 0 1 = 15 ∨ 15 < field body 0 1 ∨ field body 1 1 = 0 ∨ field body 1 1 = 255
    ∨ 3 < field body 2 1 ∨ 48 < field body 3 1)

/-- The producer check of R104: set when the body's bytes do not sum to 0 modulo 256. -/
def checkBad (body : List Byte) : Bool := (body.map BitVec.toNat).sum % 256 != 0

/-- The record an EVENT body carries (R102, R104). -/
def eventRecord (body : List Byte) (now : Time) : EventRecord :=
  { sequence := 0, time := now, origin := field body 0 1, eventClass := BitVec.ofNat 8 (field body 1 1)
    severity := field body 2 1, payload := slice body 4 (field body 3 1), checkBad := checkBad body }

/-- A record joins the intake queue and, with no step in flight, its step starts (R104, R105). -/
def Journal.accept (j : Journal) (r : EventRecord) : Journal :=
  { j with intake := j.intake ++ [r], intakeStep := true }

/-- HOLD(0xFFFF) when an acceptance brings the queue to 24 records with hold-off sent clear (R106). -/
def State.throttle (s : State) (d : Dom) : State :=
  let j := s.journal d
  if j.intake.length = 24 ∧ j.holdOff = false then
    (s.setJournal d { j with holdOff := true }).sendHold (.platform d) 0xFFFF
  else s

/-- HOLD(0) when a completion brings the queue down to 8 records with hold-off sent set (R106). -/
def State.unthrottle (s : State) (d : Dom) : State :=
  let j := s.journal d
  if j.intake.length = 8 ∧ j.holdOff = true then
    (s.setJournal d { j with holdOff := false }).sendHold (.platform d) 0
  else s

/-- EVENT (R104). -/
def eventAct (s : State) (f : Frame) (d : Dom) : Answer :=
  let j := s.journal d
  if eventOutOfRange f.body then .refused s stRange
  else if Config.intakeMax ≤ j.intake.length then
    .refused (s.setJournal d { j with overruns := j.overruns.inc }) stFull
  else
    let r := eventRecord f.body s.partTime
    .ok ((s.setJournal d (j.accept r)).throttle d) [flagByte r.checkBad]

/-- The intake step of a journal completes (R105): its record is appended and leaves the queue, and the next step
starts if a record waits. -/
def State.intakeDone (s : State) (d : Dom) : State :=
  let j := s.journal d
  match j.intakeStep, j.intake with
  | true, r :: rest =>
    (s.setJournal d { j.append r with intake := rest, intakeStep := !rest.isEmpty }).unthrottle d
  | _, _ => s

/-! ### Aging (R116) -/

/-- A slot's aging expiry is taken (R116). -/
def State.agingTaken (s : State) (d : Dom) (slot : Fin 16) : State :=
  let x := (s.journal d).slots[slot]
  match x.aging with
  | some t =>
    let s := s.reach t
    s.setJournal d { s.journal d with slots := (s.journal d).slots.set slot { x with aged := true, aging := none } }
  | none => s

/-! ### JOURNAL READ (R112) -/

/-- The head of a JOURNAL READ reply: the oldest sequence, the next sequence (0 exhausted), the gap flag and the
count. -/
def Journal.readHead (j : Journal) (gap : Bool) (returned : Nat) : List Byte :=
  le 4 (codeOr BitVec.toNat j.oldest) ++ le 4 (codeOr BitVec.toNat j.nextSequence) ++ [flagByte gap] ++ le 1 returned

/-- The records from a ring position, with the head of the reply. -/
def Journal.readFrom (j : Journal) (gap : Bool) (skip count : Nat) : List Byte :=
  let records := (j.ring.drop skip).take count
  j.readHead gap records.length ++ records.flatMap EventRecord.bytes

/-- JOURNAL READ (R112): it changes nothing.  A refusal with RANGE carries the head alone, with the gap flag clear and no
record (log 53). -/
def journalReadAct (s : State) (f : Frame) (d : Dom) : Answer :=
  let j := s.journal d
  let start := field f.body 0 4
  let asked := field f.body 4 1
  let count := max 1 (min 16 asked)
  let ok := stOkIf (decide (asked ≠ count))
  let above := match j.nextSequence with
    | some q => decide (q.toNat < start)
    | none => false
  let atNext := match j.nextSequence with
    | some q => start == q.toNat
    | none => false
  match j.oldest with
  | none =>
    if above then .reply s stRange (j.readHead false 0) else .reply s ok (j.readHead false 0)
  | some o =>
    if above then .reply s stRange (j.readHead false 0)
    else if atNext then .reply s ok (j.readHead false 0)
    else if o.toNat ≤ start then .reply s ok (j.readFrom false (start - o.toNat) count)
    else .reply s ok (j.readFrom (decide (1 < o.toNat)) 0 count)

/-! ### LATCH SET and LATCH READ (R117, R118) -/

/-- LATCH SET (R117, R178). -/
def latchSetAct (s : State) (f : Frame) (d : Dom) : Answer :=
  let cls := BitVec.ofNat 8 (field f.body 1 1)
  if h : field f.body 0 1 < 16 then
    if cls = 0xFF then .refused s stRange
    else
      let j := s.journal d
      let x := Slot.programmed cls (decide (field f.body 2 1 ≠ 0))
      let s := s.setJournal d { j with slots := j.slots.set (field f.body 0 1) x h }
      .ok { s with config := { s.config with unsaved := true } } []
  else .refused s stRange

/-- LATCH READ (R118): the 16 slots as they stand, and then every received flag clears. -/
def latchReadAct (s : State) (_ : Frame) (d : Dom) : Answer :=
  let j := s.journal d
  let body := j.slots.toList.flatMap fun x => x.bytes s.partTime ((s.settings d).freshness * 1000)
  .ok (s.setJournal d { j with slots := j.slots.map fun x => { x with received := false } }) body

/-! ### The commands -/

def execEvent (p : PortId) (s : State) : Host.Outcome State Fault Refusal := .next (s.request p 0x0B eventAct)
def execIntakeStepComplete (d : Dom) (s : State) : Host.Outcome State Fault Refusal := .next (s.intakeDone d)
def execAgingExpiry (d : Dom) (slot : Fin 16) (s : State) : Host.Outcome State Fault Refusal :=
  .next (s.agingTaken d slot)
def execJournalRead (p : PortId) (s : State) : Host.Outcome State Fault Refusal :=
  .next (s.request p 0x15 journalReadAct)
def execLatchSet (p : PortId) (s : State) : Host.Outcome State Fault Refusal := .next (s.request p 0x09 latchSetAct)
def execLatchRead (p : PortId) (s : State) : Host.Outcome State Fault Refusal := .next (s.request p 0x0A latchReadAct)

end Sys2Proof.Machine
end

