-- ==== Sys2Proof/Machine/LinkEvents.lean ====
section
/-! DEFINITION. The events of the harvest links (chapter 5): the ends of trainings, the retry timer, the target's
retrain request, and what the target or a window does to an outstanding read.  An event that belongs to no read or no
training is ignored (R82, R84, R86). -/
namespace Sys2Proof.Machine

/-- The target completes the training (R82): the one in progress, if there is one.  DESIGN CHOICE (log 65): the command
names no training, so a completion is ignored only where none is in progress. -/
def State.trainingDone (s : State) (d : Dom) : State :=
  let l := s.link d
  if l.state = .training then (s.setLink d { l with state := .up, trainingExpiry := none }).settle else s

/-- The training fails (R82): the link goes DOWN, the retry timer runs 100 ms, the LINK notice LOST is sent, and the
domain takes a link loss (R16).  The expiry is that of the training in progress (log 65). -/
def State.trainingFailed (s : State) (d : Dom) : State :=
  let l := s.link d
  match l.state, l.trainingExpiry with
  | .training, some t =>
    let s := s.reach t
    let s := s.linkDown d (some (s.partTime + ms Config.retryMs))
    ((s.noticeLink d 2 l.mode .wide).endHarvest d .linkLost).settle
  | _, _ => s

/-- The retry timer expires (R81): a training starts while the link is DOWN and power-good high. -/
def State.retryExpiry (s : State) (d : Dom) : State :=
  match (s.link d).retryTimer with
  | some t =>
    let s := s.reach t
    let s := s.setLink d { s.link d with retryTimer := none }
    if (s.link d).state = .down ∧ s.powerGood.get d then s.startTraining d .wide else s
  | none => s

/-- The target asks to retrain (R84): taken while the link is UP; the mode is WIDE under a widen request, else the
current one (R81). -/
def State.retrainAsked (s : State) (d : Dom) : State :=
  let l := s.link d
  if l.state = .up then (s.retrain d (if l.widen then .wide else l.mode)).settle else s

/-- The outstanding read that an event names, by its position and its number (log 57); an event that names a read that
has ended belongs to no read, though another one holds the position by now (R84, R86, R87). -/
def State.readAt (s : State) (d : Dom) (read : ReadName) : Option LinkRead :=
  (s.link d).positions[read.pos].filter fun r => r.number == read.number

/-- The target claims an outstanding read (R86). -/
def State.claimRead (s : State) (d : Dom) (read : ReadName) : State :=
  match s.readAt d read with
  | some r => s.setLink d { s.link d with
      positions := (s.link d).positions.set read.pos (some { r with claimed := true }) }
  | none => s

/-- The claim window of a read runs out (R86); a claim taken first has ended the window. -/
def State.claimExpiry (s : State) (d : Dom) (read : ReadName) : State :=
  match s.readAt d read with
  | some r => if r.claimed then s else (s.endRead d read.pos r .noClaim).settle
  | none => s

/-- A granule of a claimed read arrives (R86, R88): the last one ends the read DATA, or PARITY with a mismatch
noted. -/
def State.granule (s : State) (d : Dom) (read : ReadName) (data : List Byte) (parityGood : Bool) : State :=
  let l := s.link d
  match s.readAt d read with
  | some r =>
    if r.claimed then
      let r := { r with received := r.received ++ [padTo 64 data], mismatch := r.mismatch || !parityGood }
      if r.granules ≤ r.received.length then
        let bytes := r.delivered r.received r.length
        (s.endRead d read.pos r (if r.mismatch then .parity bytes else .data bytes)).settle
      else s.setLink d { l with positions := l.positions.set read.pos (some r) }
    else s
  | none => s

/-- A granule window of a claimed read runs out (R86).  The event names its window by the granules received when it
began: one taken first has begun another window (log 57). -/
def State.granuleExpiry (s : State) (d : Dom) (window : WindowName) : State :=
  match s.readAt d window.read with
  | some r => if r.claimed ∧ r.received.length = window.granules then (s.endRead d window.read.pos r .stall).settle else s
  | none => s

/-- The target disconnects a read (R87, R88): before the first granule it is a target error. -/
def State.disconnectRead (s : State) (d : Dom) (read : ReadName) : State :=
  match s.readAt d read with
  | some r =>
    (s.endRead d read.pos r
      (if r.received = [] then .targetAbort
       else if r.mismatch then .parity (r.delivered r.received r.length)
       else .disconnect (r.delivered r.received (64 * r.received.length)))).settle
  | none => s

/-- The target aborts a read (R87). -/
def State.abortRead (s : State) (d : Dom) (read : ReadName) : State :=
  match s.readAt d read with
  | some r => (s.endRead d read.pos r .targetAbort).settle
  | none => s

def execTrainingComplete (d : Dom) (s : State) : Host.Outcome State Fault Refusal := .next (s.trainingDone d)
def execTrainingExpiry (d : Dom) (s : State) : Host.Outcome State Fault Refusal := .next (s.trainingFailed d)
def execLinkRetryTimerExpiry (d : Dom) (s : State) : Host.Outcome State Fault Refusal := .next (s.retryExpiry d)
def execTargetRetrainRequest (d : Dom) (s : State) : Host.Outcome State Fault Refusal :=
  .next (s.retrainAsked d)
def execTargetClaim (d : Dom) (read : ReadName) (s : State) : Host.Outcome State Fault Refusal := .next (s.claimRead d read)
def execClaimWindowExpiry (d : Dom) (read : ReadName) (s : State) : Host.Outcome State Fault Refusal :=
  .next (s.claimExpiry d read)
def execGranuleArrival (d : Dom) (read : ReadName) (data : List Byte) (parityGood : Bool) (s : State) :
    Host.Outcome State Fault Refusal := .next (s.granule d read data parityGood)
def execGranuleWindowExpiry (d : Dom) (window : WindowName) (s : State) : Host.Outcome State Fault Refusal :=
  .next (s.granuleExpiry d window)
def execDisconnect (d : Dom) (read : ReadName) (s : State) : Host.Outcome State Fault Refusal :=
  .next (s.disconnectRead d read)
def execTargetAbort (d : Dom) (read : ReadName) (s : State) : Host.Outcome State Fault Refusal :=
  .next (s.abortRead d read)

end Sys2Proof.Machine
end

