-- ==== Sys2Proof/Machine/PlanRequests.lean ====
section
/-! DEFINITION. The requests of the region plans (chapter 2): PLAN ADD, PLAN DELETE, PLAN CLEAR and PLAN READ. -/
namespace Sys2Proof.Machine

/-- The fields of a PLAN ADD body (R29, Table 9-6). -/
structure AddFields where
  tag : BitVec 16
  base : Nat
  length : Nat
  priority : Nat
  floor : Option Nat
  atomic : Bool
  label : Byte
deriving DecidableEq, Repr

/-- The PLAN ADD body read: tag 2, base 8, length 8, priority 1, floor 8, flags 1, kind label 1. -/
def addFields (body : List Byte) : AddFields :=
  let flags : Byte := BitVec.ofNat 8 (field body 27 1)
  { tag := BitVec.ofNat 16 (field body 0 2)
    base := field body 2 8
    length := field body 10 8
    priority := field body 18 1
    floor := if bitSet flags 1 then some (field body 19 8) else none
    atomic := bitSet flags 0
    label := BitVec.ofNat 8 (field body 28 1) }

/-- The field test of R29: whether the fields are refused with RANGE. -/
def AddFields.outOfRange (x : AddFields) : Bool :=
  decide (x.tag = 0 ∨ x.length = 0 ∨ 2 ^ 36 < x.length ∨ 2 ^ 48 < x.base + x.length)
    || (match x.floor with
        | some fl => decide (fl = 0 ∨ x.length < fl)
        | none => false)
    || (x.atomic && (decide (4096 < x.length ∨ x.base / 4096 ≠ (x.base + x.length - 1) / 4096)
        || (match x.floor with
            | some fl => decide (fl ≠ x.length)
            | none => false)))

/-- The entry an accepted PLAN ADD stores (R30). -/
def AddFields.entry (x : AddFields) : PlanEntry :=
  { tag := x.tag, base := x.base, length := x.length, priority := min x.priority 7, floor := x.floor.getD x.length
    atomic := x.atomic, label := x.label }

/-- Whether a plan holds an entry with a tag. -/
def Plan.has (p : Plan) (tag : BitVec 16) : Bool := p.entries.any fun x => x.tag == tag

/-- An entry appended and the generation counted (R31). -/
def Plan.add (p : Plan) (x : PlanEntry) : Plan := { entries := p.entries ++ [x], generation := p.generation + 1 }

/-- The index an entry with a tag holds (R27). -/
def Plan.indexOf (p : Plan) (tag : BitVec 16) : Nat := p.entries.findIdx fun x => x.tag == tag

/-- The entry with a tag removed and the generation counted (R32). -/
def Plan.delete (p : Plan) (tag : BitVec 16) : Plan :=
  { entries := p.entries.eraseIdx (p.indexOf tag), generation := p.generation + 1 }

/-- The plan emptied and the generation counted (R33). -/
def Plan.clear (p : Plan) : Plan := { entries := [], generation := p.generation + 1 }

/-- PLAN ADD (R29 to R31). -/
def planAddAct (s : State) (f : Frame) (d : Dom) : Answer :=
  let p := s.plan d
  let x := addFields f.body
  let refused (st : Byte) : Answer := .reply s st (le 2 p.generation.toNat)
  if x.outOfRange then refused stRange
  else if p.has x.tag then refused stDuplicate
  else if Config.planMax ≤ p.entries.length then refused stFull
  else
    let p' := p.add x.entry
    .reply (s.setPlan d p') (stOkIf (decide (7 < x.priority)))
      (le 1 p.entries.length ++ le 1 x.entry.priority ++ le 2 p'.generation.toNat)

/-- PLAN DELETE (R32). -/
def planDeleteAct (s : State) (f : Frame) (d : Dom) : Answer :=
  let p := s.plan d
  let tag := BitVec.ofNat 16 (field f.body 0 2)
  if p.has tag then
    let p' := p.delete tag
    .ok (s.setPlan d p') (le 1 (p.indexOf tag) ++ le 2 p'.generation.toNat)
  else .reply s stNotFound (le 2 p.generation.toNat)

/-- PLAN CLEAR (R33). -/
def planClearAct (s : State) (_ : Frame) (d : Dom) : Answer :=
  let p := s.plan d
  .ok (s.setPlan d p.clear) (le 1 p.entries.length ++ le 2 p.clear.generation.toNat)

/-- The entries a PLAN READ returns, each with its index (R34). -/
def Plan.readFrom (p : Plan) (start : Nat) : List Byte :=
  (((p.entries.mapIdx fun i x => x.bytes i).drop start).take 16).flatten

/-- PLAN READ (R34): it changes nothing. -/
def planReadAct (s : State) (f : Frame) (d : Dom) : Answer :=
  let p := s.plan d
  let start := field f.body 0 1
  let head := le 1 p.entries.length ++ le 2 p.generation.toNat
  if Config.planMax ≤ start then .reply s stRange head else .ok s (head ++ p.readFrom start)

def execPlanAdd (p : PortId) (s : State) : Host.Outcome State Fault Refusal := .next (s.request p 0x05 planAddAct)
def execPlanDelete (p : PortId) (s : State) : Host.Outcome State Fault Refusal :=
  .next (s.request p 0x06 planDeleteAct)
def execPlanClear (p : PortId) (s : State) : Host.Outcome State Fault Refusal :=
  .next (s.request p 0x07 planClearAct)
def execPlanRead (p : PortId) (s : State) : Host.Outcome State Fault Refusal := .next (s.request p 0x08 planReadAct)

end Sys2Proof.Machine
end

