-- ==== Sys2Proof/Machine/ConfigRequests.lean ====
section
/-! DEFINITION. The requests about the device itself (chapters 5, 9 and 10): IDENT, LINK STATUS, COUNTERS, CONFIG GET,
CONFIG SET, CONFIG SAVE and the ends of saves, VIEW, RESTART, and the refusal of an unknown kind. -/
namespace Sys2Proof.Machine

/-! ### IDENT, LINK STATUS, COUNTERS -/

/-- IDENT (R174): it changes nothing. -/
def identAct (s : State) (_ : Frame) (_ : Dom) : Answer := .ok s s.identBody

/-- The LINK STATUS body, 23 bytes (R100, Table 9-15). -/
def State.linkStatusBytes (s : State) (d : Dom) : List Byte :=
  let l := s.link d
  le 1 l.state.code ++ le 1 l.mode.code ++ le 1 l.flags ++ [l.downshifts] ++ le 1 (s.settings d).threshold
    ++ le 1 (l.positions.toList.filter Option.isSome).length ++ le 1 l.requests.length
    ++ (match l.lockHolder with
        | some x => le 1 x.channel.val
        | none => [0xFF])
    ++ le 1 l.lockQueue.length ++ l.counters.bytes

/-- LINK STATUS (R98 to R100). -/
def linkStatusAct (s : State) (f : Frame) (d : Dom) : Answer :=
  let body := s.linkStatusBytes d
  let l := (s.link d).statusTaken
  let l := if field f.body 0 1 = 0 then l else { l with counters := LinkCounters.zero }
  .ok (s.setLink d l) body

/-- A port's five counters, 10 bytes (Table 9-16). -/
def Port.counterBytes (q : Port) : List Byte :=
  le 2 q.framesGood.toNat ++ le 2 q.crcErrors.toNat ++ le 2 q.oversizes.toNat ++ le 2 q.truncated.toNat
    ++ le 2 q.overruns.toNat

/-- A domain's five counters and its journal's three, 16 bytes (Table 9-16). -/
def State.domainCounterBytes (s : State) (d : Dom) : List Byte :=
  let j := s.journal d
  (s.domain d).counters.bytes ++ le 2 j.overwrites.toNat ++ le 2 j.dropped.toNat ++ le 2 j.overruns.toNat

/-- Erases in flight (R156). -/
def Store.erasesInFlight (st : Store) : Nat :=
  (st.inFlight.toList.filter fun o =>
    match o with
    | some (.erase _ _) => true
    | _ => false).length

/-- The store figures, 13 bytes (R156, Table 9-16). -/
def Store.figureBytes (st : Store) : List Byte :=
  le 2 st.pool.length ++ le 1 st.spares.length ++ le 2 st.dirty.length ++ le 1 st.erasesInFlight
    ++ le 1 st.retired.length ++ le 2 (st.blocks.filter fun e => e.2.state == .withheld).length
    ++ le 2 st.programFailures.toNat ++ le 2 st.eraseFailures.toNat

/-- COUNTERS (R173): it changes nothing. -/
def countersAct (s : State) (_ : Frame) (_ : Dom) : Answer :=
  .ok s (s.servicePort.counterBytes ++ le 2 s.service.noticesLost.toNat ++ s.platformPorts.a.counterBytes
    ++ s.platformPorts.b.counterBytes ++ s.domainCounterBytes .a ++ s.domainCounterBytes .b ++ s.store.figureBytes)

/-! ### CONFIG GET and CONFIG SET (R177, R178) -/

/-- The running slot programming of a domain (R114). -/
def State.slotPrograms (s : State) (d : Dom) : List SlotProgram := (s.journal d).slots.toList.map Slot.program

/-- A domain's block of the image (R175). -/
def State.domainBlock (s : State) (d : Dom) : List Byte := settingsBytes (s.settings d) (s.slotPrograms d)

/-- CONFIG GET (R177): it changes nothing. -/
def configGetAct (s : State) (_ : Frame) (_ : Dom) : Answer :=
  .ok s (le 1 s.configFlags ++ padTo 16 s.config.serial ++ padTo 32 s.config.asset ++ le 1 s.store.retired.length
    ++ retiredBytes s.store.retired ++ s.domainBlock .a ++ s.domainBlock .b)

/-- A value clamped to a range (R176, R178). -/
def clamp (lo hi n : Nat) : Nat := max lo (min hi n)

/-- Every setting clamped to its range (R176, Table 10-2). -/
def Settings.clamped (x : Settings) : Settings :=
  { x with
    holdWindow := clamp 1 600 x.holdWindow, heartbeatTimeout := clamp 0 255 x.heartbeatTimeout
    freshness := clamp 1 60 x.freshness, derate := clamp 50 100 x.derate, retry := clamp 1 7 x.retry
    threshold := clamp 1 8 x.threshold }

/-- A setting written (R178): the new settings and the stored value as a number.  An on/off setting stores 1 for every
value other than 0 (log 59). -/
def Settings.write (x : Settings) (item v : Nat) : Settings × Nat :=
  let flag := decide (v ≠ 0)
  match item with
  | 1 => ({ x with holdEnable := flag }, flagBits [flag])
  | 2 => ({ x with holdWindow := clamp 1 600 v }, clamp 1 600 v)
  | 3 => ({ x with heartbeatTimeout := clamp 0 255 v }, clamp 0 255 v)
  | 4 => ({ x with freshness := clamp 1 60 v }, clamp 1 60 v)
  | 5 => ({ x with derate := clamp 50 100 v }, clamp 50 100 v)
  | 6 => ({ x with retry := clamp 1 7 v }, clamp 1 7 v)
  | 7 => ({ x with threshold := clamp 1 8 v }, clamp 1 8 v)
  | _ => ({ x with autoArm := flag }, flagBits [flag])

/-- Whether a written value was adjusted (R178): never for the on/off settings. -/
def settingAdjusted (item v stored : Nat) : Bool := item != 1 && item != 8 && v != stored

/-- CONFIG SET (R178; log 27). -/
def configSetAct (s : State) (f : Frame) (d : Dom) : Answer :=
  let item := field f.body 0 1
  if item = 0 ∨ 10 < item then .refused s stRange
  else if s.config.save.isSome then .refused s stBusy
  else
    let c := { s.config with unsaved := true }
    if item = 9 then .ok { s with config := { c with serial := slice f.body 1 16 } } (le 1 9 ++ slice f.body 1 16)
    else if item = 10 then
      .ok { s with config := { c with asset := slice f.body 1 32 } } (le 1 10 ++ slice f.body 1 32)
    else
      let v := field f.body 1 2
      let w := (s.settings d).write item v
      .reply { s with config := { c with settings := c.settings.set d w.1 } } (stOkIf (settingAdjusted item v w.2))
        (le 1 item ++ le 2 w.2)

/-! ### Saves (R153, R179) -/

/-- The image a CONFIG SAVE builds (R179). -/
def State.runningImage (s : State) : Image :=
  { serial := s.config.serial, asset := s.config.asset, retired := s.store.retired
    storedSettings := ⟨(s.settings .a).toStored, (s.settings .b).toStored⟩
    storedSlots := ⟨(s.slotPrograms .a).map SlotProgram.toStored, (s.slotPrograms .b).map SlotProgram.toStored⟩ }

/-- CONFIG SAVE (R179): it stays in processing until the read-back ends. -/
def configSaveAct (s : State) (_ : Frame) (_ : Dom) : Answer :=
  if s.config.save.isSome ∨ s.config.savePending then .refused s stBusy
  else
    .held { s with
      config := { s.config with unsaved := false, save := some { kind := .config, image := s.runningImage } }
      servicePort := { s.servicePort with processing := some .configSave } }

/-- A CONFIG SAVE's request completes (R179): 0 for a match and 1 for a mismatch. -/
def State.answerSave (s : State) (matched : Bool) : State :=
  match s.servicePort.processing, s.servicePort.input with
  | some .configSave, f :: _ => s.complete .service (f.reply 0xFF stOk [flagByte (!matched)])
  | _, _ => s

/-- The read-back of a CONFIG SAVE ends (R179). -/
def State.configSaveEnd (s : State) (matched : Bool) : State :=
  match s.config.save with
  | some sv =>
    if sv.kind = .config then
      let s := s.saveEnded sv matched
      let s := { s with config := { s.config with unsaved := s.config.unsaved || !matched } }
      ((s.answerSave matched).startPendingSave).settle
    else s
  | none => s

/-- A store save ends (R153, R179). -/
def State.storeSaveEnd (s : State) (matched : Bool) : State :=
  match s.config.save with
  | some sv => if sv.kind = .store then ((s.saveEnded sv matched).startPendingSave).settle else s
  | none => s

/-! ### VIEW, RESTART and unknown kinds (R163, R169, R181) -/

/-- The view a VIEW body gives (R169): absent for a value out of range. -/
def viewOf (now : View) : Nat → Option View
  | 0 => some .auto
  | 1 => some (.manual .a)
  | 2 => some (.manual .b)
  | 0xFF => some now
  | _ => none

/-- The code of a view (R169). -/
def View.code : View → Nat
  | .auto => 0
  | .manual .a => 1
  | .manual .b => 2

/-- VIEW (R169). -/
def viewAct (s : State) (f : Frame) (_ : Dom) : Answer :=
  match viewOf s.service.view (field f.body 0 1) with
  | none => .refused s stRange
  | some v =>
    let s := { s with service := { s.service with view := v } }
    .ok s (le 1 v.code ++ [domByte s.viewDomain])

/-- Whether a domain holds a dump in progress (R24): TRIGGERED, HARVESTING or CLOSING. -/
def Domain.busy (x : Domain) : Bool := x.state == .triggered || x.state == .harvesting || x.state == .closing

/-- RESTART (R181): it takes effect once its reply has left the line (R163). -/
def restartAct (s : State) (_ : Frame) (_ : Dom) : Answer :=
  if (s.domain .a).busy ∨ (s.domain .b).busy then .refused s stState
  else if s.config.save.isSome ∨ s.config.savePending then .refused s stBusy
  else .ok { s with restart := .replyWaiting } []

/-- A frame of an unknown kind is taken up (R163 test 1). -/
def State.refuseUnknown (s : State) (p : PortId) : State :=
  match s.nextFrame p with
  | none => s
  | some f => if isRequestKind f.kind.toNat then s else (s.reserve p).refuse p f stUnknownKind

/-! ### The commands -/

def execIdent (p : PortId) (s : State) : Host.Outcome State Fault Refusal := .next (s.request p 0x01 identAct)
def execLinkStatus (p : PortId) (s : State) : Host.Outcome State Fault Refusal :=
  .next (s.request p 0x19 linkStatusAct)
def execCounters (p : PortId) (s : State) : Host.Outcome State Fault Refusal := .next (s.request p 0x1A countersAct)
def execConfigGet (p : PortId) (s : State) : Host.Outcome State Fault Refusal := .next (s.request p 0x1B configGetAct)
def execConfigSet (p : PortId) (s : State) : Host.Outcome State Fault Refusal := .next (s.request p 0x1C configSetAct)
def execConfigSave (p : PortId) (s : State) : Host.Outcome State Fault Refusal :=
  .next (s.request p 0x1D configSaveAct)
def execConfigSaveEnd (matched : Bool) (s : State) : Host.Outcome State Fault Refusal :=
  .next (s.configSaveEnd matched)
def execStoreSaveEnd (matched : Bool) (s : State) : Host.Outcome State Fault Refusal :=
  .next (s.storeSaveEnd matched)
def execView (p : PortId) (s : State) : Host.Outcome State Fault Refusal := .next (s.request p 0x1E viewAct)
def execRestart (p : PortId) (s : State) : Host.Outcome State Fault Refusal := .next (s.request p 0x1F restartAct)
def execUnknownKind (p : PortId) (s : State) : Host.Outcome State Fault Refusal := .next (s.refuseUnknown p)

end Sys2Proof.Machine
end

