-- ==== Sys2Proof/Machine/DirectoryRequests.lean ====
section
/-! DEFINITION. The requests of the directory and of the read cursor (chapters 7 and 9): DIR, MANIFEST, CURSOR, READ,
RELEASE, PROTECT, VERIFY, and the store reads that READ and VERIFY wait for. -/
namespace Sys2Proof.Machine

/-- The dump number a body begins with. -/
def bodyDump (body : List Byte) : Num := BitVec.ofNat 32 (field body 0 4)

/-- The index of a dump's last section. -/
def DumpEntry.lastIndex (e : DumpEntry) : Nat := e.sections.length - 1

/-! ### DIR (R136) -/

/-- The six section states in the order of their codes. -/
def sectionStates : List SectionState := [.pending, .skipped, .active, .done, .partly, .lost]

/-- A DIR entry, 32 bytes (section 9.12); its flags protected and fetched are bits 0 and 1 (log 30). -/
def DumpEntry.dirBytes (e : DumpEntry) (programmed : Nat) : List Byte :=
  let cause := match e.triggers with
    | t :: _ => t.cause.code
    | [] => 0
  let time := match e.triggers with
    | t :: _ => t.time.toNat
    | [] => 0
  let closed := e.state == .closed
  padTo 32 (le 4 e.number.toNat ++ [domByte e.domain] ++ le 1 e.state.code ++ le 1 cause ++ le 1 e.triggers.length
    ++ le 4 time ++ le 4 (if closed then codeOr BitVec.toNat e.closeTime else 0)
    ++ le 1 (codeOr EndCause.code e.endCause) ++ le 1 (flagBits [e.isProtected, e.fetched])
    ++ sectionStates.flatMap (fun st => le 1 (e.sections.filter fun x => x.state == st).length)
    ++ le 4 programmed)

/-- DIR (R136): it changes nothing. -/
def dirAct (s : State) (_ : Frame) (_ : Dom) : Answer :=
  .ok s (le 1 s.directory.entries.length ++ le 4 s.directory.nextNumber.toNat
    ++ s.directory.entries.flatMap fun e => e.dirBytes (s.store.programmed e.number))

/-! ### MANIFEST (R137) -/

/-- A dump entry as MANIFEST shows it (R137): an OPEN dump shows no close time and no domain counters. -/
def DumpEntry.shown (e : DumpEntry) : DumpEntry :=
  if e.state = .opened then { e with closeTime := none, countersAtClose := none, manifestCheck := none } else e

/-- The sections form of a MANIFEST reply: the dump's own fields, then up to 8 section records.
The flag of the journal counts is set once the pre-copy has reported its drops (log 47). -/
def DumpEntry.sectionsReply (e : DumpEntry) (start : Nat) : List Byte :=
  let v := e.shown
  let records := (v.sections.drop start).take 8
  v.block ++ v.triggers.flatMap TriggerEntry.bytes ++ v.history.flatMap HistoryEntry.bytes
    ++ (match v.countersAtClose with
        | some c => c.bytes
        | none => padTo 10 [])
    ++ v.journalCounts ++ le 1 records.length
    ++ records.flatMap fun x => x.bytes (v.state == .closed)

/-- The holes form of a MANIFEST reply. -/
def SectionRecord.holesReply (x : SectionRecord) : List Byte :=
  le 1 x.index ++ le 1 x.holes.length ++ [flagByte x.holeOverflow] ++ x.holes.flatMap Hole.bytes

/-- MANIFEST (R137): it changes nothing. -/
def manifestAct (s : State) (f : Frame) (_ : Dom) : Answer :=
  match s.dump (bodyDump f.body) with
  | none => .refused s stNotFound
  | some e =>
    let form := field f.body 4 1
    let index := field f.body 5 1
    if e.lastIndex < index ∨ 1 < form then .refused s stRange
    else if form = 0 then .ok s (e.sectionsReply index)
    else
      match e.sect index with
      | some x => .ok s x.holesReply
      | none => .refused s stRange

/-! ### CURSOR and READ (R138, R171, R172) -/

/-- CURSOR (R171). -/
def cursorAct (s : State) (f : Frame) (_ : Dom) : Answer :=
  match s.dump (bodyDump f.body) with
  | none => .refused s stNotFound
  | some e =>
    let index := field f.body 4 1
    match e.sect index with
    | none => .refused s stRange
    | some x =>
      let offset := field f.body 5 8
      if x.admitted < offset then .refused s stRange
      else
        .ok { s with service := { s.service with
                cursor := some { dump := e.number, index := index, offset := offset } } }
          (le 1 x.state.code ++ le 8 x.written ++ le 8 (s.readable e.number x))

/-- A delivery mark after the bytes from `a` up to `b` are delivered (R138). -/
def markAfter (m a b : Nat) : Nat := if a ≤ m ∧ m < b then b else m

/-- The bytes a READ returns from its pages (R154, R172): up to the first unreadable page. -/
def readBytes : List PageRead → Nat → Nat → List Byte
  | [], _, _ => []
  | p :: ps, a, b =>
    let stop := min b (Config.pageBytes * p.seq)
    match p.data with
    | some data => slice data (a - Config.pageBytes * (p.seq - 1)) (stop - a) ++ readBytes ps stop b
    | none => []

/-- The reply body of a READ (Table 9-6): dump, section, offset, count returned, flags, bytes. -/
def readReply (n : Num) (index offset : Nat) (short more unreadable : Bool) (bytes : List Byte) : List Byte :=
  le 4 n.toNat ++ le 1 index ++ le 8 offset ++ le 2 bytes.length ++ le 1 (flagBits [short, more, unreadable]) ++ bytes

/-- The more-pending flag (R172). -/
def State.morePending (s : State) (n : Num) (index : Nat) : Bool :=
  match s.dump n with
  | some e =>
    e.state == .opened && (match e.sect index with
      | some x => x.state == .pending || x.state == .active
      | none => false)
  | none => false

/-- What a READ that delivers bytes from `a` up to `b` leaves (R138, R172): the cursor, if it is open, moves to `b`
(log 26), the mark advances and the fetched flag is evaluated. -/
def State.delivered (s : State) (n : Num) (index a b : Nat) : State :=
  let moved := s.service.cursor.map fun c : Cursor => { c with offset := b }
  let s := { s with service := { s.service with cursor := moved } }
  (s.updSection n index fun x => { x with delivered := markAfter x.delivered a b }).updDump n DumpEntry.evalFetched

/-- A READ completes with the pages its store reads brought (R172); the more-pending flag is evaluated now, as the reply
is made (log 56). -/
def State.readEnds (s : State) (n : Num) (index offset stop count : Nat) (pages : List PageRead) :
    State × List Byte :=
  let bytes := readBytes pages offset stop
  let t := s.delivered n index offset (offset + bytes.length)
  (t, readReply n index offset (decide (bytes.length < count)) (s.morePending n index)
    (pages.any fun p => p.data.isNone) bytes)

/-- READ (R172): with bytes to read it waits for one or two store reads, queued together (R154). -/
def readAct (s : State) (f : Frame) (_ : Dom) : Answer :=
  match s.service.cursor with
  | none => .refused s stNotFound
  | some c =>
    let asked := field f.body 0 2
    let count := max 1 (min 1024 asked)
    let adjusted := decide (asked ≠ count)
    let stop := match s.sect c.dump c.index with
      | some x => min (c.offset + count) (s.readable c.dump x)
      | none => 0
    if c.offset < stop then
      let first := pageOf c.offset
      let last := pageOf (stop - 1)
      let reads := (if first = last then [first] else [first, last]).map fun p =>
        { reader := .cursor, key := dataKey c.dump c.index p : StoreRead }
      let q := s.servicePort
      .heldWork { s with
        store := { s.store with reads := s.store.reads ++ reads }
        servicePort := { q with
          processing := some (.read c.dump c.index c.offset stop count adjusted []) } }
    else
      .reply (s.updDump c.dump DumpEntry.evalFetched) (stOkIf adjusted)
        (readReply c.dump c.index c.offset true (s.morePending c.dump c.index) false [])

/-- A store read of the cursor's READ completes (R172): the READ completes with its last. -/
def State.cursorPage (s : State) (p : PageRead) : State :=
  let q := s.servicePort
  match q.processing, q.input with
  | some (.read n index offset stop count adjusted pages), f :: _ =>
    let pages := if pages.any fun x => p.seq < x.seq then p :: pages else pages ++ [p]
    if pages.length = pageOf (stop - 1) - pageOf offset + 1 then
      let r := s.readEnds n index offset stop count pages
      r.1.complete .service (f.reply 0xFF (stOkIf adjusted) r.2)
    else { s with servicePort := { q with
      processing := some (.read n index offset stop count adjusted pages) } }
  | _, _ => s

/-! ### RELEASE and PROTECT (R139, R140) -/

/-- Whether a verify of a dump is in progress. -/
def State.verifying (s : State) (n : Num) : Bool :=
  match s.directory.verify with
  | some v => v.dump == n
  | none => false

/-- The steps of a RELEASE that passes its tests (R139, R155). -/
def State.releaseDump (s : State) (n : Num) : State :=
  let s := { s with directory := { s.directory with entries := s.directory.entries.filter fun e => e.number ≠ n } }
  let s := s.releaseBlocks n
  let s := { s with service := { s.service with
    cursor := match s.service.cursor with
      | some c => if c.dump = n then none else some c
      | none => none } }
  s.replanAll

/-- RELEASE (R139). -/
def releaseAct (s : State) (f : Frame) (_ : Dom) : Answer :=
  let n := bodyDump f.body
  match s.dump n with
  | none => .refused s stNotFound
  | some e =>
    if e.state = .opened then .refused s stState
    else if e.isProtected then .refused s stDenied
    else if s.verifying n then .refused s stBusy
    else if e.fetched = false ∧ field f.body 4 1 = 0 then .refused s stState
    else .okWork (s.releaseDump n) (le 2 (s.store.releaseCount n))

/-- PROTECT (R140). -/
def protectAct (s : State) (f : Frame) (_ : Dom) : Answer :=
  let n := bodyDump f.body
  match s.dump n with
  | none => .refused s stNotFound
  | some _ => .ok (s.updDump n fun e => { e with isProtected := decide (field f.body 4 1 ≠ 0) }) []

/-! ### VERIFY (R141, R142) -/

/-- The selector byte of a verify's target. -/
def VerifyTarget.selector : VerifyTarget → Nat
  | .data i => i
  | .manifest => 0xFF

/-- The recorded check of a verify's target, and the number of its pages: absent when there is no check to test. -/
def State.verifyCheck (s : State) (n : Num) : VerifyTarget → Option (BitVec 32 × Nat)
  | .manifest =>
    match s.dump n with
    | some e => if e.state = .closed then e.manifestCheck.map fun c => (c, 16) else none
    | none => none
  | .data i =>
    match s.dump n, s.sect n i with
    | some e, some x =>
      if e.state = .closed ∧ x.state ≠ .skipped ∧ x.state ≠ .lost then
        x.crc.map fun c => (c, ceilDiv x.written Config.pageBytes)
      else none
    | _, _ => none

/-- The key of a verify's next page (R142). -/
def Verify.nextKey (v : Verify) : PageKey :=
  match v.target with
  | .data i => dataKey v.dump i (v.pagesRead + 1)
  | .manifest => manifestKey v.dump v.pagesRead

/-- A verify ends with its VERIFY notice (R142); after an unreadable page the result is MISMATCH and the computed check
a free value (R154; log 21). -/
def State.verifyEnds (s : State) (v : Verify) (recorded : BitVec 32) : State :=
  let s := { s with directory := { s.directory with verify := none } }
  let which := v.target.selector
  if v.unreadable then
    (s.noticeVerify v.dump which 2 recorded (Config.freeCheck s.freeCount)).drawn 1
  else
    let computed := crc32Final v.crc
    s.noticeVerify v.dump which (if computed = recorded then 1 else 2) recorded computed

/-- A verify goes on (R142): it ends when its last page has been fed, or when its next page is not in the page map
(log 21), and else asks for that page. -/
def State.verifyNext (s : State) (v : Verify) : State :=
  match s.verifyCheck v.dump v.target with
  | none => s.verifyEnds { v with unreadable := true } 0
  | some c =>
    if c.2 ≤ v.pagesRead then s.verifyEnds v c.1
    else
      match s.store.locate v.nextKey with
      | none => s.verifyEnds { v with unreadable := true } c.1
      | some _ =>
        { s with
          directory := { s.directory with verify := some v }
          store := { s.store with reads := s.store.reads ++ [{ reader := .verify, key := v.nextKey }] } }

/-- A page read for the verify in progress feeds its running CRC (R142); the first manifest page gives the content
length. -/
def Verify.feed (v : Verify) (data : Option (List Byte)) : Verify :=
  match data with
  | none => { v with pagesRead := v.pagesRead + 1, unreadable := true }
  | some bytes =>
    let left := if v.target = .manifest ∧ v.pagesRead = 0 then field bytes 0 4 else v.left
    let n := min Config.pageBytes left
    { v with pagesRead := v.pagesRead + 1, crc := crc32Feed v.crc (slice bytes 0 n), left := left - n }

/-- A store read of the verify in progress completes (R142). -/
def State.verifyPage (s : State) (data : Option (List Byte)) : State :=
  match s.directory.verify with
  | some v => s.verifyNext (v.feed data)
  | none => s

/-- A verify ends without a notice (R142): reads made for it deliver to nobody. -/
def State.dropVerify (s : State) : State :=
  let orphan (r : StoreRead) : StoreRead := if r.reader = .verify then { r with reader := .nobody } else r
  { s with
    directory := { s.directory with verify := none }
    store := { s.store with
      reads := s.store.reads.map orphan
      inFlight := s.store.inFlight.map fun o =>
        match o with
        | some (.read r a) => some (.read (orphan r) a)
        | other => other } }

/-- VERIFY (R141): the reply is ACCEPTED, and after it the re-read begins, or its notice is sent with NO_CHECK (log 21)
or, for a written length of 0, with MATCH. -/
def verifyAct (s : State) (f : Frame) (_ : Dom) : Answer :=
  let n := bodyDump f.body
  let which := field f.body 4 1
  match s.dump n with
  | none => .refused s stNotFound
  | some e =>
    if e.lastIndex < which ∧ which ≠ 0xFF then .refused s stRange
    else if s.directory.verify.isSome then .refused s stBusy
    else
      let target := if which = 0xFF then VerifyTarget.manifest else .data which
      match s.verifyCheck n target with
      | none =>
        .after s stAccepted [] fun t =>
          (t.noticeVerify n which 3 (Config.freeCheck t.freeCount) (Config.freeCheck (t.freeCount + 1))).drawn 2
      | some c =>
        let left := match e.sect which with
          | some x => x.written
          | none => 0
        if c.2 = 0 then .after s stAccepted [] fun t => t.noticeVerify n which 1 0 0
        else
          let v : Verify := { dump := n, target := target, pagesRead := 0, crc := crc32Init, left := left
                              unreadable := false }
          .after s stAccepted [] fun t => (t.verifyNext v).settle

/-! ### The commands -/

def execDir (p : PortId) (s : State) : Host.Outcome State Fault Refusal := .next (s.request p 0x11 dirAct)
def execManifest (p : PortId) (s : State) : Host.Outcome State Fault Refusal := .next (s.request p 0x12 manifestAct)
def execCursor (p : PortId) (s : State) : Host.Outcome State Fault Refusal := .next (s.request p 0x13 cursorAct)
def execRead (p : PortId) (s : State) : Host.Outcome State Fault Refusal := .next (s.request p 0x14 readAct)
def execRelease (p : PortId) (s : State) : Host.Outcome State Fault Refusal :=
  .next (s.request p 0x16 releaseAct)
def execProtect (p : PortId) (s : State) : Host.Outcome State Fault Refusal := .next (s.request p 0x17 protectAct)
def execVerify (p : PortId) (s : State) : Host.Outcome State Fault Refusal := .next (s.request p 0x18 verifyAct)

end Sys2Proof.Machine
end

