-- ==== Sys2Proof/Machine/PinEvents.lean ====
section
/-! DEFINITION. The pins and the domain timers (chapter 1; chapter 5 for power-good; chapter 9 for the attach line):
FATAL_LINE, POWER_GOOD_FALL, POWER_GOOD_RISE, RESET_REQUEST_EDGE, RESET_REQUEST_FALL, HANG, HOLD_TIMER_EXPIRY, ATTACH
and DETACH.  A command whose event cannot occur in the state changes nothing (log 3). -/
namespace Sys2Proof.Machine

/-- A change of the fatal-error input (R3): a rising edge is a FATAL_LINE trigger, and the level is kept. -/
def State.fatalLine (s : State) (d : Dom) (level : Bool) : State :=
  let x := s.domain d
  let s := s.setDomain d { x with fatalLevel := level }
  if x.fatalLevel = false ∧ level = true then
    let r := s.takeTrigger d .fatalLine none
    r.1.worked r.2
  else s

/-- Power-good falls, on the domain controller (R16). -/
def State.domainPowerFall (s : State) (d : Dom) : State :=
  match (s.domain d).state with
  | .triggered | .harvesting => s.endHarvest d .powerLost
  | .armed => s.setDomain d { s.domain d with heartbeatTimer := none }
  | .disarmed | .closing | .settled => s

/-- Power-good falls (R16, R83): the domain controller takes it, and the link goes DOWN with its outstanding reads
ending LINK_DOWN. -/
def State.powerFall (s : State) (d : Dom) : State :=
  if s.powerGood.get d then
    let s := { s with powerGood := s.powerGood.set d false }
    (((s.domainPowerFall d).dropAll d .linkDown).linkDown d none).settle
  else s

/-- Power-good rises (R9, R16, R81, R83): in ARMED the heartbeat timer starts, and a link that is DOWN trains. -/
def State.powerRise (s : State) (d : Dom) : State :=
  if s.powerGood.get d then s
  else
    let s := { s with powerGood := s.powerGood.set d true }
    let s := if (s.domain d).state = .armed then s.startHeartbeat d else s
    if (s.link d).state = .down then s.startTraining d .wide else s

/-- A rising edge of the reset-request input (R19): counted while the hold line is asserted. -/
def State.resetRequestRise (s : State) (d : Dom) : State :=
  let x := s.domain d
  if x.resetRequestLevel then s
  else s.setDomain d { x with
    resetRequestLevel := true, heldResets := if x.holdLine then x.heldResets.inc else x.heldResets }

/-- A fall of the reset-request input: the level alone (R19). -/
def State.resetRequestFall (s : State) (d : Dom) : State :=
  s.setDomain d { s.domain d with resetRequestLevel := false }

/-- Expiry of the running heartbeat timer: a HANG trigger (R9). -/
def State.hang (s : State) (d : Dom) : State :=
  match (s.domain d).heartbeatTimer with
  | some t =>
    let s := s.reach t
    let r := (s.setDomain d { s.domain d with heartbeatTimer := none }).takeTrigger d .hang none
    r.1.worked r.2
  | none => s

/-- Expiry of the hold timer (R13): the line is released with reason EXPIRED and the harvest ends with
HOLD_EXPIRED. -/
def State.holdExpiry (s : State) (d : Dom) : State :=
  match (s.domain d).holdTimer with
  | some t =>
    let s := s.reach t
    (((s.setDomain d { s.domain d with holdTimer := none }).releaseLine d .expired).endHarvest d .holdExpired).settle
  | none => s

/-- A rise of the attach line (R168). -/
def State.attachRise (s : State) : State :=
  if s.service.attached then s
  else
    State.noticeIdent
      { s with
        service := { s.service with attached := true, noticeTag := 0 }
        servicePort := { s.servicePort with receiver := .hunting } }

/-- Whether a frame is the reply to an accepted RESTART (R163): kind 0x9F with status OK. -/
def Frame.restartReply (f : Frame) : Bool := f.kind == 0x9F && f.body == [stOk]

/-- A restart whose reply was still queued is abandoned by a detach; one whose reply is on the line is not
(log 16). -/
def State.restartAfterDetach (s : State) : RestartPhase :=
  match s.restart, s.servicePort.line with
  | .replyWaiting, some f => if f.restartReply then .replyWaiting else .none
  | .replyWaiting, none => .none
  | r, _ => r

/-- A fall of the attach line (R168). -/
def State.attachFall (s : State) : State :=
  if s.service.attached then
    let q := s.servicePort
    State.dropVerify
      { s with
        restart := s.restartAfterDetach
        service := { s.service with attached := false, holdOff := false, cursor := none, view := .auto }
        servicePort := { q with
          receiver := .hunting
          input := if q.processing.isSome then q.input.take 1 else []
          reserved := 0, output := [], outgoingHold := none, peerHold := none } }
  else s

def execFatalLine (d : Dom) (level : Bool) (s : State) : Host.Outcome State Fault Refusal :=
  .next (s.fatalLine d level)
def execPowerGoodFall (d : Dom) (s : State) : Host.Outcome State Fault Refusal := .next (s.powerFall d)
def execPowerGoodRise (d : Dom) (s : State) : Host.Outcome State Fault Refusal := .next (s.powerRise d)
def execResetRequestEdge (d : Dom) (s : State) : Host.Outcome State Fault Refusal := .next (s.resetRequestRise d)
def execResetRequestFall (d : Dom) (s : State) : Host.Outcome State Fault Refusal := .next (s.resetRequestFall d)
def execHang (d : Dom) (s : State) : Host.Outcome State Fault Refusal := .next (s.hang d)
def execHoldTimerExpiry (d : Dom) (s : State) : Host.Outcome State Fault Refusal := .next (s.holdExpiry d)
def execAttach (s : State) : Host.Outcome State Fault Refusal := .next s.attachRise
def execDetach (s : State) : Host.Outcome State Fault Refusal := .next s.attachFall

end Sys2Proof.Machine
end

