-- ==== Sys2Proof/Machine/PortEvents.lean ====
section
/-! DEFINITION. The events of the three serial lines (chapter 9): SYNC_PAIR_FOUND, RECEIVE_FRAME, FRAME_GAP_TIMEOUT,
OVERSIZE, PEER_HOLD_EXPIRY and FRAME_SENT. -/
namespace Sys2Proof.Machine

/-- Whether a port reads its line (R162): the Service Port only while attached. -/
def State.listens (s : State) (p : PortId) : Bool :=
  match p with
  | .service => s.service.attached
  | .platform _ => true

/-- The CRC-16 of a frame over its length, kind, tag, domain and body (R161). -/
def Frame.check (f : Frame) : BitVec 16 :=
  crc16 (le 2 f.body.length ++ [f.kind, f.tag, f.domain] ++ f.body)

/-- A HOLD of the peer (R165): a body of 2 bytes sets or stops the peer hold expiry, and a stop lets the port
resume. -/
def State.peerHolds (s : State) (p : PortId) (body : List Byte) : State :=
  if body.length = 2 then
    let n := field body 0 2
    if n = 0 then (s.setPort p { s.port p with peerHold := none }).advancePort p
    else s.setPort p { s.port p with peerHold := some (s.partTime + ms (holdMs p n)) }
  else s

/-- One good frame counted (R162). -/
def Port.countGood (q : Port) : Port := { q with framesGood := q.framesGood.inc }

/-- A whole frame with a good CRC (R162): a HOLD is taken, another device kind is dropped, and a request joins the input
queue or is lost as an overrun. -/
def State.goodFrame (s : State) (p : PortId) (f : Frame) : State :=
  let q := s.port p
  if f.kind = 0x7F then (s.setPort p q.countGood).peerHolds p f.body
  else if 0x80 ≤ f.kind.toNat then s.setPort p q.countGood
  else if 4 ≤ q.input.length then s.setPort p { q with overruns := q.overruns.inc }
  else (s.setPort p { q.countGood with input := q.input ++ [f] }).paceArrival p

/-- A whole frame is received (R162): an oversize body or a bad CRC is counted and dropped. -/
def State.receive (s : State) (p : PortId) (f : Frame) (crc : BitVec 16) : State :=
  if s.listens p then
    let s := s.setPort p { s.port p with receiver := .hunting }
    let q := s.port p
    if 1056 < f.body.length then s.setPort p { q with oversizes := q.oversizes.inc }
    else if f.check = crc then s.goodFrame p f
    else s.setPort p { q with crcErrors := q.crcErrors.inc }
  else s

/-- The sync pair is found (R162). -/
def State.syncFound (s : State) (p : PortId) : State :=
  if s.listens p ∧ (s.port p).receiver = .hunting then s.setPort p { s.port p with receiver := .receiving [] } else s

/-- Whether the receiver is inside a frame. -/
def Port.inFrame (q : Port) : Bool :=
  match q.receiver with
  | .receiving _ => true
  | .hunting => false

/-- A gap of more than 10 ms inside a frame (R162). -/
def State.frameGap (s : State) (p : PortId) : State :=
  let q := s.port p
  if q.inFrame then s.setPort p { q with receiver := .hunting, truncated := q.truncated.inc } else s

/-- A length field above 1,056 (R162). -/
def State.oversizeLength (s : State) (p : PortId) : State :=
  let q := s.port p
  if q.inFrame then s.setPort p { q with receiver := .hunting, oversizes := q.oversizes.inc } else s

/-- The peer hold expiry is taken (R165): the port resumes. -/
def State.peerHoldEnds (s : State) (p : PortId) : State :=
  match (s.port p).peerHold with
  | some t =>
    let s := s.reach t
    (s.setPort p { s.port p with peerHold := none }).advancePort p
  | none => s

/-- The frame on the line has been sent whole (R163, R164): the reply of an accepted RESTART makes the restart due, and
the port starts its next frame. -/
def State.frameSent (s : State) (p : PortId) : State :=
  let q := s.port p
  match q.line with
  | some f =>
    let due := p = .service ∧ s.restart = .replyWaiting ∧ f.restartReply
    let s := s.setPort p { q with line := none }
    (if due then { s with restart := .due } else s).advancePort p
  | none => s

def execSyncPairFound (p : PortId) (s : State) : Host.Outcome State Fault Refusal := .next (s.syncFound p)
def execReceiveFrame (p : PortId) (kind tag dom : Byte) (body : List Byte) (crc : BitVec 16) (s : State) :
    Host.Outcome State Fault Refusal :=
  .next (s.receive p { kind := kind, tag := tag, domain := dom, body := body } crc)
def execFrameGapTimeout (p : PortId) (s : State) : Host.Outcome State Fault Refusal := .next (s.frameGap p)
def execOversize (p : PortId) (s : State) : Host.Outcome State Fault Refusal := .next (s.oversizeLength p)
def execPeerHoldExpiry (p : PortId) (s : State) : Host.Outcome State Fault Refusal := .next (s.peerHoldEnds p)
def execFrameSent (p : PortId) (s : State) : Host.Outcome State Fault Refusal := .next (s.frameSent p)

end Sys2Proof.Machine
end

