-- ==== Sys2Proof/Machine/StoreEvents.lean ====
section
/-! DEFINITION. The outcomes of the capture store's operations (chapter 8): PROGRAM_COMPLETE, PROGRAM_FAILED,
STORE_READ_COMPLETE, ERASE_COMPLETE and ERASE_FAILED.  An outcome for a position that holds no such operation changes
nothing (log 3). -/
namespace Sys2Proof.Machine

/-- Whether all 16 manifest pages of a dump are programmed (R132; log 24). -/
def Store.manifestDone (st : Store) (n : Num) : Bool :=
  (List.range 16).all fun i => (st.locate (manifestKey n i)).isSome

/-- The tests that wait on a program (R148 step 4): the dump header page takes the domain out of TRIGGERED, and the
last manifest page closes the dump. -/
def State.afterProgram (s : State) (k : PageKey) : State :=
  match k.kind with
  | .dumpHeader => s.headerProgrammed (s.domainOf k.dump)
  | .manifest => if s.store.manifestDone k.dump then s.dumpClosed (s.domainOf k.dump) k.dump else s
  | _ => s

/-- A program completes (R148, R153). -/
def State.programDone (s : State) (i : Fin 8) : State :=
  match s.store.inFlight[i] with
  | some (.program (.page k) a) => (((s.land i).pageProgrammed k a).afterProgram k).settle
  | some (.program (.mark _ _) a) =>
    let s := s.land i
    ({ s with flash := s.flash.put a (.programmed markKey []) } : State).settle
  | _ => s

/-- A program fails (R151, R153). -/
def State.programFails (s : State) (i : Fin 8) : State :=
  match s.store.inFlight[i] with
  | some (.program item a) => ((s.land i).programFailure item a).settle
  | _ => s

/-- The data of a page as a read delivers it (R143, R154): absent when the page is unreadable. -/
def Flash.readData (f : Flash) (a : Nat) : Option (List Byte) :=
  match f.page a with
  | some (.programmed _ data) => some data
  | _ => none

/-- A read completes (R154): the page goes to its requester with its condition; a page the array no longer holds is
unreadable from then on (log 22). -/
def State.readDone (s : State) (i : Fin 8) (stillHeld : Bool) : State :=
  match s.store.inFlight[i] with
  | some (.read r a) =>
    let s := s.land i
    let s := if stillHeld then s else { s with flash := s.flash.put a .unreadable }
    match r.reader with
    | .cursor => (s.cursorPage { seq := r.key.seq, data := s.flash.readData a }).settle
    | .verify => (s.verifyPage (s.flash.readData a)).settle
    | .nobody => s.settle
  | _ => s

/-- An erase completes (R150). -/
def State.eraseEnds (s : State) (i : Fin 8) : State :=
  match s.store.inFlight[i] with
  | some (.erase b withheld) => ((s.land i).eraseDone b withheld).settle
  | _ => s

/-- An erase fails (R150). -/
def State.eraseFails (s : State) (i : Fin 8) : State :=
  match s.store.inFlight[i] with
  | some (.erase b _) => ((s.land i).eraseFailure b).settle
  | _ => s

def execProgramComplete (i : Fin 8) (s : State) : Host.Outcome State Fault Refusal := .next (s.programDone i)
def execProgramFailed (i : Fin 8) (s : State) : Host.Outcome State Fault Refusal := .next (s.programFails i)
def execStoreReadComplete (i : Fin 8) (stillHeld : Bool) (s : State) : Host.Outcome State Fault Refusal :=
  .next (s.readDone i stillHeld)
def execEraseComplete (i : Fin 8) (s : State) : Host.Outcome State Fault Refusal := .next (s.eraseEnds i)
def execEraseFailed (i : Fin 8) (s : State) : Host.Outcome State Fault Refusal := .next (s.eraseFails i)

end Sys2Proof.Machine
end

