-- ==== Sys2Proof/Machine/StartUp.lean ====
section
/-! DEFINITION. Resets and start-up (chapter 10, and R133 to R135, R157 to R159): HARD_RESET, CONFIG_LOAD_COMPLETE,
START_UP_SCAN_COMPLETE and RESTART_TAKES_EFFECT. -/
namespace Sys2Proof.Machine

/-! ### Hard reset (R180) -/

/-- The array after a hard reset cuts an operation in flight (R143, R150): a cut program leaves its page unreadable, a
cut erase leaves each page erased or unreadable (log 11). -/
def Flash.cut (f : Flash) (seed : Nat) : Option StoreOp → Flash
  | some (.program _ a) => f.put a .unreadable
  | some (.erase b _) => f.cutErase b seed
  | _ => f

/-- The array after a hard reset cuts every operation in flight. -/
def Flash.cutAll (f : Flash) (seed : Nat) : List (Option StoreOp) → Flash
  | [] => f
  | o :: os => (f.cut seed o).cutAll (seed + Config.blockPages) os

/-- A link right after hard reset or restart: DOWN, and training from DOWN at once if power-good is high (R79).  The
numbers of its reads go on, so that none is given twice (log 57). -/
def Link.started (l : Link) (powerGood : Bool) (now : Time) : Link :=
  if powerGood then
    { Link.afterReset with
      state := .training, trainingExpiry := some (now + ms Config.trainingMs), issued := l.issued }
  else { Link.afterReset with issued := l.issued }

/-- A platform port as start-up begins: its HOLD(0) is on the line (R120, R160). -/
def Port.startingPlatform : Port := { Port.afterReset with line := some (Frame.hold 0) }

/-- The configuration as a hard reset leaves it (R179, R180; log 8, log 9): the memory is kept, but for a save that the
reset cuts. -/
def Configuration.afterReset (c : Configuration) (seed : Nat) : Configuration :=
  { memory := match c.save with
      | some sv => leftBySave seed c.memory sv.image
      | none => c.memory
    serial := Image.default.serial, asset := Image.default.asset, settings := ⟨Settings.default, Settings.default⟩
    stored := Image.default, fault := false, unsaved := false, save := none, savePending := false }

/-- The free values a hard reset draws: one for each page of 8 blocks, and one for a cut save. -/
def resetDraws : Nat := 8 * Config.blockPages + 1

/-- Hard reset with the input levels sampled (R180): every block takes its hard-reset values, the array and the
configuration memory are kept, start-up begins with the load, and a high attach line is an attach (R160, R168). -/
def State.hardReset (s : State) (lv : Levels) : State :=
  let t : State :=
    { State.reset with
      pending := s.pending
      freeCount := s.freeCount + resetDraws
      powerGood := ⟨lv.a.powerGood, lv.b.powerGood⟩
      domains := ⟨Domain.afterReset lv.a, Domain.afterReset lv.b⟩
      links := ⟨(s.link .a).started lv.a.powerGood 0, (s.link .b).started lv.b.powerGood 0⟩
      platformPorts := ⟨Port.startingPlatform, Port.startingPlatform⟩
      flash := s.flash.cutAll s.freeCount s.store.inFlight.toList
      config := s.config.afterReset (s.freeCount + 8 * Config.blockPages) }
  if lv.attached then
    ({ t with service := { t.service with attached := true } } : State).sendHold .service 0 |>.noticeIdent
  else t

/-! ### The configuration load (R176) -/

/-- The image the configuration memory holds, if it is good (R175). -/
def ConfigMemory.image : ConfigMemory → Option Image
  | .bytes bs => Image.ofBytes bs
  | .torn => none

/-- The retired entries an image gives (R176): block numbers below 2,048, the first entry of a block only. -/
def loadRetired : List RetiredEntry → List RetiredEntry → List RetiredEntry
  | taken, [] => taken
  | taken, r :: rs =>
    if r.block < Config.arrayBlocks ∧ taken.all (fun x => x.block != r.block) then loadRetired (taken ++ [r]) rs
    else loadRetired taken rs

/-- The running configuration taken from a load (R176): a good image with its settings clamped, or the defaults with
config-fault set. -/
def Configuration.loaded (c : Configuration) (im : Option Image) : Configuration :=
  let x := im.getD Image.default
  { c with
    serial := x.serial, asset := x.asset, settings := ⟨x.settings.a.clamped, x.settings.b.clamped⟩
    stored := x, fault := im.isNone, unsaved := false }

/-- The slot programming of a load applied to every slot of both domains (R120). -/
def State.applySlots (s : State) (im : Option Image) : State :=
  let x := im.getD Image.default
  { s with journals := ⟨s.journals.a.reprogram x.slots.a, s.journals.b.reprogram x.slots.b⟩ }

/-- The configuration load of start-up ends (R176, R180), and the scan begins. -/
def State.loadDone (s : State) : State :=
  if s.startUp = .load then
    let im := s.config.memory.image
    let s := s.applySlots im
    { s with
      startUp := .scan
      config := s.config.loaded im
      store := { s.store with retired := loadRetired [] (im.getD Image.default).retired } }
  else s

/-! ### The scan (R157, R158) -/

/-- What the scan finds a block to be (R158, steps 1 to 5). -/
inductive Found where
  | retired (dump : Num)
  | marked
  | erased
  | holding (dump : Num)
  | spoiled
deriving DecidableEq, Repr

/-- A programmed page with its array page number. -/
abbrev FoundPage := Nat × PageKey

/-- The programmed pages of the array, RETIRED_MARK pages included, with their numbers. -/
def Flash.keys (f : Flash) : List FoundPage :=
  f.filterMap fun e =>
    match e.2 with
    | .programmed k _ => some (e.1, k)
    | .unreadable => none

/-- Whether a page belongs to a dump (R158): every kind but RETIRED_MARK. -/
def PageKey.ofDump (k : PageKey) : Bool := k.kind != .retiredMark

/-- The classification of a block (R158). -/
def classify (retired : List RetiredEntry) (f : Flash) (b : Nat) : Found :=
  match retired.find? fun r => r.block == b with
  | some r => .retired r.dump
  | none =>
    let mine := f.filter fun e => e.1 / Config.blockPages == b
    let keys := (Flash.keys mine).map Prod.snd
    if keys.any fun k => k.kind == .retiredMark then .marked
    else if mine = [] then .erased
    else
      match keys.find? PageKey.ofDump with
      | some k => .holding k.dump
      | none => .spoiled

/-- Numbers in rising order, each once. -/
def insertNum (n : Nat) : List Nat → List Nat
  | [] => [n]
  | m :: ms => if n < m then n :: m :: ms else if n = m then m :: ms else m :: insertNum n ms

def sortNums (l : List Nat) : List Nat := l.foldl (fun acc n => insertNum n acc) []

/-- The blocks that the array or the retired list shows to be other than erased, in rising order. -/
def touchedBlocks (retired : List RetiredEntry) (f : Flash) : List Nat :=
  sortNums (f.map (fun e => e.1 / Config.blockPages) ++ retired.map RetiredEntry.block)

/-- The report of the scan: every touched block with its classification, the dump pages that count, and the dumps that
are kept. -/
structure Scan where
  blocks : List (Nat × Found)
  pages : List FoundPage
  kept : List Nat
deriving DecidableEq, Repr

/-- What a block was found to be. -/
def Scan.found (x : Scan) (b : Nat) : Found :=
  match x.blocks.find? fun e => e.1 == b with
  | some e => e.2
  | none => .erased

/-- Whether a page counts for its dump (R158): in a RETIRED block only the pages of the entry's dump. -/
def Found.counts (x : Found) (k : PageKey) : Bool :=
  k.ofDump && (match x with
    | .retired n => n != 0 && k.dump == n
    | .marked | .holding _ => true
    | .erased | .spoiled => false)

/-- The scan of the array against the retired list (R157, R158): the 16 highest numbers found on a DUMP_HEADER page are
kept. -/
def scan (retired : List RetiredEntry) (f : Flash) : Scan :=
  let blocks := (touchedBlocks retired f).map fun b => (b, classify retired f b)
  let x : Scan := { blocks := blocks, pages := [], kept := [] }
  let pages := f.keys.filter fun p => (x.found (p.1 / Config.blockPages)).counts p.2
  let headers := sortNums ((pages.filter fun p => p.2.kind == .dumpHeader).map fun p => p.2.dump.toNat)
  { x with pages := pages, kept := headers.drop (headers.length - Config.directoryMax) }

/-- The highest dump number on any programmed page (R157), 0 if none. -/
def Flash.highest (f : Flash) : Nat :=
  ((f.keys.filter fun p => p.2.ofDump).map fun p => p.2.dump.toNat).foldl max 0

/-- Whether a block was found RETIRED or WITHHELD. -/
def Found.withdrawn : Found → Bool
  | .retired _ | .marked => true
  | .erased | .holding _ | .spoiled => false

/-- Of two copies of one page (R158), whether the second is taken: outside withdrawn blocks before inside, and then the
higher array page (log 28). -/
def Scan.prefersNew (x : Scan) (old new : Nat) : Bool :=
  let o := (x.found (old / Config.blockPages)).withdrawn
  let n := (x.found (new / Config.blockPages)).withdrawn
  if o = n then decide (old < new) else o

/-- A page put into a page map, one copy of each page. -/
def Scan.putPage (x : Scan) (m : List (PageKey × Nat)) (p : FoundPage) : List (PageKey × Nat) :=
  match m with
  | [] => [(p.2, p.1)]
  | (k, a) :: rest =>
    if k = p.2 then (if x.prefersNew a p.1 then (k, p.1) :: rest else (k, a) :: rest)
    else (k, a) :: x.putPage rest p

/-- The page map of a kept dump (R158). -/
def Scan.pageMap (x : Scan) (n : Nat) : List (PageKey × Nat) :=
  (x.pages.filter fun p => p.2.dump.toNat == n).foldl x.putPage []

/-- The kept dump that owns a block after the scan (R158). -/
def Scan.owner (x : Scan) (b : Nat) : Option Num :=
  let keep (n : Num) : Option Num := if x.kept.contains n.toNat then some n else none
  match x.found b with
  | .retired n => keep n
  | .holding n => keep n
  | .marked =>
    match x.pages.find? fun p => p.1 / Config.blockPages == b && x.kept.contains p.2.dump.toNat with
    | some p => keep p.2.dump
    | none => none
  | .erased | .spoiled => none

/-- The state of a touched block after the scan (R158). -/
def Scan.blockState (x : Scan) (b : Nat) : BlockState :=
  match x.found b with
  | .retired _ => .retired
  | .marked => .withheld
  | .erased => .erased
  | .holding _ => if (x.owner b).isSome then .full else .dirty
  | .spoiled => .dirty

/-- The store record of a kept dump (R158): its blocks with the dump header block first and then rising, no open
block. -/
def Scan.storeRecord (x : Scan) (n : Nat) : StoreRecord :=
  let map := x.pageMap n
  let owned := (x.blocks.map Prod.fst).filter fun b => x.owner b == some (BitVec.ofNat 32 n)
  let r := { StoreRecord.new (BitVec.ofNat 32 n) with blocks := owned, pageMap := map, programmed := map.length }
  { r with blocks := r.releaseOrder }

/-- The store at the end of the scan, before the spare reserve is taken (R159). -/
def Store.scanned (st : Store) (x : Scan) : Store :=
  let numbers := x.blocks.map Prod.fst
  let other := numbers.filter fun b => x.blockState b != .erased
  { Store.unknown with
    blocks := other.map fun b => (b, { state := x.blockState b, owner := x.owner b, nextPage := Config.blockPages })
    pool := (List.range Config.arrayBlocks).filter fun b => !other.contains b
    dirty := (other.filter fun b =>
        x.blockState b == .dirty || (x.blockState b == .withheld && (x.owner b).isNone)).map
      fun b => { block := b, gate := none }
    retired := st.retired
    records := x.kept.map x.storeRecord }

/-! ### The rebuild of the directory (R133 to R135) -/

/-- The bytes of a programmed page of a dump, by its page map; none where it is not programmed. -/
def State.pageBytes (s : State) (k : PageKey) : Option (List Byte) :=
  (s.store.locate k).bind (Flash.readData s.flash)

/-- The 16 manifest pages joined, when all are found (R133). -/
def State.manifestFound (s : State) (n : Num) : Option (List Byte) :=
  let pages := (List.range 16).filterMap fun i => s.pageBytes (manifestKey n i)
  if pages.length = 16 then some (pages.flatMap fun p => padTo Config.pageBytes p) else none

/-- A CLOSED dump, if its stored manifest agrees with its check (R133, R135); its number is the one the scan found. -/
def State.closedFound (s : State) (n : Num) : Option DumpEntry :=
  match s.manifestFound n with
  | none => none
  | some bs =>
    let len := field bs 0 4
    let check := BitVec.ofNat 32 (field bs len 4)
    if len + 4 ≤ 16 * Config.pageBytes ∧ crc32 (slice bs 0 len) = check then some { DumpEntry.ofManifest bs check with number := n }
    else none

/-- A section of an INCOMPLETE dump (R134), from its planned record and, if it had started, its header page; the truncated
flag of one that had not started is clear (log 61). -/
def State.rebuiltSection (s : State) (n : Num) (planned : SectionRecord) : SectionRecord :=
  let region := planned.kind == .region
  let base := { planned with cause := some .partReset, crc := none, holes := [], holeOverflow := region }
  match s.pageBytes (headerKey n planned.index) with
  | some page =>
    let h := SectionRecord.ofBytes (slice page 16 64)
    let pages := s.store.gapless n planned.index (ceilDiv h.admitted Config.pageBytes)
    { base with
      state := .partly, admitted := h.admitted, truncated := h.truncated
      written := min h.admitted (Config.pageBytes * pages), startTime := h.startTime
      linkMode := if region then h.linkMode else none }
  | none =>
    { base with state := .lost, admitted := 0, truncated := false, written := 0, startTime := none, linkMode := none }

/-- An INCOMPLETE dump rebuilt from its header page (R134). -/
def State.incompleteFound (s : State) (n : Num) : DumpEntry :=
  let page := (s.pageBytes (dumpHeaderKey n)).getD []
  let block := slice page 0 48
  let planned := (readMany SectionRecord.ofBytes 64 (field block 23 1) (page.drop 60)).1
  { DumpEntry.ofBlock block with
    number := n, endCause := none, planGeneration := none, closeTime := none, historyOverflow := 0
    triggers := [TriggerEntry.ofBytes (slice page 48 12)]
    sections := planned.map fun x => s.rebuiltSection n x }

/-- A kept dump's entry (R133): CLOSED if its manifest is whole, else INCOMPLETE. -/
def State.dumpFound (s : State) (n : Num) : DumpEntry := (s.closedFound n).getD (s.incompleteFound n)

/-- The next dump number the scan gives (R122). -/
def Flash.nextNumber (f : Flash) : Num := BitVec.ofNat 32 (f.highest + 1)

/-- A domain arms as start-up ends, by its auto-arm setting (R23). -/
def State.armAtEnd (s : State) (d : Dom) : State := if (s.settings d).autoArm then s.enterArmed d else s

/-- The store scan ends (R158, R159), the directory is rebuilt (R133 to R135), and start-up ends (R180). -/
def State.scanDone (s : State) : State :=
  if s.startUp = .scan then
    let x := scan s.store.retired s.flash
    let s := State.refill { s with store := s.store.scanned x }
    let s := { s with
      startUp := .finished
      directory := { entries := x.kept.map fun n : Nat => s.dumpFound (BitVec.ofNat 32 n)
                     nextNumber := s.flash.nextNumber, verify := none } }
    ((s.armAtEnd .a).armAtEnd .b).settle
  else s

/-! ### Restart (R181) -/

/-- The image a restart reloads (R181 step 1): the image read, or the defaults, with the running retired list in place of
its own. -/
def State.reloadImage (s : State) : Image :=
  { s.config.memory.image.getD Image.default with retired := s.store.retired }

/-- Step 1 of a restart: the reload. -/
def State.reloaded (s : State) : State :=
  { s with config :=
    { s.config.loaded s.config.memory.image with stored := s.reloadImage } }

/-- The records of a journal's intake queue appended in queue order, and its counters set to 0 (R120 steps 1 and 2). -/
def Journal.restarted (j : Journal) : Journal :=
  let k := j.intake.foldl Journal.append j
  { k with intake := [], intakeStep := false, holdOff := false, mark := none, copier := none, overwrites := 0
           dropped := 0, overruns := 0 }

/-- A port after a restart (R160): the frame on its line is sent whole (R164; log 58), and the HOLD(0) it owes if its
hold-off was set is the first it starts. -/
def Port.restarted (q : Port) (holdOff : Bool) : Port :=
  Port.advance { Port.afterReset with line := q.line, outgoingHold := if holdOff then some 0 else none }

/-- A domain at a restart (R24): counters 0, heartbeat timer stopped, and ARMED or DISARMED by the reloaded
auto-arm. -/
def State.domainRestart (s : State) (d : Dom) : State :=
  let x := s.domain d
  let s := s.setDomain d { x with
    state := .disarmed, heartbeatTimer := none, missed := 0, late := 0, overflow := 0, heldResets := 0
    heartbeats := 0 }
  s.armAtEnd d

/-- Step 2 and 3 of a restart: the blocks take their restart values and the counters are 0. -/
def State.blocksRestart (s : State) : State :=
  let sv := s.service
  { s.dropVerify with
    restart := .none
    servicePort := s.servicePort.restarted sv.holdOff
    platformPorts := ⟨s.platformPorts.a.restarted s.journals.a.holdOff, s.platformPorts.b.restarted s.journals.b.holdOff⟩
    service := { sv with holdOff := false, noticesLost := 0, view := .auto, autoDomain := .a, cursor := none
                         noticeTag := 0 }
    channels := Vector.replicate 4 Channel.idle
    lastPicked := none
    staging := { pages := [], requests := [] }
    links := ⟨(s.link .a).started s.powerGood.a s.partTime, (s.link .b).started s.powerGood.b s.partTime⟩
    journals := ⟨s.journals.a.restarted, s.journals.b.restarted⟩
    store := { s.dropVerify.store with programFailures := 0, eraseFailures := 0 } }

/-- The restart takes effect (R181), once its reply has left the line and while no dump is open (log 17). -/
def State.restartDone (s : State) : State :=
  if s.restart = .due ∧ (s.domain .a).busy = false ∧ (s.domain .b).busy = false then
    let im := s.config.memory.image
    let s := (s.reloaded.blocksRestart).applySlots im
    ((s.domainRestart .a).domainRestart .b).noticeIdent.settle
  else s

def execHardReset (levels : Levels) (s : State) : Host.Outcome State Fault Refusal := .next (s.hardReset levels)
def execConfigLoadComplete (s : State) : Host.Outcome State Fault Refusal := .next s.loadDone
def execStartUpScanComplete (s : State) : Host.Outcome State Fault Refusal := .next s.scanDone
def execRestartTakesEffect (s : State) : Host.Outcome State Fault Refusal := .next s.restartDone

end Sys2Proof.Machine
end

