-- ==== Sys2Proof/Machine/Dispatch.lean ====
section
/-! DEFINITION. One arm for each command: a direct call of its meaning. -/
namespace Sys2Proof.Machine

def exec (i : Instr) (s : State) : Host.Outcome State Fault Refusal :=
  match i with
  | .hardReset levels => Sys2Proof.Machine.execHardReset levels s
  | .configLoadComplete => Sys2Proof.Machine.execConfigLoadComplete s
  | .startUpScanComplete => Sys2Proof.Machine.execStartUpScanComplete s
  | .restartTakesEffect => Sys2Proof.Machine.execRestartTakesEffect s
  | .fatalLine d level => Sys2Proof.Machine.execFatalLine d level s
  | .powerGoodFall d => Sys2Proof.Machine.execPowerGoodFall d s
  | .powerGoodRise d => Sys2Proof.Machine.execPowerGoodRise d s
  | .resetRequestEdge d => Sys2Proof.Machine.execResetRequestEdge d s
  | .attach => Sys2Proof.Machine.execAttach s
  | .detach => Sys2Proof.Machine.execDetach s
  | .hang d => Sys2Proof.Machine.execHang d s
  | .holdTimerExpiry d => Sys2Proof.Machine.execHoldTimerExpiry d s
  | .linkRetryTimerExpiry d => Sys2Proof.Machine.execLinkRetryTimerExpiry d s
  | .trainingExpiry d => Sys2Proof.Machine.execTrainingExpiry d s
  | .trainingComplete d => Sys2Proof.Machine.execTrainingComplete d s
  | .targetRetrainRequest d => Sys2Proof.Machine.execTargetRetrainRequest d s
  | .targetClaim d read => Sys2Proof.Machine.execTargetClaim d read s
  | .claimWindowExpiry d read => Sys2Proof.Machine.execClaimWindowExpiry d read s
  | .granuleArrival d read data parityGood => Sys2Proof.Machine.execGranuleArrival d read data parityGood s
  | .granuleWindowExpiry d window => Sys2Proof.Machine.execGranuleWindowExpiry d window s
  | .disconnect d read => Sys2Proof.Machine.execDisconnect d read s
  | .targetAbort d read => Sys2Proof.Machine.execTargetAbort d read s
  | .programComplete pos => Sys2Proof.Machine.execProgramComplete pos s
  | .programFailed pos => Sys2Proof.Machine.execProgramFailed pos s
  | .storeReadComplete pos stillHeld => Sys2Proof.Machine.execStoreReadComplete pos stillHeld s
  | .eraseComplete pos => Sys2Proof.Machine.execEraseComplete pos s
  | .eraseFailed pos => Sys2Proof.Machine.execEraseFailed pos s
  | .storeSaveEnd matched => Sys2Proof.Machine.execStoreSaveEnd matched s
  | .intakeStepComplete d => Sys2Proof.Machine.execIntakeStepComplete d s
  | .agingExpiry d slot => Sys2Proof.Machine.execAgingExpiry d slot s
  | .crashTaken d => Sys2Proof.Machine.execCrashTaken d s
  | .receiveFrame p kind tag dom body crc => Sys2Proof.Machine.execReceiveFrame p kind tag dom body crc s
  | .frameGapTimeout p => Sys2Proof.Machine.execFrameGapTimeout p s
  | .peerHoldExpiry p => Sys2Proof.Machine.execPeerHoldExpiry p s
  | .frameSent p => Sys2Proof.Machine.execFrameSent p s
  | .unknownKind p => Sys2Proof.Machine.execUnknownKind p s
  | .ident p => Sys2Proof.Machine.execIdent p s
  | .status p => Sys2Proof.Machine.execStatus p s
  | .arm p => Sys2Proof.Machine.execArm p s
  | .disarm p => Sys2Proof.Machine.execDisarm p s
  | .planAdd p => Sys2Proof.Machine.execPlanAdd p s
  | .planDelete p => Sys2Proof.Machine.execPlanDelete p s
  | .planClear p => Sys2Proof.Machine.execPlanClear p s
  | .planRead p => Sys2Proof.Machine.execPlanRead p s
  | .latchSet p => Sys2Proof.Machine.execLatchSet p s
  | .latchRead p => Sys2Proof.Machine.execLatchRead p s
  | .event p => Sys2Proof.Machine.execEvent p s
  | .heartbeat p => Sys2Proof.Machine.execHeartbeat p s
  | .crash p => Sys2Proof.Machine.execCrash p s
  | .capture p => Sys2Proof.Machine.execCapture p s
  | .abort p => Sys2Proof.Machine.execAbort p s
  | .releaseHold p => Sys2Proof.Machine.execReleaseHold p s
  | .dir p => Sys2Proof.Machine.execDir p s
  | .manifest p => Sys2Proof.Machine.execManifest p s
  | .cursor p => Sys2Proof.Machine.execCursor p s
  | .read p => Sys2Proof.Machine.execRead p s
  | .journalRead p => Sys2Proof.Machine.execJournalRead p s
  | .release p => Sys2Proof.Machine.execRelease p s
  | .protect p => Sys2Proof.Machine.execProtect p s
  | .verify p => Sys2Proof.Machine.execVerify p s
  | .linkStatus p => Sys2Proof.Machine.execLinkStatus p s
  | .counters p => Sys2Proof.Machine.execCounters p s
  | .configGet p => Sys2Proof.Machine.execConfigGet p s
  | .configSet p => Sys2Proof.Machine.execConfigSet p s
  | .configSave p => Sys2Proof.Machine.execConfigSave p s
  | .configSaveEnd matched => Sys2Proof.Machine.execConfigSaveEnd matched s
  | .view p => Sys2Proof.Machine.execView p s
  | .restart p => Sys2Proof.Machine.execRestart p s
  | .resetRequestFall d => Sys2Proof.Machine.execResetRequestFall d s
  | .syncPairFound p => Sys2Proof.Machine.execSyncPairFound p s
  | .oversize p => Sys2Proof.Machine.execOversize p s

end Sys2Proof.Machine
end

