-- ==== Sys2Proof/Machine/Step.lean ====
section
/-! DEFINITION. One step of the device: the command at the front of the queue, or, with none waiting, one millisecond of
part time. -/
namespace Sys2Proof.Machine

/-- The device with the front command taken off its queue. -/
def State.withPending (s : State) (rest : List Instr) : State := { s with pending := rest }

/-- One idle millisecond (log 1): part time counts on and wraps (00 section 5.3). -/
def State.idle (s : State) : State := { s with partTime := s.partTime + 1 }

/-- One step: the command at the front of the queue is executed with the queue's rest; on an empty queue a millisecond
passes (log 1). -/
def step (s : State) : Host.Outcome State Fault Refusal :=
  match s.pending with
  | [] => .next s.idle
  | c :: rest => exec c (s.withPending rest)

/-- The device with the command a table word spells put at the front of its queue; no word spells one. -/
def State.withFetchWord (s : State) (nbits w : Nat) : State :=
  match decodeTableWord nbits w with
  | some c => s.withPending (c :: s.pending)
  | none => s

end Sys2Proof.Machine
end

