-- ==== Sys2Proof/Safety.lean ====
section
/-! DEFINITION. The terms the statements are made in: the laws the spec says the device keeps, what it means that a port
takes a request and that it has been answered, and what an opening and a harvest end leave. -/
namespace Sys2Proof.Machine

/-! ### Laws of one part -/

/-- The law of a domain record (R2, Table 1-3): which fields each state carries. -/
structure Domain.Lawful (x : Domain) : Prop where
  openDump : x.openDump.isSome = x.busy
  triggerTime : x.triggerTime.isSome = x.busy
  holdWindow : x.holdWindow.isSome = x.busy
  holdEnable : x.holdEnable.isSome = x.busy
  resting : x.busy = false → x.endCause = none ∧ x.holdLine = false ∧ x.holdTimer = none
  harvesting : x.state = .harvesting → x.endCause = none
  closing : x.state = .closing → x.endCause.isSome = true
  heartbeat : x.heartbeatTimer.isSome = true → x.state = .armed

/-- The law of a plan entry (R26, R29, R30): what the three tests let through, with the two settled fields. -/
structure PlanEntry.Lawful (x : PlanEntry) : Prop where
  tag : x.tag ≠ 0
  length : 1 ≤ x.length ∧ x.length ≤ 2 ^ 36
  range : x.base + x.length ≤ 2 ^ 48
  priority : x.priority ≤ 7
  floor : 1 ≤ x.floor ∧ x.floor ≤ x.length
  atomic : x.atomic = true → x.floor = x.length ∧ x.length ≤ 4096 ∧ x.base / 4096 = (x.base + x.length - 1) / 4096

/-- The law of a region plan (R25, R27): at most 48 lawful entries, each under its own tag. -/
structure Plan.Lawful (p : Plan) : Prop where
  count : p.entries.length ≤ 48
  entries : ∀ x ∈ p.entries, x.Lawful
  tags : (p.entries.map PlanEntry.tag).Nodup

/-- The sequence after the newest a journal can hold next, 2^32 once the journal is exhausted (R103, R108). -/
def Journal.bound (j : Journal) : Nat :=
  match j.nextSequence with
  | some q => q.toNat
  | none => 2 ^ 32

/-- The law of a latch slot (R114 to R116, Table 6-4). -/
structure Slot.Lawful (x : Slot) : Prop where
  empty : x.record = none → x.aging = none ∧ x.aged = false ∧ x.received = false ∧ x.checkError = false
  held : ∀ r, x.record = some r → x.slotClass ≠ 0 ∧ r.eventClass = x.slotClass ∧ x.checkError = r.checkBad
    ∧ (r.checkBad = true → x.keepBad = true) ∧ x.aging.isSome = !x.aged

/-- The law of a journal (R103 to R105, R108, R114): the ring holds at most 4,096 records of consecutive sequences, the
newest just below the next one; the intake queue holds at most 32, and a step is in flight exactly while it holds
one. -/
structure Journal.Lawful (j : Journal) : Prop where
  ring : j.ring.length ≤ 4096
  room : j.ring.length < j.bound
  sequences : j.ring.map (fun r => r.sequence.toNat) = List.range' (j.bound - j.ring.length) j.ring.length
  intake : j.intake.length ≤ 32
  step : j.intakeStep = !j.intake.isEmpty
  slots : ∀ i : Fin 16, j.slots[i].Lawful

/-- The law of a harvest link (R79 to R84, R90, R94): reads are outstanding only while it is UP, its training expiry is
there exactly while it is TRAINING, its retry timer runs only while it is DOWN, DOWN is WIDE, without power it is DOWN,
while a channel holds the lock no other channel's outstanding read touches a granule of the locked range, and the
outstanding reads have numbers of their own, below the next one (log 57). -/
structure Link.Lawful (l : Link) (powerGood : Bool) : Prop where
  outstanding : l.state ≠ .up → ∀ i : Fin 2, l.positions[i] = none
  training : l.trainingExpiry.isSome = (l.state == .training)
  retry : l.retryTimer.isSome = true → l.state = .down
  down : l.state = .down → l.mode = .wide
  power : powerGood = false → l.state = .down
  lock : ∀ x, l.lockHolder = some x → ∀ i : Fin 2, ∀ r, l.positions[i] = some r →
    r.channel = x.channel ∨ touches x.base x.length r.address r.length = false
  numbers : ∀ i : Fin 2, ∀ r, l.positions[i] = some r → r.number < l.issued
    ∧ ∀ k : Fin 2, ∀ q, l.positions[k] = some q → q.number = r.number → k = i

/-- The law of a port's queues (R160, R163, R164): 4 frames in, and 32 out with the reserved place. -/
structure Port.Lawful (q : Port) : Prop where
  input : q.input.length ≤ 4
  reserved : q.reserved ≤ 1
  output : q.output.length + q.reserved ≤ 32

/-- The ranges of a domain's settings (Table 10-2). -/
structure Settings.Lawful (x : Settings) : Prop where
  holdWindow : 1 ≤ x.holdWindow ∧ x.holdWindow ≤ 600
  heartbeatTimeout : x.heartbeatTimeout ≤ 255
  freshness : 1 ≤ x.freshness ∧ x.freshness ≤ 60
  derate : 50 ≤ x.derate ∧ x.derate ≤ 100
  retry : 1 ≤ x.retry ∧ x.retry ≤ 7
  threshold : 1 ≤ x.threshold ∧ x.threshold ≤ 8

/-! ### Laws of the device -/

/-- Every domain record is lawful, and both domains are DISARMED until start-up has ended (R23); a restart is on its way
only after it. -/
structure State.DomainLaw (s : State) : Prop where
  domains : ∀ d, (s.domain d).Lawful
  starting : s.startUp ≠ .finished → ∀ d, (s.domain d).state = .disarmed
  restarting : s.restart ≠ .none → s.startUp = .finished

def State.PlanLaw (s : State) : Prop := ∀ d, (s.plan d).Lawful
def State.JournalLaw (s : State) : Prop := ∀ d, (s.journal d).Lawful
def State.LinkLaw (s : State) : Prop := ∀ d, (s.link d).Lawful (s.powerGood.get d)
def State.PortLaw (s : State) : Prop := ∀ p, (s.port p).Lawful
def State.SettingsLaw (s : State) : Prop := ∀ d, (s.settings d).Lawful

/-- The staging pages a channel holds, with those it has asked for (R64). -/
def Staging.claimedBy (b : Staging) (c : Fin 4) : Nat :=
  b.heldBy (.channel c)
    + ((b.requests.filter fun r => r.holder == .channel c).map fun r => r.keys.length).sum

/-- The bounds of the capture store (R64, R149, R152, R153): 64 staging pages, 16 of them a channel's and none an IDLE
channel's, 2 spares, 32 retired entries, and no dump in a relocation wait while a spare is held, nor twice in one. -/
structure State.StoreLaw (s : State) : Prop where
  staging : s.staging.pages.length ≤ 64
  channels : ∀ c, s.staging.claimedBy c ≤ 16
  idle : ∀ c, (s.channel c).state = .idle → s.staging.claimedBy c = 0
  spares : s.store.spares.length ≤ 2
  retired : s.store.retired.length ≤ 32
  reserve : s.store.spares = [] ∨ s.store.waits = []
  waits : (s.store.waits.map RelocationWait.dump).Nodup

/-- The law of the directory (R121, R122, R2, R40): at most 16 entries of strictly rising numbers below the next number, a
domain's open dump is an OPEN entry of that domain with an admission record, and every OPEN entry is one. -/
structure State.DirectoryLaw (s : State) : Prop where
  count : s.directory.entries.length ≤ 16
  rising : s.directory.entries.Pairwise fun x y => x.number < y.number
  next : ∀ e ∈ s.directory.entries, e.number < s.directory.nextNumber
  openHeld : ∀ d n, (s.domain d).openDump = some n →
    ∃ e ∈ s.directory.entries, e.number = n ∧ e.domain = d ∧ e.state = .opened
  admitted : ∀ d, (s.admission d).map Admission.dump = (s.domain d).openDump
  openOnly : ∀ e ∈ s.directory.entries, e.state = .opened → (s.domain e.domain).openDump = some e.number

/-- What a detached Service Port holds (R168): nothing to send, no place reserved, no hold, no open cursor, the view
AUTO, and no frame but one whose request is in processing. -/
structure State.DetachedLaw (s : State) : Prop where
  queues : s.service.attached = false → s.servicePort.output = [] ∧ s.servicePort.reserved = 0
    ∧ s.servicePort.outgoingHold = none ∧ s.servicePort.peerHold = none ∧ s.service.holdOff = false
  input : s.service.attached = false → s.servicePort.input.length ≤ 1
    ∧ (s.servicePort.processing = none → s.servicePort.input = [])
  cursor : s.service.attached = false → s.service.cursor = none ∧ s.service.view = .auto

/-! ### Sections, channels and their reads (R51, R57, R66, R73, R90) -/

/-- The law of a section record (R51, R73): written at most admitted at most planned, a truncated length a multiple of
4,096 and at least the floor, a SKIPPED one 0, nothing written before the section is taken up, and at most 32 holes in
rising disjoint order, each within the written length, in a REGION section alone. -/
structure SectionRecord.Lawful (x : SectionRecord) : Prop where
  lengths : x.written ≤ x.admitted ∧ x.admitted ≤ x.planned
  truncated : x.truncated = true → x.admitted % 4096 = 0 ∧ x.floor ≤ x.admitted
  skipped : x.state = .skipped → x.admitted = 0
  fresh : x.state = .pending ∨ x.state = .skipped → x.written = 0 ∧ x.holes = [] ∧ x.holeOverflow = false
  holeCount : x.holes.length ≤ 32
  holeOrder : x.holes.Pairwise fun h k => h.offset + h.length ≤ k.offset
  holeBounds : ∀ h ∈ x.holes, 1 ≤ h.length ∧ h.offset + h.length ≤ x.written
  fixedWhole : x.kind ≠ .region → x.holes = []

/-- A section that a copy or the latch snapshot fills: a fixed one, taken up, of at least so many admitted bytes. -/
def SectionRecord.fills (x : SectionRecord) (bytes : Nat) : Prop :=
  x.kind ≠ .region ∧ x.state ≠ .pending ∧ x.state ≠ .skipped ∧ bytes ≤ x.admitted

/-- The law of a channel that holds a section (R57, R62, R63, R66): the section is ACTIVE and has written what the channel
has handled; prefix, reads in hand, extents above and the fetch position follow one another without overlap, within the
admitted length; and every hole above is one of the extents above. -/
structure State.ChannelLaw (s : State) (ch : Channel) (j : Job) : Prop where
  number : j.dump < s.directory.nextNumber
  sect : ∀ x, s.sect j.dump j.index = some x →
    x.kind = .region ∧ x.state = .active ∧ x.admitted = j.admitted ∧ x.written = ch.handled
  ordered : ch.handled ≤ ch.fetchPos ∧ ch.fetchPos ≤ j.admitted
  hand : ∀ r ∈ ch.hand, 1 ≤ r.length ∧ ch.handled ≤ r.offset ∧ r.offset + r.length ≤ ch.fetchPos
  handApart : ch.hand.Pairwise fun r q => r.offset + r.length ≤ q.offset ∨ q.offset + q.length ≤ r.offset
  above : ∀ x ∈ ch.above, 1 ≤ x.length ∧ ch.handled ≤ x.offset ∧ x.offset + x.length ≤ ch.fetchPos
  aboveApart : ch.above.Pairwise fun x y => x.offset + x.length ≤ y.offset ∨ y.offset + y.length ≤ x.offset
  bothApart : ∀ r ∈ ch.hand, ∀ x ∈ ch.above, r.offset + r.length ≤ x.offset ∨ x.offset + x.length ≤ r.offset
  holes : ∀ h ∈ ch.holesAbove, ∃ x ∈ ch.above, x.offset = h.offset ∧ x.length = h.length
  holesApart : ch.holesAbove.Pairwise fun h k => h.offset ≠ k.offset

/-- The law of an outstanding read (R85, R90): it is one outstanding read in the hand of a channel of the link's domain,
and fewer granules than its own have come. -/
structure State.ReadLaw (s : State) (d : Dom) (r : LinkRead) : Prop where
  granules : r.received.length < r.granules ∧ (r.granules = 1 ∨ 64 * r.granules = r.length)
  hand : ∃ j h, (s.channel r.channel).job = some j ∧ j.domain = d ∧ h ∈ (s.channel r.channel).hand
    ∧ h.outstanding = true ∧ j.base + h.offset = r.address ∧ h.length = r.length

/-- The law of the sections and of what fills them (R37, R51, R57, R66, R73, R90, R110, R111, R119): every section is
lawful, an OPEN dump begins with its three fixed sections, channels, outstanding reads and copies are lawful, no two
channels hold one section, and nothing is harvested before start-up ends. -/
structure State.SectionLaw (s : State) : Prop where
  sections : ∀ e ∈ s.directory.entries, ∀ x ∈ e.sections, x.Lawful
  fixed : ∀ e ∈ s.directory.entries, e.state = .opened →
    (e.sections.take 3).map (fun x => (x.kind, x.admitted))
        = [(.latch, 4096), (.journalPre, 131072), (.journalPost, 32768)]
      ∧ ∀ (i : Nat) (x : SectionRecord), e.sections[i]? = some x → x.index = i
  idle : ∀ c, (s.channel c).state = .idle → (s.channel c).job = none
  channels : ∀ c j, (s.channel c).job = some j → s.ChannelLaw (s.channel c) j
  distinct : ∀ c e j k, (s.channel c).job = some j → (s.channel e).job = some k → j.dump = k.dump →
    j.index = k.index → c = e
  reads : ∀ d, ∀ i : Fin 2, ∀ r, (s.link d).positions[i] = some r → s.ReadLaw d r
  readsApart : ∀ d r q, (s.link d).positions[(0 : Fin 2)] = some r → (s.link d).positions[(1 : Fin 2)] = some q →
    r.channel = q.channel → r.address ≠ q.address
  copies : ∀ d c, (s.journal d).copier = some c → c.dump < s.directory.nextNumber ∧ c.copied ≤ c.count
    ∧ ∀ x, s.sect c.dump c.kind.index = some x → x.fills (64 * c.count)
  latches : ∀ r ∈ s.staging.requests, r.holder = .directory → ∀ k, r.keys.head? = some k → k.kind ≠ .dumpHeader →
    k.kind ≠ .manifest → k.dump < s.directory.nextNumber ∧ ∀ x, s.sect k.dump 0 = some x → x.fills 4096
  starting : s.startUp ≠ .finished → (∀ c, (s.channel c).job = none) ∧ (∀ d, (s.journal d).copier = none)
    ∧ s.staging.requests = []

/-! ### Claims on the pool (R46, R47) -/

/-- The claims of the open dumps never exceed the pool (R47). -/
def State.ClaimLaw (s : State) : Prop := s.claim .a + s.claim .b ≤ s.store.poolPages

/-- The pages a dump in a relocation wait keeps counted are at most a block's (R152): the open block's lost pages, and the
debt where the wait began at a taking. -/
def Store.WaitsCovered (st : Store) : Prop :=
  ∀ w ∈ st.waits, ∀ r, st.record w.dump = some r → w.counted + (if w.atTaking then r.debt else 0) ≤ 128

/-- What a refill leaves of a pool, a spare reserve and the relocation waits (R149, R152): so many blocks leave the pool's
head, the first of them for the dumps that wait, in the order of their waits, as their open blocks, and the others for the
reserve, which holds at most 2. -/
def Store.RefilledFrom (u : Store) (pool spares : List Nat) (waits : List RelocationWait) : Prop :=
  ∃ m, m ≤ pool.length ∧ u.pool = pool.drop m ∧ u.waits = waits.drop m
    ∧ u.spares = spares ++ (pool.take m).drop waits.length ∧ (m = 0 ∨ u.spares.length ≤ 2)
    ∧ ∀ (i : Nat) (w : RelocationWait) (x : Nat) (r : StoreRecord), i < m →
        waits[i]? = some w → pool[i]? = some x → u.record w.dump = some r → r.openBlock = some x

/-- What a refill that may be made leaves of a store (R149, R152): blocks leave the pool's head for the dumps that wait and
for the reserve.  Only the records of dumps that wait change, and no page map or count of programmed pages; and of the
blocks outside the pool only the open block of a dump that waited, which becomes FULL. -/
structure Store.Refilled (x y : Store) : Prop where
  taken : y.RefilledFrom x.pool x.spares x.waits
  frame : y = { x with pool := y.pool, spares := y.spares, waits := y.waits, blocks := y.blocks, records := y.records }
  others : ∀ n, x.isWaiting n = false → y.record n = x.record n
  kept : ∀ n r, x.record n = some r → ∃ q, y.record n = some q ∧ q.pageMap = r.pageMap ∧ q.programmed = r.programmed
  blocks : ∀ b, b ∉ x.pool → y.block b = x.block b ∨ ((∃ n r, x.isWaiting n = true ∧ x.record n = some r
    ∧ r.openBlock = some b) ∧ y.block b = { x.block b with state := .full })

/-- An image whose fields fit their bytes, which every image read has (Tables 10-1 and 10-2). -/
structure Image.Fits (im : Image) : Prop where
  serial : im.serial.length = 16
  asset : im.asset.length = 32
  retired : im.retired.length ≤ 32 ∧ ∀ r ∈ im.retired, r.block < 65536
  settings : ∀ d, ∀ x : StoredSettings, x = im.storedSettings.get d → x.holdWindow < 65536 ∧ x.heartbeatTimeout < 256
    ∧ x.freshness < 256 ∧ x.derate < 256 ∧ x.retry < 256 ∧ x.threshold < 256
  slots : ∀ d, (im.storedSlots.get d).length = 16

/-- The configuration after the store starts a save of a retired list, or marks it pending (R153, R179). -/
def Configuration.saving (c : Configuration) (retired : List RetiredEntry) : Configuration :=
  match c.save with
  | some _ => { c with savePending := true }
  | none => { c with save := some { kind := .store, image := { c.stored with retired := retired } } }

/-- What withdrawing a block under a dump number leaves (R153): while the retired list has room the block is RETIRED and
listed, and a save starts or is pending; with 32 entries it is WITHHELD, and nothing is saved. -/
structure Withdrawn (s u : State) (b : Nat) (n : Num) : Prop where
  listed : s.store.retired.length < 32 → (u.store.block b).state = .retired
    ∧ u.store.retired = s.store.retired ++ [{ block := b, dump := n }]
    ∧ u.config = s.config.saving (s.store.retired ++ [{ block := b, dump := n }])
  full : 32 ≤ s.store.retired.length → (u.store.block b).state = .withheld
    ∧ u.store.retired = s.store.retired ∧ u.config = s.config

/-! ### Requests -/

/-- The body sizes Table 9-6 gives a kind: for EVENT the size that its payload length gives, and for CONFIG SET the size of
its item, or any item's for an item code that is none (log 27). -/
def requestSizes (k : Nat) (body : List Byte) : List Nat :=
  match k with
  | 0x05 => [29]
  | 0x06 => [2]
  | 0x08 => [1]
  | 0x09 => [3]
  | 0x0B => [5 + field body 3 1]
  | 0x0C => [0, 8]
  | 0x0D => [4]
  | 0x12 => [6]
  | 0x13 => [13]
  | 0x14 => [2]
  | 0x15 => [5]
  | 0x16 => [5]
  | 0x17 => [5]
  | 0x18 => [5]
  | 0x19 => [1]
  | 0x1C =>
    if field body 0 1 = 9 then [17] else if field body 0 1 = 10 then [33]
    else if 1 ≤ field body 0 1 ∧ field body 0 1 ≤ 8 then [3] else [3, 17, 33]
  | 0x1E => [1]
  | _ => [0]

/-- The frames a port still has to send, the one on the line first and HOLDs apart (R164, R166). -/
def Port.sending (q : Port) : List Frame := (q.line.toList ++ q.output).filter fun f => f.kind != 0x7F

/-- A port record with the frames it takes and sends set aside. -/
def Port.aside (q : Port) : Port :=
  { q with input := [], processing := none, reserved := 0, output := [], line := none, outgoingHold := none }

/-- The device but for the frames a port takes and sends and its pacing: what a request leaves as it was, unless its
rule says otherwise. -/
def State.apart (s : State) : PortId → State
  | .service => { s with servicePort := s.servicePort.aside, service := { s.service with holdOff := false } }
  | .platform d => { s with platformPorts := s.platformPorts.set d (s.platformPorts.get d).aside }

/-- The port and kind of a request command (Table 9-6). -/
def requestOf : Instr → Option (PortId × Byte)
  | .ident p => some (p, 0x01)
  | .status p => some (p, 0x02)
  | .arm p => some (p, 0x03)
  | .disarm p => some (p, 0x04)
  | .planAdd p => some (p, 0x05)
  | .planDelete p => some (p, 0x06)
  | .planClear p => some (p, 0x07)
  | .planRead p => some (p, 0x08)
  | .latchSet p => some (p, 0x09)
  | .latchRead p => some (p, 0x0A)
  | .event p => some (p, 0x0B)
  | .heartbeat p => some (p, 0x0C)
  | .crash p => some (p, 0x0D)
  | .capture p => some (p, 0x0E)
  | .abort p => some (p, 0x0F)
  | .releaseHold p => some (p, 0x10)
  | .dir p => some (p, 0x11)
  | .manifest p => some (p, 0x12)
  | .cursor p => some (p, 0x13)
  | .read p => some (p, 0x14)
  | .journalRead p => some (p, 0x15)
  | .release p => some (p, 0x16)
  | .protect p => some (p, 0x17)
  | .verify p => some (p, 0x18)
  | .linkStatus p => some (p, 0x19)
  | .counters p => some (p, 0x1A)
  | .configGet p => some (p, 0x1B)
  | .configSet p => some (p, 0x1C)
  | .configSave p => some (p, 0x1D)
  | .view p => some (p, 0x1E)
  | .restart p => some (p, 0x1F)
  | _ => none

/-- A port takes up a frame of a kind, and the frame passes tests 1 to 5 (R163). -/
def State.takes (s : State) (p : PortId) (kind : Byte) (f : Frame) : Prop :=
  s.nextFrame p = some f ∧ f.kind = kind ∧ s.refusal p f = none

/-- A request has been answered (R161, R163): its reply is the last frame the port has to send, its frame has left the
input queue, and nothing stays reserved or in processing. -/
structure Answered (s t : State) (p : PortId) (f : Frame) (dom status : Byte) (body : List Byte) : Prop where
  reply : (t.port p).sending = (s.port p).sending ++ [f.reply dom status body]
  input : (t.port p).input = (s.port p).input.tail
  processing : (t.port p).processing = none
  reserved : (t.port p).reserved = 0

/-- As `Answered`, with notices sent meanwhile around the reply. -/
structure AnsweredAmong (s t : State) (p : PortId) (f : Frame) (dom status : Byte) (body : List Byte) : Prop where
  reply : ∃ before after, (∀ x ∈ before ++ after, x.isNotice = true) ∧
    (t.port p).sending = (s.port p).sending ++ before ++ f.reply dom status body :: after
  input : (t.port p).input = (s.port p).input.tail
  processing : (t.port p).processing = none
  reserved : (t.port p).reserved = 0

/-- How the Service Port is paced by the frame that leaves its input queue (R166): one that brings the queue to 1, with
hold-off sent, makes HOLD(0) due, which starts on a free line, or waits in place of the HOLD that waited, and clears hold-off
sent; else hold-off sent and, behind a frame on the line, the HOLD that waits stand.  (One frame leaves by a command at
most, so that a queue brought from 2 or more frames to 1 or fewer is one brought to 1.) -/
structure State.PacedTo (s t : State) : Prop where
  ended : s.service.holdOff = true → 2 ≤ s.servicePort.input.length → t.servicePort.input.length ≤ 1 →
    t.service.holdOff = false
      ∧ (t.servicePort.line = some (Frame.hold 0) ∨ t.servicePort.outgoingHold = some 0)
      ∧ ∀ g, s.servicePort.line = some g → t.servicePort.line = some g ∧ t.servicePort.outgoingHold = some 0
  stands : ¬(s.service.holdOff = true ∧ 2 ≤ s.servicePort.input.length ∧ t.servicePort.input.length ≤ 1) →
    t.service.holdOff = s.service.holdOff
      ∧ ∀ g, s.servicePort.line = some g →
        t.servicePort.line = some g ∧ t.servicePort.outgoingHold = s.servicePort.outgoingHold

/-- The VERIFY notice (R142, Table 9-17). -/
def verifyNotice (tag : Byte) (n : Num) (which result : Nat) (recorded computed : BitVec 32) : Frame :=
  { kind := 0xC5, tag := tag, domain := 0xFF, notice := true
    body := le 4 n.toNat ++ le 1 which ++ le 1 result ++ le 4 recorded.toNat ++ le 4 computed.toNat }

/-- What a notice made after the frames `first` leaves of the Service Port (R164): while attached it takes the notice tag,
and joins the frames to send while fewer than 24 notices and, with the frames before it, fewer than 32 frames are queued;
with 24 notices or 32 frames queued behind a frame on the line, which is no longer in the queue (log 13), it is counted as
lost; while detached there is none. -/
structure NoticeMade (s t : State) (first : List Frame) (f : Frame) : Prop where
  tag : t.service.noticeTag = (if s.service.attached then s.service.noticeTag + 1 else s.service.noticeTag)
  queued : s.service.attached = true → (s.servicePort.output.filter Frame.isNotice).length < 24 →
    s.servicePort.output.length + s.servicePort.reserved + first.length < 32 →
    t.servicePort.sending = s.servicePort.sending ++ first ++ [f] ∧ t.service.noticesLost = s.service.noticesLost
  lost : s.service.attached = true → s.servicePort.line.isSome = true →
    24 ≤ (s.servicePort.output.filter Frame.isNotice).length
      ∨ 32 ≤ s.servicePort.output.length + s.servicePort.reserved + first.length →
    t.servicePort.sending = s.servicePort.sending ++ first ∧ t.service.noticesLost = s.service.noticesLost.inc
  detached : s.service.attached = false →
    t.servicePort.sending = s.servicePort.sending ++ first ∧ t.service.noticesLost = s.service.noticesLost

/-- The end of a READ that delivers bytes of a section from an offset (R172, R138, Table 9-6), of which it asked for `count`:
it is answered, OK_ADJUSTED if the count was clamped, with the bytes and the flags short, more-pending (a section of an
OPEN dump that is PENDING or ACTIVE as the READ completes; log 56) and unreadable; the open cursor moves past the bytes, and
so does the section's delivery mark if it lies within them; and the fetched flag is set once a dump that is not OPEN is
delivered whole. -/
structure ReadAnswered (s u : State) (f : Frame) (n : Num) (index offset count : Nat) (adjusted : Bool)
    (bytes : List Byte) (unreadable : Bool) : Prop where
  answer : ∃ more : Bool,
    (more = true ↔ ∃ e x, s.dump n = some e ∧ e.state = .opened ∧ e.sections[index]? = some x
      ∧ (x.state = .pending ∨ x.state = .active))
    ∧ Answered s u .service f 0xFF (if adjusted then 0x01 else 0x00)
      (le 4 n.toNat ++ le 1 index ++ le 8 offset ++ le 2 bytes.length
        ++ le 1 (flagBits [decide (bytes.length < count), more, unreadable]) ++ bytes)
  cursor : u.service.cursor = s.service.cursor.map fun c => { c with offset := offset + bytes.length }
  marks : ∀ e, s.dump n = some e → ∃ e', u.dump n = some e'
    ∧ e' = { e with sections := e'.sections, fetched := e'.fetched }
    ∧ e'.sections = e.sections.modify index (fun x => { x with
        delivered := if offset ≤ x.delivered ∧ x.delivered < offset + bytes.length then offset + bytes.length
          else x.delivered })
    ∧ (e'.fetched = true ↔ e.fetched = true ∨ (e.state ≠ .opened ∧ ∀ x ∈ e'.sections, x.delivered = x.written))
  others : ∀ m, m ≠ n → u.dump m = s.dump m

/-! ### What the device's own work leaves (95; log 4) -/

/-- A dump entry but for what the device's own work writes: its sections, its end cause and the figures it takes at its
closing. -/
def DumpEntry.still (e : DumpEntry) : DumpEntry :=
  { e with sections := [], endCause := none, preDrops := none, postCounts := none, closeTime := none
           countersAtClose := none }

/-- The directory but for what the device's own work writes. -/
def Directory.still (x : Directory) : Directory := { x with entries := x.entries.map DumpEntry.still }

/-- A journal but for its copier. -/
def Journal.still (j : Journal) : Journal := { j with copier := none }

/-- A link but for its grants, with the numbers of their reads, and its lock; its outstanding positions stay while it is
not UP. -/
def Link.still (l : Link) : Link :=
  { l with
    positions := if l.state = .up then Vector.replicate 2 none else l.positions
    requests := [], lastGranted := 0, lockHolder := none, designate := none, lockQueue := []
    counters := { l.counters with readsIssued := 0 }, issued := 0 }

/-- Of the store, the retired list and the failure counters. -/
def Store.still (st : Store) : Store :=
  { Store.unknown with
    retired := st.retired, programFailures := st.programFailures, eraseFailures := st.eraseFailures }

/-- A port but for what it sends. -/
def Port.still (q : Port) : Port := { q with output := [], line := none, outgoingHold := none }

/-- The Service Port's own fields but for its count of notices. -/
def Service.still (x : Service) : Service := { x with noticesLost := 0, noticeTag := 0 }

/-- What the device's own work does to a domain record: nothing, or the end of a complete harvest (R12). -/
def Domain.mayComplete (x y : Domain) : Prop :=
  y = x ∨ (x.state = .harvesting ∧ y = { x with state := .closing, endCause := some .complete })

/-! ### Openings and harvest ends -/

/-- The TRIGGER record of a trigger (Table 6-3, R107). -/
def triggerRecord (cause : TriggerCause) (code : Option (BitVec 32)) (n : Num) (now : Time) : EventRecord :=
  { sequence := 0, time := now, origin := 15, eventClass := 0xF0, severity := 3, checkBad := false
    payload := le 1 cause.code ++ le 4 n.toNat ++ (match code with
      | some c => le 4 c.toNat
      | none => []) }

/-- The HOLD_RELEASE record of a domain's release (Table 6-3, R107). -/
def holdReleaseRecord (s : State) (d : Dom) (reason : ReleaseReason) : EventRecord :=
  { sequence := 0, time := s.partTime, origin := 15, eventClass := 0xF2, severity := 1, checkBad := false
    payload := le 1 reason.code ++ le 4 ((s.domain d).openDump.getD 0).toNat }

/-- The fields of a section that its opening fixes (R124). -/
structure Shape where
  index : Nat
  kind : SectionKind
  tag : BitVec 16
  base : Nat
  planned : Nat
  floor : Nat
deriving DecidableEq, Repr

def SectionRecord.shape (x : SectionRecord) : Shape := ⟨x.index, x.kind, x.tag, x.base, x.planned, x.floor⟩

/-- The sections of a dump opened with a plan (R37, Table 3-4): the three fixed ones, then the plan's entries in harvest
order. -/
def Plan.shapes (p : Plan) : List Shape :=
  [⟨0, .latch, 0, 0, 4096, 4096⟩, ⟨1, .journalPre, 0, 0, 131072, 131072⟩, ⟨2, .journalPost, 0, 0, 32768, 32768⟩]
    ++ p.harvestOrder.mapIdx fun i x => ⟨i + 3, .region, x.tag, x.base, x.length, x.floor⟩

/-- What bytes written at a section offset leave of the staging buffer (R66): every page keeps its place, key and holder;
in a page of the section the bytes lie at their offsets and the other bytes stay; every other page stays as it is. -/
structure StagedAt (s u : State) (j : Job) (offset : Nat) (bytes : List Byte) : Prop where
  requests : u.staging.requests = s.staging.requests
  pages : u.staging.pages.map (fun q => (q.key, q.holder)) = s.staging.pages.map fun q => (q.key, q.holder)
  mine : ∀ (i : Nat) (q r : StagingPage) (p b : Nat), s.staging.pages[i]? = some q →
    u.staging.pages[i]? = some r → 1 ≤ p →
    q.key = dataKey j.dump j.index p → b < 4096 →
    r.data.getD b 0 = if offset ≤ 4096 * (p - 1) + b ∧ 4096 * (p - 1) + b < offset + bytes.length
      then bytes.getD (4096 * (p - 1) + b - offset) 0 else q.data.getD b 0
  others : ∀ (i : Nat) (q r : StagingPage), s.staging.pages[i]? = some q → u.staging.pages[i]? = some r →
    (∀ p, 1 ≤ p → q.key ≠ dataKey j.dump j.index p) → r = q

/-- What the opening of a dump leaves (R4, R37, R44, R48, R109, R119, R126), before the device's own work: `s` is the
device the trigger finds, `u` the device after it. -/
structure Opened (s u : State) (d : Dom) (cause : TriggerCause) (code : Option (BitVec 32)) : Prop where
  domain : u.domain d = { s.domain d with
    state := .triggered, triggerTime := some s.partTime, openDump := some s.directory.nextNumber
    endCause :=
      if s.powerGood.get d = false then some .powerLost
      else if (s.link d).state = .down then some .linkLost else none
    holdWindow := some ((s.settings d).holdWindow * 1000), holdEnable := some (s.settings d).holdEnable
    holdLine := (s.settings d).holdEnable
    holdTimer := some (s.partTime + BitVec.ofNat 32 ((s.settings d).holdWindow * 1000)), heartbeatTimer := none }
  number : u.directory.nextNumber = s.directory.nextNumber + 1
  entry : ∃ old e, u.directory.entries = old ++ [e]
    ∧ old.map DumpEntry.still = s.directory.entries.map DumpEntry.still
    ∧ e.number = s.directory.nextNumber ∧ e.domain = d ∧ e.state = .opened
    ∧ e.triggers = [{ cause := cause, time := s.partTime, code := code }] ∧ e.triggerTime = s.partTime
    ∧ e.planGeneration = some (s.plan d).generation ∧ e.wallTime = (s.domain d).wallTime
    ∧ e.holdWindow = (s.settings d).holdWindow * 1000 ∧ e.holdEnable = (s.settings d).holdEnable
    ∧ e.modeAtOpening = (s.link d).mode ∧ e.isProtected = false ∧ e.fetched = false
    ∧ e.sections.map SectionRecord.shape = (s.plan d).shapes
  admission : ∃ a, u.admission d = some a ∧ a.dump = s.directory.nextNumber ∧ a.headerShare = 1
    ∧ a.manifestShare = 16 ∧ a.shares.take 3 = [2, 33, 9]
  journal : u.journal d = ((s.journal d).append (triggerRecord cause code 0 s.partTime)).startPre
    s.directory.nextNumber s.partTime
  store : u.store = { s.store with records := s.store.records ++ [StoreRecord.new s.directory.nextNumber] }
  staging : u.staging = { s.staging with requests := s.staging.requests ++
    [{ holder := .directory, keys := [dumpHeaderKey s.directory.nextNumber] },
     { holder := .copier d, keys := [headerKey s.directory.nextNumber 1] },
     { holder := .directory, keys := [headerKey s.directory.nextNumber 0, dataKey s.directory.nextNumber 0 1] }] }
  autoDomain : u.service.autoDomain = d
  frame : u = { s with
    domains := s.domains.set d (u.domain d), admissions := u.admissions, works := s.works.set d (u.work d)
    staging := u.staging, journals := s.journals.set d (u.journal d), directory := u.directory, store := u.store
    servicePort := u.servicePort, platformPorts := u.platformPorts, service := u.service }

/-- What a trigger whose opening fails leaves (R5, R107, Table 6-3): `s` is the device the trigger finds.  The domain is
SETTLED with its heartbeat timer stopped and no field of a dump, its TRIGGER record and its DUMP_FAILED record are
appended, and the automatic view follows it. -/
structure OpeningFailed (s t : State) (d : Dom) (cause : TriggerCause) (code : Option (BitVec 32)) (why : FailureCause) :
    Prop where
  domain : t.domain d = { s.domain d with
    state := .settled, heartbeatTimer := none, triggerTime := none, openDump := none, endCause := none
    holdWindow := none, holdEnable := none }
  journal : t.journal d = ((s.journal d).append (triggerRecord cause code 0 s.partTime)).append
    { sequence := 0, time := s.partTime, origin := 15, eventClass := 0xF4, severity := 3
      payload := le 1 cause.code ++ le 1 why.code, checkBad := false }
  view : t.service.autoDomain = d
  frame : t = { s with
    domains := s.domains.set d (t.domain d), journals := s.journals.set d (t.journal d)
    servicePort := t.servicePort, platformPorts := t.platformPorts, service := t.service }

/-- A domain record after an event that ends its harvest (R13 to R16): in TRIGGERED the cause is recorded if none is, in
HARVESTING the domain enters CLOSING, and elsewhere nothing changes. -/
def Domain.ended (x : Domain) (cause : EndCause) : Domain :=
  match x.state with
  | .triggered => { x with endCause := some (x.endCause.getD cause) }
  | .harvesting => { x with state := .closing, endCause := some cause }
  | _ => x

/-- What a harvest end leaves of the dump's sections and channels (R76, R77, R129): for a domain that was HARVESTING, the
entry takes the end cause, no REGION section of it stays PENDING, and every channel that holds one is ENDING. -/
def SectionsEnded (s u : State) (d : Dom) (cause : EndCause) : Prop :=
  (s.domain d).state = .harvesting → ∀ n, (s.domain d).openDump = some n →
    (∀ e, u.dump n = some e → e.endCause = some cause ∧ ∀ x ∈ e.sections, x.kind = .region → x.state ≠ .pending)
    ∧ ∀ c j, (u.channel c).job = some j → j.dump = n → (u.channel c).state = .ending ∨ (u.channel c).state = .idle

end Sys2Proof.Machine
end

