-- ==== Sys2Proof/Certificates/Slice0/Obligations.lean ====
section
/-! DEFINITION. The statements about the device, for the provers.  A docstring names the rules of spec/ that a statement
rests on; STATED means that it formalises a rule as a whole, DERIVED that it is read from the rules named. -/
section Statements
open Sys2Proof Sys2Proof.Machine

/-! ### Steps -/

/-- DERIVED. A step takes the command at the front of the queue and is that command's effect with the queue's rest.  On an
empty queue a millisecond of part time passes, wrapping, and nothing else happens: that is the model's choice (log 1). -/
def Obligations.StepRunsTheFrontCommand : Prop :=
  (∀ (s : State) (c : Instr) (rest : List Instr), s.pending = c :: rest → step s = exec c { s with pending := rest }) ∧
  (∀ s : State, s.pending = [] → step s = .next { s with partTime := s.partTime + 1 })

/-- DERIVED, the model's choice: that a command whose event cannot occur, or whose request is not the next one, is taken
and changes nothing is log 3, and the queue of commands that wait is log 52.  Every command of the table is taken in every
state, and none touches the commands that wait. -/
def Obligations.EveryCommandIsTaken : Prop :=
  ∀ (c : Instr) (s : State), ∃ t : State, exec c s = .next t ∧ t.pending = s.pending

/-- DERIVED. `State.reset`, the state the runs of the model begin in, keeps every law that the other statements carry from
step to step. Where the spec gives it no value it has the model's own: inputs low (log 5), a configuration memory of 0xFF
bytes and an erased array (logs 6 and 7), the default settings before the load (log 8), and an empty store and a next dump
number of 1 before the scan (log 33); of these the settings, store, directory and array laws speak. It is not the device
after a hard reset of a written array, which `ResetAndStartUp` gives. -/
def Obligations.ResetKeepsEveryLaw : Prop :=
  State.reset.DomainLaw ∧ State.reset.PlanLaw ∧ State.reset.JournalLaw ∧ State.reset.LinkLaw ∧ State.reset.PortLaw
    ∧ State.reset.SettingsLaw ∧ State.reset.StoreLaw ∧ State.reset.DirectoryLaw ∧ State.reset.DetachedLaw
    ∧ State.reset.SectionLaw ∧ State.reset.ClaimLaw ∧ State.reset.store.WaitsCovered ∧ State.reset.flash.wf = true

/-! ### Laws that every step keeps -/

/-- DERIVED. The domain law (R2, Table 1-3, R23): which fields each domain state carries. -/
def Obligations.StepsKeepTheDomainLaw : Prop :=
  ∀ s t : State, s.DomainLaw → step s = .next t → t.DomainLaw

/-- DERIVED. The plan law (R25, R26, R29, R30), and every setting in its range (Table 10-2, R176, R178). -/
def Obligations.StepsKeepPlansAndSettingsLawful : Prop :=
  ∀ s t : State, step s = .next t → (s.PlanLaw → t.PlanLaw) ∧ (s.SettingsLaw → t.SettingsLaw)

/-- DERIVED. The journal and slot law (R103 to R105, R108, R114 to R116). -/
def Obligations.StepsKeepTheJournalLaw : Prop :=
  ∀ s t : State, s.JournalLaw → step s = .next t → t.JournalLaw

/-- DERIVED. The link law (R79 to R84), and the lock law (R90, R94): while a channel holds the lock, no other channel's
outstanding read touches a granule of the locked range.  The outstanding reads of a link have numbers of their own, below
the number of the next one issued, so that an event of an ended read names no other (log 57). -/
def Obligations.StepsKeepTheLinkLaw : Prop :=
  ∀ s t : State, s.LinkLaw → step s = .next t → t.LinkLaw

/-- DERIVED. The bounds of every port's queues (R160, R163, R164). -/
def Obligations.StepsKeepThePortLaw : Prop :=
  ∀ s t : State, s.PortLaw → step s = .next t → t.PortLaw

/-- DERIVED. The bounds of the capture store (R64, R149, R152, R153): 64 staging pages, of which a channel claims at most 16
and an IDLE one none, 2 spares, 32 retired entries, no dump in a relocation wait while a spare is held, nor twice. -/
def Obligations.StepsKeepTheStoreLaw : Prop :=
  ∀ s t : State, s.StoreLaw → step s = .next t → t.StoreLaw

/-- DERIVED. The law of the directory and of the open dumps (R121, R122, R2, R40), in a device that keeps the domain law;
when the scan ends, the array must hold no dump number 0xFFFFFFFF, which the device itself never gives (R125). -/
def Obligations.StepsKeepTheDirectoryLaw : Prop :=
  ∀ s t : State, s.DomainLaw → s.DirectoryLaw →
    (s.pending.head? = some .startUpScanComplete → s.flash.highest < 0xFFFFFFFF) →
    step s = .next t → t.DirectoryLaw

/-- DERIVED. The array keeps its canonical form: page numbers strictly rising and every page's bytes in their one
form. -/
def Obligations.StepsKeepTheArrayCanonical : Prop :=
  ∀ s t : State, s.flash.wf = true → step s = .next t → t.flash.wf = true

/-- DERIVED. A detached Service Port holds nothing to send, no hold, no cursor and no view (R168). -/
def Obligations.StepsKeepTheDetachedLaw : Prop :=
  ∀ s t : State, s.DetachedLaw → step s = .next t → t.DetachedLaw

/-- DERIVED. The section law (R51, R57, R62, R63, R66, R73, R90): every section of every dump has written at most admitted at
most planned and a hole list of at most 32 entries in rising disjoint order within the written length, and every channel,
outstanding read and copy that fills a section is lawful, in a device that keeps the domain and directory laws; when the
scan ends, the sections it finds in the array must be lawful. -/
def Obligations.StepsKeepTheSectionLaw : Prop :=
  ∀ s t : State, s.DomainLaw → s.DirectoryLaw → s.SectionLaw →
    (s.pending.head? = some .startUpScanComplete →
      ∀ e ∈ t.directory.entries, ∀ x ∈ e.sections, x.Lawful) →
    step s = .next t → t.SectionLaw

/-- DERIVED (R46, R47, R149, R151, R152). The claims of the open dumps never exceed the pool: every operation that moves a
claim or a block of the pool keeps that.  A block is taken from the pool for a dump that claims one, a debt settled with a
spare is at most a block, and a page that fails in its dump's open block is not of a dump that already waits. A refill goes
on until the reserve holds 2 blocks, the pool is empty or its pages no longer cover a block and the claims; a section end
that lowers no share, and a complete harvest's end, make none. -/
def Obligations.ClaimsStayCovered : Prop :=
  ∀ (s : State), s.ClaimLaw → s.store.WaitsCovered →
    s.refill.ClaimLaw ∧ s.replanAll.ClaimLaw ∧
    (∀ d, (s.pass d).ClaimLaw ∧ (s.replan d).ClaimLaw) ∧
    (∀ d cause, (s.enterClosing d cause).ClaimLaw) ∧
    (∀ d i n, n ≤ s.share d i → (s.setShare d i n).ClaimLaw) ∧
    (∀ k a, (s.pageProgrammed k a).ClaimLaw) ∧
    (∀ i k b, s.store.place k.dump = .pool b → (∃ d x, s.admission d = some x ∧ x.dump = k.dump ∧ 128 ≤ s.claim d) →
      (s.startProgram i (.page k)).ClaimLaw) ∧
    (∀ i k, (∀ r, s.store.record k.dump = some r → r.debt ≤ 128) → (∀ b, s.store.place k.dump ≠ .pool b) →
      (s.startProgram i (.page k)).ClaimLaw) ∧
    (∀ k a, (∀ r, s.store.record k.dump = some r → r.openBlock = some (a / 128) →
        1 ≤ (s.store.block (a / 128)).nextPage ∧ s.store.isWaiting k.dump = false) →
      (s.programFailure (.page k) a).ClaimLaw) ∧
    (∀ b withheld, (s.eraseDone b withheld).ClaimLaw) ∧
    (∀ d n, (∀ x, s.admission (otherDom d) = some x → x.dump ≠ n) → (s.dumpClosed d n).ClaimLaw) ∧
    (∀ n, (∀ d x, s.admission d = some x → x.dump ≠ n) → (s.releaseDump n).ClaimLaw) ∧
    (∀ d cause code, s.openingFailure d = none → (s.openingSucceeds d cause code).ClaimLaw) ∧
    (s.refill.store.pool = [] ∨ 2 ≤ s.refill.store.spares.length
      ∨ 128 * s.refill.store.pool.length < 128 + (s.refill.claim .a + s.refill.claim .b)) ∧
    (∀ d n i x, s.sect n i = some x → s.share d i ≤ 1 + (x.written + 4095) / 4096 →
      (s.sectionEnded d n i).store = s.store) ∧
    (∀ d, (s.enterClosing d .complete).store = s.store)

/-- DERIVED. What the device's own work within a command (95; log 4) leaves as it was: everything but the parts named
here, and of a domain record everything but the end of a complete harvest (R12). -/
def Obligations.OwnWorkLeavesTheRest : Prop :=
  ∀ s : State, ∃ t : State, s.settle = t ∧
    t = { s with
      domains := t.domains, admissions := t.admissions, works := t.works, channels := t.channels
      lastPicked := t.lastPicked, staging := t.staging, links := t.links, journals := t.journals
      directory := t.directory, store := t.store, servicePort := t.servicePort, service := t.service }
    ∧ (∀ d, (s.domain d).mayComplete (t.domain d)) ∧ (∀ d, (t.journal d).still = (s.journal d).still)
    ∧ (∀ d, (t.link d).still = (s.link d).still) ∧ t.directory.still = s.directory.still
    ∧ t.store.still = s.store.still ∧ t.servicePort.still = s.servicePort.still ∧ t.service.still = s.service.still

/-! ### Requests turned away, and commands with nothing to do -/

/-- DERIVED (R163, R170, Table 9-6; the domain byte 0xFF is log 19, the kind of the reply to an unknown kind log 55, the sizes
of a CONFIG SET body under an item that is none log 27). A frame that fails one of the tests 1 to 5 is answered with that
test's status alone; a CRASH or CAPTURE answered BUSY counts as missed (R23), and nothing else changes. On every port and for
every kind the tests turn away, in this order: an unknown kind; with DENIED a kind of the other ports; with MALFORMED a body
of another size or a domain byte other than 0, 1 and 0xFF; with DENIED the other domain on a platform port; and with BUSY,
during start-up, every kind but IDENT and EVENT. No other frame is turned away. -/
def Obligations.RefusedRequestsAnswerTheirStatus : Prop :=
  (∀ (c : Instr) (p : PortId) (k : Byte) (s : State) (f : Frame) (st : Byte),
    requestOf c = some (p, k) → s.nextFrame p = some f → f.kind = k → s.refusal p f = some st →
    ∃ t : State, exec c s = .next t ∧ Answered s t p f 0xFF st [] ∧
      t.apart p = (if st = 0x10 ∧ (k = 0x0D ∨ k = 0x0E) then
          s.setDomain (s.resolve p f.domain) { s.domain (s.resolve p f.domain) with
            missed := (s.domain (s.resolve p f.domain)).missed.inc }
        else s).apart p) ∧
  (∀ (p : PortId) (s : State) (f : Frame),
    s.nextFrame p = some f → f.kind = 0 ∨ (0x20 ≤ f.kind.toNat ∧ f.kind.toNat < 0x7F) →
    ∃ t : State, exec (.unknownKind p) s = .next t ∧ Answered s t p f 0xFF 0x11 [] ∧ t.apart p = s.apart p) ∧
  (∀ (s : State) (p : PortId) (f : Frame) (k : Nat) (named barred misfit wrong other : Prop),
    k = f.kind.toNat → 1 ≤ k → k ≤ 0x1F →
    (named ↔ (3 ≤ k ∧ k ≤ 0x10) ∨ k = 0x15 ∨ k = 0x19 ∨ (k = 0x1C ∧ 1 ≤ field f.body 0 1 ∧ field f.body 0 1 ≤ 8)) →
    (barred ↔ (p = .service ∧ 0x0B ≤ k ∧ k ≤ 0x0D) ∨ (p ≠ .service ∧ 0x0E ≤ k)) →
    (misfit ↔ f.body.length ∉ requestSizes k f.body) →
    (wrong ↔ named ∧ f.domain ≠ 0 ∧ f.domain ≠ 1 ∧ f.domain ≠ 0xFF) →
    (other ↔ named ∧ ∃ d, p = .platform d ∧ f.domain = domByte (otherDom d)) →
    (barred → s.refusal p f = some 0x18) ∧
    (¬barred → misfit ∨ wrong → s.refusal p f = some 0x12) ∧
    (¬barred → ¬misfit → ¬wrong → other → s.refusal p f = some 0x18) ∧
    (¬barred → ¬misfit → ¬wrong → ¬other → s.startUp ≠ .finished → k ≠ 0x01 → k ≠ 0x0B → s.refusal p f = some 0x10) ∧
    (¬barred → ¬misfit → ¬wrong → ¬other → s.startUp = .finished ∨ k = 0x01 ∨ k = 0x0B → s.refusal p f = none))

/-- DERIVED, the model's choice (log 3; R82, R84, R86 and R87 say that such events are ignored). A command whose event cannot
occur in the state, or whose request is not the next one, changes nothing: an edge to the level that stands, the expiry of a
timer or window that does not run, the outcome of an operation that is not in flight, the end of a step of start-up or of a
restart that is not under way, and a line's events while its port does not read it; nor does an event of a read that no
longer has its position, empty or filled again (which read an event names is log 57, which training log 65). That a restart which is due
does not take effect while a domain has a dump open is log 17, on which R181 is silent. -/
def Obligations.CommandsWithNothingToDoChangeNothing : Prop :=
  ∀ (s : State) (d : Dom) (pos : Fin 2) (i : Fin 8) (slot : Fin 16) (p : PortId),
    (∀ c k, requestOf c = some (p, k) → (∀ f, s.nextFrame p = some f → f.kind ≠ k) → exec c s = .next s)
    ∧ ((∀ f, s.nextFrame p = some f → 1 ≤ f.kind.toNat ∧ f.kind.toNat ≤ 0x1F) → exec (.unknownKind p) s = .next s)
    ∧ exec (.fatalLine d (s.domain d).fatalLevel) s = .next s
    ∧ (s.powerGood.get d = true → exec (.powerGoodRise d) s = .next s)
    ∧ (s.powerGood.get d = false → exec (.powerGoodFall d) s = .next s)
    ∧ ((s.domain d).resetRequestLevel = true → exec (.resetRequestEdge d) s = .next s)
    ∧ ((s.domain d).resetRequestLevel = false → exec (.resetRequestFall d) s = .next s)
    ∧ (s.service.attached = true → exec .attach s = .next s)
    ∧ (s.service.attached = false → exec .detach s = .next s)
    ∧ ((s.domain d).holdTimer = none → exec (.holdTimerExpiry d) s = .next s)
    ∧ ((s.domain d).heartbeatTimer = none → exec (.hang d) s = .next s)
    ∧ ((s.link d).retryTimer = none → exec (.linkRetryTimerExpiry d) s = .next s)
    ∧ ((s.link d).state ≠ .training → exec (.trainingComplete d) s = .next s)
    ∧ ((s.link d).state ≠ .training ∨ (s.link d).trainingExpiry = none → exec (.trainingExpiry d) s = .next s)
    ∧ ((s.link d).state ≠ .up → exec (.targetRetrainRequest d) s = .next s)
    ∧ (∀ n, (∀ r, (s.link d).positions[pos] = some r → r.number ≠ n) → exec (.targetClaim d ⟨pos, n⟩) s = .next s
        ∧ exec (.claimWindowExpiry d ⟨pos, n⟩) s = .next s ∧ (∀ since, exec (.granuleWindowExpiry d ⟨⟨pos, n⟩, since⟩) s = .next s)
        ∧ exec (.disconnect d ⟨pos, n⟩) s = .next s ∧ exec (.targetAbort d ⟨pos, n⟩) s = .next s
        ∧ ∀ data good, exec (.granuleArrival d ⟨pos, n⟩ data good) s = .next s)
    ∧ (∀ r, (s.link d).positions[pos] = some r →
        (r.claimed = true → exec (.claimWindowExpiry d ⟨pos, r.number⟩) s = .next s)
        ∧ (r.claimed = false → ∀ data good, exec (.granuleArrival d ⟨pos, r.number⟩ data good) s = .next s)
        ∧ ∀ since, r.claimed = false ∨ since ≠ r.received.length →
          exec (.granuleWindowExpiry d ⟨⟨pos, r.number⟩, since⟩) s = .next s)
    ∧ ((∀ item a, s.store.inFlight[i] ≠ some (.program item a)) → exec (.programComplete i) s = .next s
        ∧ exec (.programFailed i) s = .next s)
    ∧ ((∀ b w, s.store.inFlight[i] ≠ some (.erase b w)) → exec (.eraseComplete i) s = .next s
        ∧ exec (.eraseFailed i) s = .next s)
    ∧ ((∀ r a, s.store.inFlight[i] ≠ some (.read r a)) → ∀ held, exec (.storeReadComplete i held) s = .next s)
    ∧ ((∀ im, s.config.save ≠ some { kind := .config, image := im }) → ∀ ok, exec (.configSaveEnd ok) s = .next s)
    ∧ ((∀ im, s.config.save ≠ some { kind := .store, image := im }) → ∀ ok, exec (.storeSaveEnd ok) s = .next s)
    ∧ ((s.port p).line = none → exec (.frameSent p) s = .next s)
    ∧ ((s.port p).peerHold = none → exec (.peerHoldExpiry p) s = .next s)
    ∧ ((s.port p).receiver = .hunting → exec (.frameGapTimeout p) s = .next s ∧ exec (.oversize p) s = .next s)
    ∧ ((s.port p).receiver ≠ .hunting → exec (.syncPairFound p) s = .next s)
    ∧ (s.service.attached = false → exec (.syncPairFound .service) s = .next s
        ∧ ∀ kind tag dom body crc, exec (.receiveFrame .service kind tag dom body crc) s = .next s)
    ∧ ((s.journal d).intake = [] → exec (.intakeStepComplete d) s = .next s)
    ∧ ((s.journal d).slots[slot].aging = none → exec (.agingExpiry d slot) s = .next s)
    ∧ ((∀ code, (s.port (.platform d)).processing ≠ some (.crash code)) ∨ (s.port (.platform d)).input = []
        ∨ (s.journal d).intake ≠ [] → exec (.crashTaken d) s = .next s)
    ∧ (s.startUp ≠ .load → exec .configLoadComplete s = .next s)
    ∧ (s.startUp ≠ .scan → exec .startUpScanComplete s = .next s)
    ∧ (s.restart ≠ .due ∨ (s.domain .a).busy = true ∨ (s.domain .b).busy = true →
        exec .restartTakesEffect s = .next s)

/-! ### Reports -/

/-- DERIVED (R22, R173, R174, R177, Tables 9-6 and 9-16). IDENT, STATUS, COUNTERS and CONFIG GET answer OK with bodies of
70, 58, 77 and 338 bytes, and change nothing. The bits of the flags byte of CONFIG GET are the model's choice (log 30), and so
are the 1 it gives for an on/off setting that is on (log 64) and what a WITHHELD block counts as in COUNTERS while it is
erased (log 63). -/
def Obligations.ReportsAnswerAndChangeNothing : Prop :=
  ∀ (s : State) (p : PortId) (f : Frame),
    (s.takes p 0x01 f → s.identBody.length = 70 ∧ ∃ t : State, exec (.ident p) s = .next t
      ∧ Answered s t p f 0xFF 0x00 s.identBody ∧ t.apart p = s.apart p)
    ∧ (s.takes p 0x02 f → (s.statusBytes .a ++ s.statusBytes .b).length = 58 ∧ ∃ t : State, exec (.status p) s = .next t
      ∧ Answered s t p f 0xFF 0x00 (s.statusBytes .a ++ s.statusBytes .b) ∧ t.apart p = s.apart p)
    ∧ (s.takes p 0x1A f → ∃ (body : List Byte) (t : State), exec (.counters p) s = .next t ∧ body.length = 77
      ∧ body = s.servicePort.counterBytes ++ le 2 s.service.noticesLost.toNat ++ (s.port (.platform .a)).counterBytes
          ++ (s.port (.platform .b)).counterBytes ++ s.domainCounterBytes .a ++ s.domainCounterBytes .b
          ++ s.store.figureBytes
      ∧ Answered s t p f 0xFF 0x00 body ∧ t.apart p = s.apart p)
    ∧ (s.takes p 0x1B f → ∃ (body : List Byte) (t : State), exec (.configGet p) s = .next t ∧ body.length = 338
      ∧ body = le 1 s.configFlags ++ padTo 16 s.config.serial ++ padTo 32 s.config.asset
          ++ le 1 s.store.retired.length ++ retiredBytes s.store.retired
          ++ settingsBytes (s.settings .a) (s.slotPrograms .a) ++ settingsBytes (s.settings .b) (s.slotPrograms .b)
      ∧ Answered s t p f 0xFF 0x00 body ∧ t.apart p = s.apart p)

/-- DERIVED (R34, Table 9-14). PLAN READ answers with the count, the generation and up to 16 entries of 32 bytes from the
start index, RANGE from 48 up, and changes nothing. -/
def Obligations.PlanReadReturnsTheEntries : Prop :=
  ∀ (s : State) (p : PortId) (f : Frame) (d : Dom), s.takes p 0x08 f → d = s.resolve p f.domain →
    (∀ x i, (PlanEntry.bytes x i).length = 32) ∧
    ∃ t : State, exec (.planRead p) s = .next t ∧ t.apart p = s.apart p ∧
      Answered s t p f (domByte d) (if 48 ≤ field f.body 0 1 then 0x13 else 0x00)
        (le 1 (s.plan d).entries.length ++ le 2 (s.plan d).generation.toNat ++
          (if 48 ≤ field f.body 0 1 then []
           else ((((s.plan d).entries.mapIdx fun i x => x.bytes i).drop (field f.body 0 1)).take 16).flatten))

/-- DERIVED (R112). JOURNAL READ answers with the first records at or above the start sequence, as many as asked for (1
to 16), sets the gap flag when records below the oldest one held were asked for, refuses a start above the next
sequence with RANGE and the head alone (log 53), and changes nothing. -/
def Obligations.JournalReadReturnsTheRecords : Prop :=
  ∀ (s : State) (p : PortId) (f : Frame) (d : Dom) (j : Journal) (start asked count : Nat) (records : List EventRecord),
    s.JournalLaw → s.takes p 0x15 f → d = s.resolve p f.domain → j = s.journal d →
    start = field f.body 0 4 → asked = field f.body 4 1 → count = max 1 (min 16 asked) →
    records = (j.ring.filter fun r => decide (start ≤ r.sequence.toNat)).take count →
    ∃ t : State, exec (.journalRead p) s = .next t ∧ t.apart p = s.apart p ∧
      if j.bound < start then Answered s t p f (domByte d) 0x13
        (le 4 (codeOr BitVec.toNat j.oldest) ++ le 4 (codeOr BitVec.toNat j.nextSequence) ++ [0, 0])
      else Answered s t p f (domByte d) (if asked = count then 0x00 else 0x01)
        (le 4 (codeOr BitVec.toNat j.oldest) ++ le 4 (codeOr BitVec.toNat j.nextSequence)
          ++ [flagByte (match j.oldest with
              | some o => decide (start < o.toNat ∧ 1 < o.toNat)
              | none => false)]
          ++ le 1 records.length ++ records.flatMap EventRecord.bytes)

/-- DERIVED (R136, R137). DIR lists every dump, 32 bytes each, and MANIFEST answers with a dump's sections form or a
section's holes form; neither changes anything. The bits of the flag bytes are the model's choice (log 30), and when the
flag that the journal counts are present is set is log 47. -/
def Obligations.DirAndManifestReportDumps : Prop :=
  ∀ (s : State) (p : PortId) (f : Frame),
    (s.takes p 0x11 f → (∀ (e : DumpEntry) n, (e.dirBytes n).length = 32) ∧
      ∃ t : State, exec (.dir p) s = .next t ∧ t.apart p = s.apart p ∧
        Answered s t p f 0xFF 0x00 (le 1 s.directory.entries.length ++ le 4 s.directory.nextNumber.toNat
          ++ s.directory.entries.flatMap fun e => e.dirBytes (s.store.programmed e.number)))
    ∧ (s.takes p 0x12 f → ∃ t : State, exec (.manifest p) s = .next t ∧ t.apart p = s.apart p ∧
        match s.dump (BitVec.ofNat 32 (field f.body 0 4)) with
        | none => Answered s t p f 0xFF 0x14 []
        | some e =>
          if e.sections.length - 1 < field f.body 5 1 ∨ 1 < field f.body 4 1 then Answered s t p f 0xFF 0x13 []
          else if field f.body 4 1 = 0 then
            Answered s t p f 0xFF 0x00 (e.sectionsReply (field f.body 5 1))
            ∧ (e.sectionsReply (field f.body 5 1)).length = 48 + 12 * e.triggers.length + 8 * e.history.length + 23
                + 64 * min 8 (e.sections.length - field f.body 5 1)
          else ∀ x, e.sections[field f.body 5 1]? = some x →
            Answered s t p f 0xFF 0x00 (le 1 x.index ++ le 1 x.holes.length ++ [flagByte x.holeOverflow]
              ++ x.holes.flatMap Hole.bytes))

/-! ### Arming -/

/-- DERIVED (R20, R21, R9, R10, R81). ARM arms a DISARMED or SETTLED domain, starting its heartbeat timer while power is
good and the timeout is not 0 and asking its link to widen; an ARMED domain answers OK unchanged; with a dump open it is
refused with STATE. DISARM disarms an ARMED or SETTLED domain and is refused with STATE elsewhere. A HEARTBEAT is answered
OK and counted, and its wall time, if it carries one, is kept with the part time; it restarts the timer of an ARMED
domain, and arms a SETTLED one with auto-arm on and power good.  A start that is not made, with power low or timeout 0, leaves the
timer stopped, and stops a running one (log 42). -/
def Obligations.ArmDisarmAndHeartbeat : Prop :=
  ∀ (s : State) (p : PortId) (f : Frame) (d : Dom) (x : Domain) (timer : Option Time), d = s.resolve p f.domain →
    timer = (if s.powerGood.get d = true ∧ (s.settings d).heartbeatTimeout ≠ 0 then
        some (s.partTime + BitVec.ofNat 32 ((s.settings d).heartbeatTimeout * 1000)) else none) →
    x = { s.domain d with
      heartbeats := (s.domain d).heartbeats.inc
      wallTime := if f.body = [] then (s.domain d).wallTime
        else some { wall := BitVec.ofNat 64 (field f.body 0 8), arrival := s.partTime } } →
    (s.takes p 0x03 f → ∃ t : State, exec (.arm p) s = .next t ∧
      (((s.domain d).state = .disarmed ∨ (s.domain d).state = .settled) → Answered s t p f (domByte d) 0x00 [] ∧
        t.apart p = ((s.setDomain d { s.domain d with state := .armed, heartbeatTimer := timer }).setLink d
          { s.link d with widen := true }).apart p) ∧
      ((s.domain d).state = .armed → Answered s t p f (domByte d) 0x00 [] ∧ t.apart p = s.apart p) ∧
      ((s.domain d).busy = true → Answered s t p f (domByte d) 0x15 [] ∧ t.apart p = s.apart p)) ∧
    (s.takes p 0x04 f → ∃ t : State, exec (.disarm p) s = .next t ∧
      (((s.domain d).state = .armed ∨ (s.domain d).state = .settled) → Answered s t p f (domByte d) 0x00 [] ∧
        t.apart p = (s.setDomain d { s.domain d with state := .disarmed, heartbeatTimer := none }).apart p) ∧
      (((s.domain d).state = .disarmed ∨ (s.domain d).busy = true) →
        Answered s t p f (domByte d) 0x15 [] ∧ t.apart p = s.apart p)) ∧
    (s.takes p 0x0C f → ∃ t : State, exec (.heartbeat p) s = .next t ∧ Answered s t p f (domByte d) 0x00 [] ∧
      ((s.domain d).state = .armed → t.apart p = (s.setDomain d { x with heartbeatTimer := timer }).apart p) ∧
      ((s.domain d).state = .settled → (s.settings d).autoArm = true → s.powerGood.get d = true →
        t.apart p = ((s.setDomain d { x with state := .armed, heartbeatTimer := timer }).setLink d
          { s.link d with widen := true }).apart p) ∧
      ((s.domain d).state ≠ .armed → ((s.domain d).state = .settled → (s.settings d).autoArm = false
          ∨ s.powerGood.get d = false) → t.apart p = (s.setDomain d x).apart p))

/-! ### Triggers -/

/-- DERIVED (R3, R4, R9, R126). A rising fatal line and an expired heartbeat timer open a dump for an ARMED domain when
no check of R125 fails; the device's own work follows.  An expiry carries part time to it (log 2), and the first requests
for staging pages are made in one order (log 35). -/
def Obligations.LineAndTimerTriggersOpenADump : Prop :=
  ∀ (s : State) (d : Dom), s.DirectoryLaw → (s.domain d).state = .armed → s.openingFailure d = none →
    ((s.domain d).fatalLevel = false → ∃ u : State, exec (.fatalLine d true) s = .next u.settle
      ∧ Opened (s.setDomain d { s.domain d with fatalLevel := true }) u d .fatalLine none) ∧
    (∀ x, (s.domain d).heartbeatTimer = some x → ∃ u : State, exec (.hang d) s = .next u.settle
      ∧ Opened (s.reach x) u d .hang none)

/-- DERIVED (R4, R7, R8, R105, R126). CAPTURE in ARMED or SETTLED, CRASH in ARMED with the intake queue empty, and the
taking of a held CRASH open a dump, and are answered OK with the disposition OPENED and the dump number. A CRASH that
finds records in its intake queue is held at its port, its frame in the input queue and its reply place reserved: in every
state, whatever its taking does later.  The first requests for staging pages are made in one order (log 35). -/
def Obligations.RequestTriggersOpenADump : Prop :=
  (∀ (s : State) (d : Dom) (f : Frame), s.DirectoryLaw → s.openingFailure d = none →
    (s.takes .service 0x0E f → d = s.resolve .service f.domain →
      (s.domain d).state = .armed ∨ (s.domain d).state = .settled →
      ∃ u : State, exec (.capture .service) s = .next u.settle ∧ Opened s u d .manual none
        ∧ AnsweredAmong s u .service f (domByte d) 0x00 (1 :: le 4 s.directory.nextNumber.toNat)) ∧
    (s.takes (.platform d) 0x0D f → (s.domain d).state = .armed → (s.journal d).intake = [] →
      ∃ u : State, exec (.crash (.platform d)) s = .next u.settle
        ∧ Opened s u d .crashNotice (some (BitVec.ofNat 32 (field f.body 0 4)))
        ∧ AnsweredAmong s u (.platform d) f (domByte d) 0x00 (1 :: le 4 s.directory.nextNumber.toNat)) ∧
    (∀ code rest, (s.port (.platform d)).processing = some (.crash code) → (s.port (.platform d)).input = f :: rest →
      (s.port (.platform d)).reserved = 1 → f.kind = 0x0D → (s.journal d).intake = [] → (s.domain d).state = .armed →
      ∃ u : State, exec (.crashTaken d) s = .next u.settle ∧ Opened s u d .crashNotice (some code)
        ∧ AnsweredAmong s u (.platform d) f (domByte d) 0x00 (1 :: le 4 s.directory.nextNumber.toNat))) ∧
  (∀ (s : State) (d : Dom) (f : Frame), s.takes (.platform d) 0x0D f → (s.journal d).intake ≠ [] →
      exec (.crash (.platform d)) s = .next (s.setPort (.platform d) { s.port (.platform d) with
        reserved := 1, processing := some (.crash (BitVec.ofNat 32 (field f.body 0 4))) }))

/-- DERIVED (R3, R5 to R9, R105). Triggers that open no dump. A rising fatal line, and a CRASH as it is taken, at once or once
the intake queue is empty: appended with its TRIGGER record while fewer than 8 triggers are held, else counted as
overflow; late in CLOSING and SETTLED; missed in DISARMED. An opening that fails settles the domain with a TRIGGER and a
DUMP_FAILED record, for an expired heartbeat timer (which carries part time to its expiry: log 2) and for a CAPTURE too. A
request is answered OK with its disposition, alone but for a failure's cause (log 43). A falling line keeps its level
alone, and CAPTURE is refused with STATE elsewhere than in ARMED and SETTLED, missed in DISARMED. -/
def Obligations.TriggersThatOpenNothing : Prop :=
  ∀ (s : State) (d : Dom) (x : Domain), x = { s.domain d with fatalLevel := true } →
    ((s.domain d).fatalLevel = false →
      ((s.domain d).state = .disarmed →
        exec (.fatalLine d true) s = .next (s.setDomain d { x with missed := x.missed.inc })) ∧
      ((s.domain d).state = .closing ∨ (s.domain d).state = .settled →
        exec (.fatalLine d true) s = .next (s.setDomain d { x with late := x.late.inc })) ∧
      ((s.domain d).state = .triggered ∨ (s.domain d).state = .harvesting → ∀ e, s.openEntry d = some e →
        (e.triggers.length < 8 → exec (.fatalLine d true) s = .next
          (((s.setDomain d x).updDump e.number fun y => { y with
              triggers := y.triggers ++ [{ cause := .fatalLine, time := s.partTime, code := none }] }).setJournal d
            ((s.journal d).append (triggerRecord .fatalLine none e.number s.partTime)))) ∧
        (8 ≤ e.triggers.length →
          exec (.fatalLine d true) s = .next (s.setDomain d { x with overflow := x.overflow.inc }))) ∧
      ((s.domain d).state = .armed → ∀ why, s.openingFailure d = some why →
        ∃ t : State, exec (.fatalLine d true) s = .next t ∧ t.platformPorts = s.platformPorts
          ∧ OpeningFailed (s.setDomain d x) t d .fatalLine none why)) ∧
    exec (.fatalLine d false) s = .next (s.setDomain d { s.domain d with fatalLevel := false }) ∧
    (∀ expiry why, (s.domain d).heartbeatTimer = some expiry → (s.domain d).state = .armed →
      s.openingFailure d = some why → ∃ t : State, exec (.hang d) s = .next t ∧ t.platformPorts = s.platformPorts
        ∧ OpeningFailed (s.reach expiry) t d .hang none why) ∧
    (∀ f code (run : Host.Outcome State Fault Refusal),
      (s.takes (.platform d) 0x0D f ∧ code = BitVec.ofNat 32 (field f.body 0 4) ∧ run = exec (.crash (.platform d)) s)
        ∨ ((s.port (.platform d)).processing = some (.crash code) ∧ (s.port (.platform d)).input.head? = some f
          ∧ (s.port (.platform d)).reserved = 1 ∧ f.kind = 0x0D ∧ run = exec (.crashTaken d) s) →
      (s.journal d).intake = [] →
      ((s.domain d).state = .disarmed → ∃ t : State, run = .next t
        ∧ Answered s t (.platform d) f (domByte d) 0x00 [6] ∧ t.apart (.platform d) =
          (s.setDomain d { s.domain d with missed := (s.domain d).missed.inc }).apart (.platform d)) ∧
      ((s.domain d).state = .closing ∨ (s.domain d).state = .settled → ∃ t : State, run = .next t
        ∧ Answered s t (.platform d) f (domByte d) 0x00 [5] ∧ t.apart (.platform d) =
          (s.setDomain d { s.domain d with late := (s.domain d).late.inc }).apart (.platform d)) ∧
      ((s.domain d).state = .triggered ∨ (s.domain d).state = .harvesting → ∀ e, s.openEntry d = some e →
        (e.triggers.length < 8 → ∃ t : State, run = .next t ∧ Answered s t (.platform d) f (domByte d) 0x00 [3]
          ∧ t.apart (.platform d) = ((s.updDump e.number fun y => { y with
              triggers := y.triggers ++ [{ cause := .crashNotice, time := s.partTime, code := some code }] }).setJournal
            d ((s.journal d).append (triggerRecord .crashNotice (some code) e.number s.partTime))).apart
              (.platform d)) ∧
        (8 ≤ e.triggers.length → ∃ t : State, run = .next t ∧ Answered s t (.platform d) f (domByte d) 0x00 [4]
          ∧ t.apart (.platform d) =
            (s.setDomain d { s.domain d with overflow := (s.domain d).overflow.inc }).apart (.platform d))) ∧
      ((s.domain d).state = .armed → ∀ why, s.openingFailure d = some why → ∃ t : State, run = .next t
        ∧ Answered s t (.platform d) f (domByte d) 0x00 (2 :: le 1 why.code)
        ∧ OpeningFailed s t d .crashNotice (some code) why)) ∧
    (∀ f, s.takes .service 0x0E f → d = s.resolve .service f.domain →
      ((s.domain d).state = .armed ∨ (s.domain d).state = .settled → ∀ why, s.openingFailure d = some why →
        ∃ t : State, exec (.capture .service) s = .next t ∧ t.platformPorts = s.platformPorts
          ∧ AnsweredAmong s t .service f (domByte d) 0x00 (2 :: le 1 why.code)
          ∧ OpeningFailed s t d .manual none why) ∧
      ((s.domain d).busy = true ∨ (s.domain d).state = .disarmed →
        ∃ t : State, exec (.capture .service) s = .next t ∧ Answered s t .service f (domByte d) 0x15 [] ∧
          t.apart .service = (if (s.domain d).state = .disarmed then
              s.setDomain d { s.domain d with missed := (s.domain d).missed.inc } else s).apart .service))

/-! ### Harvest ends -/

/-- DERIVED (R13, R18, R76, R77). The hold timer's expiry stops the timer, releases the hold line with its record when
the line was asserted, and ends a harvest with HOLD_EXPIRED; the device's own work follows.  The expiry carries part time to it (log 2). -/
def Obligations.HoldTimerExpiryEndsTheHarvest : Prop :=
  ∀ (s : State) (d : Dom) (x : Time), s.DirectoryLaw → (s.domain d).holdTimer = some x →
    ∃ u : State, exec (.holdTimerExpiry d) s = .next u.settle
      ∧ u.partTime = (s.reach x).partTime
      ∧ u.domain d = { (s.domain d).ended .holdExpired with holdTimer := none, holdLine := false }
      ∧ u.domain (otherDom d) = s.domain (otherDom d)
      ∧ u.journal d = (if (s.domain d).holdLine then
          (s.journal d).append (holdReleaseRecord (s.reach x) d .expired) else s.journal d)
      ∧ SectionsEnded s u d .holdExpired
      ∧ u = { s with
          partTime := u.partTime, domains := u.domains, admissions := u.admissions, channels := u.channels
          staging := u.staging, links := u.links, journals := s.journals.set d (u.journal d), directory := u.directory, store := u.store
          servicePort := u.servicePort, service := u.service }

/-- DERIVED (R16, R82, R83, R76, R77). A fall of power-good stops the heartbeat timer of an ARMED domain and ends a
harvest with POWER_LOST, and a failed training ends one with LINK_LOST; the link is then DOWN in WIDE mode, after a failed
training with its retry timer at 100 ms, and after a fall of power-good with no read outstanding.  An expiry carries part time
to it (log 2), and at a fall of power-good the harvest end is taken before the link's reads end (log 50). An
expiry is taken as that of the training in progress (log 65). -/
def Obligations.PowerAndLinkLossEndTheHarvest : Prop :=
  ∀ (s : State) (d : Dom), s.DirectoryLaw →
    (s.powerGood.get d = true → ∃ u : State, exec (.powerGoodFall d) s = .next u.settle
      ∧ u.powerGood = s.powerGood.set d false
      ∧ u.domain d = (if (s.domain d).state = .armed then { s.domain d with heartbeatTimer := none }
          else (s.domain d).ended .powerLost)
      ∧ u.domain (otherDom d) = s.domain (otherDom d)
      ∧ (u.link d).state = .down ∧ (u.link d).mode = .wide ∧ (u.link d).trainingExpiry = none
      ∧ (u.link d).retryTimer = none ∧ (u.link d).stayedUp = false ∧ (∀ i : Fin 2, (u.link d).positions[i] = none)
      ∧ (u.link d).counters = (s.link d).counters
      ∧ SectionsEnded s u d .powerLost
      ∧ u = { s with
          powerGood := u.powerGood, domains := u.domains, admissions := u.admissions, channels := u.channels
          staging := u.staging, links := u.links, directory := u.directory, store := u.store }) ∧
    (∀ x, (s.link d).state = .training → (s.link d).trainingExpiry = some x →
      ∃ u : State, exec (.trainingExpiry d) s = .next u.settle
        ∧ u.partTime = (s.reach x).partTime
        ∧ (u.link d).state = .down ∧ (u.link d).mode = .wide ∧ (u.link d).trainingExpiry = none
        ∧ (u.link d).retryTimer = some (u.partTime + 100) ∧ (u.link d).stayedUp = false
        ∧ (u.link d).counters = (s.link d).counters
        ∧ u.domain d = (s.domain d).ended .linkLost ∧ u.domain (otherDom d) = s.domain (otherDom d)
        ∧ SectionsEnded s u d .linkLost
        ∧ u = { s with
            partTime := u.partTime, domains := u.domains, admissions := u.admissions, channels := u.channels
            staging := u.staging, links := u.links, directory := u.directory, store := u.store
            servicePort := u.servicePort, service := u.service })

/-- DERIVED (R14, R15, R18, R76, R77). ABORT and RELEASE HOLD end the harvest of a TRIGGERED or HARVESTING domain with
their cause and are answered OK; RELEASE HOLD also releases the line, in CLOSING too. ABORT in CLOSING, and both of them
with no dump open, are refused with STATE and change nothing. -/
def Obligations.AbortAndReleaseHoldEndTheHarvest : Prop :=
  ∀ (s : State) (p : PortId) (f : Frame) (d : Dom), s.DirectoryLaw → d = s.resolve p f.domain →
    (s.takes p 0x0F f →
      ((s.domain d).state = .triggered ∨ (s.domain d).state = .harvesting →
        ∃ u : State, exec (.abort p) s = .next u.settle ∧ Answered s u p f (domByte d) 0x00 []
          ∧ u.domain d = (s.domain d).ended .aborted ∧ u.domain (otherDom d) = s.domain (otherDom d)
          ∧ SectionsEnded s u d .aborted
          ∧ u.apart p = ({ s with
              domains := u.domains, admissions := u.admissions, channels := u.channels, staging := u.staging
              links := u.links, directory := u.directory, store := u.store } : State).apart p) ∧
      ((s.domain d).state ≠ .triggered → (s.domain d).state ≠ .harvesting →
        ∃ t : State, exec (.abort p) s = .next t ∧ Answered s t p f (domByte d) 0x15 [] ∧ t.apart p = s.apart p)) ∧
    (s.takes p 0x10 f →
      ((s.domain d).state = .triggered ∨ (s.domain d).state = .harvesting →
        ∃ u : State, exec (.releaseHold p) s = .next u.settle ∧ AnsweredAmong s u p f (domByte d) 0x00 []
          ∧ u.domain d = { (s.domain d).ended .holdReleased with holdLine := false }
          ∧ u.domain (otherDom d) = s.domain (otherDom d)
          ∧ u.journal d = (if (s.domain d).holdLine then
              (s.journal d).append (holdReleaseRecord s d .released) else s.journal d)
          ∧ SectionsEnded s u d .holdReleased
          ∧ u = { s with
              domains := u.domains, admissions := u.admissions, channels := u.channels, staging := u.staging
              links := u.links, journals := s.journals.set d (u.journal d), directory := u.directory, store := u.store
              servicePort := u.servicePort, platformPorts := u.platformPorts, service := u.service }) ∧
      ((s.domain d).state = .closing →
        ∃ t : State, exec (.releaseHold p) s = .next t ∧ AnsweredAmong s t p f (domByte d) 0x00 []
          ∧ t.domain d = { s.domain d with holdLine := false }
          ∧ t.journal d = (if (s.domain d).holdLine then
              (s.journal d).append (holdReleaseRecord s d .released) else s.journal d)
          ∧ t = { s with
              domains := s.domains.set d (t.domain d), journals := s.journals.set d (t.journal d)
              servicePort := t.servicePort, platformPorts := t.platformPorts, service := t.service }) ∧
      ((s.domain d).busy = false →
        ∃ t : State, exec (.releaseHold p) s = .next t ∧ Answered s t p f (domByte d) 0x15 [] ∧ t.apart p = s.apart p))

/-! ### Region plans -/

/-- DERIVED (R29, R30, R31, R27). PLAN ADD: a field out of range, a tag already held and a full plan are refused with
RANGE, DUPLICATE and FULL, in that order, changing nothing; else the entry joins the end of the plan with its priority
settled to at most 7 and an absent floor to its length, and the generation increments. -/
def Obligations.PlanAddStoresTheEntry : Prop :=
  ∀ (s : State) (p : PortId) (f : Frame) (d : Dom) (q : Plan) (x : AddFields) (bad : Prop),
    s.takes p 0x05 f → d = s.resolve p f.domain → q = s.plan d → x = addFields f.body →
    (bad ↔ x.tag = 0 ∨ x.length = 0 ∨ 2 ^ 36 < x.length ∨ 2 ^ 48 < x.base + x.length
      ∨ (∃ fl, x.floor = some fl ∧ (fl = 0 ∨ x.length < fl))
      ∨ (x.atomic = true ∧ (4096 < x.length ∨ x.base / 4096 ≠ (x.base + x.length - 1) / 4096
          ∨ ∃ fl, x.floor = some fl ∧ fl ≠ x.length))) →
    ∃ t : State, exec (.planAdd p) s = .next t ∧
      (bad → Answered s t p f (domByte d) 0x13 (le 2 q.generation.toNat) ∧ t.apart p = s.apart p) ∧
      (¬bad → (∃ y ∈ q.entries, y.tag = x.tag) →
        Answered s t p f (domByte d) 0x17 (le 2 q.generation.toNat) ∧ t.apart p = s.apart p) ∧
      (¬bad → (¬∃ y ∈ q.entries, y.tag = x.tag) → 48 ≤ q.entries.length →
        Answered s t p f (domByte d) 0x16 (le 2 q.generation.toNat) ∧ t.apart p = s.apart p) ∧
      (¬bad → (¬∃ y ∈ q.entries, y.tag = x.tag) → q.entries.length < 48 →
        Answered s t p f (domByte d) (if 7 < x.priority then 0x01 else 0x00)
          (le 1 q.entries.length ++ le 1 (min x.priority 7) ++ le 2 (q.generation + 1).toNat) ∧
        t.apart p = (s.setPlan d { generation := q.generation + 1, entries := q.entries ++
          [{ tag := x.tag, base := x.base, length := x.length, priority := min x.priority 7
             floor := x.floor.getD x.length, atomic := x.atomic, label := x.label }] }).apart p)

/-- DERIVED (R32, R27). PLAN DELETE removes the entry with the tag, so that later ones move down, increments the
generation and answers with the index it held; without one it answers NOT_FOUND and changes nothing. -/
def Obligations.PlanDeleteRemovesTheEntry : Prop :=
  ∀ (s : State) (p : PortId) (f : Frame) (d : Dom) (q : Plan) (tag : BitVec 16),
    s.takes p 0x06 f → d = s.resolve p f.domain → q = s.plan d → tag = BitVec.ofNat 16 (field f.body 0 2) →
    ∃ t : State, exec (.planDelete p) s = .next t ∧
      ((∀ y ∈ q.entries, y.tag ≠ tag) →
        Answered s t p f (domByte d) 0x14 (le 2 q.generation.toNat) ∧ t.apart p = s.apart p) ∧
      (∀ before y after, q.entries = before ++ y :: after → y.tag = tag → (∀ z ∈ before, z.tag ≠ tag) →
        Answered s t p f (domByte d) 0x00 (le 1 before.length ++ le 2 (q.generation + 1).toNat) ∧
        t.apart p = (s.setPlan d { entries := before ++ after, generation := q.generation + 1 }).apart p)

/-- STATED R33. PLAN CLEAR empties the plan, increments the generation, and answers OK with the number of entries
removed, 0 to 48, and the generation after the increment, in every case, the empty plan included; its body is empty. -/
def Obligations.PlanClearEmptiesThePlan : Prop :=
  ∀ (s : State) (p : PortId) (f : Frame) (d : Dom), s.takes p 0x07 f → d = s.resolve p f.domain →
    f.body = [] ∧ ((s.plan d).Lawful → (s.plan d).entries.length ≤ 48) ∧
    ∃ t : State, exec (.planClear p) s = .next t
      ∧ t.apart p = (s.setPlan d { entries := [], generation := (s.plan d).generation + 1 }).apart p
      ∧ Answered s t p f (domByte d) 0x00
          (le 1 (s.plan d).entries.length ++ le 2 ((s.plan d).generation + 1).toNat)

/-! ### Journals and latch slots -/

/-- DERIVED (R104, R105, R106). EVENT: fields out of range are refused with RANGE, a full intake queue with FULL and a
counted overrun; else the record joins the intake queue with its step started and the reply tells its check-bad flag,
and a queue brought to 24 records makes HOLD(0xFFFF) due.  An origin above 15 is refused like 15 (log 44). -/
def Obligations.EventJoinsTheIntakeQueue : Prop :=
  ∀ (s : State) (d : Dom) (f : Frame) (j : Journal) (r : EventRecord) (bad : Prop),
    s.takes (.platform d) 0x0B f → j = s.journal d →
    (bad ↔ 15 ≤ field f.body 0 1 ∨ field f.body 1 1 = 0 ∨ field f.body 1 1 = 255 ∨ 3 < field f.body 2 1
      ∨ 48 < field f.body 3 1) →
    r = { sequence := 0, time := s.partTime, origin := field f.body 0 1
          eventClass := BitVec.ofNat 8 (field f.body 1 1), severity := field f.body 2 1
          payload := slice f.body 4 (field f.body 3 1)
          checkBad := decide ((f.body.map BitVec.toNat).sum % 256 ≠ 0) } →
    ∃ t : State, exec (.event (.platform d)) s = .next t ∧
      (bad → Answered s t (.platform d) f (domByte d) 0x13 [] ∧ t.apart (.platform d) = s.apart (.platform d)) ∧
      (¬bad → 32 ≤ j.intake.length → Answered s t (.platform d) f (domByte d) 0x16 [] ∧
        t.apart (.platform d) = (s.setJournal d { j with overruns := j.overruns.inc }).apart (.platform d)) ∧
      (¬bad → j.intake.length < 32 → Answered s t (.platform d) f (domByte d) 0x00 [flagByte r.checkBad] ∧
        t.apart (.platform d) = (s.setJournal d { j with
          intake := j.intake ++ [r], intakeStep := true
          holdOff := j.holdOff || decide (j.intake.length = 23) }).apart (.platform d) ∧
        (j.intake.length = 23 → j.holdOff = false → (t.port (.platform d)).line = some (Frame.hold 0xFFFF)
          ∨ (t.port (.platform d)).outgoingHold = some 0xFFFF))

/-- DERIVED (R105, R106, R108). The end of an intake step appends the oldest record of the queue under the next sequence,
overwriting the oldest of a full ring, also while a copy is in flight that does not need that record; a record whose
append would overwrite one that the copy still needs, or of an exhausted journal (log 36), is dropped. Either way it
leaves the queue, and the next step starts while a record waits; a queue brought down to 8 ends a hold that was sent. -/
def Obligations.IntakeStepAppendsTheOldestRecord : Prop :=
  ∀ (s : State) (d : Dom) (j : Journal) (r : EventRecord) (rest : List EventRecord) (drops : Prop),
    j = s.journal d → j.intakeStep = true → j.intake = r :: rest →
    (drops ↔ j.nextSequence = none ∨ (4096 ≤ j.ring.length ∧ ∃ c o, j.copier = some c ∧ j.ring.head? = some o
      ∧ c.first.toNat + c.copied ≤ o.sequence.toNat ∧ o.sequence.toNat < c.first.toNat + c.count)) →
    ∃ (t : State) (kept : Journal), exec (.intakeStepComplete d) s = .next t
      ∧ t.journal d = { kept with
          intake := rest, intakeStep := !rest.isEmpty, holdOff := j.holdOff && !decide (rest.length = 8) }
      ∧ (¬drops → ∀ q, j.nextSequence = some q → kept = { j with
          ring := (if 4096 ≤ j.ring.length then j.ring.tail else j.ring) ++ [{ r with sequence := q }]
          overwrites := if 4096 ≤ j.ring.length then j.overwrites.inc else j.overwrites
          nextSequence := if q = 0xFFFFFFFF then none else some (q + 1)
          slots := j.slots.map fun x => x.offer { r with sequence := q } })
      ∧ (drops → kept = { j with
          dropped := j.dropped.inc, copier := j.copier.map fun c => { c with drops := c.drops + 1 }
          slots := j.slots.map fun x => x.offer { r with sequence := 0 } })
      ∧ t.journal (otherDom d) = s.journal (otherDom d)
      ∧ (t.port (.platform d)).sending = (s.port (.platform d)).sending
      ∧ (rest.length = 8 → j.holdOff = true → (t.port (.platform d)).line = some (Frame.hold 0)
          ∨ (t.port (.platform d)).outgoingHold = some 0)
      ∧ t.apart (.platform d) = ({ s with journals := t.journals } : State).apart (.platform d)

/-- DERIVED (R108, R115). A record appended to a full ring whose oldest record a copy in flight still needs, or to an
exhausted journal (log 36), is dropped: counted, also for the copy, and offered to the slots with sequence 0. A slot
latches a record of its own class, a check-bad one only under keep-bad, with its aging expiry. -/
def Obligations.DroppedRecordsAreStillLatched : Prop :=
  (∀ (j : Journal) (r : EventRecord),
    (j.nextSequence = none ∨ (4096 ≤ j.ring.length ∧ ∃ c o, j.copier = some c ∧ j.ring.head? = some o
      ∧ c.first.toNat + c.copied ≤ o.sequence.toNat ∧ o.sequence.toNat < c.first.toNat + c.count)) →
    j.append r = { j with
      dropped := j.dropped.inc, copier := j.copier.map fun c => { c with drops := c.drops + 1 }
      slots := j.slots.map fun x => x.offer { r with sequence := 0 } }) ∧
  (∀ (x : Slot) (r : EventRecord),
    x.offer r = if x.slotClass = r.eventClass ∧ x.slotClass ≠ 0 ∧ (r.checkBad = true → x.keepBad = true) then
      { x with record := some r, aging := some (r.time + 60001), aged := false, received := true
               checkError := r.checkBad }
    else x)

/-- DERIVED (R116, R117, R118, R114). LATCH SET programs a slot and clears its contents, refusing a slot above 15 and the
class 255 with RANGE; LATCH READ answers with the 16 slots, 64 bytes each, and clears every received flag; an aging
expiry marks its slot aged, and carries part time to it (log 2). -/
def Obligations.LatchSlotsAreProgrammedAndRead : Prop :=
  ∀ (s : State) (p : PortId) (f : Frame) (d : Dom) (j : Journal), d = s.resolve p f.domain → j = s.journal d →
    (s.takes p 0x09 f → ∃ t : State, exec (.latchSet p) s = .next t ∧
      (15 < field f.body 0 1 ∨ field f.body 1 1 = 255 →
        Answered s t p f (domByte d) 0x13 [] ∧ t.apart p = s.apart p) ∧
      (∀ (i : Fin 16) (x : Slot) (j' : Journal), field f.body 0 1 = i.val → field f.body 1 1 ≠ 255 →
        x = { slotClass := BitVec.ofNat 8 (field f.body 1 1), keepBad := decide (field f.body 2 1 ≠ 0)
              record := none, aging := none, aged := false, received := false, checkError := false } →
        j' = { j with slots := j.slots.set i x } →
        Answered s t p f (domByte d) 0x00 [] ∧
        t.apart p = ({ s with
          journals := s.journals.set d j', config := { s.config with unsaved := true } } : State).apart p)) ∧
    (s.takes p 0x0A f → ∃ (body : List Byte) (t : State), exec (.latchRead p) s = .next t ∧ body.length = 1024
      ∧ body = j.slots.toList.flatMap (fun x => x.bytes s.partTime ((s.settings d).freshness * 1000))
      ∧ Answered s t p f (domByte d) 0x00 body
      ∧ t.apart p = (s.setJournal d { j with
          slots := j.slots.map fun x => { x with received := false } }).apart p) ∧
    (∀ (i : Fin 16) (x : Time), j.slots[i].aging = some x → exec (.agingExpiry d i) s =
      .next ((s.reach x).setJournal d { j with slots := j.slots.set i { j.slots[i] with aged := true, aging := none } }))

/-! ### Links -/

/-- DERIVED (R80 to R84, R9). A training starts at a retry expiry and at a rise of power-good, in WIDE, when the
link is DOWN with power good; it ends UP when the target completes it; and a link that is UP retrains at the target's
request, in WIDE under a widen request and else in its mode, freeing every position and counting the retrain. A rise of
power-good also starts an ARMED domain's heartbeat timer, or leaves it stopped with a timeout of 0 (log 42).  An expiry carries
part time to it (log 2), and a completion is taken as that of the training then in progress (log 65). -/
def Obligations.TrainingsStartAndEnd : Prop :=
  ∀ (s : State) (d : Dom) (l : Link), l = s.link d →
    (l.state = .training →
      exec (.trainingComplete d) s = .next (s.setLink d { l with state := .up, trainingExpiry := none }).settle) ∧
    (∀ x, l.retryTimer = some x →
      (l.state = .down ∧ s.powerGood.get d = true → ∃ t : State, exec (.linkRetryTimerExpiry d) s = .next t
        ∧ t.link d = { l with
            state := .training, mode := .wide, trainingExpiry := some ((s.reach x).partTime + 5), retryTimer := none
            widen := false, stayedUp := false, downshifts := if l.mode = .wide then l.downshifts else 0 }
        ∧ t = { s.reach x with links := s.links.set d (t.link d), directory := t.directory }) ∧
      (¬(l.state = .down ∧ s.powerGood.get d = true) →
        exec (.linkRetryTimerExpiry d) s = .next ((s.reach x).setLink d { l with retryTimer := none }))) ∧
    (s.powerGood.get d = false → ∃ t : State, exec (.powerGoodRise d) s = .next t
      ∧ t.powerGood = s.powerGood.set d true
      ∧ t.domain d = (if (s.domain d).state = .armed then { s.domain d with
          heartbeatTimer := if (s.settings d).heartbeatTimeout ≠ 0 then
            some (s.partTime + BitVec.ofNat 32 ((s.settings d).heartbeatTimeout * 1000)) else none } else s.domain d)
      ∧ (l.state = .down → t.link d = { l with
          state := .training, mode := .wide, trainingExpiry := some (s.partTime + 5), retryTimer := none
          widen := false, stayedUp := false, downshifts := if l.mode = .wide then l.downshifts else 0 })
      ∧ (l.state ≠ .down → t.link d = l)
      ∧ t = { s with powerGood := t.powerGood, domains := s.domains.set d (t.domain d)
                     links := s.links.set d (t.link d), directory := t.directory }) ∧
    (l.state = .up → ∃ u : State, exec (.targetRetrainRequest d) s = .next u.settle
      ∧ (u.link d).state = .training ∧ (u.link d).mode = (if l.widen then .wide else l.mode)
      ∧ (u.link d).trainingExpiry = some (s.partTime + 5) ∧ (u.link d).retryTimer = none
      ∧ (u.link d).widen = false ∧ (u.link d).stayedUp = false
      ∧ (u.link d).downshifts = (if l.widen = true ∧ l.mode ≠ .wide then 0 else l.downshifts)
      ∧ (u.link d).counters = { l.counters with retrains := l.counters.retrains.inc }
      ∧ (∀ i : Fin 2, (u.link d).positions[i] = none)
      ∧ u = { s with links := u.links, directory := u.directory, channels := u.channels, staging := u.staging })

/-- DERIVED (R85, R86, R87, R88, R89, Tables 5-3 and 5-4). A claim marks its read; a granule of a claimed read that is not
its last is kept; and the events that end a read free its position, count its outcome, set its flag and deliver the outcome
with its bytes to the read's channel: NO_CLAIM for an unclaimed read, STALL and the last granule for a claimed one, and
DISCONNECT and TARGET_ABORT. A disconnect before the first granule, of an unclaimed read too, is a target abort (log 45),
and one after a parity mismatch is a PARITY. An event names its read by its position and number, and a granule window by the
granules received before it (log 57): a window that a claim or a granule has ended no longer runs out, and an event that is
not of a window then running changes nothing (log 3). -/
def Obligations.EventsOfOutstandingReads : Prop :=
  ∀ (s : State) (d : Dom) (pos : Fin 2) (l : Link) (r : LinkRead) (around : State → Prop), l = s.link d →
    l.positions[pos] = some r → (∀ u, around u ↔ u = { s with
      links := u.links, channels := u.channels, staging := u.staging, directory := u.directory }) →
    exec (.targetClaim d ⟨pos, r.number⟩) s =
      .next (s.setLink d { l with positions := l.positions.set pos (some { r with claimed := true }) }) ∧
    (r.claimed = true → exec (.claimWindowExpiry d ⟨pos, r.number⟩) s = .next s) ∧
    (∀ since, r.claimed = false ∨ since ≠ r.received.length → exec (.granuleWindowExpiry d ⟨⟨pos, r.number⟩, since⟩) s = .next s) ∧
    (r.claimed = false →
      ∀ data good, exec (.granuleArrival d ⟨pos, r.number⟩ data good) s = .next s) ∧
    (∀ data good, r.claimed = true → data.length = 64 → r.received.length + 1 < r.granules →
      exec (.granuleArrival d ⟨pos, r.number⟩ data good) s = .next (s.setLink d { l with
        positions := l.positions.set pos (some { r with
          received := r.received ++ [data], mismatch := r.mismatch || !good }) })) ∧
    (r.claimed = false → ∃ u : State, exec (.claimWindowExpiry d ⟨pos, r.number⟩) s = .next u.settle ∧ around u
      ∧ (u.link d).positions = l.positions.set pos none
      ∧ (u.link d).counters = { l.counters with noClaims := l.counters.noClaims.inc }
      ∧ u = (s.setLink d { l with
          positions := l.positions.set pos none
          counters := { l.counters with noClaims := l.counters.noClaims.inc } }).deliver r.channel r.address .noClaim) ∧
    (r.claimed = true → ∃ u : State, exec (.granuleWindowExpiry d ⟨⟨pos, r.number⟩, r.received.length⟩) s = .next u.settle
      ∧ around u
      ∧ (u.link d).positions = l.positions.set pos none
      ∧ (u.link d).counters = { l.counters with stalls := l.counters.stalls.inc }
      ∧ u = (s.setLink d { l with
          positions := l.positions.set pos none
          counters := { l.counters with stalls := l.counters.stalls.inc } }).deliver r.channel r.address .stall) ∧
    (∃ u : State, exec (.targetAbort d ⟨pos, r.number⟩) s = .next u.settle ∧ around u
      ∧ (u.link d).positions = l.positions.set pos none ∧ (u.link d).abortSeen = true
      ∧ (u.link d).counters = { l.counters with targetAborts := l.counters.targetAborts.inc }
      ∧ u = (s.setLink d { l with
          positions := l.positions.set pos none, abortSeen := true
          counters := { l.counters with targetAborts := l.counters.targetAborts.inc } }).deliver r.channel r.address
            .targetAbort) ∧
    (r.received = [] → exec (.disconnect d ⟨pos, r.number⟩) s = exec (.targetAbort d ⟨pos, r.number⟩) s) ∧
    (r.received ≠ [] → r.mismatch = false → ∃ u : State, exec (.disconnect d ⟨pos, r.number⟩) s = .next u.settle ∧ around u
      ∧ (u.link d).positions = l.positions.set pos none
      ∧ (u.link d).counters = { l.counters with disconnects := l.counters.disconnects.inc }
      ∧ u = (s.setLink d { l with
          positions := l.positions.set pos none
          counters := { l.counters with disconnects := l.counters.disconnects.inc } }).deliver r.channel r.address
            (.disconnect (slice r.received.flatten (r.address % 64) (64 * r.received.length)))) ∧
    (∀ data, r.claimed = true → r.mismatch = false → data.length = 64 → r.granules ≤ r.received.length + 1 →
      ∃ u : State, exec (.granuleArrival d ⟨pos, r.number⟩ data true) s = .next u.settle ∧ around u
        ∧ (u.link d).positions = l.positions.set pos none ∧ (u.link d).counters = l.counters
        ∧ u = (s.setLink d { l with positions := l.positions.set pos none }).deliver r.channel r.address
            (.data (slice (r.received ++ [data]).flatten (r.address % 64) r.length))) ∧
    (∀ data good bytes (run : Host.Outcome State Fault Refusal),
      (r.claimed = true ∧ (r.mismatch = true ∨ good = false) ∧ data.length = 64 ∧ r.granules ≤ r.received.length + 1
          ∧ bytes = slice (r.received ++ [data]).flatten (r.address % 64) r.length
          ∧ run = exec (.granuleArrival d ⟨pos, r.number⟩ data good) s)
        ∨ (r.received ≠ [] ∧ r.mismatch = true ∧ bytes = slice r.received.flatten (r.address % 64) r.length
          ∧ run = exec (.disconnect d ⟨pos, r.number⟩) s) →
      ((satByte l.downshifts).toNat < (s.settings d).threshold ∨ l.mode = .single) →
      ∃ u : State, run = .next u.settle ∧ around u
        ∧ (u.link d).positions = l.positions.set pos none ∧ (u.link d).paritySeen = true
        ∧ (u.link d).downshifts = satByte l.downshifts
        ∧ (u.link d).counters = { l.counters with parityErrors := l.counters.parityErrors.inc }
        ∧ u = (s.setLink d { l with
            positions := l.positions.set pos none, paritySeen := true, downshifts := satByte l.downshifts
            counters := { l.counters with parityErrors := l.counters.parityErrors.inc } }).deliver r.channel r.address
              (.parity bytes))

/-- DERIVED (R96, R97, R84, R88). A PARITY outcome that brings the downshift count to the threshold narrows the mode by
one and retrains: the positions are freed, the count restarts at 0, and a LINK_SHIFT record is appended. The outcome is that
of a read whose last granule comes with bad parity or after an earlier mismatch, or that is disconnected after one; its
channel takes it, with the bytes, after the retraining. -/
def Obligations.ParityDownshiftsTheLink : Prop :=
  ∀ (s : State) (d : Dom) (pos : Fin 2) (l : Link) (r : LinkRead) (m : Mode) (bytes : List Byte)
    (run : Host.Outcome State Fault Refusal),
    l = s.link d → l.positions[pos] = some r →
    ((∃ data good, r.claimed = true ∧ (r.mismatch = true ∨ good = false) ∧ data.length = 64
          ∧ r.granules ≤ r.received.length + 1
          ∧ bytes = slice (r.received ++ [data]).flatten (r.address % 64) r.length
          ∧ run = exec (.granuleArrival d ⟨pos, r.number⟩ data good) s)
      ∨ (r.received ≠ [] ∧ r.mismatch = true ∧ bytes = slice r.received.flatten (r.address % 64) r.length
          ∧ run = exec (.disconnect d ⟨pos, r.number⟩) s)) →
    (s.settings d).threshold ≤ (satByte l.downshifts).toNat → l.mode.narrower = some m →
    ∃ u : State, run = .next u.settle
      ∧ (u.link d).state = .training ∧ (u.link d).mode = m ∧ (u.link d).downshifts = 0
      ∧ (u.link d).shifted = true ∧ (u.link d).paritySeen = true ∧ (u.link d).widen = false
      ∧ (u.link d).trainingExpiry = some (s.partTime + 5)
      ∧ (∀ i : Fin 2, (u.link d).positions[i] = none)
      ∧ (u.link d).counters = { l.counters with
          parityErrors := l.counters.parityErrors.inc, retrains := l.counters.retrains.inc }
      ∧ u.journal d = (s.journal d).append
          { sequence := 0, time := s.partTime, origin := 15, eventClass := 0xF1, severity := 2, checkBad := false
            payload := le 1 l.mode.code ++ le 1 m.code ++ le 4 (codeOr BitVec.toNat (s.domain d).openDump) }
      ∧ ((∀ i : Fin 2, i ≠ pos → l.positions[i] = none) → ∃ t : State,
          u = t.deliver r.channel r.address (.parity bytes) ∧ t.channels = s.channels ∧ t.staging = s.staging)
      ∧ u = { s with
          links := u.links, channels := u.channels, staging := u.staging, directory := u.directory
          admissions := u.admissions, journals := s.journals.set d (u.journal d), servicePort := u.servicePort
          service := u.service }

/-! ### Channels -/

/-- DERIVED (R66, R69 to R74, R76, R164, R167; two clauses are the model's choices: that a read that handles the last admitted byte ends its
section DONE, whatever the failure run, is log 15, and that a failure run of 16 withdraws a waiting page request, which R76
gives for the harvest end alone, is log 67). What an outcome does to a channel whose one read in hand it ends, with nothing handled above the prefix.
In FETCHING and STALLED: the bytes of a clean read are kept in the staging pages, its extent joins the handled prefix and
the failure run restarts; a DISCONNECT keeps the bytes that came and the rest of the read awaits a grant; a failed issue
below the retry limit counts an attempt and waits again; at the limit, and at once for a target abort, the extent joins the
prefix as a hole, over bytes of 0x00 or, after PARITY, the bytes that came, and the failure run rises; after RETRAIN the read
waits again, and after LINK_DOWN it leaves the hand. A read that ends with every admitted byte handled takes the channel to
ENDING, and so does a failure run of 16, to end UNREACHABLE with its lock and page requests withdrawn. In ENDING the bytes of
DATA and DISCONNECT are kept and handled, and after every outcome the read leaves the hand.

With no read in hand an ENDING channel ends its section: the pages of the written length that have not passed do, with the
CRC over them, the pages beyond are freed, the lock is released, the section is DONE, or PARTIAL with its cause, its share is
its header page and its written pages, the notice is sent, or dropped where it finds no place (a frame on the line holds none
of the queue: log 13), and the harvest may be complete (R12). -/
def Obligations.OutcomesMoveTheChannel : Prop :=
  (∀ (s : State) (c : Fin 4) (ch : Channel) (j : Job) (x : SectionRecord) (h : HandRead) (o : ReadOutcome)
    (u : State), ch = s.channel c → ch.job = some j → s.sect j.dump j.index = some x →
    ch.hand = [h] → h.outstanding = true → h.offset = ch.handled → 0 < h.length → h.length ≤ 256 → ch.above = [] →
    ch.holesAbove = [] → u = s.deliver c (j.base + h.offset) o →
    u = { s with
      channels := s.channels.set c (u.channel c), directory := u.directory, staging := u.staging
      links := u.links } ∧
    (ch.state = .fetching ∨ ch.state = .stalled → ch.handled + h.length ≤ j.admitted → ch.failureRun < 16 →
      (∀ bytes, o = .data bytes → bytes.length = h.length →
        u.channel c = { ch with
          hand := [], handled := ch.handled + h.length, failureRun := 0
          state := if ch.handled + h.length = j.admitted then .ending else ch.state
          ending := if ch.handled + h.length = j.admitted then some .full else ch.ending }
        ∧ (u.sect j.dump j.index).map SectionRecord.written = some (ch.handled + h.length)
        ∧ (u.sect j.dump j.index).map SectionRecord.holes = some x.holes
        ∧ u.links = s.links ∧ StagedAt s u j h.offset bytes) ∧
      (∀ bytes, o = .disconnect bytes → 0 < bytes.length → bytes.length < h.length →
        u.channel c = { ch with
          hand := [{ h with
            offset := h.offset + bytes.length, length := h.length - bytes.length, outstanding := false }]
          handled := ch.handled + bytes.length }
        ∧ (u.sect j.dump j.index).map SectionRecord.written = some (ch.handled + bytes.length)
        ∧ (u.sect j.dump j.index).map SectionRecord.holes = some x.holes
        ∧ u.links = s.links ∧ StagedAt s u j h.offset bytes) ∧
      (o = .noClaim ∨ o = .stall ∨ (∃ bytes, o = .parity bytes) → h.attempts + 1 < ch.retryLimit →
        u = s.setChannel c { ch with hand := [{ h with attempts := h.attempts + 1, outstanding := false }] }) ∧
      (∀ cause bytes (ended : Channel), (o = .targetAbort ∧ cause = HoleCause.targetAbort ∧ bytes = List.replicate h.length 0) ∨
          (ch.retryLimit ≤ h.attempts + 1 ∧ ((o = .noClaim ∧ cause = .noClaim ∧ bytes = List.replicate h.length 0)
            ∨ (o = .stall ∧ cause = .stall ∧ bytes = List.replicate h.length 0)
            ∨ (o = .parity bytes ∧ cause = .parity ∧ bytes.length = h.length))) →
        ended = { ch with hand := [], handled := ch.handled + h.length, failureRun := ch.failureRun + 1 } →
        (u.sect j.dump j.index).map SectionRecord.written = some (ch.handled + h.length)
        ∧ (u.sect j.dump j.index).map SectionRecord.holes = some (enterHole x.holes x.holeOverflow
            { offset := h.offset, length := h.length, cause := cause }).1
        ∧ (u.sect j.dump j.index).map SectionRecord.holeOverflow = some (enterHole x.holes x.holeOverflow
            { offset := h.offset, length := h.length, cause := cause }).2
        ∧ (ch.handled + h.length = j.admitted →
            u.channel c = { ended with state := .ending, ending := some .full }
            ∧ u.links = s.links ∧ StagedAt s u j h.offset bytes)
        ∧ (ch.handled + h.length < j.admitted → ch.failureRun + 1 < 16 →
            u.channel c = ended ∧ u.links = s.links ∧ StagedAt s u j h.offset bytes)
        ∧ (ch.handled + h.length < j.admitted → ch.failureRun + 1 = 16 →
            u.channel c = { ended with state := .ending, ending := some (.short .unreachable) }
            ∧ u.links = s.links.set j.domain { s.link j.domain with
                lockQueue := (s.link j.domain).lockQueue.filter fun q => q.channel ≠ c
                designate := (s.link j.domain).designate.filter fun q => q.channel ≠ c }
            ∧ u.staging.requests = s.staging.requests.filter (fun q => q.holder ≠ .channel c)
            ∧ StagedAt s { u with staging := { u.staging with requests := s.staging.requests } } j h.offset bytes)) ∧
      (o = .retrain → u = s.setChannel c { ch with hand := [{ h with outstanding := false }] }) ∧
      (o = .linkDown → u = s.setChannel c { ch with hand := [] })) ∧
    (ch.state = .ending →
      (∀ bytes, (o = .data bytes ∧ bytes.length = h.length)
          ∨ (o = .disconnect bytes ∧ 0 < bytes.length ∧ bytes.length < h.length) →
        u.channel c = { ch with hand := [], handled := ch.handled + bytes.length }
        ∧ (u.sect j.dump j.index).map SectionRecord.written = some (ch.handled + bytes.length)
        ∧ (u.sect j.dump j.index).map SectionRecord.holes = some x.holes ∧ u.links = s.links
        ∧ StagedAt s u j h.offset bytes) ∧
      (o = .noClaim ∨ o = .stall ∨ o = .targetAbort ∨ (∃ bytes, o = .parity bytes) ∨ o = .retrain ∨ o = .linkDown →
        u = s.setChannel c { ch with hand := [] }))) ∧
  (∀ (s : State) (c : Fin 4) (ch : Channel) (j : Job) (x y : SectionRecord) (why : Ending) (last : Nat) (rest : List Nat)
    (v : BitVec 32), ch = s.channel c → ch.state = .ending → ch.job = some j → ch.ending = some why → ch.hand = [] →
    s.sect j.dump j.index = some x → x.kind = .region → ch.handled ≤ 4096 * ch.given →
    last = max ch.passed ((ch.handled + 4095) / 4096) → rest = List.range' (ch.passed + 1) (last - ch.passed) →
    v = crc32Feed ch.crc (rest.flatMap fun p => slice (match s.staging.find (dataKey j.dump j.index p) with
      | some q => q.data
      | none => []) 0 (min 4096 (ch.handled - 4096 * (p - 1)))) ^^^ 0xFFFFFFFF →
    y = { x with
      state := if why = .full then .done else .partly
      cause := (match why with
        | .full => none
        | .short k => some k)
      written := ch.handled, crc := some v } →
    ∃ u : State, s.finishStep c = some u ∧ u.channel c = Channel.idle ∧ u.sect j.dump j.index = some y
      ∧ u.store.programs = s.store.programs ++ rest.map (fun p => .page (dataKey j.dump j.index p))
      ∧ u.links = s.links.set j.domain { s.link j.domain with
          lockHolder := (s.link j.domain).lockHolder.filter fun q => q.channel ≠ c }
      ∧ u.staging.requests = s.staging.requests.filter (fun q => q.holder ≠ .channel c)
      ∧ u.staging.pages.map StagingPage.key = (s.staging.pages.filter fun q =>
          !(q.holder == .channel c && q.key.kind == .data && decide (last < q.key.seq))).map StagingPage.key
      ∧ (∀ q ∈ u.staging.pages, q.holder ≠ .channel c)
      ∧ (∀ a, s.admission j.domain = some a → a.dump = j.dump → j.index < a.shares.length →
          u.share j.domain j.index = 1 + (ch.handled + 4095) / 4096)
      ∧ NoticeMade s u [] {
          kind := 0xC1, tag := s.service.noticeTag, domain := domByte j.domain, notice := true
          body := le 4 j.dump.toNat ++ le 1 x.index ++ le 2 x.tag.toNat ++ le 1 y.state.code
            ++ le 1 (codeOr SectionCause.code y.cause) ++ le 8 ch.handled ++ le 1 x.holes.length
            ++ [flagByte x.holeOverflow] ++ le 4 v.toNat }
      ∧ (s.domain j.domain).mayComplete (u.domain j.domain)
      ∧ u = { s with
          channels := s.channels.set c (u.channel c), domains := s.domains.set j.domain (u.domain j.domain)
          staging := u.staging, store := u.store, links := u.links, directory := u.directory
          admissions := u.admissions, servicePort := u.servicePort, service := u.service })

/-- DERIVED (R62). Every read cut from a section lies in its admitted range and is not empty; a partial read lies within
one granule; a burst is 1 to 4 whole granules within one 4 KiB page of addresses, and stops short of 4 only at the page's
or the range's last whole granule. -/
def Obligations.CutReadsStayWithinGranulesAndPages : Prop :=
  ∀ (base admitted offset : Nat), offset < admitted →
    let r := cutRead base admitted offset
    r.offset = offset ∧ 0 < r.length ∧ offset + r.length ≤ admitted ∧ r.attempts = 0 ∧ r.outstanding = false ∧
    (r.isPartial = true → (base + offset) / 64 = (base + offset + r.length - 1) / 64
      ∧ ((base + offset) % 64 ≠ 0 ∨ admitted - offset < 64)) ∧
    (r.isPartial = false → (base + offset) % 64 = 0 ∧ r.length % 64 = 0 ∧ r.length ≤ 256
      ∧ (base + offset) / 4096 = (base + offset + r.length - 1) / 4096
      ∧ (r.length < 256 → (base + offset + r.length) % 4096 = 0 ∨ admitted < offset + r.length + 64))

/-- DERIVED (R73). A hole that begins at or above the end of a lawful hole list enters it so that the list keeps at most 32
entries in rising disjoint order, the last one reaching the hole's end; the overflow flag is set by an overflow alone,
and stays set. -/
def Obligations.HoleListsStayLawful : Prop :=
  ∀ (holes : List Hole) (overflow : Bool) (h : Hole),
    holes.length ≤ 32 → holes.Pairwise (fun x y => x.offset + x.length ≤ y.offset) → (∀ x ∈ holes, 1 ≤ x.length) →
    1 ≤ h.length → (∀ x ∈ holes, x.offset + x.length ≤ h.offset) →
    let r := enterHole holes overflow h
    r.1.length ≤ 32 ∧ r.1.Pairwise (fun x y => x.offset + x.length ≤ y.offset) ∧ (∀ x ∈ r.1, 1 ≤ x.length)
      ∧ (∃ x, r.1.getLast? = some x ∧ x.offset + x.length = h.offset + h.length)
      ∧ (r.2 = true ↔ overflow = true ∨ (holes.length = 32 ∧ ∀ x, holes.getLast? = some x →
          ¬(h.offset = x.offset + x.length ∧ h.cause = x.cause)))

/-! ### Plans and admission at the opening -/

/-- DERIVED (R27, R37). The snapshot takes the plan's entries in ascending priority and, among equal priorities, in
ascending index: all of them, once each. -/
def Obligations.SnapshotsFollowTheHarvestOrder : Prop :=
  ∀ p : Plan, (∀ x ∈ p.entries, x.priority ≤ 7) →
    p.harvestOrder.Perm p.entries
    ∧ p.harvestOrder.Pairwise (fun x y => x.priority ≤ y.priority)
    ∧ ∀ k, (p.harvestOrder.filter fun x => x.priority == k) = p.entries.filter fun x => x.priority == k

/-- DERIVED (R43, R50, R51, R52, Table 3-5). A visit admits the section whole if its page cost and time cost fit, else
truncated to a multiple of 4,096 bytes at least its floor if that can be, else skips it for the test that failed; what it
admits fits the budget, and the budget falls by its costs. -/
def Obligations.VisitsStayWithinTheBudget : Prop :=
  ∀ (rd : Nat) (b : Budget) (x : SectionRecord), 0 < rd → 1 ≤ x.floor → x.floor ≤ x.planned →
    let v := visit rd b x
    ((1 + (x.planned + 4095) / 4096 ≤ b.pages ∧ (x.planned * 100 + rd - 1) / rd ≤ b.time) →
      v.sect = { x with state := .pending, admitted := x.planned, truncated := false, cause := none }) ∧
    (v.sect.state = .pending → v.sect.cause = none ∧ x.floor ≤ v.sect.admitted ∧ v.sect.admitted ≤ x.planned
      ∧ v.share = 1 + (v.sect.admitted + 4095) / 4096 ∧ v.share ≤ b.pages
      ∧ (v.sect.admitted * 100 + rd - 1) / rd ≤ b.time
      ∧ v.budget.pages = b.pages - v.share ∧ v.budget.time = b.time - (v.sect.admitted * 100 + rd - 1) / rd
      ∧ (v.sect.truncated = true → v.sect.admitted % 4096 = 0 ∧ 0 < v.sect.admitted)
      ∧ (v.sect.truncated = false → v.sect.admitted = x.planned)) ∧
    (v.sect.state ≠ .pending → v.sect.state = .skipped ∧ v.sect.admitted = 0 ∧ v.sect.truncated = false
      ∧ v.share = 0 ∧ v.budget = b
      ∧ v.sect.cause = some (if b.pages < 1 + (x.planned + 4095) / 4096 then .budgetSpace else .budgetTime)
      ∧ ∀ n, 0 < n → n % 4096 = 0 → x.floor ≤ n → n ≤ x.planned →
          ¬(1 + n / 4096 ≤ b.pages ∧ n * 100 ≤ b.time * rd))

/-! ### The capture store -/

/-- DERIVED (R145, R148, R153, R11, R12, R132, R149; logs 24 and 51). A program's completion frees its position; a page's program puts the
page in the array and the page map, counts it, and frees its staging page, and nothing else happens before the device's own
work but for a dump header page and for the last manifest page of a dump that its domain is CLOSING; a manifest page before
the last (some other of the 16 is not in the page map yet: log 24), or of a dump no domain is CLOSING (log 51), leaves the domain as it is. A mark's program puts a RETIRED_MARK page in
the array. The program of its dump header page takes a TRIGGERED domain to CLOSING with the end cause recorded, or without
one to HARVESTING, and on to CLOSING with COMPLETE if and only if nothing is left to harvest: no REGION section is PENDING or
ACTIVE, and JOURNAL_PRE is DONE. The reserve is refilled only where LOST sections have changed the dump's shares. -/
def Obligations.CompletedProgramsAreMapped : Prop :=
  ∀ (s : State) (i : Fin 8) (a : Nat),
    (∀ k m, s.store.inFlight[i] = some (.program (.page k) a) →
      m = { s with
        flash := s.flash.put a (.programmed k (trimZeros (match s.staging.pages.find? fun q => q.key == k with
          | some q => q.data.take 4096
          | none => [])))
        staging := { s.staging with pages := s.staging.pages.filter fun q => q.key ≠ k }
        store := { s.store with
          inFlight := s.store.inFlight.set i none
          records := s.store.records.map fun r => if r.dump = k.dump then { r with
            pageMap := r.pageMap ++ [(k, a)], programmed := r.programmed + 1, remainder := r.remainder - 1 }
            else r } } →
      (k.kind ≠ .dumpHeader →
        (k.kind = .manifest →
          (∃ q < 16, manifestKey k.dump q ≠ k ∧ ∀ r b, s.store.record k.dump = some r →
            (manifestKey k.dump q, b) ∉ r.pageMap)
          ∨ (∀ e, s.dump k.dump = some e →
            ¬((s.domain e.domain).state = .closing ∧ (s.domain e.domain).openDump = some k.dump))) →
        exec (.programComplete i) s = .next m.settle) ∧
      (∀ e d, k.kind = .dumpHeader → s.dump k.dump = some e → d = e.domain →
        ∃ u : State, exec (.programComplete i) s = .next u.settle
          ∧ u = { m with
              domains := s.domains.set d (u.domain d), admissions := u.admissions, channels := u.channels
              links := u.links, directory := u.directory, staging := u.staging, store := u.store }
          ∧ u.staging.pages = m.staging.pages ∧ u.staging.requests.Sublist s.staging.requests
          ∧ (u.admission d = s.admission d → u.store = m.store) ∧ (s.StoreLaw → m.store.Refilled u.store)
          ∧ ((s.domain d).state ≠ .triggered → u = m)
          ∧ ((s.domain d).state = .triggered → ∀ c, (s.domain d).endCause = some c →
              u.domain d = { s.domain d with state := .closing }
              ∧ (s.DirectoryLaw → (s.domain d).openDump = some k.dump → ∃ e', u.dump k.dump = some e'
                ∧ e'.endCause = some c
                ∧ (c ≠ .complete → ∀ x ∈ e'.sections, x.kind = .region → x.state ≠ .pending)))
          ∧ ((s.domain d).state = .triggered → (s.domain d).endCause = none →
              u = { m with
                domains := s.domains.set d (u.domain d), admissions := u.admissions, directory := u.directory }
              ∧ ((s.domain d).openDump = some k.dump →
                ∀ done : Prop, (done ↔ ∀ x ∈ e.sections, (x.kind = .region → x.state ≠ .pending ∧ x.state ≠ .active)
                  ∧ (x.kind = .journalPre → x.state = .done)) →
                (¬done → u.domain d = { s.domain d with state := .harvesting } ∧ u.dump k.dump = some e)
                ∧ (done → u.domain d = { s.domain d with state := .closing, endCause := some .complete }
                  ∧ (u.dump k.dump).map DumpEntry.endCause = some (some .complete)))))) ∧
    (∀ b q, s.store.inFlight[i] = some (.program (.mark b q) a) →
      exec (.programComplete i) s = .next ({ s with
        flash := s.flash.put a (.programmed { dump := 0, kind := .retiredMark, index := 0, seq := 0 } [])
        store := { s.store with inFlight := s.store.inFlight.set i none } } : State).settle)

/-- DERIVED (R132, R17, R18, R109, R147 to R149; that the last page is the one that completes the 16 in the page map is log 24,
and that the close is taken only while the domain is CLOSING that dump is log 51). The program of the last manifest page is
mapped as every page's is, and closes the dump: the entry is CLOSED with its manifest check, its open block is FULL and
nothing stays counted for it, the admission record and the trigger mark are gone, a HOLD_RELEASE record (if the line was
asserted) follows the DUMP_CLOSED record, and the domain is SETTLED with its line released. The reserve is refilled if the
dump held a claim. -/
def Obligations.TheLastManifestPageClosesTheDump : Prop :=
  ∀ (s : State) (i : Fin 8) (a : Nat) (k : PageKey) (e : DumpEntry) (d : Dom) (r : StoreRecord) (x : Store),
    s.store.inFlight[i] = some (.program (.page k) a) → k.kind = .manifest → s.dump k.dump = some e → d = e.domain →
    (s.domain d).state = .closing → (s.domain d).openDump = some k.dump → s.store.record k.dump = some r →
    (∀ q < 16, manifestKey k.dump q = k ∨ ∃ b, (manifestKey k.dump q, b) ∈ r.pageMap) →
    x = { s.store with
      inFlight := s.store.inFlight.set i none, blocks := x.blocks
      records := s.store.records.map fun q => if q.dump = k.dump then { q with
        pageMap := q.pageMap ++ [(k, a)], programmed := q.programmed + 1, openBlock := none, remainder := 0, debt := 0 }
        else q } →
    x.blocks = (match r.openBlock with
      | some b => (s.store.setBlock b { s.store.block b with state := .full }).blocks
      | none => s.store.blocks) →
    ∃ u : State, exec (.programComplete i) s = .next u.settle
      ∧ u.flash = s.flash.put a (.programmed k (s.staging.programData k))
      ∧ u.staging = { s.staging with pages := s.staging.pages.filter fun q => q.key ≠ k }
      ∧ (s.StoreLaw → x.Refilled u.store) ∧ (s.claim d = 0 → u.store = x)
      ∧ (∃ e', u.dump k.dump = some e' ∧ e'.state = .closed ∧ e'.manifestCheck = some e.checkOfManifest
          ∧ e'.isProtected = e.isProtected)
      ∧ u.admission d = none
      ∧ u.domain d = { s.domain d with
          state := .settled, triggerTime := none, openDump := none, endCause := none, holdWindow := none
          holdEnable := none, holdLine := false, holdTimer := none }
      ∧ (u.journal d).mark = none
      ∧ u.journal d =
          (if (s.domain d).holdLine then fun x : Journal => x.append (holdReleaseRecord s d .closed) else id)
            ((({ s.journal d with mark := none } : Journal)).append
              { sequence := 0, time := s.partTime, origin := 15, eventClass := 0xF3, severity := 1, checkBad := false
                payload := le 4 k.dump.toNat ++ le 1 (codeOr EndCause.code e.endCause)
                  ++ le 4 e.checkOfManifest.toNat })
      ∧ u = { s with
          flash := u.flash, store := u.store, staging := u.staging, domains := s.domains.set d (u.domain d)
          admissions := u.admissions, journals := s.journals.set d (u.journal d), works := s.works.set d (u.work d)
          directory := u.directory, servicePort := u.servicePort, service := u.service }

/-- DERIVED (R145, R149 to R153). A program's failure frees its position, leaves its page unreadable and counts, and a
page's program is queued again at the head of the queue, before the mark of a withdrawn block that still has a page for
one. A page that failed in its dump's open block withdraws the block, RETIRED or WITHHELD, and the dump takes the first
spare as its open block, or else waits for one, the block's lost pages counted; the reserve is then refilled from the pool.
A page that failed elsewhere is owed, and withdraws its block if it is FULL. The STORE_RETIRE record says whether the block
was WITHHELD (log 41), the entry of a RETIRED block holds the dump's number (log 62), and dumps that already wait are log 46.

An erase's completion erases every page of the block and puts it at the tail of the pool, from which nothing leaves but for
the reserve and the dumps that wait, or leaves a WITHHELD block WITHHELD with no owner; its failure leaves the block's pages
unreadable (log 12), counts, and withdraws the block, a WITHHELD one too (log 34), under dump number 0. Either way the
erase gates on the block clear. -/
def Obligations.FailedProgramsAndErasesEnd : Prop :=
  ∀ (s : State) (i : Fin 8),
    (∀ a b q, s.store.inFlight[i] = some (.program (.mark b q) a) →
      exec (.programFailed i) s = .next ({ s with
        flash := s.flash.put a .unreadable
        store := { s.store with
          inFlight := s.store.inFlight.set i none
          programFailures := s.store.programFailures.inc } } : State).settle) ∧
    (∀ a k r b, s.store.inFlight[i] = some (.program (.page k) a) → s.store.record k.dump = some r → b = a / 128 →
      s.StoreLaw → b ∉ s.store.pool → b ∉ s.store.spares →
      ∀ marks lost, marks = (if (s.store.block b).nextPage < 128 then [.mark b (s.store.block b).nextPage] else []) →
      lost = 128 - (s.store.block b).nextPage + 1 →
      ∃ u : State, exec (.programFailed i) s = .next u.settle
        ∧ u.flash = s.flash.put a .unreadable
        ∧ u.store.programFailures = s.store.programFailures.inc ∧ u.store.inFlight = s.store.inFlight.set i none
        ∧ u.store.dirty = s.store.dirty ∧ u.store.reads = s.store.reads
        ∧ u.journal (s.domainOf k.dump) = (s.journal (s.domainOf k.dump)).append
            { sequence := 0, time := s.partTime, origin := 15, eventClass := 0xF5, severity := 2, checkBad := false
              payload := le 2 b ++ le 4 k.dump.toNat
                ++ [flagByte (decide ((u.store.block b).state = .withheld))] }
        ∧ (r.openBlock = some b → Withdrawn s u b k.dump ∧ u.store.programs = .page k :: marks ++ s.store.programs
          ∧ (∀ x xs, s.store.spares = x :: xs → x ∉ s.store.pool →
              u.store.record k.dump = some { r with
                openBlock := some x, blocks := r.blocks ++ [x], remainder := r.remainder - lost + 128 }
              ∧ u.store.block x = { state := .opened, owner := some k.dump, nextPage := 0 }
              ∧ u.store.RefilledFrom s.store.pool xs [])
          ∧ (s.store.spares = [] → s.store.isWaiting k.dump = false →
              u.store.RefilledFrom s.store.pool []
                (s.store.waits ++ [{ dump := k.dump, atTaking := false, counted := lost }])
              ∧ (u.store.isWaiting k.dump = true → u.store.record k.dump = some { r with openBlock := none })
              ∧ (u.store.isWaiting k.dump = false → ∃ x ∈ s.store.pool, u.store.record k.dump = some { r with
                  openBlock := some x, blocks := r.blocks ++ [x], remainder := r.remainder + 128 - lost })))
        ∧ (r.openBlock ≠ some b →
            ((s.store.block b).state = .full → Withdrawn s u b k.dump
              ∧ u.store.programs = .page k :: marks ++ s.store.programs)
            ∧ ((s.store.block b).state ≠ .full → u.store.retired = s.store.retired ∧ u.config = s.config
              ∧ u.store.blocks = s.store.blocks ∧ u.store.programs = .page k :: s.store.programs)
            ∧ u.store.record k.dump = some { r with debt := r.debt + 1 }
            ∧ u.store.pool = s.store.pool ∧ u.store.spares = s.store.spares ∧ u.store.waits = s.store.waits)
        ∧ u = { s with flash := u.flash, store := u.store, config := u.config, journals := u.journals }) ∧
    (∀ b withheld, s.store.inFlight[i] = some (.erase b withheld) →
      (∃ u : State, exec (.eraseComplete i) s = .next u.settle
        ∧ (∀ a, u.flash.page a = if a / 128 = b then none else s.flash.page a)
        ∧ u.store.inFlight[i] = none
        ∧ u.store.dirty = s.store.dirty.map (fun x => if x.gate = some (.erase b) then { x with gate := none } else x)
        ∧ (s.StoreLaw → u.store.RefilledFrom (if withheld then s.store.pool else s.store.pool ++ [b]) s.store.spares
            s.store.waits)
        ∧ (s.StoreLaw → withheld = true → b ∉ s.store.pool →
            u.store.block b = { state := .withheld, owner := none, nextPage := 0 })
        ∧ u.store.retired = s.store.retired ∧ u.store.programs = s.store.programs ∧ u.store.reads = s.store.reads
        ∧ u = { s with
            flash := u.flash, store := u.store, admissions := u.admissions, directory := u.directory }) ∧
      (∃ u : State, exec (.eraseFailed i) s = .next u.settle
        ∧ (∀ a, u.flash.page a = if a / 128 = b then some .unreadable else s.flash.page a)
        ∧ Withdrawn s u b 0 ∧ (u.store.block b).owner = none
        ∧ u.store = { s.store with
            inFlight := s.store.inFlight.set i none, blocks := u.store.blocks, retired := u.store.retired
            eraseFailures := s.store.eraseFailures.inc
            dirty := s.store.dirty.map fun x => if x.gate = some (.erase b) then { x with gate := none } else x }
        ∧ u = { s with flash := u.flash, store := u.store, config := u.config }))

/-! ### The directory and the read cursor -/

/-- DERIVED (R171, R154). CURSOR opens the read cursor at an offset of a section of a held dump, up to its admitted length, and
answers with the section's state, written length and readable length; else it is refused with NOT_FOUND or RANGE and
changes nothing. The events of R171 that close the cursor are in `ReleaseFreesADump`, `AttachAndResetLines`,
`ResetAndStartUp` and `RestartTakesEffect`. -/
def Obligations.CursorOpensOnASection : Prop :=
  ∀ (s : State) (p : PortId) (f : Frame) (n : BitVec 32) (index offset : Nat), s.takes p 0x13 f →
    n = BitVec.ofNat 32 (field f.body 0 4) → index = field f.body 4 1 → offset = field f.body 5 8 →
    ∃ t : State, exec (.cursor p) s = .next t ∧
      (s.dump n = none → Answered s t p f 0xFF 0x14 [] ∧ t.apart p = s.apart p) ∧
      (∀ e, s.dump n = some e →
        (e.sections.length ≤ index ∨ (∃ x, e.sections[index]? = some x ∧ x.admitted < offset) →
          Answered s t p f 0xFF 0x13 [] ∧ t.apart p = s.apart p) ∧
        (∀ x, e.sections[index]? = some x → offset ≤ x.admitted →
          Answered s t p f 0xFF 0x00 (le 1 x.state.code ++ le 8 x.written ++ le 8 (s.readable n x))
          ∧ t.apart p = ({ s with service := { s.service with
              cursor := some { dump := n, index := index, offset := offset } } } : State).apart p))

/-- DERIVED (R172, R154, R138). READ with the cursor closed is refused with NOT_FOUND; with nothing readable at the cursor
it is answered with no bytes; else it stays in processing and its one or two store reads join the read queue. -/
def Obligations.ReadWaitsForItsPages : Prop :=
  ∀ (s : State) (f : Frame) (asked count : Nat), s.takes .service 0x14 f → asked = field f.body 0 2 →
    count = max 1 (min 1024 asked) →
    (s.service.cursor = none → ∃ t : State, exec (.read .service) s = .next t ∧ Answered s t .service f 0xFF 0x14 []
      ∧ t.apart .service = s.apart .service) ∧
    (∀ c x stop, s.service.cursor = some c → s.sect c.dump c.index = some x →
      stop = min (c.offset + count) (s.readable c.dump x) →
      (stop ≤ c.offset → ∃ t : State, exec (.read .service) s = .next t
        ∧ Answered s t .service f 0xFF (if asked = count then 0x00 else 0x01)
          (le 4 c.dump.toNat ++ le 1 c.index ++ le 8 c.offset ++ le 2 0
            ++ le 1 (1 + (if s.morePending c.dump c.index then 2 else 0)))
        ∧ t.apart .service = (s.updDump c.dump DumpEntry.evalFetched).apart .service) ∧
      (c.offset < stop → exec (.read .service) s = .next ({ s with
        store := { s.store with reads := s.store.reads ++
          (if c.offset / 4096 = (stop - 1) / 4096 then [c.offset / 4096 + 1]
            else [c.offset / 4096 + 1, (stop - 1) / 4096 + 1]).map fun q =>
              { reader := .cursor, key := { dump := c.dump, kind := .data, index := c.index, seq := q } } }
        servicePort := { s.servicePort with
          reserved := 1
          processing := some (.read c.dump c.index c.offset stop count (decide (asked ≠ count)) []) } }
            : State).settle))

/-- DERIVED (R154, R172, R138). A store read's completion frees its position, and for nobody its page is dropped. For a
READ the first of two pages is kept, and the last page that the READ waits for completes it: its bytes run to the first
page that is unreadable, and the cursor, the delivery mark and the fetched flag follow. A page the array no longer holds is
unreadable from then on (log 22), and the more-pending flag is that of the moment (log 56). -/
def Obligations.StoreReadsReachTheirReaders : Prop :=
  ∀ (s : State) (i : Fin 8) (r : StoreRead) (a : Nat) (held : Bool) (page : Option (List Byte)) (flash : Flash),
    s.store.inFlight[i] = some (.read r a) → flash = (if held then s.flash else s.flash.put a .unreadable) →
    page = (match s.flash.page a with
      | some (.programmed _ data) => if held then some data else none
      | _ => none) →
    (r.reader = .nobody → exec (.storeReadComplete i held) s = .next ({ s with
      flash := flash, store := { s.store with inFlight := s.store.inFlight.set i none } } : State).settle) ∧
    (r.reader = .cursor → ∀ n index offset stop count adjusted pages first f,
      s.servicePort.processing = some (.read n index offset stop count adjusted pages) →
      s.servicePort.input.head? = some f → s.servicePort.reserved = 1 → f.kind = 0x14 → offset < stop →
      first = offset / 4096 + 1 → ∀ around : State → Prop,
      (∀ u, around u ↔ u.apart .service = ({ s with
        flash := flash, directory := u.directory, service := u.service
        store := { s.store with inFlight := s.store.inFlight.set i none } } : State).apart .service) →
      (first = (stop - 1) / 4096 + 1 → pages = [] → r.key.seq = first →
        ∃ (u : State) (bytes : List Byte), exec (.storeReadComplete i held) s = .next u.settle ∧ around u
          ∧ bytes = (match page with
            | some x => slice x (offset % 4096) (stop - offset)
            | none => [])
          ∧ ReadAnswered s u f n index offset count adjusted bytes page.isNone) ∧
      (first = (stop - 1) / 4096 → pages = [] → exec (.storeReadComplete i held) s = .next ({ s with
        flash := flash, store := { s.store with inFlight := s.store.inFlight.set i none }
        servicePort := { s.servicePort with processing := some (.read n index offset stop count adjusted
          [{ seq := r.key.seq, data := page }]) } } : State).settle) ∧
      (∀ other low high, first = (stop - 1) / 4096 → pages = [other] →
        (other.seq = first ∧ r.key.seq = first + 1 ∧ low = other.data ∧ high = page)
          ∨ (other.seq = first + 1 ∧ r.key.seq = first ∧ low = page ∧ high = other.data) →
        ∃ (u : State) (bytes : List Byte), exec (.storeReadComplete i held) s = .next u.settle ∧ around u
          ∧ bytes = (match low, high with
            | some x, some y => slice x (offset % 4096) (4096 * first - offset) ++ slice y 0 (stop - 4096 * first)
            | some x, none => slice x (offset % 4096) (4096 * first - offset)
            | none, _ => [])
          ∧ ReadAnswered s u f n index offset count adjusted bytes (low.isNone || high.isNone)))

/-- DERIVED (R139, R155). RELEASE refuses an unknown dump with NOT_FOUND, an OPEN one with STATE, a protected one with
DENIED, one under verify with BUSY and, unless forced, one not fetched with STATE, changing nothing; else the dump leaves
the directory and the store's records, and a cursor on it closes. Its FULL and WITHHELD blocks join the dirty list, the
dump header block first and without a gate, the others behind a gate that its erase opens, or, where it is RETIRED, the
save that writes dump number 0 for it; FULL ones are DIRTY. Its RETIRED blocks stay, their entries' dump number 0, with a
save started, also where the dump header block is not one of them (log 66). The reply counts the blocks that joined the dirty list. -/
def Obligations.ReleaseFreesADump : Prop :=
  ∀ (s : State) (p : PortId) (f : Frame) (n : BitVec 32), s.takes p 0x16 f → n = BitVec.ofNat 32 (field f.body 0 4) →
    (s.dump n = none → ∃ t : State, exec (.release p) s = .next t ∧ Answered s t p f 0xFF 0x14 [] ∧ t.apart p = s.apart p) ∧
    (∀ e, s.dump n = some e →
      (∀ st, (e.state = .opened ∧ st = 0x15) ∨ (e.state ≠ .opened ∧ e.isProtected = true ∧ st = 0x18)
          ∨ (e.state ≠ .opened ∧ e.isProtected = false ∧ (∃ v, s.directory.verify = some v ∧ v.dump = n) ∧ st = 0x10)
          ∨ (e.state ≠ .opened ∧ e.isProtected = false ∧ (∀ v, s.directory.verify = some v → v.dump ≠ n)
              ∧ e.fetched = false ∧ field f.body 4 1 = 0 ∧ st = 0x15) →
        ∃ t : State, exec (.release p) s = .next t ∧ Answered s t p f 0xFF st [] ∧ t.apart p = s.apart p) ∧
      (e.state ≠ .opened → e.isProtected = false → (∀ v, s.directory.verify = some v → v.dump ≠ n) →
        (e.fetched = true ∨ field f.body 4 1 ≠ 0) →
        ∃ u : State, exec (.release p) s = .next u.settle ∧ Answered s u p f 0xFF 0x00 (le 2 (s.store.releaseCount n))
          ∧ u.dump n = none
          ∧ u.directory.entries.map DumpEntry.still
              = (s.directory.entries.filter fun x => decide (x.number ≠ n)).map DumpEntry.still
          ∧ u.store = { s.store with
              records := s.store.records.filter fun x => decide (x.dump ≠ n)
              blocks := u.store.blocks, dirty := u.store.dirty, retired := u.store.retired }
          ∧ (∀ c, s.service.cursor = some c → u.service.cursor = if c.dump = n then none else some c)
          ∧ (s.store.record n = none → u.store = s.store ∧ u.config = s.config)
          ∧ (∀ r before key a after h order (goes : Nat → Bool), s.store.record n = some r → r.blocks.Nodup →
              r.pageMap = before ++ (key, a) :: after → key.kind = .dumpHeader →
              (∀ y ∈ before, y.1.kind ≠ .dumpHeader) → h = a / 128 →
              order = h :: r.blocks.filter (fun b => decide (b ≠ h)) →
              (∀ b, goes b = true ↔ (s.store.block b).state = .full ∨ (s.store.block b).state = .withheld) →
              s.store.releaseCount n = (order.filter goes).length
              ∧ u.store.dirty = s.store.dirty ++ (order.filter goes).map (fun b : Nat =>
                  ⟨b, if b = h then none else some (if goes h then Gate.erase h else Gate.save h)⟩)
              ∧ u.store.retired = s.store.retired.map (fun x =>
                  if x.block ∈ order ∧ goes x.block = false then { x with dump := 0 } else x)
              ∧ (∀ b ∈ order, (s.store.block b).state = .full →
                  u.store.block b = { s.store.block b with state := .dirty, owner := none })
              ∧ (∀ b ∈ order, (s.store.block b).state = .withheld ∨ (s.store.block b).state = .retired →
                  u.store.block b = { s.store.block b with owner := none })
              ∧ (∀ b, b ∉ order → u.store.block b = s.store.block b)
              ∧ u.config = (if ∀ b ∈ order, goes b = true then s.config else s.config.saving u.store.retired))
          ∧ u.apart p = ({ s with
              directory := u.directory, store := u.store, config := u.config, admissions := u.admissions
              service := u.service } : State).apart p))

/-- STATED R140. PROTECT is made on the Service Port alone; it is refused with NOT_FOUND if no entry has the number, and
otherwise the protected flag takes the value, set (not 0) or clear (0), and the reply is OK, in every dump state; and a
dump keeps the flag when it becomes CLOSED. -/
def Obligations.ProtectSetsTheFlag : Prop :=
  (∀ (s : State) (f : Frame) (d : Dom), f.kind = 0x17 → s.refusal (.platform d) f = some 0x18) ∧
  (∀ (s : State) (f : Frame) (n : BitVec 32), s.takes .service 0x17 f → n = BitVec.ofNat 32 (field f.body 0 4) →
    ∃ t : State, exec (.protect .service) s = .next t ∧
      (s.dump n = none → Answered s t .service f 0xFF 0x14 [] ∧ t.apart .service = s.apart .service) ∧
      (∀ e, s.dump n = some e → Answered s t .service f 0xFF 0x00 []
        ∧ t.dump n = some { e with isProtected := decide (field f.body 4 1 ≠ 0) }
        ∧ t.apart .service = ({ s with directory := { s.directory with
            entries := s.directory.entries.map fun x => if x.number = n then
              { x with isProtected := decide (field f.body 4 1 ≠ 0) } else x } } : State).apart .service)) ∧
  (∀ (s : State) (d : Dom) (n m : BitVec 32),
    ((s.dumpClosed d n).dump m).map DumpEntry.isProtected = (s.dump m).map DumpEntry.isProtected)

/-- DERIVED (R141, R142, R154, R164, R167, Tables 9-6 and 9-17). VERIFY refuses an unknown dump with NOT_FOUND, a selector above the last
section other than 0xFF with RANGE, and a second verify with BUSY; else it answers ACCEPTED and goes on after its reply. For
a dump that is not CLOSED, and for a SKIPPED or LOST section, its notice has the result NO_CHECK (whose checks are free
values, log 21); for a section with nothing written, MATCH; and else the re-read begins with its first page asked for, or
ends MISMATCH if the page map does not hold it (log 21). A page that was read feeds the running CRC with its content bytes;
the next page is then asked for, and after the last one the notice has MATCH if the CRC is the recorded check, and else
MISMATCH. After an unreadable page, or before a page that the page map does not hold, it is MISMATCH with a free computed
check (log 21). That a page which the array no longer holds is put as unreadable from then on is the model's choice (log 22).
Notices are sent while attached, or dropped where they find no place (a frame on the line holds none of the queue: log 13). -/
def Obligations.VerifyReadsAndReports : Prop :=
  (∀ (s : State) (p : PortId) (f : Frame) (n : BitVec 32) (which : Nat), s.takes p 0x18 f →
    n = BitVec.ofNat 32 (field f.body 0 4) → which = field f.body 4 1 →
    (s.dump n = none → ∃ t : State, exec (.verify p) s = .next t ∧ Answered s t p f 0xFF 0x14 [] ∧ t.apart p = s.apart p) ∧
    (∀ e, s.dump n = some e →
      (e.sections.length - 1 < which ∧ which ≠ 0xFF →
        ∃ t : State, exec (.verify p) s = .next t ∧ Answered s t p f 0xFF 0x13 [] ∧ t.apart p = s.apart p) ∧
      (¬(e.sections.length - 1 < which ∧ which ≠ 0xFF) → s.directory.verify.isSome = true →
        ∃ t : State, exec (.verify p) s = .next t ∧ Answered s t p f 0xFF 0x10 [] ∧ t.apart p = s.apart p))) ∧
  (∀ (s : State) (f : Frame) (n : BitVec 32) (which : Nat) (e : DumpEntry) (reply : Frame), s.takes .service 0x18 f →
    n = BitVec.ofNat 32 (field f.body 0 4) → which = field f.body 4 1 → s.dump n = some e →
    ¬(e.sections.length - 1 < which ∧ which ≠ 0xFF) → s.directory.verify = none → s.servicePort.reserved = 0 →
    reply = f.reply 0xFF 0x02 [] →
    (e.state ≠ .closed ∨ (∃ x, which ≠ 0xFF ∧ e.sections[which]? = some x ∧ (x.state = .skipped ∨ x.state = .lost)) →
      ∃ t : State, exec (.verify .service) s = .next t ∧ AnsweredAmong s t .service f 0xFF 0x02 []
        ∧ (∃ free free', NoticeMade s t [reply] (verifyNotice s.service.noticeTag n which 3 free free'))
        ∧ t = { s with freeCount := t.freeCount, servicePort := t.servicePort, service := t.service }) ∧
    (∀ x c, e.state = .closed → which ≠ 0xFF → e.sections[which]? = some x → x.state ≠ .skipped → x.state ≠ .lost →
      x.crc = some c → x.written = 0 →
      ∃ t : State, exec (.verify .service) s = .next t ∧ AnsweredAmong s t .service f 0xFF 0x02 []
        ∧ NoticeMade s t [reply] (verifyNotice s.service.noticeTag n which 1 0 0)
        ∧ t = { s with servicePort := t.servicePort, service := t.service }) ∧
    (∀ c left target key, e.state = .closed →
      ((which = 0xFF ∧ e.manifestCheck = some c ∧ target = .manifest ∧ key = manifestKey n 0)
        ∨ (∃ x, which ≠ 0xFF ∧ e.sections[which]? = some x ∧ x.state ≠ .skipped ∧ x.state ≠ .lost ∧ x.crc = some c
            ∧ 0 < x.written ∧ left = x.written ∧ target = .data which ∧ key = dataKey n which 1)) →
      ((∃ a, s.store.locate key = some a) → ∃ u : State, exec (.verify .service) s = .next u.settle
        ∧ Answered s u .service f 0xFF 0x02 []
        ∧ (∃ v, u.directory = { s.directory with verify := some v } ∧ v.dump = n ∧ v.target = target ∧ v.pagesRead = 0
          ∧ v.crc = 0xFFFFFFFF ∧ v.unreadable = false ∧ (which ≠ 0xFF → v.left = left))
        ∧ u.store = { s.store with reads := s.store.reads ++ [{ reader := .verify, key := key }] }
        ∧ u.apart .service = ({ s with directory := u.directory, store := u.store } : State).apart .service) ∧
      (s.store.locate key = none → ∃ u : State, exec (.verify .service) s = .next u.settle
        ∧ (∃ free, NoticeMade s u [reply] (verifyNotice s.service.noticeTag n which 2 c free))
        ∧ u = { s with freeCount := u.freeCount, servicePort := u.servicePort, service := u.service }))) ∧
  (∀ (s : State) (i : Fin 8) (r : StoreRead) (a : Nat) (held : Bool) (v w : Verify) (e : DumpEntry) (c : BitVec 32)
      (left total : Nat) (next : PageKey) (flash : Flash) (page : Option (List Byte)),
    s.store.inFlight[i] = some (.read r a) → r.reader = .verify → s.directory.verify = some v →
    s.dump v.dump = some e → e.state = .closed → flash = (if held then s.flash else s.flash.put a .unreadable) →
    page = (match s.flash.page a with
      | some (.programmed _ data) => if held then some data else none
      | _ => none) →
    ((v.target = .manifest ∧ e.manifestCheck = some c ∧ total = 16 ∧ next = manifestKey v.dump (v.pagesRead + 1)
        ∧ left = (if v.pagesRead = 0 then field (page.getD []) 0 4 else v.left))
      ∨ (∃ k x, v.target = .data k ∧ e.sections[k]? = some x ∧ x.state ≠ .skipped ∧ x.state ≠ .lost ∧ x.crc = some c
        ∧ total = (x.written + 4095) / 4096 ∧ next = dataKey v.dump k (v.pagesRead + 2) ∧ left = v.left)) →
    w = { v with
      pagesRead := v.pagesRead + 1, unreadable := v.unreadable || page.isNone
      crc := if page.isSome then crc32Feed v.crc (slice (page.getD []) 0 (min 4096 left)) else v.crc
      left := if page.isSome then left - min 4096 left else v.left } →
    (v.pagesRead + 1 < total → (∃ b, s.store.locate next = some b) →
      exec (.storeReadComplete i held) s = .next ({ s with
        flash := flash, directory := { s.directory with verify := some w }
        store := { s.store with
          inFlight := s.store.inFlight.set i none
          reads := s.store.reads ++ [{ reader := .verify, key := next }] } } : State).settle) ∧
    (v.pagesRead + 1 < total → s.store.locate next = none → ∃ u : State,
      exec (.storeReadComplete i held) s = .next u.settle
      ∧ (∃ free, NoticeMade s u [] (verifyNotice s.service.noticeTag v.dump
          (match v.target with
            | .data k => k
            | .manifest => 0xFF) 2 c free))
      ∧ u = { s with
          freeCount := u.freeCount, flash := flash, directory := { s.directory with verify := none }
          store := { s.store with inFlight := s.store.inFlight.set i none }
          servicePort := u.servicePort, service := u.service }) ∧
    (total ≤ v.pagesRead + 1 → ∃ u : State, exec (.storeReadComplete i held) s = .next u.settle
      ∧ (w.unreadable = false → NoticeMade s u [] (verifyNotice s.service.noticeTag v.dump
          (match v.target with
            | .data k => k
            | .manifest => 0xFF)
          (if w.crc ^^^ 0xFFFFFFFF = c then 1 else 2) c (w.crc ^^^ 0xFFFFFFFF)))
      ∧ (w.unreadable = true → ∃ free, NoticeMade s u [] (verifyNotice s.service.noticeTag v.dump
          (match v.target with
            | .data k => k
            | .manifest => 0xFF) 2 c free))
      ∧ u = { s with
          freeCount := u.freeCount, flash := flash, directory := { s.directory with verify := none }
          store := { s.store with inFlight := s.store.inFlight.set i none }
          servicePort := u.servicePort, service := u.service }))

/-! ### Links and views on request -/

/-- DERIVED (R98, R99, R100, R169). LINK STATUS answers with the link's 23 bytes as it stood, then clears parity-seen,
shifted and abort-seen, sets stayed-up while the link is UP and, asked to, clears the seven counters. VIEW sets the view,
or leaves it for 0xFF, and answers with the view and the domain it resolves to; another value is refused with RANGE. -/
def Obligations.LinkStatusAndViewAnswer : Prop :=
  ∀ (s : State) (p : PortId) (f : Frame),
    (∀ d, s.takes p 0x19 f → d = s.resolve p f.domain → (s.linkStatusBytes d).length = 23 ∧
      ∃ t : State, exec (.linkStatus p) s = .next t ∧ Answered s t p f (domByte d) 0x00 (s.linkStatusBytes d)
        ∧ t.apart p = (s.setLink d { s.link d with
            paritySeen := false, shifted := false, abortSeen := false, stayedUp := decide ((s.link d).state = .up)
            counters := if field f.body 0 1 = 0 then (s.link d).counters
              else { readsIssued := 0, disconnects := 0, noClaims := 0, stalls := 0, targetAborts := 0
                     parityErrors := 0, retrains := 0 } }).apart p) ∧
    (s.takes p 0x1E f → ∃ t : State, exec (.view p) s = .next t ∧
      (∀ v b d, (f.body = [0] ∧ v = .auto ∧ b = 0 ∧ d = s.service.autoDomain)
          ∨ (f.body = [1] ∧ v = .manual .a ∧ b = 1 ∧ d = .a) ∨ (f.body = [2] ∧ v = .manual .b ∧ b = 2 ∧ d = .b)
          ∨ (f.body = [0xFF] ∧ v = s.service.view ∧ b = BitVec.ofNat 8 v.code ∧ d = s.viewDomain) →
        Answered s t p f 0xFF 0x00 [b, domByte d]
        ∧ t.apart p = ({ s with service := { s.service with view := v } } : State).apart p) ∧
      (f.body ≠ [0] → f.body ≠ [1] → f.body ≠ [2] → f.body ≠ [0xFF] →
        Answered s t p f 0xFF 0x13 [] ∧ t.apart p = s.apart p))

/-! ### Configuration -/

/-- DERIVED (R178, R176, Table 10-2; the order of the tests is log 27, and that an on/off setting written with a value other
than 0 is stored as 1 is log 59). CONFIG SET refuses an item other than 1 to 10 with
RANGE and a write during a save with BUSY; else it stores the serial, the asset tag or the setting clamped to its range,
marks the configuration unsaved, and answers with the stored value, OK_ADJUSTED where a clamp changed it. -/
def Obligations.ConfigSetStoresAClampedValue : Prop :=
  ∀ (s : State) (p : PortId) (f : Frame) (d : Dom) (item v : Nat), s.takes p 0x1C f → d = s.resolve p f.domain →
    item = field f.body 0 1 → v = field f.body 1 2 →
    ∃ t : State, exec (.configSet p) s = .next t ∧
      (item = 0 ∨ 10 < item → Answered s t p f 0xFF 0x13 [] ∧ t.apart p = s.apart p) ∧
      (1 ≤ item → item ≤ 10 → s.config.save.isSome = true →
        Answered s t p f (if item ≤ 8 then domByte d else 0xFF) 0x10 [] ∧ t.apart p = s.apart p) ∧
      (item = 9 → s.config.save = none → Answered s t p f 0xFF 0x00 (9 :: slice f.body 1 16) ∧
        t.apart p = ({ s with config := { s.config with unsaved := true, serial := slice f.body 1 16 } } : State).apart p) ∧
      (item = 10 → s.config.save = none → Answered s t p f 0xFF 0x00 (10 :: slice f.body 1 32) ∧
        t.apart p = ({ s with config := { s.config with unsaved := true, asset := slice f.body 1 32 } } : State).apart p) ∧
      (∀ (x y : Settings) (n : Nat), s.config.save = none → x = s.settings d →
        (item = 1 ∧ n = (if v = 0 then 0 else 1) ∧ y = { x with holdEnable := decide (v ≠ 0) })
          ∨ (item = 2 ∧ n = max 1 (min 600 v) ∧ y = { x with holdWindow := n })
          ∨ (item = 3 ∧ n = min 255 v ∧ y = { x with heartbeatTimeout := n })
          ∨ (item = 4 ∧ n = max 1 (min 60 v) ∧ y = { x with freshness := n })
          ∨ (item = 5 ∧ n = max 50 (min 100 v) ∧ y = { x with derate := n })
          ∨ (item = 6 ∧ n = max 1 (min 7 v) ∧ y = { x with retry := n })
          ∨ (item = 7 ∧ n = max 1 (min 8 v) ∧ y = { x with threshold := n })
          ∨ (item = 8 ∧ n = (if v = 0 then 0 else 1) ∧ y = { x with autoArm := decide (v ≠ 0) }) →
        Answered s t p f (domByte d) (if item ≠ 1 ∧ item ≠ 8 ∧ n ≠ v then 0x01 else 0x00) (le 1 item ++ le 2 n) ∧
        t.apart p = ({ s with config := { s.config with
          unsaved := true, settings := s.config.settings.set d y } } : State).apart p)

/-- DERIVED (R175, R179, R153, R155). An image is read back as it was written, every field as its bytes hold it (bytes given
to no field: log 38). CONFIG SAVE is refused with BUSY while a save is in flight or pending, and else begins a save of the
running image and stays in processing (an on/off setting that is on is written as 1, log 64). A save's end with a match
makes its image the stored one, clears config-fault and opens the gates that waited for a retired header block's dump number
0; with a mismatch it sets config-fault, and what the memory then holds is a free value (log 10). A CONFIG SAVE is then
answered with 0 or 1, and the store's pending save starts. The end of a save of the other kind changes nothing (log 3). -/
def Obligations.SavesWriteTheConfiguration : Prop :=
  (∀ bytes im, Image.ofBytes bytes = some im → im.Fits) ∧ (∀ im : Image, im.Fits → Image.ofBytes im.bytes = some im) ∧
  ∀ (s : State),
    (∀ f, s.takes .service 0x1D f →
      (s.config.save.isSome = true ∨ s.config.savePending = true → ∃ t : State, exec (.configSave .service) s = .next t
        ∧ Answered s t .service f 0xFF 0x10 [] ∧ t.apart .service = s.apart .service) ∧
      (s.config.save = none → s.config.savePending = false → exec (.configSave .service) s = .next { s with
        config := { s.config with
          unsaved := false
          save := some { kind := .config
                         image := { serial := s.config.serial, asset := s.config.asset, retired := s.store.retired
                                    storedSettings := ⟨(s.settings .a).toStored, (s.settings .b).toStored⟩
                                    storedSlots := ⟨(s.slotPrograms .a).map SlotProgram.toStored,
                                                    (s.slotPrograms .b).map SlotProgram.toStored⟩ } } }
        servicePort := { s.servicePort with reserved := 1, processing := some .configSave } })) ∧
    (∀ kind im matched, s.config.save = some { kind := kind, image := im } →
      (kind = .store → exec (.configSaveEnd matched) s = .next s) ∧
      (kind = .config → exec (.storeSaveEnd matched) s = .next s) ∧
      ∃ u : State, (kind = .config → exec (.configSaveEnd matched) s = .next u.settle) ∧
        (kind = .store → exec (.storeSaveEnd matched) s = .next u.settle) ∧
        (kind = .config → s.servicePort.processing = some .configSave → ∀ f rest, s.servicePort.input = f :: rest →
          s.servicePort.reserved = 1 → f.kind = 0x1D → Answered s u .service f 0xFF 0x00 [if matched then 0 else 1]) ∧
        u.config.save = (if s.config.savePending then some { kind := .store, image :=
            { (if matched then im else s.config.stored) with retired := s.store.retired } } else none) ∧
        u.config.savePending = false ∧ u.config.fault = !matched ∧
        u.config.stored = (if matched then im else s.config.stored) ∧
        u.config.unsaved = (s.config.unsaved || (kind == .config && !matched)) ∧
        u.config.settings = s.config.settings ∧ u.config.serial = s.config.serial ∧ u.config.asset = s.config.asset ∧
        (matched = true → u.config.memory = .bytes im.bytes ∧ u.store = { s.store with dirty := u.store.dirty } ∧
          (∀ x ∈ u.store.dirty, ∀ b, x.gate = some (.save b) → ∀ r ∈ im.retired, r.block = b → r.dump ≠ 0) ∧
          u.store.dirty.map DirtyEntry.block = s.store.dirty.map DirtyEntry.block ∧
          ∀ (k : Nat) (x : DirtyEntry), s.store.dirty[k]? = some x →
            (∀ b, x.gate = some (.save b) → ∀ r ∈ im.retired, r.block = b → r.dump ≠ 0) →
            u.store.dirty[k]? = some x) ∧
        (matched = false → u.store = s.store) ∧
        (kind = .store → u = { s with config := u.config, store := u.store, freeCount := u.freeCount }) ∧
        u.apart .service = ({ s with config := u.config, store := u.store, freeCount := u.freeCount } : State).apart
          .service)

/-! ### Pins and lines -/

/-- DERIVED (R168, R142, R19). A rise of the attach line sends an IDENT notice under tag 0; a fall empties the Service
Port's queues but for a request in processing, whose reserved place goes too (log 48), closes the cursor, sets the view to
AUTO and ends a verify without a notice, its store reads going to nobody (log 49); the reads made for a READ in processing
(log 26), and every program and erase in flight, go on. A RESTART whose reply has not begun to
leave is abandoned (log 16). A rising reset request is counted while the hold line is asserted. An edge to the level that
stands changes nothing (log 3). -/
def Obligations.AttachAndResetLines : Prop :=
  ∀ (s : State) (d : Dom),
    (s.service.attached = true → exec .attach s = .next s) ∧
    (s.service.attached = false → s.DetachedLaw → s.PortLaw → ∃ t : State, exec .attach s = .next t
      ∧ t.service = { s.service with attached := true, noticeTag := 1 }
      ∧ t.servicePort.sending = s.servicePort.sending
          ++ [{ kind := 0xC6, tag := 0, domain := 0xFF, body := t.identBody, notice := true }]
      ∧ t.apart .service = ({ s with
          service := t.service, servicePort := { s.servicePort with receiver := .hunting } } : State).apart .service) ∧
    (s.service.attached = false → exec .detach s = .next s) ∧
    (s.service.attached = true → ∃ t : State, exec .detach s = .next t
      ∧ t.service = { s.service with attached := false, holdOff := false, cursor := none, view := .auto }
      ∧ t.servicePort = { s.servicePort with
          receiver := .hunting
          input := if s.servicePort.processing = none then [] else s.servicePort.input.take 1
          reserved := 0, output := [], outgoingHold := none, peerHold := none }
      ∧ t.directory = { s.directory with verify := none }
      ∧ t.store.reads = s.store.reads.map (fun r => if r.reader = .verify then { r with reader := .nobody } else r)
      ∧ (∀ i : Fin 8, t.store.inFlight[i] = (match s.store.inFlight[i] with
        | some (.read r a) => some (.read (if r.reader = .verify then { r with reader := .nobody } else r) a)
        | op => op))
      ∧ (s.restart ≠ .replyWaiting → t.restart = s.restart)
      ∧ (∀ f, s.restart = .replyWaiting → s.servicePort.line = some f → f.kind = 0x9F → f.body = [0] →
          t.restart = .replyWaiting)
      ∧ (s.restart = .replyWaiting → (∀ f, s.servicePort.line = some f → ¬(f.kind = 0x9F ∧ f.body = [0])) →
          t.restart = .none)
      ∧ t = { s with
          restart := t.restart, service := t.service, servicePort := t.servicePort, directory := t.directory
          store := { s.store with reads := t.store.reads, inFlight := t.store.inFlight } }) ∧
    ((s.domain d).resetRequestLevel = true → exec (.resetRequestEdge d) s = .next s) ∧
    ((s.domain d).resetRequestLevel = false → exec (.resetRequestEdge d) s = .next (s.setDomain d { s.domain d with
      resetRequestLevel := true
      heldResets := if (s.domain d).holdLine then (s.domain d).heldResets.inc else (s.domain d).heldResets })) ∧
    exec (.resetRequestFall d) s = .next (s.setDomain d { s.domain d with resetRequestLevel := false })

/-- DERIVED (R161, R162, R165, R166; the whole milliseconds of a peer hold are log 23; that a whole frame is taken in either
receiver state, that a body above 1,056 bytes counts as oversize, and that RECEIVING holds no bytes are log 32). A whole frame is counted as
oversize, as a CRC error or as good, and a good one is a HOLD, which sets or stops the peer hold expiry, a frame of a
device kind, which is dropped, or a request, which joins the input queue or is lost as an overrun; a third request
makes the Service Port's HOLD(0xFFFF) due. A sync pair begins a frame, and a gap or an oversize length ends it. -/
def Obligations.LinesReceiveFrames : Prop :=
  ∀ (s : State) (p : PortId) (f : Frame) (crc : BitVec 16) (q : Port), q = { s.port p with receiver := .hunting } →
    (p = .service → s.service.attached = false →
      exec (.receiveFrame p f.kind f.tag f.domain f.body crc) s = .next s ∧ exec (.syncPairFound p) s = .next s) ∧
    ((p = .service → s.service.attached = true) →
      ((s.port p).receiver = .hunting →
        exec (.syncPairFound p) s = .next (s.setPort p { q with receiver := .receiving [] })) ∧
      (1056 < f.body.length → exec (.receiveFrame p f.kind f.tag f.domain f.body crc) s =
        .next (s.setPort p { q with oversizes := q.oversizes.inc })) ∧
      (f.body.length ≤ 1056 → crc ≠ crc16 (le 2 f.body.length ++ [f.kind, f.tag, f.domain] ++ f.body) →
        exec (.receiveFrame p f.kind f.tag f.domain f.body crc) s =
          .next (s.setPort p { q with crcErrors := q.crcErrors.inc })) ∧
      (f.body.length ≤ 1056 → crc = crc16 (le 2 f.body.length ++ [f.kind, f.tag, f.domain] ++ f.body) →
        (0x80 ≤ f.kind.toNat ∨ (f.kind = 0x7F ∧ f.body.length ≠ 2) →
          exec (.receiveFrame p f.kind f.tag f.domain f.body crc) s =
            .next (s.setPort p { q with framesGood := q.framesGood.inc })) ∧
        (f.kind = 0x7F → f.body.length = 2 → field f.body 0 2 ≠ 0 →
          exec (.receiveFrame p f.kind f.tag f.domain f.body crc) s = .next (s.setPort p { q with
            framesGood := q.framesGood.inc
            peerHold := some (s.partTime + BitVec.ofNat 32 (match p with
              | .service => (field f.body 0 2 * 25 + 35) / 36
              | .platform _ => (field f.body 0 2 * 16 + 74) / 75)) })) ∧
        (f.kind = 0x7F → f.body.length = 2 → field f.body 0 2 = 0 →
          ∃ t : State, exec (.receiveFrame p f.kind f.tag f.domain f.body crc) s = .next t
            ∧ (t.port p).sending = (s.port p).sending ∧ (t.port p).input = (s.port p).input
            ∧ t.apart p = (s.setPort p { q with framesGood := q.framesGood.inc, peerHold := none }).apart p) ∧
        (f.kind.toNat < 0x7F → 4 ≤ q.input.length →
          exec (.receiveFrame p f.kind f.tag f.domain f.body crc) s =
            .next (s.setPort p { q with overruns := q.overruns.inc })) ∧
        (f.kind.toNat < 0x7F → q.input.length < 4 →
          ∃ t : State, exec (.receiveFrame p f.kind f.tag f.domain f.body crc) s = .next t
            ∧ (t.port p).sending = (s.port p).sending ∧ (t.port p).input = (s.port p).input ++ [{ f with notice := false }]
            ∧ (p = .service → q.input.length = 2 → s.service.holdOff = false → t.service.holdOff = true
              ∧ ((t.port p).line = some (Frame.hold 0xFFFF) ∨ (t.port p).outgoingHold = some 0xFFFF))
            ∧ t.apart p = (s.setPort p { q with framesGood := q.framesGood.inc }).apart p))) ∧
    (∀ bytes, (s.port p).receiver = .receiving bytes →
      exec (.frameGapTimeout p) s = .next (s.setPort p { q with truncated := q.truncated.inc })
      ∧ exec (.oversize p) s = .next (s.setPort p { q with oversizes := q.oversizes.inc }))

/-- DERIVED (R163 to R166). When its frame has been sent, or the peer's hold runs out, a port starts its outgoing HOLD, else
its oldest queued frame while the peer does not hold it; the Service Port starts no more once the reply of an accepted
RESTART has been sent, which makes the restart due. An expiry carries part time to it (log 2), and a frame leaves the queue as
it starts on the line (log 13).

A request, at whichever command it completes, paces the Service Port by the frame that leaves its input queue (R166): a frame
that brings the queue to 1, with hold-off sent, makes HOLD(0) due and clears hold-off sent; else hold-off and the HOLD that
waits behind a frame on the line stand.  A platform port is not paced so: no request but its EVENT changes the HOLD that
waits there behind a frame on the line. -/
def Obligations.LinesSendFrames : Prop :=
  (∀ (s : State) (c : Instr),
    (∃ p, (∃ k, requestOf c = some (p, k)) ∨ c = .unknownKind p) ∨ (∃ matched, c = .configSaveEnd matched)
      ∨ (∃ i held, c = .storeReadComplete i held) →
    ∃ t : State, exec c s = .next t ∧ s.PacedTo t
      ∧ ∀ d g, c ≠ .event (.platform d) → (s.port (.platform d)).line = some g →
        (t.port (.platform d)).line = some g
          ∧ (t.port (.platform d)).outgoingHold = (s.port (.platform d)).outgoingHold) ∧
  ∀ (s : State) (p : PortId) (q : Port), q = s.port p →
    (∀ x, q.peerHold = some x → ∃ t : State, exec (.peerHoldExpiry p) s = .next t
      ∧ t.partTime = (s.reach x).partTime ∧ (t.port p).peerHold = none
      ∧ (t.port p).sending = q.sending ∧ (t.port p).input = q.input
      ∧ (∀ g rest, s.restart ≠ .due → q.line = none → q.outgoingHold = none → q.output = g :: rest →
          (t.port p).line = some g ∧ (t.port p).output = rest)
      ∧ t.apart p = ({ s.setPort p { q with peerHold := none } with partTime := t.partTime } : State).apart p) ∧
    (∀ f, q.line = some f → ∃ t : State, exec (.frameSent p) s = .next t
      ∧ (t.port p).input = q.input
      ∧ q.sending = (if f.kind = 0x7F then [] else [f]) ++ (t.port p).sending
      ∧ t.restart = (if p = .service ∧ s.restart = .replyWaiting ∧ f.kind = 0x9F ∧ f.body = [0] then .due
          else s.restart)
      ∧ (p = .service → t.restart = .due → (t.port p).line = none)
      ∧ (p ≠ .service ∨ t.restart ≠ .due →
          (∀ n, q.outgoingHold = some n → (t.port p).line = some (Frame.hold n) ∧ (t.port p).outgoingHold = none
            ∧ (t.port p).output = q.output) ∧
          (∀ g rest, q.outgoingHold = none → q.peerHold = none → q.output = g :: rest →
            (t.port p).line = some g ∧ (t.port p).output = rest) ∧
          (q.outgoingHold = none → q.peerHold ≠ none ∨ q.output = [] →
            (t.port p).line = none ∧ (t.port p).output = q.output))
      ∧ t.apart p = ({ s with restart := t.restart } : State).apart p)

/-! ### Resets and start-up -/

/-- DERIVED (R180, R79, R120, R143, R150, R157 to R160, R168, R176, R23). A hard reset gives everything its reset value but the
array and the configuration memory, where it cuts what was in flight; the end of the load takes the image's values,
clamped, or the defaults with config-fault; the end of the scan keeps, of the dumps whose header page the array holds (in a
RETIRED block only those of its entry's dump), the up to 16 of highest number, none of them OPEN, puts every erased block
that is not RETIRED into the pool or the reserve, and no other, and arms each domain whose auto-arm is on. The end of a
load or a scan that does not run changes nothing (log 3); what holds before the load and the scan end is logs 8 and 33,
that a raw setting is clamped only as it becomes the running one log 31, the model's counter of free values log 37, the queue log 52, what a cut erase
leaves log 11, and the numbers of a link's reads log 57; the command names the sampled levels (log 5), and a frame on a
port's line is dropped by a hard reset (log 58). -/
def Obligations.ResetAndStartUp : Prop :=
  ∀ (s : State),
    (∀ lv, ∃ t : State, exec (.hardReset lv) s = .next t
      ∧ t = { State.reset with
          pending := s.pending, freeCount := t.freeCount, powerGood := ⟨lv.a.powerGood, lv.b.powerGood⟩
          domains := ⟨Domain.afterReset lv.a, Domain.afterReset lv.b⟩, links := t.links, flash := t.flash
          config := { State.reset.config with memory := t.config.memory }, servicePort := t.servicePort
          service := { State.reset.service with attached := lv.attached, noticeTag := t.service.noticeTag } }
      ∧ (∀ d, t.link d = if (levelsOf lv d).powerGood then
          { Link.afterReset with state := .training, trainingExpiry := some 5, issued := (s.link d).issued }
          else { Link.afterReset with issued := (s.link d).issued })
      ∧ (lv.attached = false → t.servicePort = Port.afterReset)
      ∧ (lv.attached = true → t.servicePort = { Port.afterReset with
          line := some (Frame.hold 0)
          output := [{ kind := 0xC6, tag := 0, domain := 0xFF, body := t.identBody, notice := true }] })
      ∧ (∀ a, (∀ i : Fin 8, (∀ item, s.store.inFlight[i] ≠ some (.program item a))
            ∧ ∀ w, s.store.inFlight[i] ≠ some (.erase (a / 128) w)) → t.flash.page a = s.flash.page a)
      ∧ (∀ a, (∃ i : Fin 8, ∃ item, s.store.inFlight[i] = some (.program item a)) →
          (∀ i : Fin 8, ∀ w, s.store.inFlight[i] ≠ some (.erase (a / 128) w)) → t.flash.page a = some .unreadable)
      ∧ (∀ b, (∃ i : Fin 8, ∃ w, s.store.inFlight[i] = some (.erase b w)) →
          (∀ a, a / 128 = b → t.flash.page a = none ∨ t.flash.page a = some .unreadable)
          ∧ ∃ a, a / 128 = b ∧ t.flash.page a = some .unreadable)
      ∧ (s.config.save = none → t.config.memory = s.config.memory)) ∧
    (s.startUp = .load → ∀ im, im = s.config.memory.image.getD Image.default →
      ∃ t : State, exec .configLoadComplete s = .next t
        ∧ t.config = { s.config with
            serial := im.serial, asset := im.asset, settings := t.config.settings, stored := im
            fault := s.config.memory.image.isNone, unsaved := false }
        ∧ (∀ d, t.settings d = (im.settings.get d).clamped) ∧ t.SettingsLaw
        ∧ (∀ d, ∀ i : Fin 16, (t.journal d).slots[i] =
            (s.journal d).slots[i].reprogram ((im.slots.get d).getD i.val { slotClass := 0, keepBad := false }))
        ∧ (∀ x ∈ t.store.retired, x ∈ im.retired ∧ x.block < 2048)
        ∧ (t.store.retired.map RetiredEntry.block).Nodup
        ∧ (∀ x ∈ im.retired, x.block < 2048 → ∃ y ∈ t.store.retired, y.block = x.block)
        ∧ t = { s with
            startUp := .scan, config := t.config, store := { s.store with retired := t.store.retired }
            journals := ⟨{ s.journal .a with slots := (t.journal .a).slots },
                         { s.journal .b with slots := (t.journal .b).slots }⟩ }) ∧
    (s.startUp = .scan → ∃ u : State, exec .startUpScanComplete s = .next u.settle
      ∧ u.directory.nextNumber = BitVec.ofNat 32 (s.flash.highest + 1) ∧ u.directory.verify = none
      ∧ u.directory.entries.length ≤ 16
      ∧ (∀ e ∈ u.directory.entries, e.state ≠ .opened)
      ∧ (s.flash.wf = true → ∃ found : List Nat, found.Pairwise (· < ·)
          ∧ (∀ n, n ∈ found ↔ ∃ a k data, s.flash.page a = some (.programmed k data) ∧ k.kind = .dumpHeader
              ∧ k.dump.toNat = n
              ∧ ∀ r, s.store.retired.find? (fun r => r.block == a / 128) = some r → r.dump ≠ 0 ∧ k.dump = r.dump)
          ∧ u.directory.entries.map (fun e => e.number.toNat) = found.drop (found.length - 16))
      ∧ u.store.retired = s.store.retired ∧ u.store.spares.length ≤ 2
      ∧ (∀ b, b ∈ u.store.pool ∨ b ∈ u.store.spares → b < 2048 ∧ (∀ a, a / 128 = b → s.flash.page a = none)
          ∧ ∀ r ∈ s.store.retired, r.block ≠ b)
      ∧ (∀ b, b < 2048 → (∀ a, a / 128 = b → s.flash.page a = none) → (∀ r ∈ s.store.retired, r.block ≠ b) →
          b ∈ u.store.pool ∨ b ∈ u.store.spares)
      ∧ (∀ d, u.domain d = if (s.settings d).autoArm then { s.domain d with
            state := .armed
            heartbeatTimer := if s.powerGood.get d = true ∧ (s.settings d).heartbeatTimeout ≠ 0 then
              some (s.partTime + BitVec.ofNat 32 ((s.settings d).heartbeatTimeout * 1000)) else none }
          else s.domain d)
      ∧ (∀ d, u.link d = { s.link d with widen := (s.link d).widen || (s.settings d).autoArm })
      ∧ u = { s with
          startUp := .finished, domains := u.domains, links := u.links, directory := u.directory
          store := u.store }) ∧
    (s.startUp ≠ .load → exec .configLoadComplete s = .next s) ∧
    (s.startUp ≠ .scan → exec .startUpScanComplete s = .next s)

/-- DERIVED (R160, R163, R164, R181, R24, R120, R79; that the effect waits until no dump is open is log 17, that a store save
in flight goes on is log 18, that a frame on a line is sent whole is log 58, that the reads of a verify go on, for nobody, is log 49,
and that a link's count of reads goes on is log 57). RESTART is refused with STATE
while a dump is in progress and with BUSY during a save, and is else answered OK. Once due it reloads the configuration,
gives the blocks their restart values, appends the records that waited for the journals, and arms or disarms each domain
by the reloaded auto-arm; plans, dumps, the array and the retired list stay, a port that sent a hold sends HOLD(0), and an
attached Service Port sends its IDENT notice under tag 0. With no restart due the command changes nothing (log 3). -/
def Obligations.RestartTakesEffect : Prop :=
  ∀ (s : State),
    (∀ f, s.takes .service 0x1F f → ∃ t : State, exec (.restart .service) s = .next t ∧
      ((s.domain .a).busy = true ∨ (s.domain .b).busy = true →
        Answered s t .service f 0xFF 0x15 [] ∧ t.apart .service = s.apart .service) ∧
      ((s.domain .a).busy = false → (s.domain .b).busy = false →
        s.config.save.isSome = true ∨ s.config.savePending = true →
        Answered s t .service f 0xFF 0x10 [] ∧ t.apart .service = s.apart .service) ∧
      ((s.domain .a).busy = false → (s.domain .b).busy = false → s.config.save = none → s.config.savePending = false →
        Answered s t .service f 0xFF 0x00 []
        ∧ t.apart .service = ({ s with restart := .replyWaiting } : State).apart .service)) ∧
    (s.restart ≠ .due → exec .restartTakesEffect s = .next s) ∧
    (s.restart = .due → (s.domain .a).busy = false → (s.domain .b).busy = false →
      ∀ im, im = s.config.memory.image.getD Image.default →
      ∃ u : State, exec .restartTakesEffect s = .next u.settle
        ∧ u.restart = .none
        ∧ u.config = { s.config with
            serial := im.serial, asset := im.asset, settings := ⟨im.settings.a.clamped, im.settings.b.clamped⟩
            stored := { im with retired := s.store.retired }, fault := s.config.memory.image.isNone, unsaved := false }
        ∧ (∀ d, u.domain d = { s.domain d with
            state := if (im.settings.get d).autoArm then .armed else .disarmed
            heartbeatTimer := if (im.settings.get d).autoArm = true ∧ s.powerGood.get d = true
                ∧ (im.settings.get d).clamped.heartbeatTimeout ≠ 0 then
              some (s.partTime + BitVec.ofNat 32 ((im.settings.get d).clamped.heartbeatTimeout * 1000)) else none
            missed := 0, late := 0, overflow := 0, heldResets := 0, heartbeats := 0 })
        ∧ (∀ d, u.link d = if s.powerGood.get d then
            { Link.afterReset with
              state := .training, trainingExpiry := some (s.partTime + 5), widen := (im.settings.get d).autoArm
              issued := (s.link d).issued }
          else { Link.afterReset with widen := (im.settings.get d).autoArm, issued := (s.link d).issued })
        ∧ (∀ d, ∃ j, j = (s.journal d).intake.foldl Journal.append (s.journal d) ∧ u.journal d = { j with
            intake := [], intakeStep := false, holdOff := false, mark := none, copier := none, overwrites := 0
            dropped := 0, overruns := 0, slots := (u.journal d).slots }
          ∧ ∀ i : Fin 16, (u.journal d).slots[i] =
            j.slots[i].reprogram ((im.slots.get d).getD i.val { slotClass := 0, keepBad := false }))
        ∧ (∀ d, u.port (.platform d) = (match (s.port (.platform d)).line with
            | some g => { Port.afterReset with
                line := some g, outgoingHold := if (s.journal d).holdOff then some 0 else none }
            | none => { Port.afterReset with line := if (s.journal d).holdOff then some (Frame.hold 0) else none }))
        ∧ (∀ ident : List Frame, ident = (if s.service.attached then
              [{ kind := 0xC6, tag := 0, domain := 0xFF, body := u.identBody, notice := true }] else []) →
            (∀ g, s.servicePort.line = some g → u.servicePort = { Port.afterReset with
              line := some g, outgoingHold := if s.service.holdOff then some 0 else none, output := ident })
            ∧ (s.servicePort.line = none → u.servicePort =
              (if s.service.holdOff then { Port.afterReset with line := some (Frame.hold 0), output := ident }
                else { Port.afterReset with line := ident.head? })))
        ∧ u.directory = { s.directory with verify := none }
        ∧ u.store = { s.store with
            reads := u.store.reads, inFlight := u.store.inFlight, programFailures := 0, eraseFailures := 0 }
        ∧ u.store.reads = s.store.reads.map (fun r => if r.reader = .verify then { r with reader := .nobody } else r)
        ∧ (∀ i : Fin 8, u.store.inFlight[i] = (match s.store.inFlight[i] with
          | some (.read r a) => some (.read (if r.reader = .verify then { r with reader := .nobody } else r) a)
          | op => op))
        ∧ u.channels = Vector.replicate 4 Channel.idle ∧ u.lastPicked = none
        ∧ u.staging = { pages := [], requests := [] }
        ∧ u.service = { s.service with
            holdOff := false, noticesLost := 0, view := .auto, autoDomain := .a, cursor := none
            noticeTag := if s.service.attached then 1 else 0 }
        ∧ u = { s with
            restart := u.restart, domains := u.domains, channels := u.channels, lastPicked := u.lastPicked
            staging := u.staging, links := u.links, journals := u.journals, directory := u.directory
            store := u.store, servicePort := u.servicePort, platformPorts := u.platformPorts, service := u.service
            config := u.config })

end Statements
end

