-- ==== Sys2Proof/Laws/State.lean ====
section
/-! SUPPORT. One lemma for each field and each update of the state: what an update leaves, and what it writes. -/
namespace Sys2Proof.Machine

/-! ### Pairs -/

@[simp] theorem Two.get_set_self {α : Type} (t : Two α) (d : Dom) (x : α) : (t.set d x).get d = x := by
  cases d <;> rfl
@[simp] theorem Two.get_set_other {α : Type} (t : Two α) (d : Dom) (x : α) :
    (t.set d x).get (otherDom d) = t.get (otherDom d) := by
  cases d <;> rfl
theorem Two.get_set {α : Type} (t : Two α) (d e : Dom) (x : α) :
    (t.set d x).get e = if e = d then x else t.get e := by
  cases d <;> cases e <;> rfl
@[simp] theorem Two.set_set {α : Type} (t : Two α) (d : Dom) (x y : α) : (t.set d x).set d y = t.set d y := by
  cases d <;> rfl
@[simp] theorem Two.set_get {α : Type} (t : Two α) (d : Dom) : t.set d (t.get d) = t := by
  cases d <;> rfl
theorem Two.ext_get {α : Type} {t u : Two α} (h : ∀ d, t.get d = u.get d) : t = u := by
  have ha := h .a
  have hb := h .b
  cases t; cases u; simp_all [Two.get]
@[simp] theorem otherDom_otherDom (d : Dom) : otherDom (otherDom d) = d := by cases d <;> rfl
@[simp] theorem otherDom_ne (d : Dom) : otherDom d ≠ d := by cases d <;> decide
@[simp] theorem ne_otherDom (d : Dom) : d ≠ otherDom d := by cases d <;> decide
theorem dom_eq_or (d e : Dom) : e = d ∨ e = otherDom d := by cases d <;> cases e <;> decide

/-! ### Reading a state written out, and reading a part by its domain -/

section
variable (x1 : List Instr) (x2 : Nat) (x3 : Time) (x4 : StartUp) (x5 : RestartPhase) (x6 : Two Bool) (x7 : Two Domain) (x8 : Two Plan)
  (x9 : Two (Option Admission)) (x10 : Two Work) (x11 : Vector Channel 4) (x12 : Option Dom) (x13 : Staging) (x14 : Two Link) (x15 : Two Journal)
  (x16 : Directory) (x17 : Store) (x18 : Flash) (x19 : Port) (x20 : Two Port) (x21 : Service) (x22 : Configuration)

@[simp] theorem State.mk_domain (e : Dom) : (State.mk x1 x2 x3 x4 x5 x6 x7 x8 x9 x10 x11 x12 x13 x14 x15 x16 x17 x18 x19 x20 x21 x22).domain e =
    x7.get e := rfl
@[simp] theorem State.mk_plan (e : Dom) : (State.mk x1 x2 x3 x4 x5 x6 x7 x8 x9 x10 x11 x12 x13 x14 x15 x16 x17 x18 x19 x20 x21 x22).plan e =
    x8.get e := rfl
@[simp] theorem State.mk_link (e : Dom) : (State.mk x1 x2 x3 x4 x5 x6 x7 x8 x9 x10 x11 x12 x13 x14 x15 x16 x17 x18 x19 x20 x21 x22).link e =
    x14.get e := rfl
@[simp] theorem State.mk_journal (e : Dom) : (State.mk x1 x2 x3 x4 x5 x6 x7 x8 x9 x10 x11 x12 x13 x14 x15 x16 x17 x18 x19 x20 x21 x22).journal e =
    x15.get e := rfl
@[simp] theorem State.mk_admission (e : Dom) : (State.mk x1 x2 x3 x4 x5 x6 x7 x8 x9 x10 x11 x12 x13 x14 x15 x16 x17 x18 x19 x20 x21 x22).admission e =
    x9.get e := rfl
@[simp] theorem State.mk_work (e : Dom) : (State.mk x1 x2 x3 x4 x5 x6 x7 x8 x9 x10 x11 x12 x13 x14 x15 x16 x17 x18 x19 x20 x21 x22).work e =
    x10.get e := rfl
@[simp] theorem State.mk_settings (e : Dom) : (State.mk x1 x2 x3 x4 x5 x6 x7 x8 x9 x10 x11 x12 x13 x14 x15 x16 x17 x18 x19 x20 x21 x22).settings e =
    x22.settings.get e := rfl
@[simp] theorem State.mk_channel (c : Fin 4) : (State.mk x1 x2 x3 x4 x5 x6 x7 x8 x9 x10 x11 x12 x13 x14 x15 x16 x17 x18 x19 x20 x21 x22).channel c =
    x11[(c : Nat)] := rfl
@[simp] theorem State.mk_dump (n : Num) : (State.mk x1 x2 x3 x4 x5 x6 x7 x8 x9 x10 x11 x12 x13 x14 x15 x16 x17 x18 x19 x20 x21 x22).dump n =
    x16.entries.find? (fun e => e.number == n) := rfl
@[simp] theorem State.mk_port (s : State) (q : PortId) :
    (State.mk x1 x2 x3 x4 x5 x6 x7 x8 x9 x10 x11 x12 x13 x14 x15 x16 x17 x18 s.servicePort s.platformPorts x21 x22).port q
      = s.port q := by
  cases q <;> rfl
@[simp] theorem State.mk_servicePort' : (State.mk x1 x2 x3 x4 x5 x6 x7 x8 x9 x10 x11 x12 x13 x14 x15 x16 x17 x18 x19 x20 x21 x22).port .service = x19 := rfl
@[simp] theorem State.mk_platformPort (e : Dom) : (State.mk x1 x2 x3 x4 x5 x6 x7 x8 x9 x10 x11 x12 x13 x14 x15 x16 x17 x18 x19 x20 x21 x22).port (.platform e) =
    x20.get e := rfl
end

@[simp] theorem State.domains_get (s : State) (e : Dom) : s.domains.get e = s.domain e := rfl
@[simp] theorem State.plans_get (s : State) (e : Dom) : s.plans.get e = s.plan e := rfl
@[simp] theorem State.links_get (s : State) (e : Dom) : s.links.get e = s.link e := rfl
@[simp] theorem State.journals_get (s : State) (e : Dom) : s.journals.get e = s.journal e := rfl
@[simp] theorem State.admissions_get (s : State) (e : Dom) : s.admissions.get e = s.admission e := rfl
@[simp] theorem State.works_get (s : State) (e : Dom) : s.works.get e = s.work e := rfl
@[simp] theorem State.settings_get (s : State) (e : Dom) : s.config.settings.get e = s.settings e := rfl
@[simp] theorem State.channels_get (s : State) (c : Fin 4) : s.channels[(c : Nat)] = s.channel c := rfl
@[simp] theorem State.entries_find (s : State) (n : Num) :
    s.directory.entries.find? (fun e => e.number == n) = s.dump n := rfl
@[simp] theorem State.platformPorts_get (s : State) (e : Dom) : s.platformPorts.get e = s.port (.platform e) := rfl
@[simp] theorem State.port_service (s : State) : s.port .service = s.servicePort := rfl

/-! ### `setDomain` -/

@[simp] theorem State.setDomain_pending (s : State) (d : Dom) (x : Domain) :
    (s.setDomain d x).pending = s.pending := rfl
@[simp] theorem State.setDomain_freeCount (s : State) (d : Dom) (x : Domain) :
    (s.setDomain d x).freeCount = s.freeCount := rfl
@[simp] theorem State.setDomain_partTime (s : State) (d : Dom) (x : Domain) :
    (s.setDomain d x).partTime = s.partTime := rfl
@[simp] theorem State.setDomain_startUp (s : State) (d : Dom) (x : Domain) :
    (s.setDomain d x).startUp = s.startUp := rfl
@[simp] theorem State.setDomain_restart (s : State) (d : Dom) (x : Domain) :
    (s.setDomain d x).restart = s.restart := rfl
@[simp] theorem State.setDomain_powerGood (s : State) (d : Dom) (x : Domain) :
    (s.setDomain d x).powerGood = s.powerGood := rfl
@[simp] theorem State.setDomain_plans (s : State) (d : Dom) (x : Domain) :
    (s.setDomain d x).plans = s.plans := rfl
@[simp] theorem State.setDomain_admissions (s : State) (d : Dom) (x : Domain) :
    (s.setDomain d x).admissions = s.admissions := rfl
@[simp] theorem State.setDomain_works (s : State) (d : Dom) (x : Domain) :
    (s.setDomain d x).works = s.works := rfl
@[simp] theorem State.setDomain_channels (s : State) (d : Dom) (x : Domain) :
    (s.setDomain d x).channels = s.channels := rfl
@[simp] theorem State.setDomain_lastPicked (s : State) (d : Dom) (x : Domain) :
    (s.setDomain d x).lastPicked = s.lastPicked := rfl
@[simp] theorem State.setDomain_staging (s : State) (d : Dom) (x : Domain) :
    (s.setDomain d x).staging = s.staging := rfl
@[simp] theorem State.setDomain_links (s : State) (d : Dom) (x : Domain) :
    (s.setDomain d x).links = s.links := rfl
@[simp] theorem State.setDomain_journals (s : State) (d : Dom) (x : Domain) :
    (s.setDomain d x).journals = s.journals := rfl
@[simp] theorem State.setDomain_directory (s : State) (d : Dom) (x : Domain) :
    (s.setDomain d x).directory = s.directory := rfl
@[simp] theorem State.setDomain_store (s : State) (d : Dom) (x : Domain) :
    (s.setDomain d x).store = s.store := rfl
@[simp] theorem State.setDomain_flash (s : State) (d : Dom) (x : Domain) :
    (s.setDomain d x).flash = s.flash := rfl
@[simp] theorem State.setDomain_servicePort (s : State) (d : Dom) (x : Domain) :
    (s.setDomain d x).servicePort = s.servicePort := rfl
@[simp] theorem State.setDomain_platformPorts (s : State) (d : Dom) (x : Domain) :
    (s.setDomain d x).platformPorts = s.platformPorts := rfl
@[simp] theorem State.setDomain_service (s : State) (d : Dom) (x : Domain) :
    (s.setDomain d x).service = s.service := rfl
@[simp] theorem State.setDomain_config (s : State) (d : Dom) (x : Domain) :
    (s.setDomain d x).config = s.config := rfl
@[simp] theorem State.setDomain_plan (s : State) (d : Dom) (x : Domain) (e : Dom) :
    (s.setDomain d x).plan e = s.plan e := rfl
@[simp] theorem State.setDomain_link (s : State) (d : Dom) (x : Domain) (e : Dom) :
    (s.setDomain d x).link e = s.link e := rfl
@[simp] theorem State.setDomain_journal (s : State) (d : Dom) (x : Domain) (e : Dom) :
    (s.setDomain d x).journal e = s.journal e := rfl
@[simp] theorem State.setDomain_admission (s : State) (d : Dom) (x : Domain) (e : Dom) :
    (s.setDomain d x).admission e = s.admission e := rfl
@[simp] theorem State.setDomain_work (s : State) (d : Dom) (x : Domain) (e : Dom) :
    (s.setDomain d x).work e = s.work e := rfl
@[simp] theorem State.setDomain_settings (s : State) (d : Dom) (x : Domain) (e : Dom) :
    (s.setDomain d x).settings e = s.settings e := rfl
@[simp] theorem State.setDomain_channel (s : State) (d : Dom) (x : Domain) (e : Fin 4) :
    (s.setDomain d x).channel e = s.channel e := rfl
@[simp] theorem State.setDomain_dump (s : State) (d : Dom) (x : Domain) (m : Num) :
    (s.setDomain d x).dump m = s.dump m := rfl
@[simp] theorem State.setDomain_port (s : State) (d : Dom) (x : Domain) (q : PortId) :
    (s.setDomain d x).port q = s.port q := by cases q <;> rfl

/-! ### `setPlan` -/

@[simp] theorem State.setPlan_pending (s : State) (d : Dom) (x : Plan) :
    (s.setPlan d x).pending = s.pending := rfl
@[simp] theorem State.setPlan_freeCount (s : State) (d : Dom) (x : Plan) :
    (s.setPlan d x).freeCount = s.freeCount := rfl
@[simp] theorem State.setPlan_partTime (s : State) (d : Dom) (x : Plan) :
    (s.setPlan d x).partTime = s.partTime := rfl
@[simp] theorem State.setPlan_startUp (s : State) (d : Dom) (x : Plan) :
    (s.setPlan d x).startUp = s.startUp := rfl
@[simp] theorem State.setPlan_restart (s : State) (d : Dom) (x : Plan) :
    (s.setPlan d x).restart = s.restart := rfl
@[simp] theorem State.setPlan_powerGood (s : State) (d : Dom) (x : Plan) :
    (s.setPlan d x).powerGood = s.powerGood := rfl
@[simp] theorem State.setPlan_domains (s : State) (d : Dom) (x : Plan) :
    (s.setPlan d x).domains = s.domains := rfl
@[simp] theorem State.setPlan_admissions (s : State) (d : Dom) (x : Plan) :
    (s.setPlan d x).admissions = s.admissions := rfl
@[simp] theorem State.setPlan_works (s : State) (d : Dom) (x : Plan) :
    (s.setPlan d x).works = s.works := rfl
@[simp] theorem State.setPlan_channels (s : State) (d : Dom) (x : Plan) :
    (s.setPlan d x).channels = s.channels := rfl
@[simp] theorem State.setPlan_lastPicked (s : State) (d : Dom) (x : Plan) :
    (s.setPlan d x).lastPicked = s.lastPicked := rfl
@[simp] theorem State.setPlan_staging (s : State) (d : Dom) (x : Plan) :
    (s.setPlan d x).staging = s.staging := rfl
@[simp] theorem State.setPlan_links (s : State) (d : Dom) (x : Plan) :
    (s.setPlan d x).links = s.links := rfl
@[simp] theorem State.setPlan_journals (s : State) (d : Dom) (x : Plan) :
    (s.setPlan d x).journals = s.journals := rfl
@[simp] theorem State.setPlan_directory (s : State) (d : Dom) (x : Plan) :
    (s.setPlan d x).directory = s.directory := rfl
@[simp] theorem State.setPlan_store (s : State) (d : Dom) (x : Plan) :
    (s.setPlan d x).store = s.store := rfl
@[simp] theorem State.setPlan_flash (s : State) (d : Dom) (x : Plan) :
    (s.setPlan d x).flash = s.flash := rfl
@[simp] theorem State.setPlan_servicePort (s : State) (d : Dom) (x : Plan) :
    (s.setPlan d x).servicePort = s.servicePort := rfl
@[simp] theorem State.setPlan_platformPorts (s : State) (d : Dom) (x : Plan) :
    (s.setPlan d x).platformPorts = s.platformPorts := rfl
@[simp] theorem State.setPlan_service (s : State) (d : Dom) (x : Plan) :
    (s.setPlan d x).service = s.service := rfl
@[simp] theorem State.setPlan_config (s : State) (d : Dom) (x : Plan) :
    (s.setPlan d x).config = s.config := rfl
@[simp] theorem State.setPlan_domain (s : State) (d : Dom) (x : Plan) (e : Dom) :
    (s.setPlan d x).domain e = s.domain e := rfl
@[simp] theorem State.setPlan_link (s : State) (d : Dom) (x : Plan) (e : Dom) :
    (s.setPlan d x).link e = s.link e := rfl
@[simp] theorem State.setPlan_journal (s : State) (d : Dom) (x : Plan) (e : Dom) :
    (s.setPlan d x).journal e = s.journal e := rfl
@[simp] theorem State.setPlan_admission (s : State) (d : Dom) (x : Plan) (e : Dom) :
    (s.setPlan d x).admission e = s.admission e := rfl
@[simp] theorem State.setPlan_work (s : State) (d : Dom) (x : Plan) (e : Dom) :
    (s.setPlan d x).work e = s.work e := rfl
@[simp] theorem State.setPlan_settings (s : State) (d : Dom) (x : Plan) (e : Dom) :
    (s.setPlan d x).settings e = s.settings e := rfl
@[simp] theorem State.setPlan_channel (s : State) (d : Dom) (x : Plan) (e : Fin 4) :
    (s.setPlan d x).channel e = s.channel e := rfl
@[simp] theorem State.setPlan_dump (s : State) (d : Dom) (x : Plan) (m : Num) :
    (s.setPlan d x).dump m = s.dump m := rfl
@[simp] theorem State.setPlan_port (s : State) (d : Dom) (x : Plan) (q : PortId) :
    (s.setPlan d x).port q = s.port q := by cases q <;> rfl

/-! ### `setLink` -/

@[simp] theorem State.setLink_pending (s : State) (d : Dom) (x : Link) :
    (s.setLink d x).pending = s.pending := rfl
@[simp] theorem State.setLink_freeCount (s : State) (d : Dom) (x : Link) :
    (s.setLink d x).freeCount = s.freeCount := rfl
@[simp] theorem State.setLink_partTime (s : State) (d : Dom) (x : Link) :
    (s.setLink d x).partTime = s.partTime := rfl
@[simp] theorem State.setLink_startUp (s : State) (d : Dom) (x : Link) :
    (s.setLink d x).startUp = s.startUp := rfl
@[simp] theorem State.setLink_restart (s : State) (d : Dom) (x : Link) :
    (s.setLink d x).restart = s.restart := rfl
@[simp] theorem State.setLink_powerGood (s : State) (d : Dom) (x : Link) :
    (s.setLink d x).powerGood = s.powerGood := rfl
@[simp] theorem State.setLink_domains (s : State) (d : Dom) (x : Link) :
    (s.setLink d x).domains = s.domains := rfl
@[simp] theorem State.setLink_plans (s : State) (d : Dom) (x : Link) :
    (s.setLink d x).plans = s.plans := rfl
@[simp] theorem State.setLink_admissions (s : State) (d : Dom) (x : Link) :
    (s.setLink d x).admissions = s.admissions := rfl
@[simp] theorem State.setLink_works (s : State) (d : Dom) (x : Link) :
    (s.setLink d x).works = s.works := rfl
@[simp] theorem State.setLink_channels (s : State) (d : Dom) (x : Link) :
    (s.setLink d x).channels = s.channels := rfl
@[simp] theorem State.setLink_lastPicked (s : State) (d : Dom) (x : Link) :
    (s.setLink d x).lastPicked = s.lastPicked := rfl
@[simp] theorem State.setLink_staging (s : State) (d : Dom) (x : Link) :
    (s.setLink d x).staging = s.staging := rfl
@[simp] theorem State.setLink_journals (s : State) (d : Dom) (x : Link) :
    (s.setLink d x).journals = s.journals := rfl
@[simp] theorem State.setLink_directory (s : State) (d : Dom) (x : Link) :
    (s.setLink d x).directory = s.directory := rfl
@[simp] theorem State.setLink_store (s : State) (d : Dom) (x : Link) :
    (s.setLink d x).store = s.store := rfl
@[simp] theorem State.setLink_flash (s : State) (d : Dom) (x : Link) :
    (s.setLink d x).flash = s.flash := rfl
@[simp] theorem State.setLink_servicePort (s : State) (d : Dom) (x : Link) :
    (s.setLink d x).servicePort = s.servicePort := rfl
@[simp] theorem State.setLink_platformPorts (s : State) (d : Dom) (x : Link) :
    (s.setLink d x).platformPorts = s.platformPorts := rfl
@[simp] theorem State.setLink_service (s : State) (d : Dom) (x : Link) :
    (s.setLink d x).service = s.service := rfl
@[simp] theorem State.setLink_config (s : State) (d : Dom) (x : Link) :
    (s.setLink d x).config = s.config := rfl
@[simp] theorem State.setLink_domain (s : State) (d : Dom) (x : Link) (e : Dom) :
    (s.setLink d x).domain e = s.domain e := rfl
@[simp] theorem State.setLink_plan (s : State) (d : Dom) (x : Link) (e : Dom) :
    (s.setLink d x).plan e = s.plan e := rfl
@[simp] theorem State.setLink_journal (s : State) (d : Dom) (x : Link) (e : Dom) :
    (s.setLink d x).journal e = s.journal e := rfl
@[simp] theorem State.setLink_admission (s : State) (d : Dom) (x : Link) (e : Dom) :
    (s.setLink d x).admission e = s.admission e := rfl
@[simp] theorem State.setLink_work (s : State) (d : Dom) (x : Link) (e : Dom) :
    (s.setLink d x).work e = s.work e := rfl
@[simp] theorem State.setLink_settings (s : State) (d : Dom) (x : Link) (e : Dom) :
    (s.setLink d x).settings e = s.settings e := rfl
@[simp] theorem State.setLink_channel (s : State) (d : Dom) (x : Link) (e : Fin 4) :
    (s.setLink d x).channel e = s.channel e := rfl
@[simp] theorem State.setLink_dump (s : State) (d : Dom) (x : Link) (m : Num) :
    (s.setLink d x).dump m = s.dump m := rfl
@[simp] theorem State.setLink_port (s : State) (d : Dom) (x : Link) (q : PortId) :
    (s.setLink d x).port q = s.port q := by cases q <;> rfl

/-! ### `setJournal` -/

@[simp] theorem State.setJournal_pending (s : State) (d : Dom) (x : Journal) :
    (s.setJournal d x).pending = s.pending := rfl
@[simp] theorem State.setJournal_freeCount (s : State) (d : Dom) (x : Journal) :
    (s.setJournal d x).freeCount = s.freeCount := rfl
@[simp] theorem State.setJournal_partTime (s : State) (d : Dom) (x : Journal) :
    (s.setJournal d x).partTime = s.partTime := rfl
@[simp] theorem State.setJournal_startUp (s : State) (d : Dom) (x : Journal) :
    (s.setJournal d x).startUp = s.startUp := rfl
@[simp] theorem State.setJournal_restart (s : State) (d : Dom) (x : Journal) :
    (s.setJournal d x).restart = s.restart := rfl
@[simp] theorem State.setJournal_powerGood (s : State) (d : Dom) (x : Journal) :
    (s.setJournal d x).powerGood = s.powerGood := rfl
@[simp] theorem State.setJournal_domains (s : State) (d : Dom) (x : Journal) :
    (s.setJournal d x).domains = s.domains := rfl
@[simp] theorem State.setJournal_plans (s : State) (d : Dom) (x : Journal) :
    (s.setJournal d x).plans = s.plans := rfl
@[simp] theorem State.setJournal_admissions (s : State) (d : Dom) (x : Journal) :
    (s.setJournal d x).admissions = s.admissions := rfl
@[simp] theorem State.setJournal_works (s : State) (d : Dom) (x : Journal) :
    (s.setJournal d x).works = s.works := rfl
@[simp] theorem State.setJournal_channels (s : State) (d : Dom) (x : Journal) :
    (s.setJournal d x).channels = s.channels := rfl
@[simp] theorem State.setJournal_lastPicked (s : State) (d : Dom) (x : Journal) :
    (s.setJournal d x).lastPicked = s.lastPicked := rfl
@[simp] theorem State.setJournal_staging (s : State) (d : Dom) (x : Journal) :
    (s.setJournal d x).staging = s.staging := rfl
@[simp] theorem State.setJournal_links (s : State) (d : Dom) (x : Journal) :
    (s.setJournal d x).links = s.links := rfl
@[simp] theorem State.setJournal_directory (s : State) (d : Dom) (x : Journal) :
    (s.setJournal d x).directory = s.directory := rfl
@[simp] theorem State.setJournal_store (s : State) (d : Dom) (x : Journal) :
    (s.setJournal d x).store = s.store := rfl
@[simp] theorem State.setJournal_flash (s : State) (d : Dom) (x : Journal) :
    (s.setJournal d x).flash = s.flash := rfl
@[simp] theorem State.setJournal_servicePort (s : State) (d : Dom) (x : Journal) :
    (s.setJournal d x).servicePort = s.servicePort := rfl
@[simp] theorem State.setJournal_platformPorts (s : State) (d : Dom) (x : Journal) :
    (s.setJournal d x).platformPorts = s.platformPorts := rfl
@[simp] theorem State.setJournal_service (s : State) (d : Dom) (x : Journal) :
    (s.setJournal d x).service = s.service := rfl
@[simp] theorem State.setJournal_config (s : State) (d : Dom) (x : Journal) :
    (s.setJournal d x).config = s.config := rfl
@[simp] theorem State.setJournal_domain (s : State) (d : Dom) (x : Journal) (e : Dom) :
    (s.setJournal d x).domain e = s.domain e := rfl
@[simp] theorem State.setJournal_plan (s : State) (d : Dom) (x : Journal) (e : Dom) :
    (s.setJournal d x).plan e = s.plan e := rfl
@[simp] theorem State.setJournal_link (s : State) (d : Dom) (x : Journal) (e : Dom) :
    (s.setJournal d x).link e = s.link e := rfl
@[simp] theorem State.setJournal_admission (s : State) (d : Dom) (x : Journal) (e : Dom) :
    (s.setJournal d x).admission e = s.admission e := rfl
@[simp] theorem State.setJournal_work (s : State) (d : Dom) (x : Journal) (e : Dom) :
    (s.setJournal d x).work e = s.work e := rfl
@[simp] theorem State.setJournal_settings (s : State) (d : Dom) (x : Journal) (e : Dom) :
    (s.setJournal d x).settings e = s.settings e := rfl
@[simp] theorem State.setJournal_channel (s : State) (d : Dom) (x : Journal) (e : Fin 4) :
    (s.setJournal d x).channel e = s.channel e := rfl
@[simp] theorem State.setJournal_dump (s : State) (d : Dom) (x : Journal) (m : Num) :
    (s.setJournal d x).dump m = s.dump m := rfl
@[simp] theorem State.setJournal_port (s : State) (d : Dom) (x : Journal) (q : PortId) :
    (s.setJournal d x).port q = s.port q := by cases q <;> rfl

/-! ### `setAdmission` -/

@[simp] theorem State.setAdmission_pending (s : State) (d : Dom) (x : Option Admission) :
    (s.setAdmission d x).pending = s.pending := rfl
@[simp] theorem State.setAdmission_freeCount (s : State) (d : Dom) (x : Option Admission) :
    (s.setAdmission d x).freeCount = s.freeCount := rfl
@[simp] theorem State.setAdmission_partTime (s : State) (d : Dom) (x : Option Admission) :
    (s.setAdmission d x).partTime = s.partTime := rfl
@[simp] theorem State.setAdmission_startUp (s : State) (d : Dom) (x : Option Admission) :
    (s.setAdmission d x).startUp = s.startUp := rfl
@[simp] theorem State.setAdmission_restart (s : State) (d : Dom) (x : Option Admission) :
    (s.setAdmission d x).restart = s.restart := rfl
@[simp] theorem State.setAdmission_powerGood (s : State) (d : Dom) (x : Option Admission) :
    (s.setAdmission d x).powerGood = s.powerGood := rfl
@[simp] theorem State.setAdmission_domains (s : State) (d : Dom) (x : Option Admission) :
    (s.setAdmission d x).domains = s.domains := rfl
@[simp] theorem State.setAdmission_plans (s : State) (d : Dom) (x : Option Admission) :
    (s.setAdmission d x).plans = s.plans := rfl
@[simp] theorem State.setAdmission_works (s : State) (d : Dom) (x : Option Admission) :
    (s.setAdmission d x).works = s.works := rfl
@[simp] theorem State.setAdmission_channels (s : State) (d : Dom) (x : Option Admission) :
    (s.setAdmission d x).channels = s.channels := rfl
@[simp] theorem State.setAdmission_lastPicked (s : State) (d : Dom) (x : Option Admission) :
    (s.setAdmission d x).lastPicked = s.lastPicked := rfl
@[simp] theorem State.setAdmission_staging (s : State) (d : Dom) (x : Option Admission) :
    (s.setAdmission d x).staging = s.staging := rfl
@[simp] theorem State.setAdmission_links (s : State) (d : Dom) (x : Option Admission) :
    (s.setAdmission d x).links = s.links := rfl
@[simp] theorem State.setAdmission_journals (s : State) (d : Dom) (x : Option Admission) :
    (s.setAdmission d x).journals = s.journals := rfl
@[simp] theorem State.setAdmission_directory (s : State) (d : Dom) (x : Option Admission) :
    (s.setAdmission d x).directory = s.directory := rfl
@[simp] theorem State.setAdmission_store (s : State) (d : Dom) (x : Option Admission) :
    (s.setAdmission d x).store = s.store := rfl
@[simp] theorem State.setAdmission_flash (s : State) (d : Dom) (x : Option Admission) :
    (s.setAdmission d x).flash = s.flash := rfl
@[simp] theorem State.setAdmission_servicePort (s : State) (d : Dom) (x : Option Admission) :
    (s.setAdmission d x).servicePort = s.servicePort := rfl
@[simp] theorem State.setAdmission_platformPorts (s : State) (d : Dom) (x : Option Admission) :
    (s.setAdmission d x).platformPorts = s.platformPorts := rfl
@[simp] theorem State.setAdmission_service (s : State) (d : Dom) (x : Option Admission) :
    (s.setAdmission d x).service = s.service := rfl
@[simp] theorem State.setAdmission_config (s : State) (d : Dom) (x : Option Admission) :
    (s.setAdmission d x).config = s.config := rfl
@[simp] theorem State.setAdmission_domain (s : State) (d : Dom) (x : Option Admission) (e : Dom) :
    (s.setAdmission d x).domain e = s.domain e := rfl
@[simp] theorem State.setAdmission_plan (s : State) (d : Dom) (x : Option Admission) (e : Dom) :
    (s.setAdmission d x).plan e = s.plan e := rfl
@[simp] theorem State.setAdmission_link (s : State) (d : Dom) (x : Option Admission) (e : Dom) :
    (s.setAdmission d x).link e = s.link e := rfl
@[simp] theorem State.setAdmission_journal (s : State) (d : Dom) (x : Option Admission) (e : Dom) :
    (s.setAdmission d x).journal e = s.journal e := rfl
@[simp] theorem State.setAdmission_work (s : State) (d : Dom) (x : Option Admission) (e : Dom) :
    (s.setAdmission d x).work e = s.work e := rfl
@[simp] theorem State.setAdmission_settings (s : State) (d : Dom) (x : Option Admission) (e : Dom) :
    (s.setAdmission d x).settings e = s.settings e := rfl
@[simp] theorem State.setAdmission_channel (s : State) (d : Dom) (x : Option Admission) (e : Fin 4) :
    (s.setAdmission d x).channel e = s.channel e := rfl
@[simp] theorem State.setAdmission_dump (s : State) (d : Dom) (x : Option Admission) (m : Num) :
    (s.setAdmission d x).dump m = s.dump m := rfl
@[simp] theorem State.setAdmission_port (s : State) (d : Dom) (x : Option Admission) (q : PortId) :
    (s.setAdmission d x).port q = s.port q := by cases q <;> rfl

/-! ### `setWork` -/

@[simp] theorem State.setWork_pending (s : State) (d : Dom) (x : Work) :
    (s.setWork d x).pending = s.pending := rfl
@[simp] theorem State.setWork_freeCount (s : State) (d : Dom) (x : Work) :
    (s.setWork d x).freeCount = s.freeCount := rfl
@[simp] theorem State.setWork_partTime (s : State) (d : Dom) (x : Work) :
    (s.setWork d x).partTime = s.partTime := rfl
@[simp] theorem State.setWork_startUp (s : State) (d : Dom) (x : Work) :
    (s.setWork d x).startUp = s.startUp := rfl
@[simp] theorem State.setWork_restart (s : State) (d : Dom) (x : Work) :
    (s.setWork d x).restart = s.restart := rfl
@[simp] theorem State.setWork_powerGood (s : State) (d : Dom) (x : Work) :
    (s.setWork d x).powerGood = s.powerGood := rfl
@[simp] theorem State.setWork_domains (s : State) (d : Dom) (x : Work) :
    (s.setWork d x).domains = s.domains := rfl
@[simp] theorem State.setWork_plans (s : State) (d : Dom) (x : Work) :
    (s.setWork d x).plans = s.plans := rfl
@[simp] theorem State.setWork_admissions (s : State) (d : Dom) (x : Work) :
    (s.setWork d x).admissions = s.admissions := rfl
@[simp] theorem State.setWork_channels (s : State) (d : Dom) (x : Work) :
    (s.setWork d x).channels = s.channels := rfl
@[simp] theorem State.setWork_lastPicked (s : State) (d : Dom) (x : Work) :
    (s.setWork d x).lastPicked = s.lastPicked := rfl
@[simp] theorem State.setWork_staging (s : State) (d : Dom) (x : Work) :
    (s.setWork d x).staging = s.staging := rfl
@[simp] theorem State.setWork_links (s : State) (d : Dom) (x : Work) :
    (s.setWork d x).links = s.links := rfl
@[simp] theorem State.setWork_journals (s : State) (d : Dom) (x : Work) :
    (s.setWork d x).journals = s.journals := rfl
@[simp] theorem State.setWork_directory (s : State) (d : Dom) (x : Work) :
    (s.setWork d x).directory = s.directory := rfl
@[simp] theorem State.setWork_store (s : State) (d : Dom) (x : Work) :
    (s.setWork d x).store = s.store := rfl
@[simp] theorem State.setWork_flash (s : State) (d : Dom) (x : Work) :
    (s.setWork d x).flash = s.flash := rfl
@[simp] theorem State.setWork_servicePort (s : State) (d : Dom) (x : Work) :
    (s.setWork d x).servicePort = s.servicePort := rfl
@[simp] theorem State.setWork_platformPorts (s : State) (d : Dom) (x : Work) :
    (s.setWork d x).platformPorts = s.platformPorts := rfl
@[simp] theorem State.setWork_service (s : State) (d : Dom) (x : Work) :
    (s.setWork d x).service = s.service := rfl
@[simp] theorem State.setWork_config (s : State) (d : Dom) (x : Work) :
    (s.setWork d x).config = s.config := rfl
@[simp] theorem State.setWork_domain (s : State) (d : Dom) (x : Work) (e : Dom) :
    (s.setWork d x).domain e = s.domain e := rfl
@[simp] theorem State.setWork_plan (s : State) (d : Dom) (x : Work) (e : Dom) :
    (s.setWork d x).plan e = s.plan e := rfl
@[simp] theorem State.setWork_link (s : State) (d : Dom) (x : Work) (e : Dom) :
    (s.setWork d x).link e = s.link e := rfl
@[simp] theorem State.setWork_journal (s : State) (d : Dom) (x : Work) (e : Dom) :
    (s.setWork d x).journal e = s.journal e := rfl
@[simp] theorem State.setWork_admission (s : State) (d : Dom) (x : Work) (e : Dom) :
    (s.setWork d x).admission e = s.admission e := rfl
@[simp] theorem State.setWork_settings (s : State) (d : Dom) (x : Work) (e : Dom) :
    (s.setWork d x).settings e = s.settings e := rfl
@[simp] theorem State.setWork_channel (s : State) (d : Dom) (x : Work) (e : Fin 4) :
    (s.setWork d x).channel e = s.channel e := rfl
@[simp] theorem State.setWork_dump (s : State) (d : Dom) (x : Work) (m : Num) :
    (s.setWork d x).dump m = s.dump m := rfl
@[simp] theorem State.setWork_port (s : State) (d : Dom) (x : Work) (q : PortId) :
    (s.setWork d x).port q = s.port q := by cases q <;> rfl

/-! ### `setChannel` -/

@[simp] theorem State.setChannel_pending (s : State) (c : Fin 4) (x : Channel) :
    (s.setChannel c x).pending = s.pending := rfl
@[simp] theorem State.setChannel_freeCount (s : State) (c : Fin 4) (x : Channel) :
    (s.setChannel c x).freeCount = s.freeCount := rfl
@[simp] theorem State.setChannel_partTime (s : State) (c : Fin 4) (x : Channel) :
    (s.setChannel c x).partTime = s.partTime := rfl
@[simp] theorem State.setChannel_startUp (s : State) (c : Fin 4) (x : Channel) :
    (s.setChannel c x).startUp = s.startUp := rfl
@[simp] theorem State.setChannel_restart (s : State) (c : Fin 4) (x : Channel) :
    (s.setChannel c x).restart = s.restart := rfl
@[simp] theorem State.setChannel_powerGood (s : State) (c : Fin 4) (x : Channel) :
    (s.setChannel c x).powerGood = s.powerGood := rfl
@[simp] theorem State.setChannel_domains (s : State) (c : Fin 4) (x : Channel) :
    (s.setChannel c x).domains = s.domains := rfl
@[simp] theorem State.setChannel_plans (s : State) (c : Fin 4) (x : Channel) :
    (s.setChannel c x).plans = s.plans := rfl
@[simp] theorem State.setChannel_admissions (s : State) (c : Fin 4) (x : Channel) :
    (s.setChannel c x).admissions = s.admissions := rfl
@[simp] theorem State.setChannel_works (s : State) (c : Fin 4) (x : Channel) :
    (s.setChannel c x).works = s.works := rfl
@[simp] theorem State.setChannel_lastPicked (s : State) (c : Fin 4) (x : Channel) :
    (s.setChannel c x).lastPicked = s.lastPicked := rfl
@[simp] theorem State.setChannel_staging (s : State) (c : Fin 4) (x : Channel) :
    (s.setChannel c x).staging = s.staging := rfl
@[simp] theorem State.setChannel_links (s : State) (c : Fin 4) (x : Channel) :
    (s.setChannel c x).links = s.links := rfl
@[simp] theorem State.setChannel_journals (s : State) (c : Fin 4) (x : Channel) :
    (s.setChannel c x).journals = s.journals := rfl
@[simp] theorem State.setChannel_directory (s : State) (c : Fin 4) (x : Channel) :
    (s.setChannel c x).directory = s.directory := rfl
@[simp] theorem State.setChannel_store (s : State) (c : Fin 4) (x : Channel) :
    (s.setChannel c x).store = s.store := rfl
@[simp] theorem State.setChannel_flash (s : State) (c : Fin 4) (x : Channel) :
    (s.setChannel c x).flash = s.flash := rfl
@[simp] theorem State.setChannel_servicePort (s : State) (c : Fin 4) (x : Channel) :
    (s.setChannel c x).servicePort = s.servicePort := rfl
@[simp] theorem State.setChannel_platformPorts (s : State) (c : Fin 4) (x : Channel) :
    (s.setChannel c x).platformPorts = s.platformPorts := rfl
@[simp] theorem State.setChannel_service (s : State) (c : Fin 4) (x : Channel) :
    (s.setChannel c x).service = s.service := rfl
@[simp] theorem State.setChannel_config (s : State) (c : Fin 4) (x : Channel) :
    (s.setChannel c x).config = s.config := rfl
@[simp] theorem State.setChannel_domain (s : State) (c : Fin 4) (x : Channel) (e : Dom) :
    (s.setChannel c x).domain e = s.domain e := rfl
@[simp] theorem State.setChannel_plan (s : State) (c : Fin 4) (x : Channel) (e : Dom) :
    (s.setChannel c x).plan e = s.plan e := rfl
@[simp] theorem State.setChannel_link (s : State) (c : Fin 4) (x : Channel) (e : Dom) :
    (s.setChannel c x).link e = s.link e := rfl
@[simp] theorem State.setChannel_journal (s : State) (c : Fin 4) (x : Channel) (e : Dom) :
    (s.setChannel c x).journal e = s.journal e := rfl
@[simp] theorem State.setChannel_admission (s : State) (c : Fin 4) (x : Channel) (e : Dom) :
    (s.setChannel c x).admission e = s.admission e := rfl
@[simp] theorem State.setChannel_work (s : State) (c : Fin 4) (x : Channel) (e : Dom) :
    (s.setChannel c x).work e = s.work e := rfl
@[simp] theorem State.setChannel_settings (s : State) (c : Fin 4) (x : Channel) (e : Dom) :
    (s.setChannel c x).settings e = s.settings e := rfl
@[simp] theorem State.setChannel_dump (s : State) (c : Fin 4) (x : Channel) (m : Num) :
    (s.setChannel c x).dump m = s.dump m := rfl
@[simp] theorem State.setChannel_port (s : State) (c : Fin 4) (x : Channel) (q : PortId) :
    (s.setChannel c x).port q = s.port q := by cases q <;> rfl

/-! ### `updDump` -/

@[simp] theorem State.updDump_pending (s : State) (n : Num) (f : DumpEntry → DumpEntry) :
    (s.updDump n f).pending = s.pending := rfl
@[simp] theorem State.updDump_freeCount (s : State) (n : Num) (f : DumpEntry → DumpEntry) :
    (s.updDump n f).freeCount = s.freeCount := rfl
@[simp] theorem State.updDump_partTime (s : State) (n : Num) (f : DumpEntry → DumpEntry) :
    (s.updDump n f).partTime = s.partTime := rfl
@[simp] theorem State.updDump_startUp (s : State) (n : Num) (f : DumpEntry → DumpEntry) :
    (s.updDump n f).startUp = s.startUp := rfl
@[simp] theorem State.updDump_restart (s : State) (n : Num) (f : DumpEntry → DumpEntry) :
    (s.updDump n f).restart = s.restart := rfl
@[simp] theorem State.updDump_powerGood (s : State) (n : Num) (f : DumpEntry → DumpEntry) :
    (s.updDump n f).powerGood = s.powerGood := rfl
@[simp] theorem State.updDump_domains (s : State) (n : Num) (f : DumpEntry → DumpEntry) :
    (s.updDump n f).domains = s.domains := rfl
@[simp] theorem State.updDump_plans (s : State) (n : Num) (f : DumpEntry → DumpEntry) :
    (s.updDump n f).plans = s.plans := rfl
@[simp] theorem State.updDump_admissions (s : State) (n : Num) (f : DumpEntry → DumpEntry) :
    (s.updDump n f).admissions = s.admissions := rfl
@[simp] theorem State.updDump_works (s : State) (n : Num) (f : DumpEntry → DumpEntry) :
    (s.updDump n f).works = s.works := rfl
@[simp] theorem State.updDump_channels (s : State) (n : Num) (f : DumpEntry → DumpEntry) :
    (s.updDump n f).channels = s.channels := rfl
@[simp] theorem State.updDump_lastPicked (s : State) (n : Num) (f : DumpEntry → DumpEntry) :
    (s.updDump n f).lastPicked = s.lastPicked := rfl
@[simp] theorem State.updDump_staging (s : State) (n : Num) (f : DumpEntry → DumpEntry) :
    (s.updDump n f).staging = s.staging := rfl
@[simp] theorem State.updDump_links (s : State) (n : Num) (f : DumpEntry → DumpEntry) :
    (s.updDump n f).links = s.links := rfl
@[simp] theorem State.updDump_journals (s : State) (n : Num) (f : DumpEntry → DumpEntry) :
    (s.updDump n f).journals = s.journals := rfl
@[simp] theorem State.updDump_store (s : State) (n : Num) (f : DumpEntry → DumpEntry) :
    (s.updDump n f).store = s.store := rfl
@[simp] theorem State.updDump_flash (s : State) (n : Num) (f : DumpEntry → DumpEntry) :
    (s.updDump n f).flash = s.flash := rfl
@[simp] theorem State.updDump_servicePort (s : State) (n : Num) (f : DumpEntry → DumpEntry) :
    (s.updDump n f).servicePort = s.servicePort := rfl
@[simp] theorem State.updDump_platformPorts (s : State) (n : Num) (f : DumpEntry → DumpEntry) :
    (s.updDump n f).platformPorts = s.platformPorts := rfl
@[simp] theorem State.updDump_service (s : State) (n : Num) (f : DumpEntry → DumpEntry) :
    (s.updDump n f).service = s.service := rfl
@[simp] theorem State.updDump_config (s : State) (n : Num) (f : DumpEntry → DumpEntry) :
    (s.updDump n f).config = s.config := rfl
@[simp] theorem State.updDump_domain (s : State) (n : Num) (f : DumpEntry → DumpEntry) (e : Dom) :
    (s.updDump n f).domain e = s.domain e := rfl
@[simp] theorem State.updDump_plan (s : State) (n : Num) (f : DumpEntry → DumpEntry) (e : Dom) :
    (s.updDump n f).plan e = s.plan e := rfl
@[simp] theorem State.updDump_link (s : State) (n : Num) (f : DumpEntry → DumpEntry) (e : Dom) :
    (s.updDump n f).link e = s.link e := rfl
@[simp] theorem State.updDump_journal (s : State) (n : Num) (f : DumpEntry → DumpEntry) (e : Dom) :
    (s.updDump n f).journal e = s.journal e := rfl
@[simp] theorem State.updDump_admission (s : State) (n : Num) (f : DumpEntry → DumpEntry) (e : Dom) :
    (s.updDump n f).admission e = s.admission e := rfl
@[simp] theorem State.updDump_work (s : State) (n : Num) (f : DumpEntry → DumpEntry) (e : Dom) :
    (s.updDump n f).work e = s.work e := rfl
@[simp] theorem State.updDump_settings (s : State) (n : Num) (f : DumpEntry → DumpEntry) (e : Dom) :
    (s.updDump n f).settings e = s.settings e := rfl
@[simp] theorem State.updDump_channel (s : State) (n : Num) (f : DumpEntry → DumpEntry) (e : Fin 4) :
    (s.updDump n f).channel e = s.channel e := rfl
@[simp] theorem State.updDump_port (s : State) (n : Num) (f : DumpEntry → DumpEntry) (q : PortId) :
    (s.updDump n f).port q = s.port q := by cases q <;> rfl

/-! ### `updSection` -/

@[simp] theorem State.updSection_pending (s : State) (n : Num) (i : Nat) (f : SectionRecord → SectionRecord) :
    (s.updSection n i f).pending = s.pending := rfl
@[simp] theorem State.updSection_freeCount (s : State) (n : Num) (i : Nat) (f : SectionRecord → SectionRecord) :
    (s.updSection n i f).freeCount = s.freeCount := rfl
@[simp] theorem State.updSection_partTime (s : State) (n : Num) (i : Nat) (f : SectionRecord → SectionRecord) :
    (s.updSection n i f).partTime = s.partTime := rfl
@[simp] theorem State.updSection_startUp (s : State) (n : Num) (i : Nat) (f : SectionRecord → SectionRecord) :
    (s.updSection n i f).startUp = s.startUp := rfl
@[simp] theorem State.updSection_restart (s : State) (n : Num) (i : Nat) (f : SectionRecord → SectionRecord) :
    (s.updSection n i f).restart = s.restart := rfl
@[simp] theorem State.updSection_powerGood (s : State) (n : Num) (i : Nat) (f : SectionRecord → SectionRecord) :
    (s.updSection n i f).powerGood = s.powerGood := rfl
@[simp] theorem State.updSection_domains (s : State) (n : Num) (i : Nat) (f : SectionRecord → SectionRecord) :
    (s.updSection n i f).domains = s.domains := rfl
@[simp] theorem State.updSection_plans (s : State) (n : Num) (i : Nat) (f : SectionRecord → SectionRecord) :
    (s.updSection n i f).plans = s.plans := rfl
@[simp] theorem State.updSection_admissions (s : State) (n : Num) (i : Nat) (f : SectionRecord → SectionRecord) :
    (s.updSection n i f).admissions = s.admissions := rfl
@[simp] theorem State.updSection_works (s : State) (n : Num) (i : Nat) (f : SectionRecord → SectionRecord) :
    (s.updSection n i f).works = s.works := rfl
@[simp] theorem State.updSection_channels (s : State) (n : Num) (i : Nat) (f : SectionRecord → SectionRecord) :
    (s.updSection n i f).channels = s.channels := rfl
@[simp] theorem State.updSection_lastPicked (s : State) (n : Num) (i : Nat) (f : SectionRecord → SectionRecord) :
    (s.updSection n i f).lastPicked = s.lastPicked := rfl
@[simp] theorem State.updSection_staging (s : State) (n : Num) (i : Nat) (f : SectionRecord → SectionRecord) :
    (s.updSection n i f).staging = s.staging := rfl
@[simp] theorem State.updSection_links (s : State) (n : Num) (i : Nat) (f : SectionRecord → SectionRecord) :
    (s.updSection n i f).links = s.links := rfl
@[simp] theorem State.updSection_journals (s : State) (n : Num) (i : Nat) (f : SectionRecord → SectionRecord) :
    (s.updSection n i f).journals = s.journals := rfl
@[simp] theorem State.updSection_store (s : State) (n : Num) (i : Nat) (f : SectionRecord → SectionRecord) :
    (s.updSection n i f).store = s.store := rfl
@[simp] theorem State.updSection_flash (s : State) (n : Num) (i : Nat) (f : SectionRecord → SectionRecord) :
    (s.updSection n i f).flash = s.flash := rfl
@[simp] theorem State.updSection_servicePort (s : State) (n : Num) (i : Nat) (f : SectionRecord → SectionRecord) :
    (s.updSection n i f).servicePort = s.servicePort := rfl
@[simp] theorem State.updSection_platformPorts (s : State) (n : Num) (i : Nat) (f : SectionRecord → SectionRecord) :
    (s.updSection n i f).platformPorts = s.platformPorts := rfl
@[simp] theorem State.updSection_service (s : State) (n : Num) (i : Nat) (f : SectionRecord → SectionRecord) :
    (s.updSection n i f).service = s.service := rfl
@[simp] theorem State.updSection_config (s : State) (n : Num) (i : Nat) (f : SectionRecord → SectionRecord) :
    (s.updSection n i f).config = s.config := rfl
@[simp] theorem State.updSection_domain (s : State) (n : Num) (i : Nat) (f : SectionRecord → SectionRecord) (e : Dom) :
    (s.updSection n i f).domain e = s.domain e := rfl
@[simp] theorem State.updSection_plan (s : State) (n : Num) (i : Nat) (f : SectionRecord → SectionRecord) (e : Dom) :
    (s.updSection n i f).plan e = s.plan e := rfl
@[simp] theorem State.updSection_link (s : State) (n : Num) (i : Nat) (f : SectionRecord → SectionRecord) (e : Dom) :
    (s.updSection n i f).link e = s.link e := rfl
@[simp] theorem State.updSection_journal (s : State) (n : Num) (i : Nat) (f : SectionRecord → SectionRecord) (e : Dom) :
    (s.updSection n i f).journal e = s.journal e := rfl
@[simp] theorem State.updSection_admission (s : State) (n : Num) (i : Nat) (f : SectionRecord → SectionRecord) (e : Dom) :
    (s.updSection n i f).admission e = s.admission e := rfl
@[simp] theorem State.updSection_work (s : State) (n : Num) (i : Nat) (f : SectionRecord → SectionRecord) (e : Dom) :
    (s.updSection n i f).work e = s.work e := rfl
@[simp] theorem State.updSection_settings (s : State) (n : Num) (i : Nat) (f : SectionRecord → SectionRecord) (e : Dom) :
    (s.updSection n i f).settings e = s.settings e := rfl
@[simp] theorem State.updSection_channel (s : State) (n : Num) (i : Nat) (f : SectionRecord → SectionRecord) (e : Fin 4) :
    (s.updSection n i f).channel e = s.channel e := rfl
@[simp] theorem State.updSection_port (s : State) (n : Num) (i : Nat) (f : SectionRecord → SectionRecord) (q : PortId) :
    (s.updSection n i f).port q = s.port q := by cases q <;> rfl

/-! ### `askPages` -/

@[simp] theorem State.askPages_pending (s : State) (h : Holder) (ks : List PageKey) :
    (s.askPages h ks).pending = s.pending := rfl
@[simp] theorem State.askPages_freeCount (s : State) (h : Holder) (ks : List PageKey) :
    (s.askPages h ks).freeCount = s.freeCount := rfl
@[simp] theorem State.askPages_partTime (s : State) (h : Holder) (ks : List PageKey) :
    (s.askPages h ks).partTime = s.partTime := rfl
@[simp] theorem State.askPages_startUp (s : State) (h : Holder) (ks : List PageKey) :
    (s.askPages h ks).startUp = s.startUp := rfl
@[simp] theorem State.askPages_restart (s : State) (h : Holder) (ks : List PageKey) :
    (s.askPages h ks).restart = s.restart := rfl
@[simp] theorem State.askPages_powerGood (s : State) (h : Holder) (ks : List PageKey) :
    (s.askPages h ks).powerGood = s.powerGood := rfl
@[simp] theorem State.askPages_domains (s : State) (h : Holder) (ks : List PageKey) :
    (s.askPages h ks).domains = s.domains := rfl
@[simp] theorem State.askPages_plans (s : State) (h : Holder) (ks : List PageKey) :
    (s.askPages h ks).plans = s.plans := rfl
@[simp] theorem State.askPages_admissions (s : State) (h : Holder) (ks : List PageKey) :
    (s.askPages h ks).admissions = s.admissions := rfl
@[simp] theorem State.askPages_works (s : State) (h : Holder) (ks : List PageKey) :
    (s.askPages h ks).works = s.works := rfl
@[simp] theorem State.askPages_channels (s : State) (h : Holder) (ks : List PageKey) :
    (s.askPages h ks).channels = s.channels := rfl
@[simp] theorem State.askPages_lastPicked (s : State) (h : Holder) (ks : List PageKey) :
    (s.askPages h ks).lastPicked = s.lastPicked := rfl
@[simp] theorem State.askPages_links (s : State) (h : Holder) (ks : List PageKey) :
    (s.askPages h ks).links = s.links := rfl
@[simp] theorem State.askPages_journals (s : State) (h : Holder) (ks : List PageKey) :
    (s.askPages h ks).journals = s.journals := rfl
@[simp] theorem State.askPages_directory (s : State) (h : Holder) (ks : List PageKey) :
    (s.askPages h ks).directory = s.directory := rfl
@[simp] theorem State.askPages_store (s : State) (h : Holder) (ks : List PageKey) :
    (s.askPages h ks).store = s.store := rfl
@[simp] theorem State.askPages_flash (s : State) (h : Holder) (ks : List PageKey) :
    (s.askPages h ks).flash = s.flash := rfl
@[simp] theorem State.askPages_servicePort (s : State) (h : Holder) (ks : List PageKey) :
    (s.askPages h ks).servicePort = s.servicePort := rfl
@[simp] theorem State.askPages_platformPorts (s : State) (h : Holder) (ks : List PageKey) :
    (s.askPages h ks).platformPorts = s.platformPorts := rfl
@[simp] theorem State.askPages_service (s : State) (h : Holder) (ks : List PageKey) :
    (s.askPages h ks).service = s.service := rfl
@[simp] theorem State.askPages_config (s : State) (h : Holder) (ks : List PageKey) :
    (s.askPages h ks).config = s.config := rfl
@[simp] theorem State.askPages_domain (s : State) (h : Holder) (ks : List PageKey) (e : Dom) :
    (s.askPages h ks).domain e = s.domain e := rfl
@[simp] theorem State.askPages_plan (s : State) (h : Holder) (ks : List PageKey) (e : Dom) :
    (s.askPages h ks).plan e = s.plan e := rfl
@[simp] theorem State.askPages_link (s : State) (h : Holder) (ks : List PageKey) (e : Dom) :
    (s.askPages h ks).link e = s.link e := rfl
@[simp] theorem State.askPages_journal (s : State) (h : Holder) (ks : List PageKey) (e : Dom) :
    (s.askPages h ks).journal e = s.journal e := rfl
@[simp] theorem State.askPages_admission (s : State) (h : Holder) (ks : List PageKey) (e : Dom) :
    (s.askPages h ks).admission e = s.admission e := rfl
@[simp] theorem State.askPages_work (s : State) (h : Holder) (ks : List PageKey) (e : Dom) :
    (s.askPages h ks).work e = s.work e := rfl
@[simp] theorem State.askPages_settings (s : State) (h : Holder) (ks : List PageKey) (e : Dom) :
    (s.askPages h ks).settings e = s.settings e := rfl
@[simp] theorem State.askPages_channel (s : State) (h : Holder) (ks : List PageKey) (e : Fin 4) :
    (s.askPages h ks).channel e = s.channel e := rfl
@[simp] theorem State.askPages_dump (s : State) (h : Holder) (ks : List PageKey) (m : Num) :
    (s.askPages h ks).dump m = s.dump m := rfl
@[simp] theorem State.askPages_port (s : State) (h : Holder) (ks : List PageKey) (q : PortId) :
    (s.askPages h ks).port q = s.port q := by cases q <;> rfl

/-! ### `withdrawPages` -/

@[simp] theorem State.withdrawPages_pending (s : State) (h : Holder) :
    (s.withdrawPages h).pending = s.pending := rfl
@[simp] theorem State.withdrawPages_freeCount (s : State) (h : Holder) :
    (s.withdrawPages h).freeCount = s.freeCount := rfl
@[simp] theorem State.withdrawPages_partTime (s : State) (h : Holder) :
    (s.withdrawPages h).partTime = s.partTime := rfl
@[simp] theorem State.withdrawPages_startUp (s : State) (h : Holder) :
    (s.withdrawPages h).startUp = s.startUp := rfl
@[simp] theorem State.withdrawPages_restart (s : State) (h : Holder) :
    (s.withdrawPages h).restart = s.restart := rfl
@[simp] theorem State.withdrawPages_powerGood (s : State) (h : Holder) :
    (s.withdrawPages h).powerGood = s.powerGood := rfl
@[simp] theorem State.withdrawPages_domains (s : State) (h : Holder) :
    (s.withdrawPages h).domains = s.domains := rfl
@[simp] theorem State.withdrawPages_plans (s : State) (h : Holder) :
    (s.withdrawPages h).plans = s.plans := rfl
@[simp] theorem State.withdrawPages_admissions (s : State) (h : Holder) :
    (s.withdrawPages h).admissions = s.admissions := rfl
@[simp] theorem State.withdrawPages_works (s : State) (h : Holder) :
    (s.withdrawPages h).works = s.works := rfl
@[simp] theorem State.withdrawPages_channels (s : State) (h : Holder) :
    (s.withdrawPages h).channels = s.channels := rfl
@[simp] theorem State.withdrawPages_lastPicked (s : State) (h : Holder) :
    (s.withdrawPages h).lastPicked = s.lastPicked := rfl
@[simp] theorem State.withdrawPages_links (s : State) (h : Holder) :
    (s.withdrawPages h).links = s.links := rfl
@[simp] theorem State.withdrawPages_journals (s : State) (h : Holder) :
    (s.withdrawPages h).journals = s.journals := rfl
@[simp] theorem State.withdrawPages_directory (s : State) (h : Holder) :
    (s.withdrawPages h).directory = s.directory := rfl
@[simp] theorem State.withdrawPages_store (s : State) (h : Holder) :
    (s.withdrawPages h).store = s.store := rfl
@[simp] theorem State.withdrawPages_flash (s : State) (h : Holder) :
    (s.withdrawPages h).flash = s.flash := rfl
@[simp] theorem State.withdrawPages_servicePort (s : State) (h : Holder) :
    (s.withdrawPages h).servicePort = s.servicePort := rfl
@[simp] theorem State.withdrawPages_platformPorts (s : State) (h : Holder) :
    (s.withdrawPages h).platformPorts = s.platformPorts := rfl
@[simp] theorem State.withdrawPages_service (s : State) (h : Holder) :
    (s.withdrawPages h).service = s.service := rfl
@[simp] theorem State.withdrawPages_config (s : State) (h : Holder) :
    (s.withdrawPages h).config = s.config := rfl
@[simp] theorem State.withdrawPages_domain (s : State) (h : Holder) (e : Dom) :
    (s.withdrawPages h).domain e = s.domain e := rfl
@[simp] theorem State.withdrawPages_plan (s : State) (h : Holder) (e : Dom) :
    (s.withdrawPages h).plan e = s.plan e := rfl
@[simp] theorem State.withdrawPages_link (s : State) (h : Holder) (e : Dom) :
    (s.withdrawPages h).link e = s.link e := rfl
@[simp] theorem State.withdrawPages_journal (s : State) (h : Holder) (e : Dom) :
    (s.withdrawPages h).journal e = s.journal e := rfl
@[simp] theorem State.withdrawPages_admission (s : State) (h : Holder) (e : Dom) :
    (s.withdrawPages h).admission e = s.admission e := rfl
@[simp] theorem State.withdrawPages_work (s : State) (h : Holder) (e : Dom) :
    (s.withdrawPages h).work e = s.work e := rfl
@[simp] theorem State.withdrawPages_settings (s : State) (h : Holder) (e : Dom) :
    (s.withdrawPages h).settings e = s.settings e := rfl
@[simp] theorem State.withdrawPages_channel (s : State) (h : Holder) (e : Fin 4) :
    (s.withdrawPages h).channel e = s.channel e := rfl
@[simp] theorem State.withdrawPages_dump (s : State) (h : Holder) (m : Num) :
    (s.withdrawPages h).dump m = s.dump m := rfl
@[simp] theorem State.withdrawPages_port (s : State) (h : Holder) (q : PortId) :
    (s.withdrawPages h).port q = s.port q := by cases q <;> rfl

/-! ### `passPage` -/

@[simp] theorem State.passPage_pending (s : State) (k : PageKey) :
    (s.passPage k).pending = s.pending := rfl
@[simp] theorem State.passPage_freeCount (s : State) (k : PageKey) :
    (s.passPage k).freeCount = s.freeCount := rfl
@[simp] theorem State.passPage_partTime (s : State) (k : PageKey) :
    (s.passPage k).partTime = s.partTime := rfl
@[simp] theorem State.passPage_startUp (s : State) (k : PageKey) :
    (s.passPage k).startUp = s.startUp := rfl
@[simp] theorem State.passPage_restart (s : State) (k : PageKey) :
    (s.passPage k).restart = s.restart := rfl
@[simp] theorem State.passPage_powerGood (s : State) (k : PageKey) :
    (s.passPage k).powerGood = s.powerGood := rfl
@[simp] theorem State.passPage_domains (s : State) (k : PageKey) :
    (s.passPage k).domains = s.domains := rfl
@[simp] theorem State.passPage_plans (s : State) (k : PageKey) :
    (s.passPage k).plans = s.plans := rfl
@[simp] theorem State.passPage_admissions (s : State) (k : PageKey) :
    (s.passPage k).admissions = s.admissions := rfl
@[simp] theorem State.passPage_works (s : State) (k : PageKey) :
    (s.passPage k).works = s.works := rfl
@[simp] theorem State.passPage_channels (s : State) (k : PageKey) :
    (s.passPage k).channels = s.channels := rfl
@[simp] theorem State.passPage_lastPicked (s : State) (k : PageKey) :
    (s.passPage k).lastPicked = s.lastPicked := rfl
@[simp] theorem State.passPage_staging (s : State) (k : PageKey) :
    (s.passPage k).staging = s.staging := rfl
@[simp] theorem State.passPage_links (s : State) (k : PageKey) :
    (s.passPage k).links = s.links := rfl
@[simp] theorem State.passPage_journals (s : State) (k : PageKey) :
    (s.passPage k).journals = s.journals := rfl
@[simp] theorem State.passPage_directory (s : State) (k : PageKey) :
    (s.passPage k).directory = s.directory := rfl
@[simp] theorem State.passPage_flash (s : State) (k : PageKey) :
    (s.passPage k).flash = s.flash := rfl
@[simp] theorem State.passPage_servicePort (s : State) (k : PageKey) :
    (s.passPage k).servicePort = s.servicePort := rfl
@[simp] theorem State.passPage_platformPorts (s : State) (k : PageKey) :
    (s.passPage k).platformPorts = s.platformPorts := rfl
@[simp] theorem State.passPage_service (s : State) (k : PageKey) :
    (s.passPage k).service = s.service := rfl
@[simp] theorem State.passPage_config (s : State) (k : PageKey) :
    (s.passPage k).config = s.config := rfl
@[simp] theorem State.passPage_domain (s : State) (k : PageKey) (e : Dom) :
    (s.passPage k).domain e = s.domain e := rfl
@[simp] theorem State.passPage_plan (s : State) (k : PageKey) (e : Dom) :
    (s.passPage k).plan e = s.plan e := rfl
@[simp] theorem State.passPage_link (s : State) (k : PageKey) (e : Dom) :
    (s.passPage k).link e = s.link e := rfl
@[simp] theorem State.passPage_journal (s : State) (k : PageKey) (e : Dom) :
    (s.passPage k).journal e = s.journal e := rfl
@[simp] theorem State.passPage_admission (s : State) (k : PageKey) (e : Dom) :
    (s.passPage k).admission e = s.admission e := rfl
@[simp] theorem State.passPage_work (s : State) (k : PageKey) (e : Dom) :
    (s.passPage k).work e = s.work e := rfl
@[simp] theorem State.passPage_settings (s : State) (k : PageKey) (e : Dom) :
    (s.passPage k).settings e = s.settings e := rfl
@[simp] theorem State.passPage_channel (s : State) (k : PageKey) (e : Fin 4) :
    (s.passPage k).channel e = s.channel e := rfl
@[simp] theorem State.passPage_dump (s : State) (k : PageKey) (m : Num) :
    (s.passPage k).dump m = s.dump m := rfl
@[simp] theorem State.passPage_port (s : State) (k : PageKey) (q : PortId) :
    (s.passPage k).port q = s.port q := by cases q <;> rfl

/-! ### `stage` -/

@[simp] theorem State.stage_pending (s : State) (k : PageKey) (bs : List Byte) :
    (s.stage k bs).pending = s.pending := rfl
@[simp] theorem State.stage_freeCount (s : State) (k : PageKey) (bs : List Byte) :
    (s.stage k bs).freeCount = s.freeCount := rfl
@[simp] theorem State.stage_partTime (s : State) (k : PageKey) (bs : List Byte) :
    (s.stage k bs).partTime = s.partTime := rfl
@[simp] theorem State.stage_startUp (s : State) (k : PageKey) (bs : List Byte) :
    (s.stage k bs).startUp = s.startUp := rfl
@[simp] theorem State.stage_restart (s : State) (k : PageKey) (bs : List Byte) :
    (s.stage k bs).restart = s.restart := rfl
@[simp] theorem State.stage_powerGood (s : State) (k : PageKey) (bs : List Byte) :
    (s.stage k bs).powerGood = s.powerGood := rfl
@[simp] theorem State.stage_domains (s : State) (k : PageKey) (bs : List Byte) :
    (s.stage k bs).domains = s.domains := rfl
@[simp] theorem State.stage_plans (s : State) (k : PageKey) (bs : List Byte) :
    (s.stage k bs).plans = s.plans := rfl
@[simp] theorem State.stage_admissions (s : State) (k : PageKey) (bs : List Byte) :
    (s.stage k bs).admissions = s.admissions := rfl
@[simp] theorem State.stage_works (s : State) (k : PageKey) (bs : List Byte) :
    (s.stage k bs).works = s.works := rfl
@[simp] theorem State.stage_channels (s : State) (k : PageKey) (bs : List Byte) :
    (s.stage k bs).channels = s.channels := rfl
@[simp] theorem State.stage_lastPicked (s : State) (k : PageKey) (bs : List Byte) :
    (s.stage k bs).lastPicked = s.lastPicked := rfl
@[simp] theorem State.stage_links (s : State) (k : PageKey) (bs : List Byte) :
    (s.stage k bs).links = s.links := rfl
@[simp] theorem State.stage_journals (s : State) (k : PageKey) (bs : List Byte) :
    (s.stage k bs).journals = s.journals := rfl
@[simp] theorem State.stage_directory (s : State) (k : PageKey) (bs : List Byte) :
    (s.stage k bs).directory = s.directory := rfl
@[simp] theorem State.stage_flash (s : State) (k : PageKey) (bs : List Byte) :
    (s.stage k bs).flash = s.flash := rfl
@[simp] theorem State.stage_servicePort (s : State) (k : PageKey) (bs : List Byte) :
    (s.stage k bs).servicePort = s.servicePort := rfl
@[simp] theorem State.stage_platformPorts (s : State) (k : PageKey) (bs : List Byte) :
    (s.stage k bs).platformPorts = s.platformPorts := rfl
@[simp] theorem State.stage_service (s : State) (k : PageKey) (bs : List Byte) :
    (s.stage k bs).service = s.service := rfl
@[simp] theorem State.stage_config (s : State) (k : PageKey) (bs : List Byte) :
    (s.stage k bs).config = s.config := rfl
@[simp] theorem State.stage_domain (s : State) (k : PageKey) (bs : List Byte) (e : Dom) :
    (s.stage k bs).domain e = s.domain e := rfl
@[simp] theorem State.stage_plan (s : State) (k : PageKey) (bs : List Byte) (e : Dom) :
    (s.stage k bs).plan e = s.plan e := rfl
@[simp] theorem State.stage_link (s : State) (k : PageKey) (bs : List Byte) (e : Dom) :
    (s.stage k bs).link e = s.link e := rfl
@[simp] theorem State.stage_journal (s : State) (k : PageKey) (bs : List Byte) (e : Dom) :
    (s.stage k bs).journal e = s.journal e := rfl
@[simp] theorem State.stage_admission (s : State) (k : PageKey) (bs : List Byte) (e : Dom) :
    (s.stage k bs).admission e = s.admission e := rfl
@[simp] theorem State.stage_work (s : State) (k : PageKey) (bs : List Byte) (e : Dom) :
    (s.stage k bs).work e = s.work e := rfl
@[simp] theorem State.stage_settings (s : State) (k : PageKey) (bs : List Byte) (e : Dom) :
    (s.stage k bs).settings e = s.settings e := rfl
@[simp] theorem State.stage_channel (s : State) (k : PageKey) (bs : List Byte) (e : Fin 4) :
    (s.stage k bs).channel e = s.channel e := rfl
@[simp] theorem State.stage_dump (s : State) (k : PageKey) (bs : List Byte) (m : Num) :
    (s.stage k bs).dump m = s.dump m := rfl
@[simp] theorem State.stage_port (s : State) (k : PageKey) (bs : List Byte) (q : PortId) :
    (s.stage k bs).port q = s.port q := by cases q <;> rfl

/-! ### `drawn` -/

@[simp] theorem State.drawn_pending (s : State) (n : Nat) :
    (s.drawn n).pending = s.pending := rfl
@[simp] theorem State.drawn_partTime (s : State) (n : Nat) :
    (s.drawn n).partTime = s.partTime := rfl
@[simp] theorem State.drawn_startUp (s : State) (n : Nat) :
    (s.drawn n).startUp = s.startUp := rfl
@[simp] theorem State.drawn_restart (s : State) (n : Nat) :
    (s.drawn n).restart = s.restart := rfl
@[simp] theorem State.drawn_powerGood (s : State) (n : Nat) :
    (s.drawn n).powerGood = s.powerGood := rfl
@[simp] theorem State.drawn_domains (s : State) (n : Nat) :
    (s.drawn n).domains = s.domains := rfl
@[simp] theorem State.drawn_plans (s : State) (n : Nat) :
    (s.drawn n).plans = s.plans := rfl
@[simp] theorem State.drawn_admissions (s : State) (n : Nat) :
    (s.drawn n).admissions = s.admissions := rfl
@[simp] theorem State.drawn_works (s : State) (n : Nat) :
    (s.drawn n).works = s.works := rfl
@[simp] theorem State.drawn_channels (s : State) (n : Nat) :
    (s.drawn n).channels = s.channels := rfl
@[simp] theorem State.drawn_lastPicked (s : State) (n : Nat) :
    (s.drawn n).lastPicked = s.lastPicked := rfl
@[simp] theorem State.drawn_staging (s : State) (n : Nat) :
    (s.drawn n).staging = s.staging := rfl
@[simp] theorem State.drawn_links (s : State) (n : Nat) :
    (s.drawn n).links = s.links := rfl
@[simp] theorem State.drawn_journals (s : State) (n : Nat) :
    (s.drawn n).journals = s.journals := rfl
@[simp] theorem State.drawn_directory (s : State) (n : Nat) :
    (s.drawn n).directory = s.directory := rfl
@[simp] theorem State.drawn_store (s : State) (n : Nat) :
    (s.drawn n).store = s.store := rfl
@[simp] theorem State.drawn_flash (s : State) (n : Nat) :
    (s.drawn n).flash = s.flash := rfl
@[simp] theorem State.drawn_servicePort (s : State) (n : Nat) :
    (s.drawn n).servicePort = s.servicePort := rfl
@[simp] theorem State.drawn_platformPorts (s : State) (n : Nat) :
    (s.drawn n).platformPorts = s.platformPorts := rfl
@[simp] theorem State.drawn_service (s : State) (n : Nat) :
    (s.drawn n).service = s.service := rfl
@[simp] theorem State.drawn_config (s : State) (n : Nat) :
    (s.drawn n).config = s.config := rfl
@[simp] theorem State.drawn_domain (s : State) (n : Nat) (e : Dom) :
    (s.drawn n).domain e = s.domain e := rfl
@[simp] theorem State.drawn_plan (s : State) (n : Nat) (e : Dom) :
    (s.drawn n).plan e = s.plan e := rfl
@[simp] theorem State.drawn_link (s : State) (n : Nat) (e : Dom) :
    (s.drawn n).link e = s.link e := rfl
@[simp] theorem State.drawn_journal (s : State) (n : Nat) (e : Dom) :
    (s.drawn n).journal e = s.journal e := rfl
@[simp] theorem State.drawn_admission (s : State) (n : Nat) (e : Dom) :
    (s.drawn n).admission e = s.admission e := rfl
@[simp] theorem State.drawn_work (s : State) (n : Nat) (e : Dom) :
    (s.drawn n).work e = s.work e := rfl
@[simp] theorem State.drawn_settings (s : State) (n : Nat) (e : Dom) :
    (s.drawn n).settings e = s.settings e := rfl
@[simp] theorem State.drawn_channel (s : State) (n : Nat) (e : Fin 4) :
    (s.drawn n).channel e = s.channel e := rfl
@[simp] theorem State.drawn_dump (s : State) (n : Nat) (m : Num) :
    (s.drawn n).dump m = s.dump m := rfl
@[simp] theorem State.drawn_port (s : State) (n : Nat) (q : PortId) :
    (s.drawn n).port q = s.port q := by cases q <;> rfl

/-! ### `land` -/

@[simp] theorem State.land_pending (s : State) (i : Fin 8) :
    (s.land i).pending = s.pending := rfl
@[simp] theorem State.land_freeCount (s : State) (i : Fin 8) :
    (s.land i).freeCount = s.freeCount := rfl
@[simp] theorem State.land_partTime (s : State) (i : Fin 8) :
    (s.land i).partTime = s.partTime := rfl
@[simp] theorem State.land_startUp (s : State) (i : Fin 8) :
    (s.land i).startUp = s.startUp := rfl
@[simp] theorem State.land_restart (s : State) (i : Fin 8) :
    (s.land i).restart = s.restart := rfl
@[simp] theorem State.land_powerGood (s : State) (i : Fin 8) :
    (s.land i).powerGood = s.powerGood := rfl
@[simp] theorem State.land_domains (s : State) (i : Fin 8) :
    (s.land i).domains = s.domains := rfl
@[simp] theorem State.land_plans (s : State) (i : Fin 8) :
    (s.land i).plans = s.plans := rfl
@[simp] theorem State.land_admissions (s : State) (i : Fin 8) :
    (s.land i).admissions = s.admissions := rfl
@[simp] theorem State.land_works (s : State) (i : Fin 8) :
    (s.land i).works = s.works := rfl
@[simp] theorem State.land_channels (s : State) (i : Fin 8) :
    (s.land i).channels = s.channels := rfl
@[simp] theorem State.land_lastPicked (s : State) (i : Fin 8) :
    (s.land i).lastPicked = s.lastPicked := rfl
@[simp] theorem State.land_staging (s : State) (i : Fin 8) :
    (s.land i).staging = s.staging := rfl
@[simp] theorem State.land_links (s : State) (i : Fin 8) :
    (s.land i).links = s.links := rfl
@[simp] theorem State.land_journals (s : State) (i : Fin 8) :
    (s.land i).journals = s.journals := rfl
@[simp] theorem State.land_directory (s : State) (i : Fin 8) :
    (s.land i).directory = s.directory := rfl
@[simp] theorem State.land_flash (s : State) (i : Fin 8) :
    (s.land i).flash = s.flash := rfl
@[simp] theorem State.land_servicePort (s : State) (i : Fin 8) :
    (s.land i).servicePort = s.servicePort := rfl
@[simp] theorem State.land_platformPorts (s : State) (i : Fin 8) :
    (s.land i).platformPorts = s.platformPorts := rfl
@[simp] theorem State.land_service (s : State) (i : Fin 8) :
    (s.land i).service = s.service := rfl
@[simp] theorem State.land_config (s : State) (i : Fin 8) :
    (s.land i).config = s.config := rfl
@[simp] theorem State.land_domain (s : State) (i : Fin 8) (e : Dom) :
    (s.land i).domain e = s.domain e := rfl
@[simp] theorem State.land_plan (s : State) (i : Fin 8) (e : Dom) :
    (s.land i).plan e = s.plan e := rfl
@[simp] theorem State.land_link (s : State) (i : Fin 8) (e : Dom) :
    (s.land i).link e = s.link e := rfl
@[simp] theorem State.land_journal (s : State) (i : Fin 8) (e : Dom) :
    (s.land i).journal e = s.journal e := rfl
@[simp] theorem State.land_admission (s : State) (i : Fin 8) (e : Dom) :
    (s.land i).admission e = s.admission e := rfl
@[simp] theorem State.land_work (s : State) (i : Fin 8) (e : Dom) :
    (s.land i).work e = s.work e := rfl
@[simp] theorem State.land_settings (s : State) (i : Fin 8) (e : Dom) :
    (s.land i).settings e = s.settings e := rfl
@[simp] theorem State.land_channel (s : State) (i : Fin 8) (e : Fin 4) :
    (s.land i).channel e = s.channel e := rfl
@[simp] theorem State.land_dump (s : State) (i : Fin 8) (m : Num) :
    (s.land i).dump m = s.dump m := rfl
@[simp] theorem State.land_port (s : State) (i : Fin 8) (q : PortId) :
    (s.land i).port q = s.port q := by cases q <;> rfl

/-! ### `withPending` -/

@[simp] theorem State.withPending_freeCount (s : State) (l : List Instr) :
    (s.withPending l).freeCount = s.freeCount := rfl
@[simp] theorem State.withPending_partTime (s : State) (l : List Instr) :
    (s.withPending l).partTime = s.partTime := rfl
@[simp] theorem State.withPending_startUp (s : State) (l : List Instr) :
    (s.withPending l).startUp = s.startUp := rfl
@[simp] theorem State.withPending_restart (s : State) (l : List Instr) :
    (s.withPending l).restart = s.restart := rfl
@[simp] theorem State.withPending_powerGood (s : State) (l : List Instr) :
    (s.withPending l).powerGood = s.powerGood := rfl
@[simp] theorem State.withPending_domains (s : State) (l : List Instr) :
    (s.withPending l).domains = s.domains := rfl
@[simp] theorem State.withPending_plans (s : State) (l : List Instr) :
    (s.withPending l).plans = s.plans := rfl
@[simp] theorem State.withPending_admissions (s : State) (l : List Instr) :
    (s.withPending l).admissions = s.admissions := rfl
@[simp] theorem State.withPending_works (s : State) (l : List Instr) :
    (s.withPending l).works = s.works := rfl
@[simp] theorem State.withPending_channels (s : State) (l : List Instr) :
    (s.withPending l).channels = s.channels := rfl
@[simp] theorem State.withPending_lastPicked (s : State) (l : List Instr) :
    (s.withPending l).lastPicked = s.lastPicked := rfl
@[simp] theorem State.withPending_staging (s : State) (l : List Instr) :
    (s.withPending l).staging = s.staging := rfl
@[simp] theorem State.withPending_links (s : State) (l : List Instr) :
    (s.withPending l).links = s.links := rfl
@[simp] theorem State.withPending_journals (s : State) (l : List Instr) :
    (s.withPending l).journals = s.journals := rfl
@[simp] theorem State.withPending_directory (s : State) (l : List Instr) :
    (s.withPending l).directory = s.directory := rfl
@[simp] theorem State.withPending_store (s : State) (l : List Instr) :
    (s.withPending l).store = s.store := rfl
@[simp] theorem State.withPending_flash (s : State) (l : List Instr) :
    (s.withPending l).flash = s.flash := rfl
@[simp] theorem State.withPending_servicePort (s : State) (l : List Instr) :
    (s.withPending l).servicePort = s.servicePort := rfl
@[simp] theorem State.withPending_platformPorts (s : State) (l : List Instr) :
    (s.withPending l).platformPorts = s.platformPorts := rfl
@[simp] theorem State.withPending_service (s : State) (l : List Instr) :
    (s.withPending l).service = s.service := rfl
@[simp] theorem State.withPending_config (s : State) (l : List Instr) :
    (s.withPending l).config = s.config := rfl
@[simp] theorem State.withPending_domain (s : State) (l : List Instr) (e : Dom) :
    (s.withPending l).domain e = s.domain e := rfl
@[simp] theorem State.withPending_plan (s : State) (l : List Instr) (e : Dom) :
    (s.withPending l).plan e = s.plan e := rfl
@[simp] theorem State.withPending_link (s : State) (l : List Instr) (e : Dom) :
    (s.withPending l).link e = s.link e := rfl
@[simp] theorem State.withPending_journal (s : State) (l : List Instr) (e : Dom) :
    (s.withPending l).journal e = s.journal e := rfl
@[simp] theorem State.withPending_admission (s : State) (l : List Instr) (e : Dom) :
    (s.withPending l).admission e = s.admission e := rfl
@[simp] theorem State.withPending_work (s : State) (l : List Instr) (e : Dom) :
    (s.withPending l).work e = s.work e := rfl
@[simp] theorem State.withPending_settings (s : State) (l : List Instr) (e : Dom) :
    (s.withPending l).settings e = s.settings e := rfl
@[simp] theorem State.withPending_channel (s : State) (l : List Instr) (e : Fin 4) :
    (s.withPending l).channel e = s.channel e := rfl
@[simp] theorem State.withPending_dump (s : State) (l : List Instr) (m : Num) :
    (s.withPending l).dump m = s.dump m := rfl
@[simp] theorem State.withPending_port (s : State) (l : List Instr) (q : PortId) :
    (s.withPending l).port q = s.port q := by cases q <;> rfl

@[simp] theorem State.setDomain_domain_self (s : State) (d : Dom) (x : Domain) :
    (s.setDomain d x).domain d = x := by cases d <;> rfl
@[simp] theorem State.setDomain_domain_other (s : State) (d : Dom) (x : Domain) :
    (s.setDomain d x).domain (otherDom d) = s.domain (otherDom d) := by cases d <;> rfl
theorem State.setDomain_domain (s : State) (d e : Dom) (x : Domain) :
    (s.setDomain d x).domain e = if e = d then x else s.domain e := by cases d <;> cases e <;> rfl
@[simp] theorem State.setDomain_setDomain (s : State) (d : Dom) (x y : Domain) :
    (s.setDomain d x).setDomain d y = s.setDomain d y := by cases d <;> rfl
@[simp] theorem State.setPlan_plan_self (s : State) (d : Dom) (x : Plan) :
    (s.setPlan d x).plan d = x := by cases d <;> rfl
@[simp] theorem State.setPlan_plan_other (s : State) (d : Dom) (x : Plan) :
    (s.setPlan d x).plan (otherDom d) = s.plan (otherDom d) := by cases d <;> rfl
theorem State.setPlan_plan (s : State) (d e : Dom) (x : Plan) :
    (s.setPlan d x).plan e = if e = d then x else s.plan e := by cases d <;> cases e <;> rfl
@[simp] theorem State.setPlan_setPlan (s : State) (d : Dom) (x y : Plan) :
    (s.setPlan d x).setPlan d y = s.setPlan d y := by cases d <;> rfl
@[simp] theorem State.setLink_link_self (s : State) (d : Dom) (x : Link) :
    (s.setLink d x).link d = x := by cases d <;> rfl
@[simp] theorem State.setLink_link_other (s : State) (d : Dom) (x : Link) :
    (s.setLink d x).link (otherDom d) = s.link (otherDom d) := by cases d <;> rfl
theorem State.setLink_link (s : State) (d e : Dom) (x : Link) :
    (s.setLink d x).link e = if e = d then x else s.link e := by cases d <;> cases e <;> rfl
@[simp] theorem State.setLink_setLink (s : State) (d : Dom) (x y : Link) :
    (s.setLink d x).setLink d y = s.setLink d y := by cases d <;> rfl
@[simp] theorem State.setJournal_journal_self (s : State) (d : Dom) (x : Journal) :
    (s.setJournal d x).journal d = x := by cases d <;> rfl
@[simp] theorem State.setJournal_journal_other (s : State) (d : Dom) (x : Journal) :
    (s.setJournal d x).journal (otherDom d) = s.journal (otherDom d) := by cases d <;> rfl
theorem State.setJournal_journal (s : State) (d e : Dom) (x : Journal) :
    (s.setJournal d x).journal e = if e = d then x else s.journal e := by cases d <;> cases e <;> rfl
@[simp] theorem State.setJournal_setJournal (s : State) (d : Dom) (x y : Journal) :
    (s.setJournal d x).setJournal d y = s.setJournal d y := by cases d <;> rfl
@[simp] theorem State.setAdmission_admission_self (s : State) (d : Dom) (x : Option Admission) :
    (s.setAdmission d x).admission d = x := by cases d <;> rfl
@[simp] theorem State.setAdmission_admission_other (s : State) (d : Dom) (x : Option Admission) :
    (s.setAdmission d x).admission (otherDom d) = s.admission (otherDom d) := by cases d <;> rfl
theorem State.setAdmission_admission (s : State) (d e : Dom) (x : Option Admission) :
    (s.setAdmission d x).admission e = if e = d then x else s.admission e := by cases d <;> cases e <;> rfl
@[simp] theorem State.setAdmission_setAdmission (s : State) (d : Dom) (x y : Option Admission) :
    (s.setAdmission d x).setAdmission d y = s.setAdmission d y := by cases d <;> rfl
@[simp] theorem State.setWork_work_self (s : State) (d : Dom) (x : Work) :
    (s.setWork d x).work d = x := by cases d <;> rfl
@[simp] theorem State.setWork_work_other (s : State) (d : Dom) (x : Work) :
    (s.setWork d x).work (otherDom d) = s.work (otherDom d) := by cases d <;> rfl
theorem State.setWork_work (s : State) (d e : Dom) (x : Work) :
    (s.setWork d x).work e = if e = d then x else s.work e := by cases d <;> cases e <;> rfl
@[simp] theorem State.setWork_setWork (s : State) (d : Dom) (x y : Work) :
    (s.setWork d x).setWork d y = s.setWork d y := by cases d <;> rfl
@[simp] theorem State.setChannel_channel_self (s : State) (c : Fin 4) (x : Channel) :
    (s.setChannel c x).channel c = x := by simp [State.setChannel, State.channel]
theorem State.setChannel_channel (s : State) (c e : Fin 4) (x : Channel) :
    (s.setChannel c x).channel e = if e = c then x else s.channel e := by
  simp only [State.setChannel, State.channel, Fin.getElem_fin, Vector.getElem_set]
  by_cases h : e = c
  · simp [h]
  · have : ¬ (c : Nat) = e := fun k => h (Fin.ext k.symm)
    simp [h, this]

/-! ### `setPort` -/

@[simp] theorem State.setPort_pending (s : State) (p : PortId) (x : Port) :
    (s.setPort p x).pending = s.pending := by cases p <;> rfl
@[simp] theorem State.setPort_freeCount (s : State) (p : PortId) (x : Port) :
    (s.setPort p x).freeCount = s.freeCount := by cases p <;> rfl
@[simp] theorem State.setPort_partTime (s : State) (p : PortId) (x : Port) :
    (s.setPort p x).partTime = s.partTime := by cases p <;> rfl
@[simp] theorem State.setPort_startUp (s : State) (p : PortId) (x : Port) :
    (s.setPort p x).startUp = s.startUp := by cases p <;> rfl
@[simp] theorem State.setPort_restart (s : State) (p : PortId) (x : Port) :
    (s.setPort p x).restart = s.restart := by cases p <;> rfl
@[simp] theorem State.setPort_powerGood (s : State) (p : PortId) (x : Port) :
    (s.setPort p x).powerGood = s.powerGood := by cases p <;> rfl
@[simp] theorem State.setPort_domains (s : State) (p : PortId) (x : Port) :
    (s.setPort p x).domains = s.domains := by cases p <;> rfl
@[simp] theorem State.setPort_plans (s : State) (p : PortId) (x : Port) :
    (s.setPort p x).plans = s.plans := by cases p <;> rfl
@[simp] theorem State.setPort_admissions (s : State) (p : PortId) (x : Port) :
    (s.setPort p x).admissions = s.admissions := by cases p <;> rfl
@[simp] theorem State.setPort_works (s : State) (p : PortId) (x : Port) :
    (s.setPort p x).works = s.works := by cases p <;> rfl
@[simp] theorem State.setPort_channels (s : State) (p : PortId) (x : Port) :
    (s.setPort p x).channels = s.channels := by cases p <;> rfl
@[simp] theorem State.setPort_lastPicked (s : State) (p : PortId) (x : Port) :
    (s.setPort p x).lastPicked = s.lastPicked := by cases p <;> rfl
@[simp] theorem State.setPort_staging (s : State) (p : PortId) (x : Port) :
    (s.setPort p x).staging = s.staging := by cases p <;> rfl
@[simp] theorem State.setPort_links (s : State) (p : PortId) (x : Port) :
    (s.setPort p x).links = s.links := by cases p <;> rfl
@[simp] theorem State.setPort_journals (s : State) (p : PortId) (x : Port) :
    (s.setPort p x).journals = s.journals := by cases p <;> rfl
@[simp] theorem State.setPort_directory (s : State) (p : PortId) (x : Port) :
    (s.setPort p x).directory = s.directory := by cases p <;> rfl
@[simp] theorem State.setPort_store (s : State) (p : PortId) (x : Port) :
    (s.setPort p x).store = s.store := by cases p <;> rfl
@[simp] theorem State.setPort_flash (s : State) (p : PortId) (x : Port) :
    (s.setPort p x).flash = s.flash := by cases p <;> rfl
@[simp] theorem State.setPort_service (s : State) (p : PortId) (x : Port) :
    (s.setPort p x).service = s.service := by cases p <;> rfl
@[simp] theorem State.setPort_config (s : State) (p : PortId) (x : Port) :
    (s.setPort p x).config = s.config := by cases p <;> rfl
@[simp] theorem State.setPort_domain (s : State) (p : PortId) (x : Port) (e : Dom) :
    (s.setPort p x).domain e = s.domain e := by cases p <;> rfl
@[simp] theorem State.setPort_plan (s : State) (p : PortId) (x : Port) (e : Dom) :
    (s.setPort p x).plan e = s.plan e := by cases p <;> rfl
@[simp] theorem State.setPort_link (s : State) (p : PortId) (x : Port) (e : Dom) :
    (s.setPort p x).link e = s.link e := by cases p <;> rfl
@[simp] theorem State.setPort_journal (s : State) (p : PortId) (x : Port) (e : Dom) :
    (s.setPort p x).journal e = s.journal e := by cases p <;> rfl
@[simp] theorem State.setPort_admission (s : State) (p : PortId) (x : Port) (e : Dom) :
    (s.setPort p x).admission e = s.admission e := by cases p <;> rfl
@[simp] theorem State.setPort_work (s : State) (p : PortId) (x : Port) (e : Dom) :
    (s.setPort p x).work e = s.work e := by cases p <;> rfl
@[simp] theorem State.setPort_settings (s : State) (p : PortId) (x : Port) (e : Dom) :
    (s.setPort p x).settings e = s.settings e := by cases p <;> rfl
@[simp] theorem State.setPort_channel (s : State) (p : PortId) (x : Port) (e : Fin 4) :
    (s.setPort p x).channel e = s.channel e := by cases p <;> rfl
@[simp] theorem State.setPort_dump (s : State) (p : PortId) (x : Port) (m : Num) :
    (s.setPort p x).dump m = s.dump m := by cases p <;> rfl
@[simp] theorem State.setPort_port_self (s : State) (p : PortId) (x : Port) : (s.setPort p x).port p = x := by
  cases p with
  | service => rfl
  | platform d => cases d <;> rfl
theorem State.setPort_port (s : State) (p q : PortId) (x : Port) :
    (s.setPort p x).port q = if q = p then x else s.port q := by
  rcases p with _ | d <;> rcases q with _ | e <;> try rfl
  cases d <;> cases e <;> rfl
@[simp] theorem State.setPort_setPort (s : State) (p : PortId) (x y : Port) :
    (s.setPort p x).setPort p y = s.setPort p y := by
  cases p with
  | service => rfl
  | platform d => cases d <;> rfl

/-! ### `reach` -/

@[simp] theorem State.reach_pending (s : State) (t : Time) : (s.reach t).pending = s.pending := by
  unfold State.reach; split <;> rfl
@[simp] theorem State.reach_freeCount (s : State) (t : Time) : (s.reach t).freeCount = s.freeCount := by
  unfold State.reach; split <;> rfl
@[simp] theorem State.reach_startUp (s : State) (t : Time) : (s.reach t).startUp = s.startUp := by
  unfold State.reach; split <;> rfl
@[simp] theorem State.reach_restart (s : State) (t : Time) : (s.reach t).restart = s.restart := by
  unfold State.reach; split <;> rfl
@[simp] theorem State.reach_powerGood (s : State) (t : Time) : (s.reach t).powerGood = s.powerGood := by
  unfold State.reach; split <;> rfl
@[simp] theorem State.reach_domains (s : State) (t : Time) : (s.reach t).domains = s.domains := by
  unfold State.reach; split <;> rfl
@[simp] theorem State.reach_plans (s : State) (t : Time) : (s.reach t).plans = s.plans := by
  unfold State.reach; split <;> rfl
@[simp] theorem State.reach_admissions (s : State) (t : Time) : (s.reach t).admissions = s.admissions := by
  unfold State.reach; split <;> rfl
@[simp] theorem State.reach_works (s : State) (t : Time) : (s.reach t).works = s.works := by
  unfold State.reach; split <;> rfl
@[simp] theorem State.reach_channels (s : State) (t : Time) : (s.reach t).channels = s.channels := by
  unfold State.reach; split <;> rfl
@[simp] theorem State.reach_lastPicked (s : State) (t : Time) : (s.reach t).lastPicked = s.lastPicked := by
  unfold State.reach; split <;> rfl
@[simp] theorem State.reach_staging (s : State) (t : Time) : (s.reach t).staging = s.staging := by
  unfold State.reach; split <;> rfl
@[simp] theorem State.reach_links (s : State) (t : Time) : (s.reach t).links = s.links := by
  unfold State.reach; split <;> rfl
@[simp] theorem State.reach_journals (s : State) (t : Time) : (s.reach t).journals = s.journals := by
  unfold State.reach; split <;> rfl
@[simp] theorem State.reach_directory (s : State) (t : Time) : (s.reach t).directory = s.directory := by
  unfold State.reach; split <;> rfl
@[simp] theorem State.reach_store (s : State) (t : Time) : (s.reach t).store = s.store := by
  unfold State.reach; split <;> rfl
@[simp] theorem State.reach_flash (s : State) (t : Time) : (s.reach t).flash = s.flash := by
  unfold State.reach; split <;> rfl
@[simp] theorem State.reach_servicePort (s : State) (t : Time) : (s.reach t).servicePort = s.servicePort := by
  unfold State.reach; split <;> rfl
@[simp] theorem State.reach_platformPorts (s : State) (t : Time) : (s.reach t).platformPorts = s.platformPorts := by
  unfold State.reach; split <;> rfl
@[simp] theorem State.reach_service (s : State) (t : Time) : (s.reach t).service = s.service := by
  unfold State.reach; split <;> rfl
@[simp] theorem State.reach_config (s : State) (t : Time) : (s.reach t).config = s.config := by
  unfold State.reach; split <;> rfl
@[simp] theorem State.reach_domain (s : State) (t : Time) (e : Dom) : (s.reach t).domain e = s.domain e := by
  unfold State.reach; split <;> rfl
@[simp] theorem State.reach_plan (s : State) (t : Time) (e : Dom) : (s.reach t).plan e = s.plan e := by
  unfold State.reach; split <;> rfl
@[simp] theorem State.reach_link (s : State) (t : Time) (e : Dom) : (s.reach t).link e = s.link e := by
  unfold State.reach; split <;> rfl
@[simp] theorem State.reach_journal (s : State) (t : Time) (e : Dom) : (s.reach t).journal e = s.journal e := by
  unfold State.reach; split <;> rfl
@[simp] theorem State.reach_admission (s : State) (t : Time) (e : Dom) : (s.reach t).admission e = s.admission e := by
  unfold State.reach; split <;> rfl
@[simp] theorem State.reach_work (s : State) (t : Time) (e : Dom) : (s.reach t).work e = s.work e := by
  unfold State.reach; split <;> rfl
@[simp] theorem State.reach_settings (s : State) (t : Time) (e : Dom) : (s.reach t).settings e = s.settings e := by
  unfold State.reach; split <;> rfl
@[simp] theorem State.reach_channel (s : State) (t : Time) (e : Fin 4) : (s.reach t).channel e = s.channel e := by
  unfold State.reach; split <;> rfl
@[simp] theorem State.reach_dump (s : State) (t : Time) (m : Num) : (s.reach t).dump m = s.dump m := by
  unfold State.reach; split <;> rfl
@[simp] theorem State.reach_port (s : State) (t : Time) (q : PortId) : (s.reach t).port q = s.port q := by
  unfold State.reach; split <;> rfl

/-! ### The directory -/

@[simp] theorem State.updDump_nextNumber (s : State) (n : Num) (f : DumpEntry → DumpEntry) :
    (s.updDump n f).directory.nextNumber = s.directory.nextNumber := rfl
@[simp] theorem State.updDump_verify (s : State) (n : Num) (f : DumpEntry → DumpEntry) :
    (s.updDump n f).directory.verify = s.directory.verify := rfl
@[simp] theorem State.updDump_entries (s : State) (n : Num) (f : DumpEntry → DumpEntry) :
    (s.updDump n f).directory.entries = s.directory.entries.map fun e => if e.number = n then f e else e := rfl

/-- A dump's entry after a change that keeps its number. -/
theorem State.updDump_dump (s : State) (n m : Num) (f : DumpEntry → DumpEntry) (h : ∀ e, (f e).number = e.number) :
    (s.updDump n f).dump m = (s.dump m).map fun e => if m = n then f e else e := by
  simp only [State.dump, State.updDump_entries, List.find?_map]
  have : ((fun e : DumpEntry => e.number == m) ∘ fun e => if e.number = n then f e else e)
      = fun e => e.number == m := by
    funext e
    simp only [Function.comp]
    split <;> simp [h]
  rw [this]
  cases hx : s.directory.entries.find? (fun e => e.number == m) with
  | none => rfl
  | some e =>
    have hm : e.number = m := by simpa using List.find?_some hx
    simp [hm]

end Sys2Proof.Machine
end

