-- ==== Sys2Proof/Laws/Frames.lean ====
section
/-! SUPPORT. The frames of the shared operations: for each, the parts of the state that it leaves as they were. -/
set_option linter.unusedSimpArgs false
set_option linter.unusedTactic false
set_option linter.unreachableTactic false

namespace Sys2Proof.Machine

@[simp] theorem State.advancePort_frame (s : State) (p : PortId) :
    (s.advancePort p).pending = s.pending ∧ (s.advancePort p).freeCount = s.freeCount
    ∧ (s.advancePort p).partTime = s.partTime ∧ (s.advancePort p).startUp = s.startUp
    ∧ (s.advancePort p).restart = s.restart ∧ (s.advancePort p).powerGood = s.powerGood
    ∧ (s.advancePort p).domains = s.domains ∧ (∀ e : Dom, (s.advancePort p).domain e = s.domain e)
    ∧ (s.advancePort p).plans = s.plans ∧ (∀ e : Dom, (s.advancePort p).plan e = s.plan e)
    ∧ (s.advancePort p).admissions = s.admissions ∧ (∀ e : Dom, (s.advancePort p).admission e = s.admission e)
    ∧ (s.advancePort p).works = s.works ∧ (∀ e : Dom, (s.advancePort p).work e = s.work e)
    ∧ (s.advancePort p).channels = s.channels ∧ (∀ c' : Fin 4, (s.advancePort p).channel c' = s.channel c')
    ∧ (s.advancePort p).lastPicked = s.lastPicked ∧ (s.advancePort p).staging = s.staging
    ∧ (s.advancePort p).links = s.links ∧ (∀ e : Dom, (s.advancePort p).link e = s.link e)
    ∧ (s.advancePort p).journals = s.journals ∧ (∀ e : Dom, (s.advancePort p).journal e = s.journal e)
    ∧ (s.advancePort p).directory = s.directory ∧ (∀ m : Num, (s.advancePort p).dump m = s.dump m)
    ∧ (s.advancePort p).store = s.store ∧ (s.advancePort p).flash = s.flash ∧ (s.advancePort p).service = s.service
    ∧ (s.advancePort p).config = s.config ∧ (∀ e : Dom, (s.advancePort p).settings e = s.settings e) := by
  unfold State.advancePort; try dsimp only
  (repeat' split) <;> simp

@[simp] theorem State.sendHold_frame (s : State) (p : PortId) (n : BitVec 16) :
    (s.sendHold p n).pending = s.pending ∧ (s.sendHold p n).freeCount = s.freeCount
    ∧ (s.sendHold p n).partTime = s.partTime ∧ (s.sendHold p n).startUp = s.startUp
    ∧ (s.sendHold p n).restart = s.restart ∧ (s.sendHold p n).powerGood = s.powerGood
    ∧ (s.sendHold p n).domains = s.domains ∧ (∀ e : Dom, (s.sendHold p n).domain e = s.domain e)
    ∧ (s.sendHold p n).plans = s.plans ∧ (∀ e : Dom, (s.sendHold p n).plan e = s.plan e)
    ∧ (s.sendHold p n).admissions = s.admissions ∧ (∀ e : Dom, (s.sendHold p n).admission e = s.admission e)
    ∧ (s.sendHold p n).works = s.works ∧ (∀ e : Dom, (s.sendHold p n).work e = s.work e)
    ∧ (s.sendHold p n).channels = s.channels ∧ (∀ c' : Fin 4, (s.sendHold p n).channel c' = s.channel c')
    ∧ (s.sendHold p n).lastPicked = s.lastPicked ∧ (s.sendHold p n).staging = s.staging
    ∧ (s.sendHold p n).links = s.links ∧ (∀ e : Dom, (s.sendHold p n).link e = s.link e)
    ∧ (s.sendHold p n).journals = s.journals ∧ (∀ e : Dom, (s.sendHold p n).journal e = s.journal e)
    ∧ (s.sendHold p n).directory = s.directory ∧ (∀ m : Num, (s.sendHold p n).dump m = s.dump m)
    ∧ (s.sendHold p n).store = s.store ∧ (s.sendHold p n).flash = s.flash ∧ (s.sendHold p n).service = s.service
    ∧ (s.sendHold p n).config = s.config ∧ (∀ e : Dom, (s.sendHold p n).settings e = s.settings e) := by
  unfold State.sendHold; try dsimp only
  (repeat' split) <;> simp

@[simp] theorem State.paceArrival_frame (s : State) (p : PortId) :
    (s.paceArrival p).pending = s.pending ∧ (s.paceArrival p).freeCount = s.freeCount
    ∧ (s.paceArrival p).partTime = s.partTime ∧ (s.paceArrival p).startUp = s.startUp
    ∧ (s.paceArrival p).restart = s.restart ∧ (s.paceArrival p).powerGood = s.powerGood
    ∧ (s.paceArrival p).domains = s.domains ∧ (∀ e : Dom, (s.paceArrival p).domain e = s.domain e)
    ∧ (s.paceArrival p).plans = s.plans ∧ (∀ e : Dom, (s.paceArrival p).plan e = s.plan e)
    ∧ (s.paceArrival p).admissions = s.admissions ∧ (∀ e : Dom, (s.paceArrival p).admission e = s.admission e)
    ∧ (s.paceArrival p).works = s.works ∧ (∀ e : Dom, (s.paceArrival p).work e = s.work e)
    ∧ (s.paceArrival p).channels = s.channels ∧ (∀ c' : Fin 4, (s.paceArrival p).channel c' = s.channel c')
    ∧ (s.paceArrival p).lastPicked = s.lastPicked ∧ (s.paceArrival p).staging = s.staging
    ∧ (s.paceArrival p).links = s.links ∧ (∀ e : Dom, (s.paceArrival p).link e = s.link e)
    ∧ (s.paceArrival p).journals = s.journals ∧ (∀ e : Dom, (s.paceArrival p).journal e = s.journal e)
    ∧ (s.paceArrival p).directory = s.directory ∧ (∀ m : Num, (s.paceArrival p).dump m = s.dump m)
    ∧ (s.paceArrival p).store = s.store ∧ (s.paceArrival p).flash = s.flash ∧ (s.paceArrival p).config = s.config
    ∧ (∀ e : Dom, (s.paceArrival p).settings e = s.settings e) := by
  unfold State.paceArrival; try dsimp only
  (repeat' split) <;> simp

@[simp] theorem State.paceDeparture_frame (s : State) (p : PortId) :
    (s.paceDeparture p).pending = s.pending ∧ (s.paceDeparture p).freeCount = s.freeCount
    ∧ (s.paceDeparture p).partTime = s.partTime ∧ (s.paceDeparture p).startUp = s.startUp
    ∧ (s.paceDeparture p).restart = s.restart ∧ (s.paceDeparture p).powerGood = s.powerGood
    ∧ (s.paceDeparture p).domains = s.domains ∧ (∀ e : Dom, (s.paceDeparture p).domain e = s.domain e)
    ∧ (s.paceDeparture p).plans = s.plans ∧ (∀ e : Dom, (s.paceDeparture p).plan e = s.plan e)
    ∧ (s.paceDeparture p).admissions = s.admissions ∧ (∀ e : Dom, (s.paceDeparture p).admission e = s.admission e)
    ∧ (s.paceDeparture p).works = s.works ∧ (∀ e : Dom, (s.paceDeparture p).work e = s.work e)
    ∧ (s.paceDeparture p).channels = s.channels ∧ (∀ c' : Fin 4, (s.paceDeparture p).channel c' = s.channel c')
    ∧ (s.paceDeparture p).lastPicked = s.lastPicked ∧ (s.paceDeparture p).staging = s.staging
    ∧ (s.paceDeparture p).links = s.links ∧ (∀ e : Dom, (s.paceDeparture p).link e = s.link e)
    ∧ (s.paceDeparture p).journals = s.journals ∧ (∀ e : Dom, (s.paceDeparture p).journal e = s.journal e)
    ∧ (s.paceDeparture p).directory = s.directory ∧ (∀ m : Num, (s.paceDeparture p).dump m = s.dump m)
    ∧ (s.paceDeparture p).store = s.store ∧ (s.paceDeparture p).flash = s.flash
    ∧ (s.paceDeparture p).config = s.config ∧ (∀ e : Dom, (s.paceDeparture p).settings e = s.settings e) := by
  unfold State.paceDeparture; try dsimp only
  (repeat' split) <;> simp

@[simp] theorem State.complete_frame (s : State) (p : PortId) (r : Frame) :
    (s.complete p r).pending = s.pending ∧ (s.complete p r).freeCount = s.freeCount
    ∧ (s.complete p r).partTime = s.partTime ∧ (s.complete p r).startUp = s.startUp
    ∧ (s.complete p r).restart = s.restart ∧ (s.complete p r).powerGood = s.powerGood
    ∧ (s.complete p r).domains = s.domains ∧ (∀ e : Dom, (s.complete p r).domain e = s.domain e)
    ∧ (s.complete p r).plans = s.plans ∧ (∀ e : Dom, (s.complete p r).plan e = s.plan e)
    ∧ (s.complete p r).admissions = s.admissions ∧ (∀ e : Dom, (s.complete p r).admission e = s.admission e)
    ∧ (s.complete p r).works = s.works ∧ (∀ e : Dom, (s.complete p r).work e = s.work e)
    ∧ (s.complete p r).channels = s.channels ∧ (∀ c' : Fin 4, (s.complete p r).channel c' = s.channel c')
    ∧ (s.complete p r).lastPicked = s.lastPicked ∧ (s.complete p r).staging = s.staging
    ∧ (s.complete p r).links = s.links ∧ (∀ e : Dom, (s.complete p r).link e = s.link e)
    ∧ (s.complete p r).journals = s.journals ∧ (∀ e : Dom, (s.complete p r).journal e = s.journal e)
    ∧ (s.complete p r).directory = s.directory ∧ (∀ m : Num, (s.complete p r).dump m = s.dump m)
    ∧ (s.complete p r).store = s.store ∧ (s.complete p r).flash = s.flash ∧ (s.complete p r).config = s.config
    ∧ (∀ e : Dom, (s.complete p r).settings e = s.settings e) := by
  unfold State.complete; try dsimp only
  (repeat' split) <;> simp

@[simp] theorem State.reserve_frame (s : State) (p : PortId) :
    (s.reserve p).pending = s.pending ∧ (s.reserve p).freeCount = s.freeCount ∧ (s.reserve p).partTime = s.partTime
    ∧ (s.reserve p).startUp = s.startUp ∧ (s.reserve p).restart = s.restart ∧ (s.reserve p).powerGood = s.powerGood
    ∧ (s.reserve p).domains = s.domains ∧ (∀ e : Dom, (s.reserve p).domain e = s.domain e)
    ∧ (s.reserve p).plans = s.plans ∧ (∀ e : Dom, (s.reserve p).plan e = s.plan e)
    ∧ (s.reserve p).admissions = s.admissions ∧ (∀ e : Dom, (s.reserve p).admission e = s.admission e)
    ∧ (s.reserve p).works = s.works ∧ (∀ e : Dom, (s.reserve p).work e = s.work e)
    ∧ (s.reserve p).channels = s.channels ∧ (∀ c' : Fin 4, (s.reserve p).channel c' = s.channel c')
    ∧ (s.reserve p).lastPicked = s.lastPicked ∧ (s.reserve p).staging = s.staging ∧ (s.reserve p).links = s.links
    ∧ (∀ e : Dom, (s.reserve p).link e = s.link e) ∧ (s.reserve p).journals = s.journals
    ∧ (∀ e : Dom, (s.reserve p).journal e = s.journal e) ∧ (s.reserve p).directory = s.directory
    ∧ (∀ m : Num, (s.reserve p).dump m = s.dump m) ∧ (s.reserve p).store = s.store ∧ (s.reserve p).flash = s.flash
    ∧ (s.reserve p).service = s.service ∧ (s.reserve p).config = s.config
    ∧ (∀ e : Dom, (s.reserve p).settings e = s.settings e) := by
  unfold State.reserve; try dsimp only
  (repeat' split) <;> simp

@[simp] theorem State.notice_frame (s : State) (k b : Byte) (bs : List Byte) :
    (s.notice k b bs).pending = s.pending ∧ (s.notice k b bs).freeCount = s.freeCount
    ∧ (s.notice k b bs).partTime = s.partTime ∧ (s.notice k b bs).startUp = s.startUp
    ∧ (s.notice k b bs).restart = s.restart ∧ (s.notice k b bs).powerGood = s.powerGood
    ∧ (s.notice k b bs).domains = s.domains ∧ (∀ e : Dom, (s.notice k b bs).domain e = s.domain e)
    ∧ (s.notice k b bs).plans = s.plans ∧ (∀ e : Dom, (s.notice k b bs).plan e = s.plan e)
    ∧ (s.notice k b bs).admissions = s.admissions ∧ (∀ e : Dom, (s.notice k b bs).admission e = s.admission e)
    ∧ (s.notice k b bs).works = s.works ∧ (∀ e : Dom, (s.notice k b bs).work e = s.work e)
    ∧ (s.notice k b bs).channels = s.channels ∧ (∀ c' : Fin 4, (s.notice k b bs).channel c' = s.channel c')
    ∧ (s.notice k b bs).lastPicked = s.lastPicked ∧ (s.notice k b bs).staging = s.staging
    ∧ (s.notice k b bs).links = s.links ∧ (∀ e : Dom, (s.notice k b bs).link e = s.link e)
    ∧ (s.notice k b bs).journals = s.journals ∧ (∀ e : Dom, (s.notice k b bs).journal e = s.journal e)
    ∧ (s.notice k b bs).directory = s.directory ∧ (∀ m : Num, (s.notice k b bs).dump m = s.dump m)
    ∧ (s.notice k b bs).store = s.store ∧ (s.notice k b bs).flash = s.flash
    ∧ (s.notice k b bs).platformPorts = s.platformPorts ∧ (s.notice k b bs).config = s.config
    ∧ (∀ e : Dom, (s.notice k b bs).settings e = s.settings e)
    ∧ (∀ e : Dom, (s.notice k b bs).port (.platform e) = s.port (.platform e)) := by
  have h (x : State) : ((x.advancePort .service).platformPorts = x.platformPorts) := by
    unfold State.advancePort; split <;> rfl
  have h' (x : State) (e : Dom) : (x.advancePort .service).port (.platform e) = x.port (.platform e) :=
    congrArg (Two.get · e) (h x)
  unfold State.notice; try dsimp only
  (repeat' split) <;> simp [h, h', State.setPort]

@[simp] theorem State.noticeOpened_frame (s : State) (d : Dom) (x : TriggerCause) (n : Num) (g : BitVec 16) :
    (s.noticeOpened d x n g).pending = s.pending ∧ (s.noticeOpened d x n g).freeCount = s.freeCount
    ∧ (s.noticeOpened d x n g).partTime = s.partTime ∧ (s.noticeOpened d x n g).startUp = s.startUp
    ∧ (s.noticeOpened d x n g).restart = s.restart ∧ (s.noticeOpened d x n g).powerGood = s.powerGood
    ∧ (s.noticeOpened d x n g).domains = s.domains ∧ (∀ e : Dom, (s.noticeOpened d x n g).domain e = s.domain e)
    ∧ (s.noticeOpened d x n g).plans = s.plans ∧ (∀ e : Dom, (s.noticeOpened d x n g).plan e = s.plan e)
    ∧ (s.noticeOpened d x n g).admissions = s.admissions
    ∧ (∀ e : Dom, (s.noticeOpened d x n g).admission e = s.admission e) ∧ (s.noticeOpened d x n g).works = s.works
    ∧ (∀ e : Dom, (s.noticeOpened d x n g).work e = s.work e) ∧ (s.noticeOpened d x n g).channels = s.channels
    ∧ (∀ c' : Fin 4, (s.noticeOpened d x n g).channel c' = s.channel c')
    ∧ (s.noticeOpened d x n g).lastPicked = s.lastPicked ∧ (s.noticeOpened d x n g).staging = s.staging
    ∧ (s.noticeOpened d x n g).links = s.links ∧ (∀ e : Dom, (s.noticeOpened d x n g).link e = s.link e)
    ∧ (s.noticeOpened d x n g).journals = s.journals ∧ (∀ e : Dom, (s.noticeOpened d x n g).journal e = s.journal e)
    ∧ (s.noticeOpened d x n g).directory = s.directory ∧ (∀ m : Num, (s.noticeOpened d x n g).dump m = s.dump m)
    ∧ (s.noticeOpened d x n g).store = s.store ∧ (s.noticeOpened d x n g).flash = s.flash
    ∧ (s.noticeOpened d x n g).platformPorts = s.platformPorts ∧ (s.noticeOpened d x n g).config = s.config
    ∧ (∀ e : Dom, (s.noticeOpened d x n g).settings e = s.settings e)
    ∧ (∀ e : Dom, (s.noticeOpened d x n g).port (.platform e) = s.port (.platform e)) := by
  unfold State.noticeOpened; try dsimp only
  (repeat' split) <;> simp

@[simp] theorem State.noticeOpenFailed_frame (s : State) (d : Dom) (x : TriggerCause) (w : FailureCause) :
    (s.noticeOpenFailed d x w).pending = s.pending ∧ (s.noticeOpenFailed d x w).freeCount = s.freeCount
    ∧ (s.noticeOpenFailed d x w).partTime = s.partTime ∧ (s.noticeOpenFailed d x w).startUp = s.startUp
    ∧ (s.noticeOpenFailed d x w).restart = s.restart ∧ (s.noticeOpenFailed d x w).powerGood = s.powerGood
    ∧ (s.noticeOpenFailed d x w).domains = s.domains ∧ (∀ e : Dom, (s.noticeOpenFailed d x w).domain e = s.domain e)
    ∧ (s.noticeOpenFailed d x w).plans = s.plans ∧ (∀ e : Dom, (s.noticeOpenFailed d x w).plan e = s.plan e)
    ∧ (s.noticeOpenFailed d x w).admissions = s.admissions
    ∧ (∀ e : Dom, (s.noticeOpenFailed d x w).admission e = s.admission e)
    ∧ (s.noticeOpenFailed d x w).works = s.works ∧ (∀ e : Dom, (s.noticeOpenFailed d x w).work e = s.work e)
    ∧ (s.noticeOpenFailed d x w).channels = s.channels
    ∧ (∀ c' : Fin 4, (s.noticeOpenFailed d x w).channel c' = s.channel c')
    ∧ (s.noticeOpenFailed d x w).lastPicked = s.lastPicked ∧ (s.noticeOpenFailed d x w).staging = s.staging
    ∧ (s.noticeOpenFailed d x w).links = s.links ∧ (∀ e : Dom, (s.noticeOpenFailed d x w).link e = s.link e)
    ∧ (s.noticeOpenFailed d x w).journals = s.journals
    ∧ (∀ e : Dom, (s.noticeOpenFailed d x w).journal e = s.journal e)
    ∧ (s.noticeOpenFailed d x w).directory = s.directory ∧ (∀ m : Num, (s.noticeOpenFailed d x w).dump m = s.dump m)
    ∧ (s.noticeOpenFailed d x w).store = s.store ∧ (s.noticeOpenFailed d x w).flash = s.flash
    ∧ (s.noticeOpenFailed d x w).platformPorts = s.platformPorts ∧ (s.noticeOpenFailed d x w).config = s.config
    ∧ (∀ e : Dom, (s.noticeOpenFailed d x w).settings e = s.settings e)
    ∧ (∀ e : Dom, (s.noticeOpenFailed d x w).port (.platform e) = s.port (.platform e)) := by
  unfold State.noticeOpenFailed; try dsimp only
  (repeat' split) <;> simp

@[simp] theorem State.noticeSectionEnd_frame (s : State) (d : Dom) (n : Num) (x : SectionRecord) :
    (s.noticeSectionEnd d n x).pending = s.pending ∧ (s.noticeSectionEnd d n x).freeCount = s.freeCount
    ∧ (s.noticeSectionEnd d n x).partTime = s.partTime ∧ (s.noticeSectionEnd d n x).startUp = s.startUp
    ∧ (s.noticeSectionEnd d n x).restart = s.restart ∧ (s.noticeSectionEnd d n x).powerGood = s.powerGood
    ∧ (s.noticeSectionEnd d n x).domains = s.domains ∧ (∀ e : Dom, (s.noticeSectionEnd d n x).domain e = s.domain e)
    ∧ (s.noticeSectionEnd d n x).plans = s.plans ∧ (∀ e : Dom, (s.noticeSectionEnd d n x).plan e = s.plan e)
    ∧ (s.noticeSectionEnd d n x).admissions = s.admissions
    ∧ (∀ e : Dom, (s.noticeSectionEnd d n x).admission e = s.admission e)
    ∧ (s.noticeSectionEnd d n x).works = s.works ∧ (∀ e : Dom, (s.noticeSectionEnd d n x).work e = s.work e)
    ∧ (s.noticeSectionEnd d n x).channels = s.channels
    ∧ (∀ c' : Fin 4, (s.noticeSectionEnd d n x).channel c' = s.channel c')
    ∧ (s.noticeSectionEnd d n x).lastPicked = s.lastPicked ∧ (s.noticeSectionEnd d n x).staging = s.staging
    ∧ (s.noticeSectionEnd d n x).links = s.links ∧ (∀ e : Dom, (s.noticeSectionEnd d n x).link e = s.link e)
    ∧ (s.noticeSectionEnd d n x).journals = s.journals
    ∧ (∀ e : Dom, (s.noticeSectionEnd d n x).journal e = s.journal e)
    ∧ (s.noticeSectionEnd d n x).directory = s.directory ∧ (∀ m : Num, (s.noticeSectionEnd d n x).dump m = s.dump m)
    ∧ (s.noticeSectionEnd d n x).store = s.store ∧ (s.noticeSectionEnd d n x).flash = s.flash
    ∧ (s.noticeSectionEnd d n x).platformPorts = s.platformPorts ∧ (s.noticeSectionEnd d n x).config = s.config
    ∧ (∀ e : Dom, (s.noticeSectionEnd d n x).settings e = s.settings e)
    ∧ (∀ e : Dom, (s.noticeSectionEnd d n x).port (.platform e) = s.port (.platform e)) := by
  unfold State.noticeSectionEnd; try dsimp only
  (repeat' split) <;> simp

@[simp] theorem State.noticeDumpClosed_frame (s : State) (d : Dom) (n : Num) (x : Option EndCause) (k : BitVec 32) (g : Nat) :
    (s.noticeDumpClosed d n x k g).pending = s.pending ∧ (s.noticeDumpClosed d n x k g).freeCount = s.freeCount
    ∧ (s.noticeDumpClosed d n x k g).partTime = s.partTime ∧ (s.noticeDumpClosed d n x k g).startUp = s.startUp
    ∧ (s.noticeDumpClosed d n x k g).restart = s.restart ∧ (s.noticeDumpClosed d n x k g).powerGood = s.powerGood
    ∧ (s.noticeDumpClosed d n x k g).domains = s.domains
    ∧ (∀ e : Dom, (s.noticeDumpClosed d n x k g).domain e = s.domain e)
    ∧ (s.noticeDumpClosed d n x k g).plans = s.plans ∧ (∀ e : Dom, (s.noticeDumpClosed d n x k g).plan e = s.plan e)
    ∧ (s.noticeDumpClosed d n x k g).admissions = s.admissions
    ∧ (∀ e : Dom, (s.noticeDumpClosed d n x k g).admission e = s.admission e)
    ∧ (s.noticeDumpClosed d n x k g).works = s.works ∧ (∀ e : Dom, (s.noticeDumpClosed d n x k g).work e = s.work e)
    ∧ (s.noticeDumpClosed d n x k g).channels = s.channels
    ∧ (∀ c' : Fin 4, (s.noticeDumpClosed d n x k g).channel c' = s.channel c')
    ∧ (s.noticeDumpClosed d n x k g).lastPicked = s.lastPicked ∧ (s.noticeDumpClosed d n x k g).staging = s.staging
    ∧ (s.noticeDumpClosed d n x k g).links = s.links ∧ (∀ e : Dom, (s.noticeDumpClosed d n x k g).link e = s.link e)
    ∧ (s.noticeDumpClosed d n x k g).journals = s.journals
    ∧ (∀ e : Dom, (s.noticeDumpClosed d n x k g).journal e = s.journal e)
    ∧ (s.noticeDumpClosed d n x k g).directory = s.directory
    ∧ (∀ m : Num, (s.noticeDumpClosed d n x k g).dump m = s.dump m) ∧ (s.noticeDumpClosed d n x k g).store = s.store
    ∧ (s.noticeDumpClosed d n x k g).flash = s.flash ∧ (s.noticeDumpClosed d n x k g).platformPorts = s.platformPorts
    ∧ (s.noticeDumpClosed d n x k g).config = s.config
    ∧ (∀ e : Dom, (s.noticeDumpClosed d n x k g).settings e = s.settings e)
    ∧ (∀ e : Dom, (s.noticeDumpClosed d n x k g).port (.platform e) = s.port (.platform e)) := by
  unfold State.noticeDumpClosed; try dsimp only
  (repeat' split) <;> simp

@[simp] theorem State.noticeHoldReleased_frame (s : State) (d : Dom) (r : ReleaseReason) (n : Num) :
    (s.noticeHoldReleased d r n).pending = s.pending ∧ (s.noticeHoldReleased d r n).freeCount = s.freeCount
    ∧ (s.noticeHoldReleased d r n).partTime = s.partTime ∧ (s.noticeHoldReleased d r n).startUp = s.startUp
    ∧ (s.noticeHoldReleased d r n).restart = s.restart ∧ (s.noticeHoldReleased d r n).powerGood = s.powerGood
    ∧ (s.noticeHoldReleased d r n).domains = s.domains
    ∧ (∀ e : Dom, (s.noticeHoldReleased d r n).domain e = s.domain e) ∧ (s.noticeHoldReleased d r n).plans = s.plans
    ∧ (∀ e : Dom, (s.noticeHoldReleased d r n).plan e = s.plan e)
    ∧ (s.noticeHoldReleased d r n).admissions = s.admissions
    ∧ (∀ e : Dom, (s.noticeHoldReleased d r n).admission e = s.admission e)
    ∧ (s.noticeHoldReleased d r n).works = s.works ∧ (∀ e : Dom, (s.noticeHoldReleased d r n).work e = s.work e)
    ∧ (s.noticeHoldReleased d r n).channels = s.channels
    ∧ (∀ c' : Fin 4, (s.noticeHoldReleased d r n).channel c' = s.channel c')
    ∧ (s.noticeHoldReleased d r n).lastPicked = s.lastPicked ∧ (s.noticeHoldReleased d r n).staging = s.staging
    ∧ (s.noticeHoldReleased d r n).links = s.links ∧ (∀ e : Dom, (s.noticeHoldReleased d r n).link e = s.link e)
    ∧ (s.noticeHoldReleased d r n).journals = s.journals
    ∧ (∀ e : Dom, (s.noticeHoldReleased d r n).journal e = s.journal e)
    ∧ (s.noticeHoldReleased d r n).directory = s.directory
    ∧ (∀ m : Num, (s.noticeHoldReleased d r n).dump m = s.dump m) ∧ (s.noticeHoldReleased d r n).store = s.store
    ∧ (s.noticeHoldReleased d r n).flash = s.flash ∧ (s.noticeHoldReleased d r n).platformPorts = s.platformPorts
    ∧ (s.noticeHoldReleased d r n).config = s.config
    ∧ (∀ e : Dom, (s.noticeHoldReleased d r n).settings e = s.settings e)
    ∧ (∀ e : Dom, (s.noticeHoldReleased d r n).port (.platform e) = s.port (.platform e)) := by
  unfold State.noticeHoldReleased; try dsimp only
  (repeat' split) <;> simp

@[simp] theorem State.noticeLink_frame (s : State) (d : Dom) (k : Nat) (x y : Mode) :
    (s.noticeLink d k x y).pending = s.pending ∧ (s.noticeLink d k x y).freeCount = s.freeCount
    ∧ (s.noticeLink d k x y).partTime = s.partTime ∧ (s.noticeLink d k x y).startUp = s.startUp
    ∧ (s.noticeLink d k x y).restart = s.restart ∧ (s.noticeLink d k x y).powerGood = s.powerGood
    ∧ (s.noticeLink d k x y).domains = s.domains ∧ (∀ e : Dom, (s.noticeLink d k x y).domain e = s.domain e)
    ∧ (s.noticeLink d k x y).plans = s.plans ∧ (∀ e : Dom, (s.noticeLink d k x y).plan e = s.plan e)
    ∧ (s.noticeLink d k x y).admissions = s.admissions
    ∧ (∀ e : Dom, (s.noticeLink d k x y).admission e = s.admission e) ∧ (s.noticeLink d k x y).works = s.works
    ∧ (∀ e : Dom, (s.noticeLink d k x y).work e = s.work e) ∧ (s.noticeLink d k x y).channels = s.channels
    ∧ (∀ c' : Fin 4, (s.noticeLink d k x y).channel c' = s.channel c')
    ∧ (s.noticeLink d k x y).lastPicked = s.lastPicked ∧ (s.noticeLink d k x y).staging = s.staging
    ∧ (s.noticeLink d k x y).links = s.links ∧ (∀ e : Dom, (s.noticeLink d k x y).link e = s.link e)
    ∧ (s.noticeLink d k x y).journals = s.journals ∧ (∀ e : Dom, (s.noticeLink d k x y).journal e = s.journal e)
    ∧ (s.noticeLink d k x y).directory = s.directory ∧ (∀ m : Num, (s.noticeLink d k x y).dump m = s.dump m)
    ∧ (s.noticeLink d k x y).store = s.store ∧ (s.noticeLink d k x y).flash = s.flash
    ∧ (s.noticeLink d k x y).platformPorts = s.platformPorts ∧ (s.noticeLink d k x y).config = s.config
    ∧ (∀ e : Dom, (s.noticeLink d k x y).settings e = s.settings e)
    ∧ (∀ e : Dom, (s.noticeLink d k x y).port (.platform e) = s.port (.platform e)) := by
  unfold State.noticeLink; try dsimp only
  (repeat' split) <;> simp

@[simp] theorem State.noticeVerify_frame (s : State) (n : Num) (w r : Nat) (x y : BitVec 32) :
    (s.noticeVerify n w r x y).pending = s.pending ∧ (s.noticeVerify n w r x y).freeCount = s.freeCount
    ∧ (s.noticeVerify n w r x y).partTime = s.partTime ∧ (s.noticeVerify n w r x y).startUp = s.startUp
    ∧ (s.noticeVerify n w r x y).restart = s.restart ∧ (s.noticeVerify n w r x y).powerGood = s.powerGood
    ∧ (s.noticeVerify n w r x y).domains = s.domains ∧ (∀ e : Dom, (s.noticeVerify n w r x y).domain e = s.domain e)
    ∧ (s.noticeVerify n w r x y).plans = s.plans ∧ (∀ e : Dom, (s.noticeVerify n w r x y).plan e = s.plan e)
    ∧ (s.noticeVerify n w r x y).admissions = s.admissions
    ∧ (∀ e : Dom, (s.noticeVerify n w r x y).admission e = s.admission e)
    ∧ (s.noticeVerify n w r x y).works = s.works ∧ (∀ e : Dom, (s.noticeVerify n w r x y).work e = s.work e)
    ∧ (s.noticeVerify n w r x y).channels = s.channels
    ∧ (∀ c' : Fin 4, (s.noticeVerify n w r x y).channel c' = s.channel c')
    ∧ (s.noticeVerify n w r x y).lastPicked = s.lastPicked ∧ (s.noticeVerify n w r x y).staging = s.staging
    ∧ (s.noticeVerify n w r x y).links = s.links ∧ (∀ e : Dom, (s.noticeVerify n w r x y).link e = s.link e)
    ∧ (s.noticeVerify n w r x y).journals = s.journals
    ∧ (∀ e : Dom, (s.noticeVerify n w r x y).journal e = s.journal e)
    ∧ (s.noticeVerify n w r x y).directory = s.directory ∧ (∀ m : Num, (s.noticeVerify n w r x y).dump m = s.dump m)
    ∧ (s.noticeVerify n w r x y).store = s.store ∧ (s.noticeVerify n w r x y).flash = s.flash
    ∧ (s.noticeVerify n w r x y).platformPorts = s.platformPorts ∧ (s.noticeVerify n w r x y).config = s.config
    ∧ (∀ e : Dom, (s.noticeVerify n w r x y).settings e = s.settings e)
    ∧ (∀ e : Dom, (s.noticeVerify n w r x y).port (.platform e) = s.port (.platform e)) := by
  unfold State.noticeVerify; try dsimp only
  (repeat' split) <;> simp

@[simp] theorem State.noticeIdent_frame (s : State)  :
    s.noticeIdent.pending = s.pending ∧ s.noticeIdent.freeCount = s.freeCount ∧ s.noticeIdent.partTime = s.partTime
    ∧ s.noticeIdent.startUp = s.startUp ∧ s.noticeIdent.restart = s.restart ∧ s.noticeIdent.powerGood = s.powerGood
    ∧ s.noticeIdent.domains = s.domains ∧ (∀ e : Dom, s.noticeIdent.domain e = s.domain e)
    ∧ s.noticeIdent.plans = s.plans ∧ (∀ e : Dom, s.noticeIdent.plan e = s.plan e)
    ∧ s.noticeIdent.admissions = s.admissions ∧ (∀ e : Dom, s.noticeIdent.admission e = s.admission e)
    ∧ s.noticeIdent.works = s.works ∧ (∀ e : Dom, s.noticeIdent.work e = s.work e)
    ∧ s.noticeIdent.channels = s.channels ∧ (∀ c' : Fin 4, s.noticeIdent.channel c' = s.channel c')
    ∧ s.noticeIdent.lastPicked = s.lastPicked ∧ s.noticeIdent.staging = s.staging ∧ s.noticeIdent.links = s.links
    ∧ (∀ e : Dom, s.noticeIdent.link e = s.link e) ∧ s.noticeIdent.journals = s.journals
    ∧ (∀ e : Dom, s.noticeIdent.journal e = s.journal e) ∧ s.noticeIdent.directory = s.directory
    ∧ (∀ m : Num, s.noticeIdent.dump m = s.dump m) ∧ s.noticeIdent.store = s.store ∧ s.noticeIdent.flash = s.flash
    ∧ s.noticeIdent.platformPorts = s.platformPorts ∧ s.noticeIdent.config = s.config
    ∧ (∀ e : Dom, s.noticeIdent.settings e = s.settings e)
    ∧ (∀ e : Dom, s.noticeIdent.port (.platform e) = s.port (.platform e)) := by
  unfold State.noticeIdent; try dsimp only
  (repeat' split) <;> simp

@[simp] theorem State.appendDevice_frame (s : State) (d : Dom) (k : Byte) (v : Nat) (bs : List Byte) :
    (s.appendDevice d k v bs).pending = s.pending ∧ (s.appendDevice d k v bs).freeCount = s.freeCount
    ∧ (s.appendDevice d k v bs).partTime = s.partTime ∧ (s.appendDevice d k v bs).startUp = s.startUp
    ∧ (s.appendDevice d k v bs).restart = s.restart ∧ (s.appendDevice d k v bs).powerGood = s.powerGood
    ∧ (s.appendDevice d k v bs).domains = s.domains ∧ (∀ e : Dom, (s.appendDevice d k v bs).domain e = s.domain e)
    ∧ (s.appendDevice d k v bs).plans = s.plans ∧ (∀ e : Dom, (s.appendDevice d k v bs).plan e = s.plan e)
    ∧ (s.appendDevice d k v bs).admissions = s.admissions
    ∧ (∀ e : Dom, (s.appendDevice d k v bs).admission e = s.admission e) ∧ (s.appendDevice d k v bs).works = s.works
    ∧ (∀ e : Dom, (s.appendDevice d k v bs).work e = s.work e) ∧ (s.appendDevice d k v bs).channels = s.channels
    ∧ (∀ c' : Fin 4, (s.appendDevice d k v bs).channel c' = s.channel c')
    ∧ (s.appendDevice d k v bs).lastPicked = s.lastPicked ∧ (s.appendDevice d k v bs).staging = s.staging
    ∧ (s.appendDevice d k v bs).links = s.links ∧ (∀ e : Dom, (s.appendDevice d k v bs).link e = s.link e)
    ∧ (s.appendDevice d k v bs).directory = s.directory ∧ (∀ m : Num, (s.appendDevice d k v bs).dump m = s.dump m)
    ∧ (s.appendDevice d k v bs).store = s.store ∧ (s.appendDevice d k v bs).flash = s.flash
    ∧ (s.appendDevice d k v bs).servicePort = s.servicePort
    ∧ (s.appendDevice d k v bs).platformPorts = s.platformPorts ∧ (s.appendDevice d k v bs).service = s.service
    ∧ (s.appendDevice d k v bs).config = s.config ∧ (∀ e : Dom, (s.appendDevice d k v bs).settings e = s.settings e)
    ∧ (∀ q : PortId, (s.appendDevice d k v bs).port q = s.port q) := by
  unfold State.appendDevice; try dsimp only
  (repeat' split) <;> simp

@[simp] theorem State.recordTrigger_frame (s : State) (d : Dom) (x : TriggerCause) (k : Option (BitVec 32)) (n : Num) :
    (s.recordTrigger d x k n).pending = s.pending ∧ (s.recordTrigger d x k n).freeCount = s.freeCount
    ∧ (s.recordTrigger d x k n).partTime = s.partTime ∧ (s.recordTrigger d x k n).startUp = s.startUp
    ∧ (s.recordTrigger d x k n).restart = s.restart ∧ (s.recordTrigger d x k n).powerGood = s.powerGood
    ∧ (s.recordTrigger d x k n).domains = s.domains ∧ (∀ e : Dom, (s.recordTrigger d x k n).domain e = s.domain e)
    ∧ (s.recordTrigger d x k n).plans = s.plans ∧ (∀ e : Dom, (s.recordTrigger d x k n).plan e = s.plan e)
    ∧ (s.recordTrigger d x k n).admissions = s.admissions
    ∧ (∀ e : Dom, (s.recordTrigger d x k n).admission e = s.admission e) ∧ (s.recordTrigger d x k n).works = s.works
    ∧ (∀ e : Dom, (s.recordTrigger d x k n).work e = s.work e) ∧ (s.recordTrigger d x k n).channels = s.channels
    ∧ (∀ c' : Fin 4, (s.recordTrigger d x k n).channel c' = s.channel c')
    ∧ (s.recordTrigger d x k n).lastPicked = s.lastPicked ∧ (s.recordTrigger d x k n).staging = s.staging
    ∧ (s.recordTrigger d x k n).links = s.links ∧ (∀ e : Dom, (s.recordTrigger d x k n).link e = s.link e)
    ∧ (s.recordTrigger d x k n).directory = s.directory ∧ (∀ m : Num, (s.recordTrigger d x k n).dump m = s.dump m)
    ∧ (s.recordTrigger d x k n).store = s.store ∧ (s.recordTrigger d x k n).flash = s.flash
    ∧ (s.recordTrigger d x k n).servicePort = s.servicePort
    ∧ (s.recordTrigger d x k n).platformPorts = s.platformPorts ∧ (s.recordTrigger d x k n).service = s.service
    ∧ (s.recordTrigger d x k n).config = s.config ∧ (∀ e : Dom, (s.recordTrigger d x k n).settings e = s.settings e)
    ∧ (∀ q : PortId, (s.recordTrigger d x k n).port q = s.port q) := by
  unfold State.recordTrigger; try dsimp only
  (repeat' split) <;> simp

@[simp] theorem State.recordLinkShift_frame (s : State) (d : Dom) (x y : Mode) :
    (s.recordLinkShift d x y).pending = s.pending ∧ (s.recordLinkShift d x y).freeCount = s.freeCount
    ∧ (s.recordLinkShift d x y).partTime = s.partTime ∧ (s.recordLinkShift d x y).startUp = s.startUp
    ∧ (s.recordLinkShift d x y).restart = s.restart ∧ (s.recordLinkShift d x y).powerGood = s.powerGood
    ∧ (s.recordLinkShift d x y).domains = s.domains ∧ (∀ e : Dom, (s.recordLinkShift d x y).domain e = s.domain e)
    ∧ (s.recordLinkShift d x y).plans = s.plans ∧ (∀ e : Dom, (s.recordLinkShift d x y).plan e = s.plan e)
    ∧ (s.recordLinkShift d x y).admissions = s.admissions
    ∧ (∀ e : Dom, (s.recordLinkShift d x y).admission e = s.admission e) ∧ (s.recordLinkShift d x y).works = s.works
    ∧ (∀ e : Dom, (s.recordLinkShift d x y).work e = s.work e) ∧ (s.recordLinkShift d x y).channels = s.channels
    ∧ (∀ c' : Fin 4, (s.recordLinkShift d x y).channel c' = s.channel c')
    ∧ (s.recordLinkShift d x y).lastPicked = s.lastPicked ∧ (s.recordLinkShift d x y).staging = s.staging
    ∧ (s.recordLinkShift d x y).links = s.links ∧ (∀ e : Dom, (s.recordLinkShift d x y).link e = s.link e)
    ∧ (s.recordLinkShift d x y).directory = s.directory ∧ (∀ m : Num, (s.recordLinkShift d x y).dump m = s.dump m)
    ∧ (s.recordLinkShift d x y).store = s.store ∧ (s.recordLinkShift d x y).flash = s.flash
    ∧ (s.recordLinkShift d x y).servicePort = s.servicePort
    ∧ (s.recordLinkShift d x y).platformPorts = s.platformPorts ∧ (s.recordLinkShift d x y).service = s.service
    ∧ (s.recordLinkShift d x y).config = s.config ∧ (∀ e : Dom, (s.recordLinkShift d x y).settings e = s.settings e)
    ∧ (∀ q : PortId, (s.recordLinkShift d x y).port q = s.port q) := by
  unfold State.recordLinkShift; try dsimp only
  (repeat' split) <;> simp

@[simp] theorem State.recordHoldRelease_frame (s : State) (d : Dom) (r : ReleaseReason) (n : Num) :
    (s.recordHoldRelease d r n).pending = s.pending ∧ (s.recordHoldRelease d r n).freeCount = s.freeCount
    ∧ (s.recordHoldRelease d r n).partTime = s.partTime ∧ (s.recordHoldRelease d r n).startUp = s.startUp
    ∧ (s.recordHoldRelease d r n).restart = s.restart ∧ (s.recordHoldRelease d r n).powerGood = s.powerGood
    ∧ (s.recordHoldRelease d r n).domains = s.domains
    ∧ (∀ e : Dom, (s.recordHoldRelease d r n).domain e = s.domain e) ∧ (s.recordHoldRelease d r n).plans = s.plans
    ∧ (∀ e : Dom, (s.recordHoldRelease d r n).plan e = s.plan e)
    ∧ (s.recordHoldRelease d r n).admissions = s.admissions
    ∧ (∀ e : Dom, (s.recordHoldRelease d r n).admission e = s.admission e)
    ∧ (s.recordHoldRelease d r n).works = s.works ∧ (∀ e : Dom, (s.recordHoldRelease d r n).work e = s.work e)
    ∧ (s.recordHoldRelease d r n).channels = s.channels
    ∧ (∀ c' : Fin 4, (s.recordHoldRelease d r n).channel c' = s.channel c')
    ∧ (s.recordHoldRelease d r n).lastPicked = s.lastPicked ∧ (s.recordHoldRelease d r n).staging = s.staging
    ∧ (s.recordHoldRelease d r n).links = s.links ∧ (∀ e : Dom, (s.recordHoldRelease d r n).link e = s.link e)
    ∧ (s.recordHoldRelease d r n).directory = s.directory
    ∧ (∀ m : Num, (s.recordHoldRelease d r n).dump m = s.dump m) ∧ (s.recordHoldRelease d r n).store = s.store
    ∧ (s.recordHoldRelease d r n).flash = s.flash ∧ (s.recordHoldRelease d r n).servicePort = s.servicePort
    ∧ (s.recordHoldRelease d r n).platformPorts = s.platformPorts ∧ (s.recordHoldRelease d r n).service = s.service
    ∧ (s.recordHoldRelease d r n).config = s.config
    ∧ (∀ e : Dom, (s.recordHoldRelease d r n).settings e = s.settings e)
    ∧ (∀ q : PortId, (s.recordHoldRelease d r n).port q = s.port q) := by
  unfold State.recordHoldRelease; try dsimp only
  (repeat' split) <;> simp

@[simp] theorem State.recordDumpClosed_frame (s : State) (d : Dom) (n : Num) (x : Option EndCause) (k : BitVec 32) :
    (s.recordDumpClosed d n x k).pending = s.pending ∧ (s.recordDumpClosed d n x k).freeCount = s.freeCount
    ∧ (s.recordDumpClosed d n x k).partTime = s.partTime ∧ (s.recordDumpClosed d n x k).startUp = s.startUp
    ∧ (s.recordDumpClosed d n x k).restart = s.restart ∧ (s.recordDumpClosed d n x k).powerGood = s.powerGood
    ∧ (s.recordDumpClosed d n x k).domains = s.domains
    ∧ (∀ e : Dom, (s.recordDumpClosed d n x k).domain e = s.domain e) ∧ (s.recordDumpClosed d n x k).plans = s.plans
    ∧ (∀ e : Dom, (s.recordDumpClosed d n x k).plan e = s.plan e)
    ∧ (s.recordDumpClosed d n x k).admissions = s.admissions
    ∧ (∀ e : Dom, (s.recordDumpClosed d n x k).admission e = s.admission e)
    ∧ (s.recordDumpClosed d n x k).works = s.works ∧ (∀ e : Dom, (s.recordDumpClosed d n x k).work e = s.work e)
    ∧ (s.recordDumpClosed d n x k).channels = s.channels
    ∧ (∀ c' : Fin 4, (s.recordDumpClosed d n x k).channel c' = s.channel c')
    ∧ (s.recordDumpClosed d n x k).lastPicked = s.lastPicked ∧ (s.recordDumpClosed d n x k).staging = s.staging
    ∧ (s.recordDumpClosed d n x k).links = s.links ∧ (∀ e : Dom, (s.recordDumpClosed d n x k).link e = s.link e)
    ∧ (s.recordDumpClosed d n x k).directory = s.directory
    ∧ (∀ m : Num, (s.recordDumpClosed d n x k).dump m = s.dump m) ∧ (s.recordDumpClosed d n x k).store = s.store
    ∧ (s.recordDumpClosed d n x k).flash = s.flash ∧ (s.recordDumpClosed d n x k).servicePort = s.servicePort
    ∧ (s.recordDumpClosed d n x k).platformPorts = s.platformPorts ∧ (s.recordDumpClosed d n x k).service = s.service
    ∧ (s.recordDumpClosed d n x k).config = s.config
    ∧ (∀ e : Dom, (s.recordDumpClosed d n x k).settings e = s.settings e)
    ∧ (∀ q : PortId, (s.recordDumpClosed d n x k).port q = s.port q) := by
  unfold State.recordDumpClosed; try dsimp only
  (repeat' split) <;> simp

@[simp] theorem State.recordDumpFailed_frame (s : State) (d : Dom) (x : TriggerCause) (w : FailureCause) :
    (s.recordDumpFailed d x w).pending = s.pending ∧ (s.recordDumpFailed d x w).freeCount = s.freeCount
    ∧ (s.recordDumpFailed d x w).partTime = s.partTime ∧ (s.recordDumpFailed d x w).startUp = s.startUp
    ∧ (s.recordDumpFailed d x w).restart = s.restart ∧ (s.recordDumpFailed d x w).powerGood = s.powerGood
    ∧ (s.recordDumpFailed d x w).domains = s.domains ∧ (∀ e : Dom, (s.recordDumpFailed d x w).domain e = s.domain e)
    ∧ (s.recordDumpFailed d x w).plans = s.plans ∧ (∀ e : Dom, (s.recordDumpFailed d x w).plan e = s.plan e)
    ∧ (s.recordDumpFailed d x w).admissions = s.admissions
    ∧ (∀ e : Dom, (s.recordDumpFailed d x w).admission e = s.admission e)
    ∧ (s.recordDumpFailed d x w).works = s.works ∧ (∀ e : Dom, (s.recordDumpFailed d x w).work e = s.work e)
    ∧ (s.recordDumpFailed d x w).channels = s.channels
    ∧ (∀ c' : Fin 4, (s.recordDumpFailed d x w).channel c' = s.channel c')
    ∧ (s.recordDumpFailed d x w).lastPicked = s.lastPicked ∧ (s.recordDumpFailed d x w).staging = s.staging
    ∧ (s.recordDumpFailed d x w).links = s.links ∧ (∀ e : Dom, (s.recordDumpFailed d x w).link e = s.link e)
    ∧ (s.recordDumpFailed d x w).directory = s.directory ∧ (∀ m : Num, (s.recordDumpFailed d x w).dump m = s.dump m)
    ∧ (s.recordDumpFailed d x w).store = s.store ∧ (s.recordDumpFailed d x w).flash = s.flash
    ∧ (s.recordDumpFailed d x w).servicePort = s.servicePort
    ∧ (s.recordDumpFailed d x w).platformPorts = s.platformPorts ∧ (s.recordDumpFailed d x w).service = s.service
    ∧ (s.recordDumpFailed d x w).config = s.config
    ∧ (∀ e : Dom, (s.recordDumpFailed d x w).settings e = s.settings e)
    ∧ (∀ q : PortId, (s.recordDumpFailed d x w).port q = s.port q) := by
  unfold State.recordDumpFailed; try dsimp only
  (repeat' split) <;> simp

@[simp] theorem State.recordStoreRetire_frame (s : State) (d : Dom) (b : Nat) (n : Num) (l : Bool) :
    (s.recordStoreRetire d b n l).pending = s.pending ∧ (s.recordStoreRetire d b n l).freeCount = s.freeCount
    ∧ (s.recordStoreRetire d b n l).partTime = s.partTime ∧ (s.recordStoreRetire d b n l).startUp = s.startUp
    ∧ (s.recordStoreRetire d b n l).restart = s.restart ∧ (s.recordStoreRetire d b n l).powerGood = s.powerGood
    ∧ (s.recordStoreRetire d b n l).domains = s.domains
    ∧ (∀ e : Dom, (s.recordStoreRetire d b n l).domain e = s.domain e)
    ∧ (s.recordStoreRetire d b n l).plans = s.plans ∧ (∀ e : Dom, (s.recordStoreRetire d b n l).plan e = s.plan e)
    ∧ (s.recordStoreRetire d b n l).admissions = s.admissions
    ∧ (∀ e : Dom, (s.recordStoreRetire d b n l).admission e = s.admission e)
    ∧ (s.recordStoreRetire d b n l).works = s.works ∧ (∀ e : Dom, (s.recordStoreRetire d b n l).work e = s.work e)
    ∧ (s.recordStoreRetire d b n l).channels = s.channels
    ∧ (∀ c' : Fin 4, (s.recordStoreRetire d b n l).channel c' = s.channel c')
    ∧ (s.recordStoreRetire d b n l).lastPicked = s.lastPicked ∧ (s.recordStoreRetire d b n l).staging = s.staging
    ∧ (s.recordStoreRetire d b n l).links = s.links ∧ (∀ e : Dom, (s.recordStoreRetire d b n l).link e = s.link e)
    ∧ (s.recordStoreRetire d b n l).directory = s.directory
    ∧ (∀ m : Num, (s.recordStoreRetire d b n l).dump m = s.dump m) ∧ (s.recordStoreRetire d b n l).store = s.store
    ∧ (s.recordStoreRetire d b n l).flash = s.flash ∧ (s.recordStoreRetire d b n l).servicePort = s.servicePort
    ∧ (s.recordStoreRetire d b n l).platformPorts = s.platformPorts
    ∧ (s.recordStoreRetire d b n l).service = s.service ∧ (s.recordStoreRetire d b n l).config = s.config
    ∧ (∀ e : Dom, (s.recordStoreRetire d b n l).settings e = s.settings e)
    ∧ (∀ q : PortId, (s.recordStoreRetire d b n l).port q = s.port q) := by
  unfold State.recordStoreRetire; try dsimp only
  (repeat' split) <;> simp

@[simp] theorem State.pass_frame (s : State) (d : Dom) :
    (s.pass d).pending = s.pending ∧ (s.pass d).freeCount = s.freeCount ∧ (s.pass d).partTime = s.partTime
    ∧ (s.pass d).startUp = s.startUp ∧ (s.pass d).restart = s.restart ∧ (s.pass d).powerGood = s.powerGood
    ∧ (s.pass d).domains = s.domains ∧ (∀ e : Dom, (s.pass d).domain e = s.domain e) ∧ (s.pass d).plans = s.plans
    ∧ (∀ e : Dom, (s.pass d).plan e = s.plan e) ∧ (s.pass d).works = s.works
    ∧ (∀ e : Dom, (s.pass d).work e = s.work e) ∧ (s.pass d).channels = s.channels
    ∧ (∀ c' : Fin 4, (s.pass d).channel c' = s.channel c') ∧ (s.pass d).lastPicked = s.lastPicked
    ∧ (s.pass d).staging = s.staging ∧ (s.pass d).links = s.links ∧ (∀ e : Dom, (s.pass d).link e = s.link e)
    ∧ (s.pass d).journals = s.journals ∧ (∀ e : Dom, (s.pass d).journal e = s.journal e) ∧ (s.pass d).store = s.store
    ∧ (s.pass d).flash = s.flash ∧ (s.pass d).servicePort = s.servicePort
    ∧ (s.pass d).platformPorts = s.platformPorts ∧ (s.pass d).service = s.service ∧ (s.pass d).config = s.config
    ∧ (∀ e : Dom, (s.pass d).settings e = s.settings e) ∧ (∀ q : PortId, (s.pass d).port q = s.port q) := by
  unfold State.pass; try dsimp only
  (repeat' split) <;> simp

@[simp] theorem State.replan_frame (s : State) (d : Dom) :
    (s.replan d).pending = s.pending ∧ (s.replan d).freeCount = s.freeCount ∧ (s.replan d).partTime = s.partTime
    ∧ (s.replan d).startUp = s.startUp ∧ (s.replan d).restart = s.restart ∧ (s.replan d).powerGood = s.powerGood
    ∧ (s.replan d).domains = s.domains ∧ (∀ e : Dom, (s.replan d).domain e = s.domain e)
    ∧ (s.replan d).plans = s.plans ∧ (∀ e : Dom, (s.replan d).plan e = s.plan e) ∧ (s.replan d).works = s.works
    ∧ (∀ e : Dom, (s.replan d).work e = s.work e) ∧ (s.replan d).channels = s.channels
    ∧ (∀ c' : Fin 4, (s.replan d).channel c' = s.channel c') ∧ (s.replan d).lastPicked = s.lastPicked
    ∧ (s.replan d).staging = s.staging ∧ (s.replan d).links = s.links ∧ (∀ e : Dom, (s.replan d).link e = s.link e)
    ∧ (s.replan d).journals = s.journals ∧ (∀ e : Dom, (s.replan d).journal e = s.journal e)
    ∧ (s.replan d).store = s.store ∧ (s.replan d).flash = s.flash ∧ (s.replan d).servicePort = s.servicePort
    ∧ (s.replan d).platformPorts = s.platformPorts ∧ (s.replan d).service = s.service
    ∧ (s.replan d).config = s.config ∧ (∀ e : Dom, (s.replan d).settings e = s.settings e)
    ∧ (∀ q : PortId, (s.replan d).port q = s.port q) := by
  unfold State.replan; try dsimp only
  (repeat' split) <;> simp

@[simp] theorem State.replanAll_frame (s : State)  :
    s.replanAll.pending = s.pending ∧ s.replanAll.freeCount = s.freeCount ∧ s.replanAll.partTime = s.partTime
    ∧ s.replanAll.startUp = s.startUp ∧ s.replanAll.restart = s.restart ∧ s.replanAll.powerGood = s.powerGood
    ∧ s.replanAll.domains = s.domains ∧ (∀ e : Dom, s.replanAll.domain e = s.domain e) ∧ s.replanAll.plans = s.plans
    ∧ (∀ e : Dom, s.replanAll.plan e = s.plan e) ∧ s.replanAll.works = s.works
    ∧ (∀ e : Dom, s.replanAll.work e = s.work e) ∧ s.replanAll.channels = s.channels
    ∧ (∀ c' : Fin 4, s.replanAll.channel c' = s.channel c') ∧ s.replanAll.lastPicked = s.lastPicked
    ∧ s.replanAll.staging = s.staging ∧ s.replanAll.links = s.links ∧ (∀ e : Dom, s.replanAll.link e = s.link e)
    ∧ s.replanAll.journals = s.journals ∧ (∀ e : Dom, s.replanAll.journal e = s.journal e)
    ∧ s.replanAll.store = s.store ∧ s.replanAll.flash = s.flash ∧ s.replanAll.servicePort = s.servicePort
    ∧ s.replanAll.platformPorts = s.platformPorts ∧ s.replanAll.service = s.service ∧ s.replanAll.config = s.config
    ∧ (∀ e : Dom, s.replanAll.settings e = s.settings e) ∧ (∀ q : PortId, s.replanAll.port q = s.port q) := by
  unfold State.replanAll; try dsimp only
  (repeat' split) <;> simp

@[simp] theorem State.setShare_frame (s : State) (d : Dom) (i n : Nat) :
    (s.setShare d i n).pending = s.pending ∧ (s.setShare d i n).freeCount = s.freeCount
    ∧ (s.setShare d i n).partTime = s.partTime ∧ (s.setShare d i n).startUp = s.startUp
    ∧ (s.setShare d i n).restart = s.restart ∧ (s.setShare d i n).powerGood = s.powerGood
    ∧ (s.setShare d i n).domains = s.domains ∧ (∀ e : Dom, (s.setShare d i n).domain e = s.domain e)
    ∧ (s.setShare d i n).plans = s.plans ∧ (∀ e : Dom, (s.setShare d i n).plan e = s.plan e)
    ∧ (s.setShare d i n).works = s.works ∧ (∀ e : Dom, (s.setShare d i n).work e = s.work e)
    ∧ (s.setShare d i n).channels = s.channels ∧ (∀ c' : Fin 4, (s.setShare d i n).channel c' = s.channel c')
    ∧ (s.setShare d i n).lastPicked = s.lastPicked ∧ (s.setShare d i n).staging = s.staging
    ∧ (s.setShare d i n).links = s.links ∧ (∀ e : Dom, (s.setShare d i n).link e = s.link e)
    ∧ (s.setShare d i n).journals = s.journals ∧ (∀ e : Dom, (s.setShare d i n).journal e = s.journal e)
    ∧ (s.setShare d i n).directory = s.directory ∧ (∀ m : Num, (s.setShare d i n).dump m = s.dump m)
    ∧ (s.setShare d i n).store = s.store ∧ (s.setShare d i n).flash = s.flash
    ∧ (s.setShare d i n).servicePort = s.servicePort ∧ (s.setShare d i n).platformPorts = s.platformPorts
    ∧ (s.setShare d i n).service = s.service ∧ (s.setShare d i n).config = s.config
    ∧ (∀ e : Dom, (s.setShare d i n).settings e = s.settings e)
    ∧ (∀ q : PortId, (s.setShare d i n).port q = s.port q) := by
  unfold State.setShare; try dsimp only
  (repeat' split) <;> simp

@[simp] theorem State.endWait_frame (s : State)  :
    s.endWait.pending = s.pending ∧ s.endWait.freeCount = s.freeCount ∧ s.endWait.partTime = s.partTime
    ∧ s.endWait.startUp = s.startUp ∧ s.endWait.restart = s.restart ∧ s.endWait.powerGood = s.powerGood
    ∧ s.endWait.domains = s.domains ∧ (∀ e : Dom, s.endWait.domain e = s.domain e) ∧ s.endWait.plans = s.plans
    ∧ (∀ e : Dom, s.endWait.plan e = s.plan e) ∧ s.endWait.admissions = s.admissions
    ∧ (∀ e : Dom, s.endWait.admission e = s.admission e) ∧ s.endWait.works = s.works
    ∧ (∀ e : Dom, s.endWait.work e = s.work e) ∧ s.endWait.channels = s.channels
    ∧ (∀ c' : Fin 4, s.endWait.channel c' = s.channel c') ∧ s.endWait.lastPicked = s.lastPicked
    ∧ s.endWait.staging = s.staging ∧ s.endWait.links = s.links ∧ (∀ e : Dom, s.endWait.link e = s.link e)
    ∧ s.endWait.journals = s.journals ∧ (∀ e : Dom, s.endWait.journal e = s.journal e)
    ∧ s.endWait.directory = s.directory ∧ (∀ m : Num, s.endWait.dump m = s.dump m) ∧ s.endWait.flash = s.flash
    ∧ s.endWait.servicePort = s.servicePort ∧ s.endWait.platformPorts = s.platformPorts
    ∧ s.endWait.service = s.service ∧ s.endWait.config = s.config ∧ (∀ e : Dom, s.endWait.settings e = s.settings e)
    ∧ (∀ q : PortId, s.endWait.port q = s.port q) := by
  unfold State.endWait; try dsimp only
  (repeat' split) <;> simp

theorem refillLoop_frame (n : Nat) (s : State) :
    ∃ st, refillLoop n s = { s with store := st } := by
  induction n generalizing s with
  | zero => exact ⟨s.store, rfl⟩
  | succ n ih =>
    unfold refillLoop
    split
    · rename_i t h
      have : ∃ st, t.endWait = { s with store := st } := by
        unfold State.refillOnce at h
        split at h
        · cases h
        · split at h
          · cases h
            unfold State.endWait
            dsimp only
            split <;> exact ⟨_, rfl⟩
          · cases h
      obtain ⟨st, e⟩ := this
      obtain ⟨st', e'⟩ := ih t.endWait
      exact ⟨st', by rw [e', e]⟩
    · exact ⟨s.store, rfl⟩

@[simp] theorem State.refill_frame (s : State)  :
    s.refill.pending = s.pending ∧ s.refill.freeCount = s.freeCount ∧ s.refill.partTime = s.partTime
    ∧ s.refill.startUp = s.startUp ∧ s.refill.restart = s.restart ∧ s.refill.powerGood = s.powerGood
    ∧ s.refill.domains = s.domains ∧ (∀ e : Dom, s.refill.domain e = s.domain e) ∧ s.refill.plans = s.plans
    ∧ (∀ e : Dom, s.refill.plan e = s.plan e) ∧ s.refill.admissions = s.admissions
    ∧ (∀ e : Dom, s.refill.admission e = s.admission e) ∧ s.refill.works = s.works
    ∧ (∀ e : Dom, s.refill.work e = s.work e) ∧ s.refill.channels = s.channels
    ∧ (∀ c' : Fin 4, s.refill.channel c' = s.channel c') ∧ s.refill.lastPicked = s.lastPicked
    ∧ s.refill.staging = s.staging ∧ s.refill.links = s.links ∧ (∀ e : Dom, s.refill.link e = s.link e)
    ∧ s.refill.journals = s.journals ∧ (∀ e : Dom, s.refill.journal e = s.journal e)
    ∧ s.refill.directory = s.directory ∧ (∀ m : Num, s.refill.dump m = s.dump m) ∧ s.refill.flash = s.flash
    ∧ s.refill.servicePort = s.servicePort ∧ s.refill.platformPorts = s.platformPorts ∧ s.refill.service = s.service
    ∧ s.refill.config = s.config ∧ (∀ e : Dom, s.refill.settings e = s.settings e)
    ∧ (∀ q : PortId, s.refill.port q = s.port q) := by
  obtain ⟨st, e⟩ := refillLoop_frame s.store.pool.length s
  unfold State.refill
  rw [e]
  simp

@[simp] theorem State.refillIfFell_frame (s : State) (d : Dom) (before : Nat) :
    (s.refillIfFell d before).pending = s.pending ∧ (s.refillIfFell d before).freeCount = s.freeCount ∧ (s.refillIfFell d before).partTime = s.partTime
    ∧ (s.refillIfFell d before).startUp = s.startUp ∧ (s.refillIfFell d before).restart = s.restart ∧ (s.refillIfFell d before).powerGood = s.powerGood
    ∧ (s.refillIfFell d before).domains = s.domains ∧ (∀ e : Dom, (s.refillIfFell d before).domain e = s.domain e) ∧ (s.refillIfFell d before).plans = s.plans
    ∧ (∀ e : Dom, (s.refillIfFell d before).plan e = s.plan e) ∧ (s.refillIfFell d before).admissions = s.admissions
    ∧ (∀ e : Dom, (s.refillIfFell d before).admission e = s.admission e) ∧ (s.refillIfFell d before).works = s.works
    ∧ (∀ e : Dom, (s.refillIfFell d before).work e = s.work e) ∧ (s.refillIfFell d before).channels = s.channels
    ∧ (∀ c' : Fin 4, (s.refillIfFell d before).channel c' = s.channel c') ∧ (s.refillIfFell d before).lastPicked = s.lastPicked
    ∧ (s.refillIfFell d before).staging = s.staging ∧ (s.refillIfFell d before).links = s.links ∧ (∀ e : Dom, (s.refillIfFell d before).link e = s.link e)
    ∧ (s.refillIfFell d before).journals = s.journals ∧ (∀ e : Dom, (s.refillIfFell d before).journal e = s.journal e)
    ∧ (s.refillIfFell d before).directory = s.directory ∧ (∀ m : Num, (s.refillIfFell d before).dump m = s.dump m) ∧ (s.refillIfFell d before).flash = s.flash
    ∧ (s.refillIfFell d before).servicePort = s.servicePort ∧ (s.refillIfFell d before).platformPorts = s.platformPorts ∧ (s.refillIfFell d before).service = s.service
    ∧ (s.refillIfFell d before).config = s.config ∧ (∀ e : Dom, (s.refillIfFell d before).settings e = s.settings e)
    ∧ (∀ q : PortId, (s.refillIfFell d before).port q = s.port q) := by
  unfold State.refillIfFell; split <;> simp

@[simp] theorem State.startStoreSave_frame (s : State)  :
    s.startStoreSave.pending = s.pending ∧ s.startStoreSave.freeCount = s.freeCount
    ∧ s.startStoreSave.partTime = s.partTime ∧ s.startStoreSave.startUp = s.startUp
    ∧ s.startStoreSave.restart = s.restart ∧ s.startStoreSave.powerGood = s.powerGood
    ∧ s.startStoreSave.domains = s.domains ∧ (∀ e : Dom, s.startStoreSave.domain e = s.domain e)
    ∧ s.startStoreSave.plans = s.plans ∧ (∀ e : Dom, s.startStoreSave.plan e = s.plan e)
    ∧ s.startStoreSave.admissions = s.admissions ∧ (∀ e : Dom, s.startStoreSave.admission e = s.admission e)
    ∧ s.startStoreSave.works = s.works ∧ (∀ e : Dom, s.startStoreSave.work e = s.work e)
    ∧ s.startStoreSave.channels = s.channels ∧ (∀ c' : Fin 4, s.startStoreSave.channel c' = s.channel c')
    ∧ s.startStoreSave.lastPicked = s.lastPicked ∧ s.startStoreSave.staging = s.staging
    ∧ s.startStoreSave.links = s.links ∧ (∀ e : Dom, s.startStoreSave.link e = s.link e)
    ∧ s.startStoreSave.journals = s.journals ∧ (∀ e : Dom, s.startStoreSave.journal e = s.journal e)
    ∧ s.startStoreSave.directory = s.directory ∧ (∀ m : Num, s.startStoreSave.dump m = s.dump m)
    ∧ s.startStoreSave.store = s.store ∧ s.startStoreSave.flash = s.flash
    ∧ s.startStoreSave.servicePort = s.servicePort ∧ s.startStoreSave.platformPorts = s.platformPorts
    ∧ s.startStoreSave.service = s.service ∧ (∀ q : PortId, s.startStoreSave.port q = s.port q) := by
  unfold State.startStoreSave; try dsimp only
  (repeat' split) <;> simp

@[simp] theorem State.startPendingSave_frame (s : State)  :
    s.startPendingSave.pending = s.pending ∧ s.startPendingSave.freeCount = s.freeCount
    ∧ s.startPendingSave.partTime = s.partTime ∧ s.startPendingSave.startUp = s.startUp
    ∧ s.startPendingSave.restart = s.restart ∧ s.startPendingSave.powerGood = s.powerGood
    ∧ s.startPendingSave.domains = s.domains ∧ (∀ e : Dom, s.startPendingSave.domain e = s.domain e)
    ∧ s.startPendingSave.plans = s.plans ∧ (∀ e : Dom, s.startPendingSave.plan e = s.plan e)
    ∧ s.startPendingSave.admissions = s.admissions ∧ (∀ e : Dom, s.startPendingSave.admission e = s.admission e)
    ∧ s.startPendingSave.works = s.works ∧ (∀ e : Dom, s.startPendingSave.work e = s.work e)
    ∧ s.startPendingSave.channels = s.channels ∧ (∀ c' : Fin 4, s.startPendingSave.channel c' = s.channel c')
    ∧ s.startPendingSave.lastPicked = s.lastPicked ∧ s.startPendingSave.staging = s.staging
    ∧ s.startPendingSave.links = s.links ∧ (∀ e : Dom, s.startPendingSave.link e = s.link e)
    ∧ s.startPendingSave.journals = s.journals ∧ (∀ e : Dom, s.startPendingSave.journal e = s.journal e)
    ∧ s.startPendingSave.directory = s.directory ∧ (∀ m : Num, s.startPendingSave.dump m = s.dump m)
    ∧ s.startPendingSave.store = s.store ∧ s.startPendingSave.flash = s.flash
    ∧ s.startPendingSave.servicePort = s.servicePort ∧ s.startPendingSave.platformPorts = s.platformPorts
    ∧ s.startPendingSave.service = s.service ∧ (∀ q : PortId, s.startPendingSave.port q = s.port q) := by
  unfold State.startPendingSave; try dsimp only
  (repeat' split) <;> simp

@[simp] theorem State.saveEnded_frame (s : State) (v : Save) (ok : Bool) :
    (s.saveEnded v ok).pending = s.pending ∧ (s.saveEnded v ok).partTime = s.partTime
    ∧ (s.saveEnded v ok).startUp = s.startUp ∧ (s.saveEnded v ok).restart = s.restart
    ∧ (s.saveEnded v ok).powerGood = s.powerGood ∧ (s.saveEnded v ok).domains = s.domains
    ∧ (∀ e : Dom, (s.saveEnded v ok).domain e = s.domain e) ∧ (s.saveEnded v ok).plans = s.plans
    ∧ (∀ e : Dom, (s.saveEnded v ok).plan e = s.plan e) ∧ (s.saveEnded v ok).admissions = s.admissions
    ∧ (∀ e : Dom, (s.saveEnded v ok).admission e = s.admission e) ∧ (s.saveEnded v ok).works = s.works
    ∧ (∀ e : Dom, (s.saveEnded v ok).work e = s.work e) ∧ (s.saveEnded v ok).channels = s.channels
    ∧ (∀ c' : Fin 4, (s.saveEnded v ok).channel c' = s.channel c') ∧ (s.saveEnded v ok).lastPicked = s.lastPicked
    ∧ (s.saveEnded v ok).staging = s.staging ∧ (s.saveEnded v ok).links = s.links
    ∧ (∀ e : Dom, (s.saveEnded v ok).link e = s.link e) ∧ (s.saveEnded v ok).journals = s.journals
    ∧ (∀ e : Dom, (s.saveEnded v ok).journal e = s.journal e) ∧ (s.saveEnded v ok).directory = s.directory
    ∧ (∀ m : Num, (s.saveEnded v ok).dump m = s.dump m) ∧ (s.saveEnded v ok).flash = s.flash
    ∧ (s.saveEnded v ok).servicePort = s.servicePort ∧ (s.saveEnded v ok).platformPorts = s.platformPorts
    ∧ (s.saveEnded v ok).service = s.service ∧ (∀ q : PortId, (s.saveEnded v ok).port q = s.port q) := by
  unfold State.saveEnded; try dsimp only
  (repeat' split) <;> simp

@[simp] theorem State.retire_frame (s : State) (b : Nat) (n : Num) :
    (s.retire b n).pending = s.pending ∧ (s.retire b n).freeCount = s.freeCount
    ∧ (s.retire b n).partTime = s.partTime ∧ (s.retire b n).startUp = s.startUp ∧ (s.retire b n).restart = s.restart
    ∧ (s.retire b n).powerGood = s.powerGood ∧ (s.retire b n).domains = s.domains
    ∧ (∀ e : Dom, (s.retire b n).domain e = s.domain e) ∧ (s.retire b n).plans = s.plans
    ∧ (∀ e : Dom, (s.retire b n).plan e = s.plan e) ∧ (s.retire b n).admissions = s.admissions
    ∧ (∀ e : Dom, (s.retire b n).admission e = s.admission e) ∧ (s.retire b n).works = s.works
    ∧ (∀ e : Dom, (s.retire b n).work e = s.work e) ∧ (s.retire b n).channels = s.channels
    ∧ (∀ c' : Fin 4, (s.retire b n).channel c' = s.channel c') ∧ (s.retire b n).lastPicked = s.lastPicked
    ∧ (s.retire b n).staging = s.staging ∧ (s.retire b n).links = s.links
    ∧ (∀ e : Dom, (s.retire b n).link e = s.link e) ∧ (s.retire b n).journals = s.journals
    ∧ (∀ e : Dom, (s.retire b n).journal e = s.journal e) ∧ (s.retire b n).directory = s.directory
    ∧ (∀ m : Num, (s.retire b n).dump m = s.dump m) ∧ (s.retire b n).flash = s.flash
    ∧ (s.retire b n).servicePort = s.servicePort ∧ (s.retire b n).platformPorts = s.platformPorts
    ∧ (s.retire b n).service = s.service ∧ (∀ q : PortId, (s.retire b n).port q = s.port q) := by
  unfold State.retire; try dsimp only
  (repeat' split) <;> simp

@[simp] theorem State.startProgram_frame (s : State) (i : Fin 8) (x : ProgramItem) :
    (s.startProgram i x).pending = s.pending ∧ (s.startProgram i x).freeCount = s.freeCount
    ∧ (s.startProgram i x).partTime = s.partTime ∧ (s.startProgram i x).startUp = s.startUp
    ∧ (s.startProgram i x).restart = s.restart ∧ (s.startProgram i x).powerGood = s.powerGood
    ∧ (s.startProgram i x).domains = s.domains ∧ (∀ e : Dom, (s.startProgram i x).domain e = s.domain e)
    ∧ (s.startProgram i x).plans = s.plans ∧ (∀ e : Dom, (s.startProgram i x).plan e = s.plan e)
    ∧ (s.startProgram i x).admissions = s.admissions ∧ (∀ e : Dom, (s.startProgram i x).admission e = s.admission e)
    ∧ (s.startProgram i x).works = s.works ∧ (∀ e : Dom, (s.startProgram i x).work e = s.work e)
    ∧ (s.startProgram i x).channels = s.channels ∧ (∀ c' : Fin 4, (s.startProgram i x).channel c' = s.channel c')
    ∧ (s.startProgram i x).lastPicked = s.lastPicked ∧ (s.startProgram i x).staging = s.staging
    ∧ (s.startProgram i x).links = s.links ∧ (∀ e : Dom, (s.startProgram i x).link e = s.link e)
    ∧ (s.startProgram i x).journals = s.journals ∧ (∀ e : Dom, (s.startProgram i x).journal e = s.journal e)
    ∧ (s.startProgram i x).directory = s.directory ∧ (∀ m : Num, (s.startProgram i x).dump m = s.dump m)
    ∧ (s.startProgram i x).flash = s.flash ∧ (s.startProgram i x).servicePort = s.servicePort
    ∧ (s.startProgram i x).platformPorts = s.platformPorts ∧ (s.startProgram i x).service = s.service
    ∧ (s.startProgram i x).config = s.config ∧ (∀ e : Dom, (s.startProgram i x).settings e = s.settings e)
    ∧ (∀ q : PortId, (s.startProgram i x).port q = s.port q) := by
  unfold State.startProgram; try dsimp only
  (repeat' split) <;> simp

@[simp] theorem State.pageProgrammed_frame (s : State) (k : PageKey) (a : Nat) :
    (s.pageProgrammed k a).pending = s.pending ∧ (s.pageProgrammed k a).freeCount = s.freeCount
    ∧ (s.pageProgrammed k a).partTime = s.partTime ∧ (s.pageProgrammed k a).startUp = s.startUp
    ∧ (s.pageProgrammed k a).restart = s.restart ∧ (s.pageProgrammed k a).powerGood = s.powerGood
    ∧ (s.pageProgrammed k a).domains = s.domains ∧ (∀ e : Dom, (s.pageProgrammed k a).domain e = s.domain e)
    ∧ (s.pageProgrammed k a).plans = s.plans ∧ (∀ e : Dom, (s.pageProgrammed k a).plan e = s.plan e)
    ∧ (s.pageProgrammed k a).admissions = s.admissions
    ∧ (∀ e : Dom, (s.pageProgrammed k a).admission e = s.admission e) ∧ (s.pageProgrammed k a).works = s.works
    ∧ (∀ e : Dom, (s.pageProgrammed k a).work e = s.work e) ∧ (s.pageProgrammed k a).channels = s.channels
    ∧ (∀ c' : Fin 4, (s.pageProgrammed k a).channel c' = s.channel c')
    ∧ (s.pageProgrammed k a).lastPicked = s.lastPicked ∧ (s.pageProgrammed k a).links = s.links
    ∧ (∀ e : Dom, (s.pageProgrammed k a).link e = s.link e) ∧ (s.pageProgrammed k a).journals = s.journals
    ∧ (∀ e : Dom, (s.pageProgrammed k a).journal e = s.journal e) ∧ (s.pageProgrammed k a).directory = s.directory
    ∧ (∀ m : Num, (s.pageProgrammed k a).dump m = s.dump m) ∧ (s.pageProgrammed k a).servicePort = s.servicePort
    ∧ (s.pageProgrammed k a).platformPorts = s.platformPorts ∧ (s.pageProgrammed k a).service = s.service
    ∧ (s.pageProgrammed k a).config = s.config ∧ (∀ e : Dom, (s.pageProgrammed k a).settings e = s.settings e)
    ∧ (∀ q : PortId, (s.pageProgrammed k a).port q = s.port q) := by
  unfold State.pageProgrammed; try dsimp only
  (repeat' split) <;> simp

@[simp] theorem State.relocateOpen_frame (s : State) (k : PageKey) (b : Nat) :
    (s.relocateOpen k b).pending = s.pending ∧ (s.relocateOpen k b).freeCount = s.freeCount
    ∧ (s.relocateOpen k b).partTime = s.partTime ∧ (s.relocateOpen k b).startUp = s.startUp
    ∧ (s.relocateOpen k b).restart = s.restart ∧ (s.relocateOpen k b).powerGood = s.powerGood
    ∧ (s.relocateOpen k b).domains = s.domains ∧ (∀ e : Dom, (s.relocateOpen k b).domain e = s.domain e)
    ∧ (s.relocateOpen k b).plans = s.plans ∧ (∀ e : Dom, (s.relocateOpen k b).plan e = s.plan e)
    ∧ (s.relocateOpen k b).admissions = s.admissions ∧ (∀ e : Dom, (s.relocateOpen k b).admission e = s.admission e)
    ∧ (s.relocateOpen k b).works = s.works ∧ (∀ e : Dom, (s.relocateOpen k b).work e = s.work e)
    ∧ (s.relocateOpen k b).channels = s.channels ∧ (∀ c' : Fin 4, (s.relocateOpen k b).channel c' = s.channel c')
    ∧ (s.relocateOpen k b).lastPicked = s.lastPicked ∧ (s.relocateOpen k b).staging = s.staging
    ∧ (s.relocateOpen k b).links = s.links ∧ (∀ e : Dom, (s.relocateOpen k b).link e = s.link e)
    ∧ (s.relocateOpen k b).journals = s.journals ∧ (∀ e : Dom, (s.relocateOpen k b).journal e = s.journal e)
    ∧ (s.relocateOpen k b).directory = s.directory ∧ (∀ m : Num, (s.relocateOpen k b).dump m = s.dump m)
    ∧ (s.relocateOpen k b).flash = s.flash ∧ (s.relocateOpen k b).servicePort = s.servicePort
    ∧ (s.relocateOpen k b).platformPorts = s.platformPorts ∧ (s.relocateOpen k b).service = s.service
    ∧ (∀ q : PortId, (s.relocateOpen k b).port q = s.port q) := by
  unfold State.relocateOpen; try dsimp only
  (repeat' split) <;> simp

@[simp] theorem State.relocateOther_frame (s : State) (k : PageKey) (b : Nat) :
    (s.relocateOther k b).pending = s.pending ∧ (s.relocateOther k b).freeCount = s.freeCount
    ∧ (s.relocateOther k b).partTime = s.partTime ∧ (s.relocateOther k b).startUp = s.startUp
    ∧ (s.relocateOther k b).restart = s.restart ∧ (s.relocateOther k b).powerGood = s.powerGood
    ∧ (s.relocateOther k b).domains = s.domains ∧ (∀ e : Dom, (s.relocateOther k b).domain e = s.domain e)
    ∧ (s.relocateOther k b).plans = s.plans ∧ (∀ e : Dom, (s.relocateOther k b).plan e = s.plan e)
    ∧ (s.relocateOther k b).admissions = s.admissions
    ∧ (∀ e : Dom, (s.relocateOther k b).admission e = s.admission e) ∧ (s.relocateOther k b).works = s.works
    ∧ (∀ e : Dom, (s.relocateOther k b).work e = s.work e) ∧ (s.relocateOther k b).channels = s.channels
    ∧ (∀ c' : Fin 4, (s.relocateOther k b).channel c' = s.channel c')
    ∧ (s.relocateOther k b).lastPicked = s.lastPicked ∧ (s.relocateOther k b).staging = s.staging
    ∧ (s.relocateOther k b).links = s.links ∧ (∀ e : Dom, (s.relocateOther k b).link e = s.link e)
    ∧ (s.relocateOther k b).journals = s.journals ∧ (∀ e : Dom, (s.relocateOther k b).journal e = s.journal e)
    ∧ (s.relocateOther k b).directory = s.directory ∧ (∀ m : Num, (s.relocateOther k b).dump m = s.dump m)
    ∧ (s.relocateOther k b).flash = s.flash ∧ (s.relocateOther k b).servicePort = s.servicePort
    ∧ (s.relocateOther k b).platformPorts = s.platformPorts ∧ (s.relocateOther k b).service = s.service
    ∧ (∀ q : PortId, (s.relocateOther k b).port q = s.port q) := by
  unfold State.relocateOther; try dsimp only
  (repeat' split) <;> simp

@[simp] theorem State.programFailure_frame (s : State) (x : ProgramItem) (a : Nat) :
    (s.programFailure x a).pending = s.pending ∧ (s.programFailure x a).freeCount = s.freeCount
    ∧ (s.programFailure x a).partTime = s.partTime ∧ (s.programFailure x a).startUp = s.startUp
    ∧ (s.programFailure x a).restart = s.restart ∧ (s.programFailure x a).powerGood = s.powerGood
    ∧ (s.programFailure x a).domains = s.domains ∧ (∀ e : Dom, (s.programFailure x a).domain e = s.domain e)
    ∧ (s.programFailure x a).plans = s.plans ∧ (∀ e : Dom, (s.programFailure x a).plan e = s.plan e)
    ∧ (s.programFailure x a).admissions = s.admissions
    ∧ (∀ e : Dom, (s.programFailure x a).admission e = s.admission e) ∧ (s.programFailure x a).works = s.works
    ∧ (∀ e : Dom, (s.programFailure x a).work e = s.work e) ∧ (s.programFailure x a).channels = s.channels
    ∧ (∀ c' : Fin 4, (s.programFailure x a).channel c' = s.channel c')
    ∧ (s.programFailure x a).lastPicked = s.lastPicked ∧ (s.programFailure x a).staging = s.staging
    ∧ (s.programFailure x a).links = s.links ∧ (∀ e : Dom, (s.programFailure x a).link e = s.link e)
    ∧ (s.programFailure x a).directory = s.directory ∧ (∀ m : Num, (s.programFailure x a).dump m = s.dump m)
    ∧ (s.programFailure x a).servicePort = s.servicePort ∧ (s.programFailure x a).platformPorts = s.platformPorts
    ∧ (s.programFailure x a).service = s.service ∧ (∀ q : PortId, (s.programFailure x a).port q = s.port q) := by
  unfold State.programFailure; try dsimp only
  (repeat' split) <;> simp

@[simp] theorem State.eraseDone_frame (s : State) (b : Nat) (w : Bool) :
    (s.eraseDone b w).pending = s.pending ∧ (s.eraseDone b w).freeCount = s.freeCount
    ∧ (s.eraseDone b w).partTime = s.partTime ∧ (s.eraseDone b w).startUp = s.startUp
    ∧ (s.eraseDone b w).restart = s.restart ∧ (s.eraseDone b w).powerGood = s.powerGood
    ∧ (s.eraseDone b w).domains = s.domains ∧ (∀ e : Dom, (s.eraseDone b w).domain e = s.domain e)
    ∧ (s.eraseDone b w).plans = s.plans ∧ (∀ e : Dom, (s.eraseDone b w).plan e = s.plan e)
    ∧ (s.eraseDone b w).works = s.works ∧ (∀ e : Dom, (s.eraseDone b w).work e = s.work e)
    ∧ (s.eraseDone b w).channels = s.channels ∧ (∀ c' : Fin 4, (s.eraseDone b w).channel c' = s.channel c')
    ∧ (s.eraseDone b w).lastPicked = s.lastPicked ∧ (s.eraseDone b w).staging = s.staging
    ∧ (s.eraseDone b w).links = s.links ∧ (∀ e : Dom, (s.eraseDone b w).link e = s.link e)
    ∧ (s.eraseDone b w).journals = s.journals ∧ (∀ e : Dom, (s.eraseDone b w).journal e = s.journal e)
    ∧ (s.eraseDone b w).servicePort = s.servicePort ∧ (s.eraseDone b w).platformPorts = s.platformPorts
    ∧ (s.eraseDone b w).service = s.service ∧ (s.eraseDone b w).config = s.config
    ∧ (∀ e : Dom, (s.eraseDone b w).settings e = s.settings e) ∧ (∀ q : PortId, (s.eraseDone b w).port q = s.port q) := by
  unfold State.eraseDone; try dsimp only
  (repeat' split) <;> simp

@[simp] theorem State.eraseFailure_frame (s : State) (b : Nat) :
    (s.eraseFailure b).pending = s.pending ∧ (s.eraseFailure b).freeCount = s.freeCount
    ∧ (s.eraseFailure b).partTime = s.partTime ∧ (s.eraseFailure b).startUp = s.startUp
    ∧ (s.eraseFailure b).restart = s.restart ∧ (s.eraseFailure b).powerGood = s.powerGood
    ∧ (s.eraseFailure b).domains = s.domains ∧ (∀ e : Dom, (s.eraseFailure b).domain e = s.domain e)
    ∧ (s.eraseFailure b).plans = s.plans ∧ (∀ e : Dom, (s.eraseFailure b).plan e = s.plan e)
    ∧ (s.eraseFailure b).admissions = s.admissions ∧ (∀ e : Dom, (s.eraseFailure b).admission e = s.admission e)
    ∧ (s.eraseFailure b).works = s.works ∧ (∀ e : Dom, (s.eraseFailure b).work e = s.work e)
    ∧ (s.eraseFailure b).channels = s.channels ∧ (∀ c' : Fin 4, (s.eraseFailure b).channel c' = s.channel c')
    ∧ (s.eraseFailure b).lastPicked = s.lastPicked ∧ (s.eraseFailure b).staging = s.staging
    ∧ (s.eraseFailure b).links = s.links ∧ (∀ e : Dom, (s.eraseFailure b).link e = s.link e)
    ∧ (s.eraseFailure b).journals = s.journals ∧ (∀ e : Dom, (s.eraseFailure b).journal e = s.journal e)
    ∧ (s.eraseFailure b).directory = s.directory ∧ (∀ m : Num, (s.eraseFailure b).dump m = s.dump m)
    ∧ (s.eraseFailure b).servicePort = s.servicePort ∧ (s.eraseFailure b).platformPorts = s.platformPorts
    ∧ (s.eraseFailure b).service = s.service ∧ (∀ q : PortId, (s.eraseFailure b).port q = s.port q) := by
  unfold State.eraseFailure; try dsimp only
  (repeat' split) <;> simp

@[simp] theorem State.releaseBlocks_frame (s : State) (n : Num) :
    (s.releaseBlocks n).pending = s.pending ∧ (s.releaseBlocks n).freeCount = s.freeCount
    ∧ (s.releaseBlocks n).partTime = s.partTime ∧ (s.releaseBlocks n).startUp = s.startUp
    ∧ (s.releaseBlocks n).restart = s.restart ∧ (s.releaseBlocks n).powerGood = s.powerGood
    ∧ (s.releaseBlocks n).domains = s.domains ∧ (∀ e : Dom, (s.releaseBlocks n).domain e = s.domain e)
    ∧ (s.releaseBlocks n).plans = s.plans ∧ (∀ e : Dom, (s.releaseBlocks n).plan e = s.plan e)
    ∧ (s.releaseBlocks n).admissions = s.admissions ∧ (∀ e : Dom, (s.releaseBlocks n).admission e = s.admission e)
    ∧ (s.releaseBlocks n).works = s.works ∧ (∀ e : Dom, (s.releaseBlocks n).work e = s.work e)
    ∧ (s.releaseBlocks n).channels = s.channels ∧ (∀ c' : Fin 4, (s.releaseBlocks n).channel c' = s.channel c')
    ∧ (s.releaseBlocks n).lastPicked = s.lastPicked ∧ (s.releaseBlocks n).staging = s.staging
    ∧ (s.releaseBlocks n).links = s.links ∧ (∀ e : Dom, (s.releaseBlocks n).link e = s.link e)
    ∧ (s.releaseBlocks n).journals = s.journals ∧ (∀ e : Dom, (s.releaseBlocks n).journal e = s.journal e)
    ∧ (s.releaseBlocks n).directory = s.directory ∧ (∀ m : Num, (s.releaseBlocks n).dump m = s.dump m)
    ∧ (s.releaseBlocks n).flash = s.flash ∧ (s.releaseBlocks n).servicePort = s.servicePort
    ∧ (s.releaseBlocks n).platformPorts = s.platformPorts ∧ (s.releaseBlocks n).service = s.service
    ∧ (∀ q : PortId, (s.releaseBlocks n).port q = s.port q) := by
  unfold State.releaseBlocks; try dsimp only
  (repeat' split) <;> simp

@[simp] theorem State.releaseLine_frame (s : State) (d : Dom) (r : ReleaseReason) :
    (s.releaseLine d r).pending = s.pending ∧ (s.releaseLine d r).freeCount = s.freeCount
    ∧ (s.releaseLine d r).partTime = s.partTime ∧ (s.releaseLine d r).startUp = s.startUp
    ∧ (s.releaseLine d r).restart = s.restart ∧ (s.releaseLine d r).powerGood = s.powerGood
    ∧ (s.releaseLine d r).plans = s.plans ∧ (∀ e : Dom, (s.releaseLine d r).plan e = s.plan e)
    ∧ (s.releaseLine d r).admissions = s.admissions ∧ (∀ e : Dom, (s.releaseLine d r).admission e = s.admission e)
    ∧ (s.releaseLine d r).works = s.works ∧ (∀ e : Dom, (s.releaseLine d r).work e = s.work e)
    ∧ (s.releaseLine d r).channels = s.channels ∧ (∀ c' : Fin 4, (s.releaseLine d r).channel c' = s.channel c')
    ∧ (s.releaseLine d r).lastPicked = s.lastPicked ∧ (s.releaseLine d r).staging = s.staging
    ∧ (s.releaseLine d r).links = s.links ∧ (∀ e : Dom, (s.releaseLine d r).link e = s.link e)
    ∧ (s.releaseLine d r).directory = s.directory ∧ (∀ m : Num, (s.releaseLine d r).dump m = s.dump m)
    ∧ (s.releaseLine d r).store = s.store ∧ (s.releaseLine d r).flash = s.flash
    ∧ (s.releaseLine d r).platformPorts = s.platformPorts ∧ (s.releaseLine d r).config = s.config
    ∧ (∀ e : Dom, (s.releaseLine d r).settings e = s.settings e)
    ∧ (∀ e : Dom, (s.releaseLine d r).port (.platform e) = s.port (.platform e)) := by
  unfold State.releaseLine; try dsimp only
  (repeat' split) <;> simp

@[simp] theorem State.startHeartbeat_frame (s : State) (d : Dom) :
    (s.startHeartbeat d).pending = s.pending ∧ (s.startHeartbeat d).freeCount = s.freeCount
    ∧ (s.startHeartbeat d).partTime = s.partTime ∧ (s.startHeartbeat d).startUp = s.startUp
    ∧ (s.startHeartbeat d).restart = s.restart ∧ (s.startHeartbeat d).powerGood = s.powerGood
    ∧ (s.startHeartbeat d).plans = s.plans ∧ (∀ e : Dom, (s.startHeartbeat d).plan e = s.plan e)
    ∧ (s.startHeartbeat d).admissions = s.admissions ∧ (∀ e : Dom, (s.startHeartbeat d).admission e = s.admission e)
    ∧ (s.startHeartbeat d).works = s.works ∧ (∀ e : Dom, (s.startHeartbeat d).work e = s.work e)
    ∧ (s.startHeartbeat d).channels = s.channels ∧ (∀ c' : Fin 4, (s.startHeartbeat d).channel c' = s.channel c')
    ∧ (s.startHeartbeat d).lastPicked = s.lastPicked ∧ (s.startHeartbeat d).staging = s.staging
    ∧ (s.startHeartbeat d).links = s.links ∧ (∀ e : Dom, (s.startHeartbeat d).link e = s.link e)
    ∧ (s.startHeartbeat d).journals = s.journals ∧ (∀ e : Dom, (s.startHeartbeat d).journal e = s.journal e)
    ∧ (s.startHeartbeat d).directory = s.directory ∧ (∀ m : Num, (s.startHeartbeat d).dump m = s.dump m)
    ∧ (s.startHeartbeat d).store = s.store ∧ (s.startHeartbeat d).flash = s.flash
    ∧ (s.startHeartbeat d).servicePort = s.servicePort ∧ (s.startHeartbeat d).platformPorts = s.platformPorts
    ∧ (s.startHeartbeat d).service = s.service ∧ (s.startHeartbeat d).config = s.config
    ∧ (∀ e : Dom, (s.startHeartbeat d).settings e = s.settings e)
    ∧ (∀ q : PortId, (s.startHeartbeat d).port q = s.port q) := by
  unfold State.startHeartbeat; try dsimp only
  (repeat' split) <;> simp

@[simp] theorem State.enterArmed_frame (s : State) (d : Dom) :
    (s.enterArmed d).pending = s.pending ∧ (s.enterArmed d).freeCount = s.freeCount
    ∧ (s.enterArmed d).partTime = s.partTime ∧ (s.enterArmed d).startUp = s.startUp
    ∧ (s.enterArmed d).restart = s.restart ∧ (s.enterArmed d).powerGood = s.powerGood
    ∧ (s.enterArmed d).plans = s.plans ∧ (∀ e : Dom, (s.enterArmed d).plan e = s.plan e)
    ∧ (s.enterArmed d).admissions = s.admissions ∧ (∀ e : Dom, (s.enterArmed d).admission e = s.admission e)
    ∧ (s.enterArmed d).works = s.works ∧ (∀ e : Dom, (s.enterArmed d).work e = s.work e)
    ∧ (s.enterArmed d).channels = s.channels ∧ (∀ c' : Fin 4, (s.enterArmed d).channel c' = s.channel c')
    ∧ (s.enterArmed d).lastPicked = s.lastPicked ∧ (s.enterArmed d).staging = s.staging
    ∧ (s.enterArmed d).journals = s.journals ∧ (∀ e : Dom, (s.enterArmed d).journal e = s.journal e)
    ∧ (s.enterArmed d).directory = s.directory ∧ (∀ m : Num, (s.enterArmed d).dump m = s.dump m)
    ∧ (s.enterArmed d).store = s.store ∧ (s.enterArmed d).flash = s.flash
    ∧ (s.enterArmed d).servicePort = s.servicePort ∧ (s.enterArmed d).platformPorts = s.platformPorts
    ∧ (s.enterArmed d).service = s.service ∧ (s.enterArmed d).config = s.config
    ∧ (∀ e : Dom, (s.enterArmed d).settings e = s.settings e) ∧ (∀ q : PortId, (s.enterArmed d).port q = s.port q) := by
  unfold State.enterArmed; try dsimp only
  (repeat' split) <;> simp

@[simp] theorem State.channelShort_frame (s : State) (c : Fin 4) (k : SectionCause) :
    (s.channelShort c k).pending = s.pending ∧ (s.channelShort c k).freeCount = s.freeCount
    ∧ (s.channelShort c k).partTime = s.partTime ∧ (s.channelShort c k).startUp = s.startUp
    ∧ (s.channelShort c k).restart = s.restart ∧ (s.channelShort c k).powerGood = s.powerGood
    ∧ (s.channelShort c k).domains = s.domains ∧ (∀ e : Dom, (s.channelShort c k).domain e = s.domain e)
    ∧ (s.channelShort c k).plans = s.plans ∧ (∀ e : Dom, (s.channelShort c k).plan e = s.plan e)
    ∧ (s.channelShort c k).admissions = s.admissions ∧ (∀ e : Dom, (s.channelShort c k).admission e = s.admission e)
    ∧ (s.channelShort c k).works = s.works ∧ (∀ e : Dom, (s.channelShort c k).work e = s.work e)
    ∧ (s.channelShort c k).lastPicked = s.lastPicked ∧ (s.channelShort c k).journals = s.journals
    ∧ (∀ e : Dom, (s.channelShort c k).journal e = s.journal e) ∧ (s.channelShort c k).directory = s.directory
    ∧ (∀ m : Num, (s.channelShort c k).dump m = s.dump m) ∧ (s.channelShort c k).store = s.store
    ∧ (s.channelShort c k).flash = s.flash ∧ (s.channelShort c k).servicePort = s.servicePort
    ∧ (s.channelShort c k).platformPorts = s.platformPorts ∧ (s.channelShort c k).service = s.service
    ∧ (s.channelShort c k).config = s.config ∧ (∀ e : Dom, (s.channelShort c k).settings e = s.settings e)
    ∧ (∀ q : PortId, (s.channelShort c k).port q = s.port q) := by
  unfold State.channelShort; try dsimp only
  (repeat' split) <;> simp

theorem channelsShort_frame (n : Num) (k : SectionCause) (l : List (Fin 4)) (s : State) :
    (List.foldl (fun t c => if (t.channel c).endsWith n then t.channelShort c k else t) s l).pending = s.pending
    ∧ (List.foldl (fun t c => if (t.channel c).endsWith n then t.channelShort c k else t) s l).freeCount = s.freeCount
    ∧ (List.foldl (fun t c => if (t.channel c).endsWith n then t.channelShort c k else t) s l).partTime = s.partTime
    ∧ (List.foldl (fun t c => if (t.channel c).endsWith n then t.channelShort c k else t) s l).startUp = s.startUp
    ∧ (List.foldl (fun t c => if (t.channel c).endsWith n then t.channelShort c k else t) s l).restart = s.restart
    ∧ (List.foldl (fun t c => if (t.channel c).endsWith n then t.channelShort c k else t) s l).powerGood = s.powerGood
    ∧ (List.foldl (fun t c => if (t.channel c).endsWith n then t.channelShort c k else t) s l).domains = s.domains
    ∧ (∀ e : Dom, (List.foldl (fun t c => if (t.channel c).endsWith n then t.channelShort c k else t) s l).domain e = s.domain e)
    ∧ (List.foldl (fun t c => if (t.channel c).endsWith n then t.channelShort c k else t) s l).plans = s.plans
    ∧ (∀ e : Dom, (List.foldl (fun t c => if (t.channel c).endsWith n then t.channelShort c k else t) s l).plan e = s.plan e)
    ∧ (List.foldl (fun t c => if (t.channel c).endsWith n then t.channelShort c k else t) s l).admissions = s.admissions
    ∧ (∀ e : Dom, (List.foldl (fun t c => if (t.channel c).endsWith n then t.channelShort c k else t) s l).admission e = s.admission e)
    ∧ (List.foldl (fun t c => if (t.channel c).endsWith n then t.channelShort c k else t) s l).works = s.works
    ∧ (∀ e : Dom, (List.foldl (fun t c => if (t.channel c).endsWith n then t.channelShort c k else t) s l).work e = s.work e)
    ∧ (List.foldl (fun t c => if (t.channel c).endsWith n then t.channelShort c k else t) s l).lastPicked = s.lastPicked
    ∧ (List.foldl (fun t c => if (t.channel c).endsWith n then t.channelShort c k else t) s l).journals = s.journals
    ∧ (∀ e : Dom, (List.foldl (fun t c => if (t.channel c).endsWith n then t.channelShort c k else t) s l).journal e = s.journal e)
    ∧ (List.foldl (fun t c => if (t.channel c).endsWith n then t.channelShort c k else t) s l).directory = s.directory
    ∧ (∀ m : Num, (List.foldl (fun t c => if (t.channel c).endsWith n then t.channelShort c k else t) s l).dump m = s.dump m)
    ∧ (List.foldl (fun t c => if (t.channel c).endsWith n then t.channelShort c k else t) s l).store = s.store
    ∧ (List.foldl (fun t c => if (t.channel c).endsWith n then t.channelShort c k else t) s l).flash = s.flash
    ∧ (List.foldl (fun t c => if (t.channel c).endsWith n then t.channelShort c k else t) s l).servicePort = s.servicePort
    ∧ (List.foldl (fun t c => if (t.channel c).endsWith n then t.channelShort c k else t) s l).platformPorts = s.platformPorts
    ∧ (List.foldl (fun t c => if (t.channel c).endsWith n then t.channelShort c k else t) s l).service = s.service
    ∧ (List.foldl (fun t c => if (t.channel c).endsWith n then t.channelShort c k else t) s l).config = s.config
    ∧ (∀ e : Dom, (List.foldl (fun t c => if (t.channel c).endsWith n then t.channelShort c k else t) s l).settings e = s.settings e)
    ∧ (∀ q : PortId, (List.foldl (fun t c => if (t.channel c).endsWith n then t.channelShort c k else t) s l).port q = s.port q) := by
  induction l generalizing s with
  | nil => simp
  | cons c l ih =>
    simp only [List.foldl_cons]
    split <;> simp [ih]

@[simp] theorem State.endSections_frame (s : State) (d : Dom) (n : Num) (k : SectionCause) :
    (s.endSections d n k).pending = s.pending ∧ (s.endSections d n k).freeCount = s.freeCount
    ∧ (s.endSections d n k).partTime = s.partTime ∧ (s.endSections d n k).startUp = s.startUp
    ∧ (s.endSections d n k).restart = s.restart ∧ (s.endSections d n k).powerGood = s.powerGood
    ∧ (s.endSections d n k).domains = s.domains ∧ (∀ e : Dom, (s.endSections d n k).domain e = s.domain e)
    ∧ (s.endSections d n k).plans = s.plans ∧ (∀ e : Dom, (s.endSections d n k).plan e = s.plan e)
    ∧ (s.endSections d n k).works = s.works ∧ (∀ e : Dom, (s.endSections d n k).work e = s.work e)
    ∧ (s.endSections d n k).lastPicked = s.lastPicked ∧ (s.endSections d n k).journals = s.journals
    ∧ (∀ e : Dom, (s.endSections d n k).journal e = s.journal e) ∧ (s.endSections d n k).store = s.store
    ∧ (s.endSections d n k).flash = s.flash ∧ (s.endSections d n k).servicePort = s.servicePort
    ∧ (s.endSections d n k).platformPorts = s.platformPorts ∧ (s.endSections d n k).service = s.service
    ∧ (s.endSections d n k).config = s.config ∧ (∀ e : Dom, (s.endSections d n k).settings e = s.settings e)
    ∧ (∀ q : PortId, (s.endSections d n k).port q = s.port q) := by
  unfold State.endSections; dsimp only; split <;> simp [channelsShort_frame]

@[simp] theorem State.enterClosing_frame (s : State) (d : Dom) (k : EndCause) :
    (s.enterClosing d k).pending = s.pending ∧ (s.enterClosing d k).freeCount = s.freeCount
    ∧ (s.enterClosing d k).partTime = s.partTime ∧ (s.enterClosing d k).startUp = s.startUp
    ∧ (s.enterClosing d k).restart = s.restart ∧ (s.enterClosing d k).powerGood = s.powerGood
    ∧ (s.enterClosing d k).plans = s.plans ∧ (∀ e : Dom, (s.enterClosing d k).plan e = s.plan e)
    ∧ (s.enterClosing d k).works = s.works ∧ (∀ e : Dom, (s.enterClosing d k).work e = s.work e)
    ∧ (s.enterClosing d k).lastPicked = s.lastPicked ∧ (s.enterClosing d k).journals = s.journals
    ∧ (∀ e : Dom, (s.enterClosing d k).journal e = s.journal e) ∧ (s.enterClosing d k).flash = s.flash
    ∧ (s.enterClosing d k).servicePort = s.servicePort ∧ (s.enterClosing d k).platformPorts = s.platformPorts
    ∧ (s.enterClosing d k).service = s.service ∧ (s.enterClosing d k).config = s.config
    ∧ (∀ e : Dom, (s.enterClosing d k).settings e = s.settings e)
    ∧ (∀ q : PortId, (s.enterClosing d k).port q = s.port q) := by
  unfold State.enterClosing; try dsimp only
  (repeat' split) <;> simp

@[simp] theorem State.endHarvest_frame (s : State) (d : Dom) (k : EndCause) :
    (s.endHarvest d k).pending = s.pending ∧ (s.endHarvest d k).freeCount = s.freeCount
    ∧ (s.endHarvest d k).partTime = s.partTime ∧ (s.endHarvest d k).startUp = s.startUp
    ∧ (s.endHarvest d k).restart = s.restart ∧ (s.endHarvest d k).powerGood = s.powerGood
    ∧ (s.endHarvest d k).plans = s.plans ∧ (∀ e : Dom, (s.endHarvest d k).plan e = s.plan e)
    ∧ (s.endHarvest d k).works = s.works ∧ (∀ e : Dom, (s.endHarvest d k).work e = s.work e)
    ∧ (s.endHarvest d k).lastPicked = s.lastPicked ∧ (s.endHarvest d k).journals = s.journals
    ∧ (∀ e : Dom, (s.endHarvest d k).journal e = s.journal e) ∧ (s.endHarvest d k).flash = s.flash
    ∧ (s.endHarvest d k).servicePort = s.servicePort ∧ (s.endHarvest d k).platformPorts = s.platformPorts
    ∧ (s.endHarvest d k).service = s.service ∧ (s.endHarvest d k).config = s.config
    ∧ (∀ e : Dom, (s.endHarvest d k).settings e = s.settings e)
    ∧ (∀ q : PortId, (s.endHarvest d k).port q = s.port q) := by
  unfold State.endHarvest; try dsimp only
  (repeat' split) <;> simp

@[simp] theorem State.completionTest_frame (s : State) (d : Dom) :
    (s.completionTest d).pending = s.pending ∧ (s.completionTest d).freeCount = s.freeCount
    ∧ (s.completionTest d).partTime = s.partTime ∧ (s.completionTest d).startUp = s.startUp
    ∧ (s.completionTest d).restart = s.restart ∧ (s.completionTest d).powerGood = s.powerGood
    ∧ (s.completionTest d).plans = s.plans ∧ (∀ e : Dom, (s.completionTest d).plan e = s.plan e)
    ∧ (s.completionTest d).works = s.works ∧ (∀ e : Dom, (s.completionTest d).work e = s.work e)
    ∧ (s.completionTest d).lastPicked = s.lastPicked ∧ (s.completionTest d).journals = s.journals
    ∧ (∀ e : Dom, (s.completionTest d).journal e = s.journal e) ∧ (s.completionTest d).flash = s.flash
    ∧ (s.completionTest d).servicePort = s.servicePort ∧ (s.completionTest d).platformPorts = s.platformPorts
    ∧ (s.completionTest d).service = s.service ∧ (s.completionTest d).config = s.config
    ∧ (∀ e : Dom, (s.completionTest d).settings e = s.settings e)
    ∧ (∀ q : PortId, (s.completionTest d).port q = s.port q) := by
  unfold State.completionTest; try dsimp only
  (repeat' split) <;> simp

@[simp] theorem State.headerProgrammed_frame (s : State) (d : Dom) :
    (s.headerProgrammed d).pending = s.pending ∧ (s.headerProgrammed d).freeCount = s.freeCount
    ∧ (s.headerProgrammed d).partTime = s.partTime ∧ (s.headerProgrammed d).startUp = s.startUp
    ∧ (s.headerProgrammed d).restart = s.restart ∧ (s.headerProgrammed d).powerGood = s.powerGood
    ∧ (s.headerProgrammed d).plans = s.plans ∧ (∀ e : Dom, (s.headerProgrammed d).plan e = s.plan e)
    ∧ (s.headerProgrammed d).works = s.works ∧ (∀ e : Dom, (s.headerProgrammed d).work e = s.work e)
    ∧ (s.headerProgrammed d).lastPicked = s.lastPicked ∧ (s.headerProgrammed d).journals = s.journals
    ∧ (∀ e : Dom, (s.headerProgrammed d).journal e = s.journal e) ∧ (s.headerProgrammed d).flash = s.flash
    ∧ (s.headerProgrammed d).servicePort = s.servicePort ∧ (s.headerProgrammed d).platformPorts = s.platformPorts
    ∧ (s.headerProgrammed d).service = s.service ∧ (s.headerProgrammed d).config = s.config
    ∧ (∀ e : Dom, (s.headerProgrammed d).settings e = s.settings e)
    ∧ (∀ q : PortId, (s.headerProgrammed d).port q = s.port q) := by
  unfold State.headerProgrammed; try dsimp only
  (repeat' split) <;> simp

@[simp] theorem State.pagesReturned_frame (s : State) (d : Dom) (x : SectionRecord) :
    (s.pagesReturned d x).pending = s.pending ∧ (s.pagesReturned d x).freeCount = s.freeCount
    ∧ (s.pagesReturned d x).partTime = s.partTime ∧ (s.pagesReturned d x).startUp = s.startUp
    ∧ (s.pagesReturned d x).restart = s.restart ∧ (s.pagesReturned d x).powerGood = s.powerGood
    ∧ (s.pagesReturned d x).domains = s.domains ∧ (∀ e : Dom, (s.pagesReturned d x).domain e = s.domain e)
    ∧ (s.pagesReturned d x).plans = s.plans ∧ (∀ e : Dom, (s.pagesReturned d x).plan e = s.plan e)
    ∧ (s.pagesReturned d x).works = s.works ∧ (∀ e : Dom, (s.pagesReturned d x).work e = s.work e)
    ∧ (s.pagesReturned d x).channels = s.channels ∧ (∀ c' : Fin 4, (s.pagesReturned d x).channel c' = s.channel c')
    ∧ (s.pagesReturned d x).lastPicked = s.lastPicked ∧ (s.pagesReturned d x).staging = s.staging
    ∧ (s.pagesReturned d x).links = s.links ∧ (∀ e : Dom, (s.pagesReturned d x).link e = s.link e)
    ∧ (s.pagesReturned d x).journals = s.journals ∧ (∀ e : Dom, (s.pagesReturned d x).journal e = s.journal e)
    ∧ (s.pagesReturned d x).flash = s.flash ∧ (s.pagesReturned d x).servicePort = s.servicePort
    ∧ (s.pagesReturned d x).platformPorts = s.platformPorts ∧ (s.pagesReturned d x).service = s.service
    ∧ (s.pagesReturned d x).config = s.config ∧ (∀ e : Dom, (s.pagesReturned d x).settings e = s.settings e)
    ∧ (∀ q : PortId, (s.pagesReturned d x).port q = s.port q) := by
  unfold State.pagesReturned; try dsimp only
  (repeat' split) <;> simp

@[simp] theorem State.sectionEnded_frame (s : State) (d : Dom) (n : Num) (i : Nat) :
    (s.sectionEnded d n i).pending = s.pending ∧ (s.sectionEnded d n i).freeCount = s.freeCount
    ∧ (s.sectionEnded d n i).partTime = s.partTime ∧ (s.sectionEnded d n i).startUp = s.startUp
    ∧ (s.sectionEnded d n i).restart = s.restart ∧ (s.sectionEnded d n i).powerGood = s.powerGood
    ∧ (s.sectionEnded d n i).plans = s.plans ∧ (∀ e : Dom, (s.sectionEnded d n i).plan e = s.plan e)
    ∧ (s.sectionEnded d n i).works = s.works ∧ (∀ e : Dom, (s.sectionEnded d n i).work e = s.work e)
    ∧ (s.sectionEnded d n i).lastPicked = s.lastPicked ∧ (s.sectionEnded d n i).journals = s.journals
    ∧ (∀ e : Dom, (s.sectionEnded d n i).journal e = s.journal e) ∧ (s.sectionEnded d n i).flash = s.flash
    ∧ (s.sectionEnded d n i).platformPorts = s.platformPorts ∧ (s.sectionEnded d n i).config = s.config
    ∧ (∀ e : Dom, (s.sectionEnded d n i).settings e = s.settings e)
    ∧ (∀ e : Dom, (s.sectionEnded d n i).port (.platform e) = s.port (.platform e)) := by
  unfold State.sectionEnded; try dsimp only
  (repeat' split) <;> simp

@[simp] theorem State.closedReport_frame (s : State) (d : Dom) :
    (s.closedReport d).pending = s.pending ∧ (s.closedReport d).freeCount = s.freeCount
    ∧ (s.closedReport d).partTime = s.partTime ∧ (s.closedReport d).startUp = s.startUp
    ∧ (s.closedReport d).restart = s.restart ∧ (s.closedReport d).powerGood = s.powerGood
    ∧ (s.closedReport d).plans = s.plans ∧ (∀ e : Dom, (s.closedReport d).plan e = s.plan e)
    ∧ (s.closedReport d).admissions = s.admissions ∧ (∀ e : Dom, (s.closedReport d).admission e = s.admission e)
    ∧ (s.closedReport d).works = s.works ∧ (∀ e : Dom, (s.closedReport d).work e = s.work e)
    ∧ (s.closedReport d).channels = s.channels ∧ (∀ c' : Fin 4, (s.closedReport d).channel c' = s.channel c')
    ∧ (s.closedReport d).lastPicked = s.lastPicked ∧ (s.closedReport d).staging = s.staging
    ∧ (s.closedReport d).links = s.links ∧ (∀ e : Dom, (s.closedReport d).link e = s.link e)
    ∧ (s.closedReport d).directory = s.directory ∧ (∀ m : Num, (s.closedReport d).dump m = s.dump m)
    ∧ (s.closedReport d).store = s.store ∧ (s.closedReport d).flash = s.flash
    ∧ (s.closedReport d).platformPorts = s.platformPorts ∧ (s.closedReport d).config = s.config
    ∧ (∀ e : Dom, (s.closedReport d).settings e = s.settings e)
    ∧ (∀ e : Dom, (s.closedReport d).port (.platform e) = s.port (.platform e)) := by
  unfold State.closedReport; try dsimp only
  (repeat' split) <;> simp

@[simp] theorem State.dumpClosed_frame (s : State) (d : Dom) (n : Num) :
    (s.dumpClosed d n).pending = s.pending ∧ (s.dumpClosed d n).freeCount = s.freeCount
    ∧ (s.dumpClosed d n).partTime = s.partTime ∧ (s.dumpClosed d n).startUp = s.startUp
    ∧ (s.dumpClosed d n).restart = s.restart ∧ (s.dumpClosed d n).powerGood = s.powerGood
    ∧ (s.dumpClosed d n).plans = s.plans ∧ (∀ e : Dom, (s.dumpClosed d n).plan e = s.plan e)
    ∧ (s.dumpClosed d n).channels = s.channels ∧ (∀ c' : Fin 4, (s.dumpClosed d n).channel c' = s.channel c')
    ∧ (s.dumpClosed d n).lastPicked = s.lastPicked ∧ (s.dumpClosed d n).staging = s.staging
    ∧ (s.dumpClosed d n).links = s.links ∧ (∀ e : Dom, (s.dumpClosed d n).link e = s.link e)
    ∧ (s.dumpClosed d n).flash = s.flash ∧ (s.dumpClosed d n).platformPorts = s.platformPorts
    ∧ (s.dumpClosed d n).config = s.config ∧ (∀ e : Dom, (s.dumpClosed d n).settings e = s.settings e)
    ∧ (∀ e : Dom, (s.dumpClosed d n).port (.platform e) = s.port (.platform e)) := by
  unfold State.dumpClosed; try dsimp only
  (repeat' split) <;> simp

@[simp] theorem State.headerGiven_frame (s : State) (c : Fin 4) :
    (s.headerGiven c).pending = s.pending ∧ (s.headerGiven c).freeCount = s.freeCount
    ∧ (s.headerGiven c).partTime = s.partTime ∧ (s.headerGiven c).startUp = s.startUp
    ∧ (s.headerGiven c).restart = s.restart ∧ (s.headerGiven c).powerGood = s.powerGood
    ∧ (s.headerGiven c).domains = s.domains ∧ (∀ e : Dom, (s.headerGiven c).domain e = s.domain e)
    ∧ (s.headerGiven c).plans = s.plans ∧ (∀ e : Dom, (s.headerGiven c).plan e = s.plan e)
    ∧ (s.headerGiven c).admissions = s.admissions ∧ (∀ e : Dom, (s.headerGiven c).admission e = s.admission e)
    ∧ (s.headerGiven c).works = s.works ∧ (∀ e : Dom, (s.headerGiven c).work e = s.work e)
    ∧ (s.headerGiven c).lastPicked = s.lastPicked ∧ (s.headerGiven c).journals = s.journals
    ∧ (∀ e : Dom, (s.headerGiven c).journal e = s.journal e) ∧ (s.headerGiven c).directory = s.directory
    ∧ (∀ m : Num, (s.headerGiven c).dump m = s.dump m) ∧ (s.headerGiven c).flash = s.flash
    ∧ (s.headerGiven c).servicePort = s.servicePort ∧ (s.headerGiven c).platformPorts = s.platformPorts
    ∧ (s.headerGiven c).service = s.service ∧ (s.headerGiven c).config = s.config
    ∧ (∀ e : Dom, (s.headerGiven c).settings e = s.settings e) ∧ (∀ q : PortId, (s.headerGiven c).port q = s.port q) := by
  unfold State.headerGiven; try dsimp only
  (repeat' split) <;> simp

@[simp] theorem State.dataGiven_frame (s : State) (c : Fin 4) (n : Nat) :
    (s.dataGiven c n).pending = s.pending ∧ (s.dataGiven c n).freeCount = s.freeCount
    ∧ (s.dataGiven c n).partTime = s.partTime ∧ (s.dataGiven c n).startUp = s.startUp
    ∧ (s.dataGiven c n).restart = s.restart ∧ (s.dataGiven c n).powerGood = s.powerGood
    ∧ (s.dataGiven c n).domains = s.domains ∧ (∀ e : Dom, (s.dataGiven c n).domain e = s.domain e)
    ∧ (s.dataGiven c n).plans = s.plans ∧ (∀ e : Dom, (s.dataGiven c n).plan e = s.plan e)
    ∧ (s.dataGiven c n).admissions = s.admissions ∧ (∀ e : Dom, (s.dataGiven c n).admission e = s.admission e)
    ∧ (s.dataGiven c n).works = s.works ∧ (∀ e : Dom, (s.dataGiven c n).work e = s.work e)
    ∧ (s.dataGiven c n).lastPicked = s.lastPicked ∧ (s.dataGiven c n).staging = s.staging
    ∧ (s.dataGiven c n).links = s.links ∧ (∀ e : Dom, (s.dataGiven c n).link e = s.link e)
    ∧ (s.dataGiven c n).journals = s.journals ∧ (∀ e : Dom, (s.dataGiven c n).journal e = s.journal e)
    ∧ (s.dataGiven c n).directory = s.directory ∧ (∀ m : Num, (s.dataGiven c n).dump m = s.dump m)
    ∧ (s.dataGiven c n).store = s.store ∧ (s.dataGiven c n).flash = s.flash
    ∧ (s.dataGiven c n).servicePort = s.servicePort ∧ (s.dataGiven c n).platformPorts = s.platformPorts
    ∧ (s.dataGiven c n).service = s.service ∧ (s.dataGiven c n).config = s.config
    ∧ (∀ e : Dom, (s.dataGiven c n).settings e = s.settings e) ∧ (∀ q : PortId, (s.dataGiven c n).port q = s.port q) := by
  unfold State.dataGiven; try dsimp only
  (repeat' split) <;> simp

@[simp] theorem State.passData_frame (s : State) (c : Fin 4) (j : Job) (p u : Nat) :
    (s.passData c j p u).pending = s.pending ∧ (s.passData c j p u).freeCount = s.freeCount
    ∧ (s.passData c j p u).partTime = s.partTime ∧ (s.passData c j p u).startUp = s.startUp
    ∧ (s.passData c j p u).restart = s.restart ∧ (s.passData c j p u).powerGood = s.powerGood
    ∧ (s.passData c j p u).domains = s.domains ∧ (∀ e : Dom, (s.passData c j p u).domain e = s.domain e)
    ∧ (s.passData c j p u).plans = s.plans ∧ (∀ e : Dom, (s.passData c j p u).plan e = s.plan e)
    ∧ (s.passData c j p u).admissions = s.admissions ∧ (∀ e : Dom, (s.passData c j p u).admission e = s.admission e)
    ∧ (s.passData c j p u).works = s.works ∧ (∀ e : Dom, (s.passData c j p u).work e = s.work e)
    ∧ (s.passData c j p u).lastPicked = s.lastPicked ∧ (s.passData c j p u).links = s.links
    ∧ (∀ e : Dom, (s.passData c j p u).link e = s.link e) ∧ (s.passData c j p u).journals = s.journals
    ∧ (∀ e : Dom, (s.passData c j p u).journal e = s.journal e) ∧ (s.passData c j p u).directory = s.directory
    ∧ (∀ m : Num, (s.passData c j p u).dump m = s.dump m) ∧ (s.passData c j p u).flash = s.flash
    ∧ (s.passData c j p u).servicePort = s.servicePort ∧ (s.passData c j p u).platformPorts = s.platformPorts
    ∧ (s.passData c j p u).service = s.service ∧ (s.passData c j p u).config = s.config
    ∧ (∀ e : Dom, (s.passData c j p u).settings e = s.settings e)
    ∧ (∀ q : PortId, (s.passData c j p u).port q = s.port q) := by
  unfold State.passData; try dsimp only
  (repeat' split) <;> simp

@[simp] theorem State.handle_frame (s : State) (c : Fin 4) (j : Job) (x : Extent) (h : Option HoleCause) :
    (s.handle c j x h).pending = s.pending ∧ (s.handle c j x h).freeCount = s.freeCount
    ∧ (s.handle c j x h).partTime = s.partTime ∧ (s.handle c j x h).startUp = s.startUp
    ∧ (s.handle c j x h).restart = s.restart ∧ (s.handle c j x h).powerGood = s.powerGood
    ∧ (s.handle c j x h).domains = s.domains ∧ (∀ e : Dom, (s.handle c j x h).domain e = s.domain e)
    ∧ (s.handle c j x h).plans = s.plans ∧ (∀ e : Dom, (s.handle c j x h).plan e = s.plan e)
    ∧ (s.handle c j x h).admissions = s.admissions ∧ (∀ e : Dom, (s.handle c j x h).admission e = s.admission e)
    ∧ (s.handle c j x h).works = s.works ∧ (∀ e : Dom, (s.handle c j x h).work e = s.work e)
    ∧ (s.handle c j x h).lastPicked = s.lastPicked ∧ (s.handle c j x h).staging = s.staging
    ∧ (s.handle c j x h).links = s.links ∧ (∀ e : Dom, (s.handle c j x h).link e = s.link e)
    ∧ (s.handle c j x h).journals = s.journals ∧ (∀ e : Dom, (s.handle c j x h).journal e = s.journal e)
    ∧ (s.handle c j x h).store = s.store ∧ (s.handle c j x h).flash = s.flash
    ∧ (s.handle c j x h).servicePort = s.servicePort ∧ (s.handle c j x h).platformPorts = s.platformPorts
    ∧ (s.handle c j x h).service = s.service ∧ (s.handle c j x h).config = s.config
    ∧ (∀ e : Dom, (s.handle c j x h).settings e = s.settings e)
    ∧ (∀ q : PortId, (s.handle c j x h).port q = s.port q) := by
  unfold State.handle; try dsimp only
  (repeat' split) <;> simp

@[simp] theorem State.placeBytes_frame (s : State) (j : Job) (o : Nat) (bs : List Byte) :
    (s.placeBytes j o bs).pending = s.pending ∧ (s.placeBytes j o bs).freeCount = s.freeCount
    ∧ (s.placeBytes j o bs).partTime = s.partTime ∧ (s.placeBytes j o bs).startUp = s.startUp
    ∧ (s.placeBytes j o bs).restart = s.restart ∧ (s.placeBytes j o bs).powerGood = s.powerGood
    ∧ (s.placeBytes j o bs).domains = s.domains ∧ (∀ e : Dom, (s.placeBytes j o bs).domain e = s.domain e)
    ∧ (s.placeBytes j o bs).plans = s.plans ∧ (∀ e : Dom, (s.placeBytes j o bs).plan e = s.plan e)
    ∧ (s.placeBytes j o bs).admissions = s.admissions
    ∧ (∀ e : Dom, (s.placeBytes j o bs).admission e = s.admission e) ∧ (s.placeBytes j o bs).works = s.works
    ∧ (∀ e : Dom, (s.placeBytes j o bs).work e = s.work e) ∧ (s.placeBytes j o bs).channels = s.channels
    ∧ (∀ c' : Fin 4, (s.placeBytes j o bs).channel c' = s.channel c')
    ∧ (s.placeBytes j o bs).lastPicked = s.lastPicked ∧ (s.placeBytes j o bs).links = s.links
    ∧ (∀ e : Dom, (s.placeBytes j o bs).link e = s.link e) ∧ (s.placeBytes j o bs).journals = s.journals
    ∧ (∀ e : Dom, (s.placeBytes j o bs).journal e = s.journal e) ∧ (s.placeBytes j o bs).directory = s.directory
    ∧ (∀ m : Num, (s.placeBytes j o bs).dump m = s.dump m) ∧ (s.placeBytes j o bs).store = s.store
    ∧ (s.placeBytes j o bs).flash = s.flash ∧ (s.placeBytes j o bs).servicePort = s.servicePort
    ∧ (s.placeBytes j o bs).platformPorts = s.platformPorts ∧ (s.placeBytes j o bs).service = s.service
    ∧ (s.placeBytes j o bs).config = s.config ∧ (∀ e : Dom, (s.placeBytes j o bs).settings e = s.settings e)
    ∧ (∀ q : PortId, (s.placeBytes j o bs).port q = s.port q) := by
  unfold State.placeBytes; try dsimp only
  (repeat' split) <;> simp

@[simp] theorem State.endClean_frame (s : State) (c : Fin 4) (j : Job) (r : HandRead) (bs : List Byte) :
    (s.endClean c j r bs).pending = s.pending ∧ (s.endClean c j r bs).freeCount = s.freeCount
    ∧ (s.endClean c j r bs).partTime = s.partTime ∧ (s.endClean c j r bs).startUp = s.startUp
    ∧ (s.endClean c j r bs).restart = s.restart ∧ (s.endClean c j r bs).powerGood = s.powerGood
    ∧ (s.endClean c j r bs).domains = s.domains ∧ (∀ e : Dom, (s.endClean c j r bs).domain e = s.domain e)
    ∧ (s.endClean c j r bs).plans = s.plans ∧ (∀ e : Dom, (s.endClean c j r bs).plan e = s.plan e)
    ∧ (s.endClean c j r bs).admissions = s.admissions
    ∧ (∀ e : Dom, (s.endClean c j r bs).admission e = s.admission e) ∧ (s.endClean c j r bs).works = s.works
    ∧ (∀ e : Dom, (s.endClean c j r bs).work e = s.work e) ∧ (s.endClean c j r bs).lastPicked = s.lastPicked
    ∧ (s.endClean c j r bs).links = s.links ∧ (∀ e : Dom, (s.endClean c j r bs).link e = s.link e)
    ∧ (s.endClean c j r bs).journals = s.journals ∧ (∀ e : Dom, (s.endClean c j r bs).journal e = s.journal e)
    ∧ (s.endClean c j r bs).store = s.store ∧ (s.endClean c j r bs).flash = s.flash
    ∧ (s.endClean c j r bs).servicePort = s.servicePort ∧ (s.endClean c j r bs).platformPorts = s.platformPorts
    ∧ (s.endClean c j r bs).service = s.service ∧ (s.endClean c j r bs).config = s.config
    ∧ (∀ e : Dom, (s.endClean c j r bs).settings e = s.settings e)
    ∧ (∀ q : PortId, (s.endClean c j r bs).port q = s.port q) := by
  unfold State.endClean; try dsimp only
  (repeat' split) <;> simp

@[simp] theorem State.endHole_frame (s : State) (c : Fin 4) (j : Job) (r : HandRead) (h : HoleCause) (bs : List Byte) :
    (s.endHole c j r h bs).pending = s.pending ∧ (s.endHole c j r h bs).freeCount = s.freeCount
    ∧ (s.endHole c j r h bs).partTime = s.partTime ∧ (s.endHole c j r h bs).startUp = s.startUp
    ∧ (s.endHole c j r h bs).restart = s.restart ∧ (s.endHole c j r h bs).powerGood = s.powerGood
    ∧ (s.endHole c j r h bs).domains = s.domains ∧ (∀ e : Dom, (s.endHole c j r h bs).domain e = s.domain e)
    ∧ (s.endHole c j r h bs).plans = s.plans ∧ (∀ e : Dom, (s.endHole c j r h bs).plan e = s.plan e)
    ∧ (s.endHole c j r h bs).admissions = s.admissions
    ∧ (∀ e : Dom, (s.endHole c j r h bs).admission e = s.admission e) ∧ (s.endHole c j r h bs).works = s.works
    ∧ (∀ e : Dom, (s.endHole c j r h bs).work e = s.work e) ∧ (s.endHole c j r h bs).lastPicked = s.lastPicked
    ∧ (s.endHole c j r h bs).links = s.links ∧ (∀ e : Dom, (s.endHole c j r h bs).link e = s.link e)
    ∧ (s.endHole c j r h bs).journals = s.journals ∧ (∀ e : Dom, (s.endHole c j r h bs).journal e = s.journal e)
    ∧ (s.endHole c j r h bs).store = s.store ∧ (s.endHole c j r h bs).flash = s.flash
    ∧ (s.endHole c j r h bs).servicePort = s.servicePort ∧ (s.endHole c j r h bs).platformPorts = s.platformPorts
    ∧ (s.endHole c j r h bs).service = s.service ∧ (s.endHole c j r h bs).config = s.config
    ∧ (∀ e : Dom, (s.endHole c j r h bs).settings e = s.settings e)
    ∧ (∀ q : PortId, (s.endHole c j r h bs).port q = s.port q) := by
  unfold State.endHole; try dsimp only
  (repeat' split) <;> simp

@[simp] theorem State.failedIssue_frame (s : State) (c : Fin 4) (j : Job) (r : HandRead) (h : HoleCause) (bs : List Byte) :
    (s.failedIssue c j r h bs).pending = s.pending ∧ (s.failedIssue c j r h bs).freeCount = s.freeCount
    ∧ (s.failedIssue c j r h bs).partTime = s.partTime ∧ (s.failedIssue c j r h bs).startUp = s.startUp
    ∧ (s.failedIssue c j r h bs).restart = s.restart ∧ (s.failedIssue c j r h bs).powerGood = s.powerGood
    ∧ (s.failedIssue c j r h bs).domains = s.domains ∧ (∀ e : Dom, (s.failedIssue c j r h bs).domain e = s.domain e)
    ∧ (s.failedIssue c j r h bs).plans = s.plans ∧ (∀ e : Dom, (s.failedIssue c j r h bs).plan e = s.plan e)
    ∧ (s.failedIssue c j r h bs).admissions = s.admissions
    ∧ (∀ e : Dom, (s.failedIssue c j r h bs).admission e = s.admission e)
    ∧ (s.failedIssue c j r h bs).works = s.works ∧ (∀ e : Dom, (s.failedIssue c j r h bs).work e = s.work e)
    ∧ (s.failedIssue c j r h bs).lastPicked = s.lastPicked ∧ (s.failedIssue c j r h bs).links = s.links
    ∧ (∀ e : Dom, (s.failedIssue c j r h bs).link e = s.link e) ∧ (s.failedIssue c j r h bs).journals = s.journals
    ∧ (∀ e : Dom, (s.failedIssue c j r h bs).journal e = s.journal e) ∧ (s.failedIssue c j r h bs).store = s.store
    ∧ (s.failedIssue c j r h bs).flash = s.flash ∧ (s.failedIssue c j r h bs).servicePort = s.servicePort
    ∧ (s.failedIssue c j r h bs).platformPorts = s.platformPorts ∧ (s.failedIssue c j r h bs).service = s.service
    ∧ (s.failedIssue c j r h bs).config = s.config
    ∧ (∀ e : Dom, (s.failedIssue c j r h bs).settings e = s.settings e)
    ∧ (∀ q : PortId, (s.failedIssue c j r h bs).port q = s.port q) := by
  unfold State.failedIssue; try dsimp only
  (repeat' split) <;> simp

@[simp] theorem State.disconnected_frame (s : State) (c : Fin 4) (j : Job) (r : HandRead) (bs : List Byte) :
    (s.disconnected c j r bs).pending = s.pending ∧ (s.disconnected c j r bs).freeCount = s.freeCount
    ∧ (s.disconnected c j r bs).partTime = s.partTime ∧ (s.disconnected c j r bs).startUp = s.startUp
    ∧ (s.disconnected c j r bs).restart = s.restart ∧ (s.disconnected c j r bs).powerGood = s.powerGood
    ∧ (s.disconnected c j r bs).domains = s.domains ∧ (∀ e : Dom, (s.disconnected c j r bs).domain e = s.domain e)
    ∧ (s.disconnected c j r bs).plans = s.plans ∧ (∀ e : Dom, (s.disconnected c j r bs).plan e = s.plan e)
    ∧ (s.disconnected c j r bs).admissions = s.admissions
    ∧ (∀ e : Dom, (s.disconnected c j r bs).admission e = s.admission e) ∧ (s.disconnected c j r bs).works = s.works
    ∧ (∀ e : Dom, (s.disconnected c j r bs).work e = s.work e) ∧ (s.disconnected c j r bs).lastPicked = s.lastPicked
    ∧ (s.disconnected c j r bs).links = s.links ∧ (∀ e : Dom, (s.disconnected c j r bs).link e = s.link e)
    ∧ (s.disconnected c j r bs).journals = s.journals
    ∧ (∀ e : Dom, (s.disconnected c j r bs).journal e = s.journal e) ∧ (s.disconnected c j r bs).store = s.store
    ∧ (s.disconnected c j r bs).flash = s.flash ∧ (s.disconnected c j r bs).servicePort = s.servicePort
    ∧ (s.disconnected c j r bs).platformPorts = s.platformPorts ∧ (s.disconnected c j r bs).service = s.service
    ∧ (s.disconnected c j r bs).config = s.config ∧ (∀ e : Dom, (s.disconnected c j r bs).settings e = s.settings e)
    ∧ (∀ q : PortId, (s.disconnected c j r bs).port q = s.port q) := by
  unfold State.disconnected; try dsimp only
  (repeat' split) <;> simp

@[simp] theorem State.takeOutcome_frame (s : State) (c : Fin 4) (j : Job) (r : HandRead) (o : ReadOutcome) :
    (s.takeOutcome c j r o).pending = s.pending ∧ (s.takeOutcome c j r o).freeCount = s.freeCount
    ∧ (s.takeOutcome c j r o).partTime = s.partTime ∧ (s.takeOutcome c j r o).startUp = s.startUp
    ∧ (s.takeOutcome c j r o).restart = s.restart ∧ (s.takeOutcome c j r o).powerGood = s.powerGood
    ∧ (s.takeOutcome c j r o).domains = s.domains ∧ (∀ e : Dom, (s.takeOutcome c j r o).domain e = s.domain e)
    ∧ (s.takeOutcome c j r o).plans = s.plans ∧ (∀ e : Dom, (s.takeOutcome c j r o).plan e = s.plan e)
    ∧ (s.takeOutcome c j r o).admissions = s.admissions
    ∧ (∀ e : Dom, (s.takeOutcome c j r o).admission e = s.admission e) ∧ (s.takeOutcome c j r o).works = s.works
    ∧ (∀ e : Dom, (s.takeOutcome c j r o).work e = s.work e) ∧ (s.takeOutcome c j r o).lastPicked = s.lastPicked
    ∧ (s.takeOutcome c j r o).links = s.links ∧ (∀ e : Dom, (s.takeOutcome c j r o).link e = s.link e)
    ∧ (s.takeOutcome c j r o).journals = s.journals ∧ (∀ e : Dom, (s.takeOutcome c j r o).journal e = s.journal e)
    ∧ (s.takeOutcome c j r o).store = s.store ∧ (s.takeOutcome c j r o).flash = s.flash
    ∧ (s.takeOutcome c j r o).servicePort = s.servicePort ∧ (s.takeOutcome c j r o).platformPorts = s.platformPorts
    ∧ (s.takeOutcome c j r o).service = s.service ∧ (s.takeOutcome c j r o).config = s.config
    ∧ (∀ e : Dom, (s.takeOutcome c j r o).settings e = s.settings e)
    ∧ (∀ q : PortId, (s.takeOutcome c j r o).port q = s.port q) := by
  unfold State.takeOutcome; split <;> simp

@[simp] theorem State.takeLastOutcome_frame (s : State) (c : Fin 4) (j : Job) (r : HandRead) (o : ReadOutcome) :
    (s.takeLastOutcome c j r o).pending = s.pending ∧ (s.takeLastOutcome c j r o).freeCount = s.freeCount
    ∧ (s.takeLastOutcome c j r o).partTime = s.partTime ∧ (s.takeLastOutcome c j r o).startUp = s.startUp
    ∧ (s.takeLastOutcome c j r o).restart = s.restart ∧ (s.takeLastOutcome c j r o).powerGood = s.powerGood
    ∧ (s.takeLastOutcome c j r o).domains = s.domains
    ∧ (∀ e : Dom, (s.takeLastOutcome c j r o).domain e = s.domain e) ∧ (s.takeLastOutcome c j r o).plans = s.plans
    ∧ (∀ e : Dom, (s.takeLastOutcome c j r o).plan e = s.plan e)
    ∧ (s.takeLastOutcome c j r o).admissions = s.admissions
    ∧ (∀ e : Dom, (s.takeLastOutcome c j r o).admission e = s.admission e)
    ∧ (s.takeLastOutcome c j r o).works = s.works ∧ (∀ e : Dom, (s.takeLastOutcome c j r o).work e = s.work e)
    ∧ (s.takeLastOutcome c j r o).lastPicked = s.lastPicked ∧ (s.takeLastOutcome c j r o).links = s.links
    ∧ (∀ e : Dom, (s.takeLastOutcome c j r o).link e = s.link e) ∧ (s.takeLastOutcome c j r o).journals = s.journals
    ∧ (∀ e : Dom, (s.takeLastOutcome c j r o).journal e = s.journal e) ∧ (s.takeLastOutcome c j r o).store = s.store
    ∧ (s.takeLastOutcome c j r o).flash = s.flash ∧ (s.takeLastOutcome c j r o).servicePort = s.servicePort
    ∧ (s.takeLastOutcome c j r o).platformPorts = s.platformPorts ∧ (s.takeLastOutcome c j r o).service = s.service
    ∧ (s.takeLastOutcome c j r o).config = s.config
    ∧ (∀ e : Dom, (s.takeLastOutcome c j r o).settings e = s.settings e)
    ∧ (∀ q : PortId, (s.takeLastOutcome c j r o).port q = s.port q) := by
  unfold State.takeLastOutcome; cases o <;> simp

@[simp] theorem State.afterOutcome_frame (s : State) (c : Fin 4) (j : Job) :
    (s.afterOutcome c j).pending = s.pending ∧ (s.afterOutcome c j).freeCount = s.freeCount
    ∧ (s.afterOutcome c j).partTime = s.partTime ∧ (s.afterOutcome c j).startUp = s.startUp
    ∧ (s.afterOutcome c j).restart = s.restart ∧ (s.afterOutcome c j).powerGood = s.powerGood
    ∧ (s.afterOutcome c j).domains = s.domains ∧ (∀ e : Dom, (s.afterOutcome c j).domain e = s.domain e)
    ∧ (s.afterOutcome c j).plans = s.plans ∧ (∀ e : Dom, (s.afterOutcome c j).plan e = s.plan e)
    ∧ (s.afterOutcome c j).admissions = s.admissions ∧ (∀ e : Dom, (s.afterOutcome c j).admission e = s.admission e)
    ∧ (s.afterOutcome c j).works = s.works ∧ (∀ e : Dom, (s.afterOutcome c j).work e = s.work e)
    ∧ (s.afterOutcome c j).lastPicked = s.lastPicked ∧ (s.afterOutcome c j).journals = s.journals
    ∧ (∀ e : Dom, (s.afterOutcome c j).journal e = s.journal e) ∧ (s.afterOutcome c j).store = s.store
    ∧ (s.afterOutcome c j).flash = s.flash ∧ (s.afterOutcome c j).servicePort = s.servicePort
    ∧ (s.afterOutcome c j).platformPorts = s.platformPorts ∧ (s.afterOutcome c j).service = s.service
    ∧ (s.afterOutcome c j).config = s.config ∧ (∀ e : Dom, (s.afterOutcome c j).settings e = s.settings e)
    ∧ (∀ q : PortId, (s.afterOutcome c j).port q = s.port q) := by
  unfold State.afterOutcome; try dsimp only
  (repeat' split) <;> simp

@[simp] theorem State.deliver_frame (s : State) (c : Fin 4) (a : Nat) (o : ReadOutcome) :
    (s.deliver c a o).pending = s.pending ∧ (s.deliver c a o).freeCount = s.freeCount
    ∧ (s.deliver c a o).partTime = s.partTime ∧ (s.deliver c a o).startUp = s.startUp
    ∧ (s.deliver c a o).restart = s.restart ∧ (s.deliver c a o).powerGood = s.powerGood
    ∧ (s.deliver c a o).domains = s.domains ∧ (∀ e : Dom, (s.deliver c a o).domain e = s.domain e)
    ∧ (s.deliver c a o).plans = s.plans ∧ (∀ e : Dom, (s.deliver c a o).plan e = s.plan e)
    ∧ (s.deliver c a o).admissions = s.admissions ∧ (∀ e : Dom, (s.deliver c a o).admission e = s.admission e)
    ∧ (s.deliver c a o).works = s.works ∧ (∀ e : Dom, (s.deliver c a o).work e = s.work e)
    ∧ (s.deliver c a o).lastPicked = s.lastPicked ∧ (s.deliver c a o).journals = s.journals
    ∧ (∀ e : Dom, (s.deliver c a o).journal e = s.journal e) ∧ (s.deliver c a o).store = s.store
    ∧ (s.deliver c a o).flash = s.flash ∧ (s.deliver c a o).servicePort = s.servicePort
    ∧ (s.deliver c a o).platformPorts = s.platformPorts ∧ (s.deliver c a o).service = s.service
    ∧ (s.deliver c a o).config = s.config ∧ (∀ e : Dom, (s.deliver c a o).settings e = s.settings e)
    ∧ (∀ q : PortId, (s.deliver c a o).port q = s.port q) := by
  unfold State.deliver; try dsimp only
  (repeat' split) <;> simp

@[simp] theorem State.passRest_frame (s : State) (c : Fin 4) (j : Job) (w n : Nat) :
    (s.passRest c j w n).pending = s.pending ∧ (s.passRest c j w n).freeCount = s.freeCount
    ∧ (s.passRest c j w n).partTime = s.partTime ∧ (s.passRest c j w n).startUp = s.startUp
    ∧ (s.passRest c j w n).restart = s.restart ∧ (s.passRest c j w n).powerGood = s.powerGood
    ∧ (s.passRest c j w n).domains = s.domains ∧ (∀ e : Dom, (s.passRest c j w n).domain e = s.domain e)
    ∧ (s.passRest c j w n).plans = s.plans ∧ (∀ e : Dom, (s.passRest c j w n).plan e = s.plan e)
    ∧ (s.passRest c j w n).admissions = s.admissions ∧ (∀ e : Dom, (s.passRest c j w n).admission e = s.admission e)
    ∧ (s.passRest c j w n).works = s.works ∧ (∀ e : Dom, (s.passRest c j w n).work e = s.work e)
    ∧ (s.passRest c j w n).lastPicked = s.lastPicked ∧ (s.passRest c j w n).links = s.links
    ∧ (∀ e : Dom, (s.passRest c j w n).link e = s.link e) ∧ (s.passRest c j w n).journals = s.journals
    ∧ (∀ e : Dom, (s.passRest c j w n).journal e = s.journal e) ∧ (s.passRest c j w n).directory = s.directory
    ∧ (∀ m : Num, (s.passRest c j w n).dump m = s.dump m) ∧ (s.passRest c j w n).flash = s.flash
    ∧ (s.passRest c j w n).servicePort = s.servicePort ∧ (s.passRest c j w n).platformPorts = s.platformPorts
    ∧ (s.passRest c j w n).service = s.service ∧ (s.passRest c j w n).config = s.config
    ∧ (∀ e : Dom, (s.passRest c j w n).settings e = s.settings e)
    ∧ (∀ q : PortId, (s.passRest c j w n).port q = s.port q) := by
  induction n generalizing s with
  | zero => simp [State.passRest]
  | succ n ih => unfold State.passRest; dsimp only; split <;> simp [ih]

@[simp] theorem State.pick_frame (s : State) (c : Fin 4) (d : Dom) (n : Num) (x : SectionRecord) :
    (s.pick c d n x).pending = s.pending ∧ (s.pick c d n x).freeCount = s.freeCount
    ∧ (s.pick c d n x).partTime = s.partTime ∧ (s.pick c d n x).startUp = s.startUp
    ∧ (s.pick c d n x).restart = s.restart ∧ (s.pick c d n x).powerGood = s.powerGood
    ∧ (s.pick c d n x).domains = s.domains ∧ (∀ e : Dom, (s.pick c d n x).domain e = s.domain e)
    ∧ (s.pick c d n x).plans = s.plans ∧ (∀ e : Dom, (s.pick c d n x).plan e = s.plan e)
    ∧ (s.pick c d n x).admissions = s.admissions ∧ (∀ e : Dom, (s.pick c d n x).admission e = s.admission e)
    ∧ (s.pick c d n x).works = s.works ∧ (∀ e : Dom, (s.pick c d n x).work e = s.work e)
    ∧ (s.pick c d n x).links = s.links ∧ (∀ e : Dom, (s.pick c d n x).link e = s.link e)
    ∧ (s.pick c d n x).journals = s.journals ∧ (∀ e : Dom, (s.pick c d n x).journal e = s.journal e)
    ∧ (s.pick c d n x).store = s.store ∧ (s.pick c d n x).flash = s.flash
    ∧ (s.pick c d n x).servicePort = s.servicePort ∧ (s.pick c d n x).platformPorts = s.platformPorts
    ∧ (s.pick c d n x).service = s.service ∧ (s.pick c d n x).config = s.config
    ∧ (∀ e : Dom, (s.pick c d n x).settings e = s.settings e) ∧ (∀ q : PortId, (s.pick c d n x).port q = s.port q) := by
  unfold State.pick; try dsimp only
  (repeat' split) <;> simp

@[simp] theorem State.setMode_frame (s : State) (d : Dom) (m : Mode) :
    (s.setMode d m).pending = s.pending ∧ (s.setMode d m).freeCount = s.freeCount
    ∧ (s.setMode d m).partTime = s.partTime ∧ (s.setMode d m).startUp = s.startUp
    ∧ (s.setMode d m).restart = s.restart ∧ (s.setMode d m).powerGood = s.powerGood
    ∧ (s.setMode d m).domains = s.domains ∧ (∀ e : Dom, (s.setMode d m).domain e = s.domain e)
    ∧ (s.setMode d m).plans = s.plans ∧ (∀ e : Dom, (s.setMode d m).plan e = s.plan e)
    ∧ (s.setMode d m).admissions = s.admissions ∧ (∀ e : Dom, (s.setMode d m).admission e = s.admission e)
    ∧ (s.setMode d m).works = s.works ∧ (∀ e : Dom, (s.setMode d m).work e = s.work e)
    ∧ (s.setMode d m).channels = s.channels ∧ (∀ c' : Fin 4, (s.setMode d m).channel c' = s.channel c')
    ∧ (s.setMode d m).lastPicked = s.lastPicked ∧ (s.setMode d m).staging = s.staging
    ∧ (s.setMode d m).journals = s.journals ∧ (∀ e : Dom, (s.setMode d m).journal e = s.journal e)
    ∧ (s.setMode d m).store = s.store ∧ (s.setMode d m).flash = s.flash ∧ (s.setMode d m).servicePort = s.servicePort
    ∧ (s.setMode d m).platformPorts = s.platformPorts ∧ (s.setMode d m).service = s.service
    ∧ (s.setMode d m).config = s.config ∧ (∀ e : Dom, (s.setMode d m).settings e = s.settings e)
    ∧ (∀ q : PortId, (s.setMode d m).port q = s.port q) := by
  unfold State.setMode; try dsimp only
  (repeat' split) <;> simp

@[simp] theorem State.startTraining_frame (s : State) (d : Dom) (m : Mode) :
    (s.startTraining d m).pending = s.pending ∧ (s.startTraining d m).freeCount = s.freeCount
    ∧ (s.startTraining d m).partTime = s.partTime ∧ (s.startTraining d m).startUp = s.startUp
    ∧ (s.startTraining d m).restart = s.restart ∧ (s.startTraining d m).powerGood = s.powerGood
    ∧ (s.startTraining d m).domains = s.domains ∧ (∀ e : Dom, (s.startTraining d m).domain e = s.domain e)
    ∧ (s.startTraining d m).plans = s.plans ∧ (∀ e : Dom, (s.startTraining d m).plan e = s.plan e)
    ∧ (s.startTraining d m).admissions = s.admissions
    ∧ (∀ e : Dom, (s.startTraining d m).admission e = s.admission e) ∧ (s.startTraining d m).works = s.works
    ∧ (∀ e : Dom, (s.startTraining d m).work e = s.work e) ∧ (s.startTraining d m).channels = s.channels
    ∧ (∀ c' : Fin 4, (s.startTraining d m).channel c' = s.channel c')
    ∧ (s.startTraining d m).lastPicked = s.lastPicked ∧ (s.startTraining d m).staging = s.staging
    ∧ (s.startTraining d m).journals = s.journals ∧ (∀ e : Dom, (s.startTraining d m).journal e = s.journal e)
    ∧ (s.startTraining d m).store = s.store ∧ (s.startTraining d m).flash = s.flash
    ∧ (s.startTraining d m).servicePort = s.servicePort ∧ (s.startTraining d m).platformPorts = s.platformPorts
    ∧ (s.startTraining d m).service = s.service ∧ (s.startTraining d m).config = s.config
    ∧ (∀ e : Dom, (s.startTraining d m).settings e = s.settings e)
    ∧ (∀ q : PortId, (s.startTraining d m).port q = s.port q) := by
  unfold State.startTraining; try dsimp only
  (repeat' split) <;> simp

@[simp] theorem State.linkDown_frame (s : State) (d : Dom) (t : Option Time) :
    (s.linkDown d t).pending = s.pending ∧ (s.linkDown d t).freeCount = s.freeCount
    ∧ (s.linkDown d t).partTime = s.partTime ∧ (s.linkDown d t).startUp = s.startUp
    ∧ (s.linkDown d t).restart = s.restart ∧ (s.linkDown d t).powerGood = s.powerGood
    ∧ (s.linkDown d t).domains = s.domains ∧ (∀ e : Dom, (s.linkDown d t).domain e = s.domain e)
    ∧ (s.linkDown d t).plans = s.plans ∧ (∀ e : Dom, (s.linkDown d t).plan e = s.plan e)
    ∧ (s.linkDown d t).admissions = s.admissions ∧ (∀ e : Dom, (s.linkDown d t).admission e = s.admission e)
    ∧ (s.linkDown d t).works = s.works ∧ (∀ e : Dom, (s.linkDown d t).work e = s.work e)
    ∧ (s.linkDown d t).channels = s.channels ∧ (∀ c' : Fin 4, (s.linkDown d t).channel c' = s.channel c')
    ∧ (s.linkDown d t).lastPicked = s.lastPicked ∧ (s.linkDown d t).staging = s.staging
    ∧ (s.linkDown d t).journals = s.journals ∧ (∀ e : Dom, (s.linkDown d t).journal e = s.journal e)
    ∧ (s.linkDown d t).store = s.store ∧ (s.linkDown d t).flash = s.flash
    ∧ (s.linkDown d t).servicePort = s.servicePort ∧ (s.linkDown d t).platformPorts = s.platformPorts
    ∧ (s.linkDown d t).service = s.service ∧ (s.linkDown d t).config = s.config
    ∧ (∀ e : Dom, (s.linkDown d t).settings e = s.settings e) ∧ (∀ q : PortId, (s.linkDown d t).port q = s.port q) := by
  unfold State.linkDown; try dsimp only
  (repeat' split) <;> simp

@[simp] theorem State.dropOutstanding_frame (s : State) (d : Dom) (o : ReadOutcome) (i : Fin 2) :
    (s.dropOutstanding d o i).pending = s.pending ∧ (s.dropOutstanding d o i).freeCount = s.freeCount
    ∧ (s.dropOutstanding d o i).partTime = s.partTime ∧ (s.dropOutstanding d o i).startUp = s.startUp
    ∧ (s.dropOutstanding d o i).restart = s.restart ∧ (s.dropOutstanding d o i).powerGood = s.powerGood
    ∧ (s.dropOutstanding d o i).domains = s.domains ∧ (∀ e : Dom, (s.dropOutstanding d o i).domain e = s.domain e)
    ∧ (s.dropOutstanding d o i).plans = s.plans ∧ (∀ e : Dom, (s.dropOutstanding d o i).plan e = s.plan e)
    ∧ (s.dropOutstanding d o i).admissions = s.admissions
    ∧ (∀ e : Dom, (s.dropOutstanding d o i).admission e = s.admission e) ∧ (s.dropOutstanding d o i).works = s.works
    ∧ (∀ e : Dom, (s.dropOutstanding d o i).work e = s.work e) ∧ (s.dropOutstanding d o i).lastPicked = s.lastPicked
    ∧ (s.dropOutstanding d o i).journals = s.journals
    ∧ (∀ e : Dom, (s.dropOutstanding d o i).journal e = s.journal e) ∧ (s.dropOutstanding d o i).store = s.store
    ∧ (s.dropOutstanding d o i).flash = s.flash ∧ (s.dropOutstanding d o i).servicePort = s.servicePort
    ∧ (s.dropOutstanding d o i).platformPorts = s.platformPorts ∧ (s.dropOutstanding d o i).service = s.service
    ∧ (s.dropOutstanding d o i).config = s.config ∧ (∀ e : Dom, (s.dropOutstanding d o i).settings e = s.settings e)
    ∧ (∀ q : PortId, (s.dropOutstanding d o i).port q = s.port q) := by
  unfold State.dropOutstanding; try dsimp only
  (repeat' split) <;> simp

@[simp] theorem State.dropAll_frame (s : State) (d : Dom) (o : ReadOutcome) :
    (s.dropAll d o).pending = s.pending ∧ (s.dropAll d o).freeCount = s.freeCount
    ∧ (s.dropAll d o).partTime = s.partTime ∧ (s.dropAll d o).startUp = s.startUp
    ∧ (s.dropAll d o).restart = s.restart ∧ (s.dropAll d o).powerGood = s.powerGood
    ∧ (s.dropAll d o).domains = s.domains ∧ (∀ e : Dom, (s.dropAll d o).domain e = s.domain e)
    ∧ (s.dropAll d o).plans = s.plans ∧ (∀ e : Dom, (s.dropAll d o).plan e = s.plan e)
    ∧ (s.dropAll d o).admissions = s.admissions ∧ (∀ e : Dom, (s.dropAll d o).admission e = s.admission e)
    ∧ (s.dropAll d o).works = s.works ∧ (∀ e : Dom, (s.dropAll d o).work e = s.work e)
    ∧ (s.dropAll d o).lastPicked = s.lastPicked ∧ (s.dropAll d o).journals = s.journals
    ∧ (∀ e : Dom, (s.dropAll d o).journal e = s.journal e) ∧ (s.dropAll d o).store = s.store
    ∧ (s.dropAll d o).flash = s.flash ∧ (s.dropAll d o).servicePort = s.servicePort
    ∧ (s.dropAll d o).platformPorts = s.platformPorts ∧ (s.dropAll d o).service = s.service
    ∧ (s.dropAll d o).config = s.config ∧ (∀ e : Dom, (s.dropAll d o).settings e = s.settings e)
    ∧ (∀ q : PortId, (s.dropAll d o).port q = s.port q) := by
  unfold State.dropAll; try dsimp only
  (repeat' split) <;> simp

@[simp] theorem State.retrain_frame (s : State) (d : Dom) (m : Mode) :
    (s.retrain d m).pending = s.pending ∧ (s.retrain d m).freeCount = s.freeCount
    ∧ (s.retrain d m).partTime = s.partTime ∧ (s.retrain d m).startUp = s.startUp
    ∧ (s.retrain d m).restart = s.restart ∧ (s.retrain d m).powerGood = s.powerGood
    ∧ (s.retrain d m).domains = s.domains ∧ (∀ e : Dom, (s.retrain d m).domain e = s.domain e)
    ∧ (s.retrain d m).plans = s.plans ∧ (∀ e : Dom, (s.retrain d m).plan e = s.plan e)
    ∧ (s.retrain d m).admissions = s.admissions ∧ (∀ e : Dom, (s.retrain d m).admission e = s.admission e)
    ∧ (s.retrain d m).works = s.works ∧ (∀ e : Dom, (s.retrain d m).work e = s.work e)
    ∧ (s.retrain d m).lastPicked = s.lastPicked ∧ (s.retrain d m).journals = s.journals
    ∧ (∀ e : Dom, (s.retrain d m).journal e = s.journal e) ∧ (s.retrain d m).store = s.store
    ∧ (s.retrain d m).flash = s.flash ∧ (s.retrain d m).servicePort = s.servicePort
    ∧ (s.retrain d m).platformPorts = s.platformPorts ∧ (s.retrain d m).service = s.service
    ∧ (s.retrain d m).config = s.config ∧ (∀ e : Dom, (s.retrain d m).settings e = s.settings e)
    ∧ (∀ q : PortId, (s.retrain d m).port q = s.port q) := by
  unfold State.retrain; try dsimp only
  (repeat' split) <;> simp

@[simp] theorem State.downshift_frame (s : State) (d : Dom) (x y : Mode) :
    (s.downshift d x y).pending = s.pending ∧ (s.downshift d x y).freeCount = s.freeCount
    ∧ (s.downshift d x y).partTime = s.partTime ∧ (s.downshift d x y).startUp = s.startUp
    ∧ (s.downshift d x y).restart = s.restart ∧ (s.downshift d x y).powerGood = s.powerGood
    ∧ (s.downshift d x y).domains = s.domains ∧ (∀ e : Dom, (s.downshift d x y).domain e = s.domain e)
    ∧ (s.downshift d x y).plans = s.plans ∧ (∀ e : Dom, (s.downshift d x y).plan e = s.plan e)
    ∧ (s.downshift d x y).works = s.works ∧ (∀ e : Dom, (s.downshift d x y).work e = s.work e)
    ∧ (s.downshift d x y).lastPicked = s.lastPicked ∧ (s.downshift d x y).store = s.store
    ∧ (s.downshift d x y).flash = s.flash ∧ (s.downshift d x y).platformPorts = s.platformPorts
    ∧ (s.downshift d x y).config = s.config ∧ (∀ e : Dom, (s.downshift d x y).settings e = s.settings e)
    ∧ (∀ e : Dom, (s.downshift d x y).port (.platform e) = s.port (.platform e)) := by
  unfold State.downshift; try dsimp only
  (repeat' split) <;> simp

@[simp] theorem State.parityCounted_frame (s : State) (d : Dom) :
    (s.parityCounted d).pending = s.pending ∧ (s.parityCounted d).freeCount = s.freeCount
    ∧ (s.parityCounted d).partTime = s.partTime ∧ (s.parityCounted d).startUp = s.startUp
    ∧ (s.parityCounted d).restart = s.restart ∧ (s.parityCounted d).powerGood = s.powerGood
    ∧ (s.parityCounted d).domains = s.domains ∧ (∀ e : Dom, (s.parityCounted d).domain e = s.domain e)
    ∧ (s.parityCounted d).plans = s.plans ∧ (∀ e : Dom, (s.parityCounted d).plan e = s.plan e)
    ∧ (s.parityCounted d).works = s.works ∧ (∀ e : Dom, (s.parityCounted d).work e = s.work e)
    ∧ (s.parityCounted d).lastPicked = s.lastPicked ∧ (s.parityCounted d).store = s.store
    ∧ (s.parityCounted d).flash = s.flash ∧ (s.parityCounted d).platformPorts = s.platformPorts
    ∧ (s.parityCounted d).config = s.config ∧ (∀ e : Dom, (s.parityCounted d).settings e = s.settings e)
    ∧ (∀ e : Dom, (s.parityCounted d).port (.platform e) = s.port (.platform e)) := by
  unfold State.parityCounted; try dsimp only
  (repeat' split) <;> simp

@[simp] theorem State.endRead_frame (s : State) (d : Dom) (i : Fin 2) (r : LinkRead) (o : ReadOutcome) :
    (s.endRead d i r o).pending = s.pending ∧ (s.endRead d i r o).freeCount = s.freeCount
    ∧ (s.endRead d i r o).partTime = s.partTime ∧ (s.endRead d i r o).startUp = s.startUp
    ∧ (s.endRead d i r o).restart = s.restart ∧ (s.endRead d i r o).powerGood = s.powerGood
    ∧ (s.endRead d i r o).domains = s.domains ∧ (∀ e : Dom, (s.endRead d i r o).domain e = s.domain e)
    ∧ (s.endRead d i r o).plans = s.plans ∧ (∀ e : Dom, (s.endRead d i r o).plan e = s.plan e)
    ∧ (s.endRead d i r o).works = s.works ∧ (∀ e : Dom, (s.endRead d i r o).work e = s.work e)
    ∧ (s.endRead d i r o).lastPicked = s.lastPicked ∧ (s.endRead d i r o).store = s.store
    ∧ (s.endRead d i r o).flash = s.flash ∧ (s.endRead d i r o).platformPorts = s.platformPorts
    ∧ (s.endRead d i r o).config = s.config ∧ (∀ e : Dom, (s.endRead d i r o).settings e = s.settings e)
    ∧ (∀ e : Dom, (s.endRead d i r o).port (.platform e) = s.port (.platform e)) := by
  unfold State.endRead; cases o <;> simp

@[simp] theorem State.issue_frame (s : State) (d : Dom) (i : Fin 2) (g : GrantRequest) :
    (s.issue d i g).pending = s.pending ∧ (s.issue d i g).freeCount = s.freeCount
    ∧ (s.issue d i g).partTime = s.partTime ∧ (s.issue d i g).startUp = s.startUp
    ∧ (s.issue d i g).restart = s.restart ∧ (s.issue d i g).powerGood = s.powerGood
    ∧ (s.issue d i g).domains = s.domains ∧ (∀ e : Dom, (s.issue d i g).domain e = s.domain e)
    ∧ (s.issue d i g).plans = s.plans ∧ (∀ e : Dom, (s.issue d i g).plan e = s.plan e)
    ∧ (s.issue d i g).admissions = s.admissions ∧ (∀ e : Dom, (s.issue d i g).admission e = s.admission e)
    ∧ (s.issue d i g).works = s.works ∧ (∀ e : Dom, (s.issue d i g).work e = s.work e)
    ∧ (s.issue d i g).lastPicked = s.lastPicked ∧ (s.issue d i g).staging = s.staging
    ∧ (s.issue d i g).journals = s.journals ∧ (∀ e : Dom, (s.issue d i g).journal e = s.journal e)
    ∧ (s.issue d i g).directory = s.directory ∧ (∀ m : Num, (s.issue d i g).dump m = s.dump m)
    ∧ (s.issue d i g).store = s.store ∧ (s.issue d i g).flash = s.flash ∧ (s.issue d i g).servicePort = s.servicePort
    ∧ (s.issue d i g).platformPorts = s.platformPorts ∧ (s.issue d i g).service = s.service
    ∧ (s.issue d i g).config = s.config ∧ (∀ e : Dom, (s.issue d i g).settings e = s.settings e)
    ∧ (∀ q : PortId, (s.issue d i g).port q = s.port q) := by
  unfold State.issue; try dsimp only
  (repeat' split) <;> simp

@[simp] theorem State.copyEnded_frame (s : State) (d : Dom) (k : Copy) :
    (s.copyEnded d k).pending = s.pending ∧ (s.copyEnded d k).freeCount = s.freeCount
    ∧ (s.copyEnded d k).partTime = s.partTime ∧ (s.copyEnded d k).startUp = s.startUp
    ∧ (s.copyEnded d k).restart = s.restart ∧ (s.copyEnded d k).powerGood = s.powerGood
    ∧ (s.copyEnded d k).plans = s.plans ∧ (∀ e : Dom, (s.copyEnded d k).plan e = s.plan e)
    ∧ (s.copyEnded d k).works = s.works ∧ (∀ e : Dom, (s.copyEnded d k).work e = s.work e)
    ∧ (s.copyEnded d k).lastPicked = s.lastPicked ∧ (s.copyEnded d k).flash = s.flash
    ∧ (s.copyEnded d k).platformPorts = s.platformPorts ∧ (s.copyEnded d k).config = s.config
    ∧ (∀ e : Dom, (s.copyEnded d k).settings e = s.settings e)
    ∧ (∀ e : Dom, (s.copyEnded d k).port (.platform e) = s.port (.platform e)) := by
  unfold State.copyEnded; try dsimp only
  (repeat' split) <;> simp

@[simp] theorem State.copyTest_frame (s : State) (d : Dom) (k : Copy) :
    (s.copyTest d k).pending = s.pending ∧ (s.copyTest d k).freeCount = s.freeCount
    ∧ (s.copyTest d k).partTime = s.partTime ∧ (s.copyTest d k).startUp = s.startUp
    ∧ (s.copyTest d k).restart = s.restart ∧ (s.copyTest d k).powerGood = s.powerGood
    ∧ (s.copyTest d k).plans = s.plans ∧ (∀ e : Dom, (s.copyTest d k).plan e = s.plan e)
    ∧ (s.copyTest d k).works = s.works ∧ (∀ e : Dom, (s.copyTest d k).work e = s.work e)
    ∧ (s.copyTest d k).lastPicked = s.lastPicked ∧ (s.copyTest d k).flash = s.flash
    ∧ (s.copyTest d k).platformPorts = s.platformPorts ∧ (s.copyTest d k).config = s.config
    ∧ (∀ e : Dom, (s.copyTest d k).settings e = s.settings e)
    ∧ (∀ e : Dom, (s.copyTest d k).port (.platform e) = s.port (.platform e)) := by
  unfold State.copyTest; try dsimp only
  (repeat' split) <;> simp

@[simp] theorem State.copierHeader_frame (s : State) (d : Dom) :
    (s.copierHeader d).pending = s.pending ∧ (s.copierHeader d).freeCount = s.freeCount
    ∧ (s.copierHeader d).partTime = s.partTime ∧ (s.copierHeader d).startUp = s.startUp
    ∧ (s.copierHeader d).restart = s.restart ∧ (s.copierHeader d).powerGood = s.powerGood
    ∧ (s.copierHeader d).plans = s.plans ∧ (∀ e : Dom, (s.copierHeader d).plan e = s.plan e)
    ∧ (s.copierHeader d).works = s.works ∧ (∀ e : Dom, (s.copierHeader d).work e = s.work e)
    ∧ (s.copierHeader d).lastPicked = s.lastPicked ∧ (s.copierHeader d).flash = s.flash
    ∧ (s.copierHeader d).platformPorts = s.platformPorts ∧ (s.copierHeader d).config = s.config
    ∧ (∀ e : Dom, (s.copierHeader d).settings e = s.settings e)
    ∧ (∀ e : Dom, (s.copierHeader d).port (.platform e) = s.port (.platform e)) := by
  unfold State.copierHeader; try dsimp only
  (repeat' split) <;> simp

@[simp] theorem State.copierData_frame (s : State) (d : Dom) (k : PageKey) :
    (s.copierData d k).pending = s.pending ∧ (s.copierData d k).freeCount = s.freeCount
    ∧ (s.copierData d k).partTime = s.partTime ∧ (s.copierData d k).startUp = s.startUp
    ∧ (s.copierData d k).restart = s.restart ∧ (s.copierData d k).powerGood = s.powerGood
    ∧ (s.copierData d k).plans = s.plans ∧ (∀ e : Dom, (s.copierData d k).plan e = s.plan e)
    ∧ (s.copierData d k).works = s.works ∧ (∀ e : Dom, (s.copierData d k).work e = s.work e)
    ∧ (s.copierData d k).lastPicked = s.lastPicked ∧ (s.copierData d k).flash = s.flash
    ∧ (s.copierData d k).platformPorts = s.platformPorts ∧ (s.copierData d k).config = s.config
    ∧ (∀ e : Dom, (s.copierData d k).settings e = s.settings e)
    ∧ (∀ e : Dom, (s.copierData d k).port (.platform e) = s.port (.platform e)) := by
  unfold State.copierData; try dsimp only
  (repeat' split) <;> simp

@[simp] theorem State.dumpHeaderGiven_frame (s : State) (n : Num) :
    (s.dumpHeaderGiven n).pending = s.pending ∧ (s.dumpHeaderGiven n).freeCount = s.freeCount
    ∧ (s.dumpHeaderGiven n).partTime = s.partTime ∧ (s.dumpHeaderGiven n).startUp = s.startUp
    ∧ (s.dumpHeaderGiven n).restart = s.restart ∧ (s.dumpHeaderGiven n).powerGood = s.powerGood
    ∧ (s.dumpHeaderGiven n).domains = s.domains ∧ (∀ e : Dom, (s.dumpHeaderGiven n).domain e = s.domain e)
    ∧ (s.dumpHeaderGiven n).plans = s.plans ∧ (∀ e : Dom, (s.dumpHeaderGiven n).plan e = s.plan e)
    ∧ (s.dumpHeaderGiven n).admissions = s.admissions
    ∧ (∀ e : Dom, (s.dumpHeaderGiven n).admission e = s.admission e) ∧ (s.dumpHeaderGiven n).works = s.works
    ∧ (∀ e : Dom, (s.dumpHeaderGiven n).work e = s.work e) ∧ (s.dumpHeaderGiven n).channels = s.channels
    ∧ (∀ c' : Fin 4, (s.dumpHeaderGiven n).channel c' = s.channel c')
    ∧ (s.dumpHeaderGiven n).lastPicked = s.lastPicked ∧ (s.dumpHeaderGiven n).links = s.links
    ∧ (∀ e : Dom, (s.dumpHeaderGiven n).link e = s.link e) ∧ (s.dumpHeaderGiven n).journals = s.journals
    ∧ (∀ e : Dom, (s.dumpHeaderGiven n).journal e = s.journal e) ∧ (s.dumpHeaderGiven n).directory = s.directory
    ∧ (∀ m : Num, (s.dumpHeaderGiven n).dump m = s.dump m) ∧ (s.dumpHeaderGiven n).flash = s.flash
    ∧ (s.dumpHeaderGiven n).servicePort = s.servicePort ∧ (s.dumpHeaderGiven n).platformPorts = s.platformPorts
    ∧ (s.dumpHeaderGiven n).service = s.service ∧ (s.dumpHeaderGiven n).config = s.config
    ∧ (∀ e : Dom, (s.dumpHeaderGiven n).settings e = s.settings e)
    ∧ (∀ q : PortId, (s.dumpHeaderGiven n).port q = s.port q) := by
  unfold State.dumpHeaderGiven; try dsimp only
  (repeat' split) <;> simp

@[simp] theorem State.latchGiven_frame (s : State) (n : Num) :
    (s.latchGiven n).pending = s.pending ∧ (s.latchGiven n).freeCount = s.freeCount
    ∧ (s.latchGiven n).partTime = s.partTime ∧ (s.latchGiven n).startUp = s.startUp
    ∧ (s.latchGiven n).restart = s.restart ∧ (s.latchGiven n).powerGood = s.powerGood
    ∧ (s.latchGiven n).plans = s.plans ∧ (∀ e : Dom, (s.latchGiven n).plan e = s.plan e)
    ∧ (s.latchGiven n).lastPicked = s.lastPicked ∧ (s.latchGiven n).journals = s.journals
    ∧ (∀ e : Dom, (s.latchGiven n).journal e = s.journal e) ∧ (s.latchGiven n).flash = s.flash
    ∧ (s.latchGiven n).platformPorts = s.platformPorts ∧ (s.latchGiven n).config = s.config
    ∧ (∀ e : Dom, (s.latchGiven n).settings e = s.settings e)
    ∧ (∀ e : Dom, (s.latchGiven n).port (.platform e) = s.port (.platform e)) := by
  unfold State.latchGiven; try dsimp only
  (repeat' split) <;> simp

@[simp] theorem State.manifestGiven_frame (s : State) (k : PageKey) :
    (s.manifestGiven k).pending = s.pending ∧ (s.manifestGiven k).freeCount = s.freeCount
    ∧ (s.manifestGiven k).partTime = s.partTime ∧ (s.manifestGiven k).startUp = s.startUp
    ∧ (s.manifestGiven k).restart = s.restart ∧ (s.manifestGiven k).powerGood = s.powerGood
    ∧ (s.manifestGiven k).domains = s.domains ∧ (∀ e : Dom, (s.manifestGiven k).domain e = s.domain e)
    ∧ (s.manifestGiven k).plans = s.plans ∧ (∀ e : Dom, (s.manifestGiven k).plan e = s.plan e)
    ∧ (s.manifestGiven k).admissions = s.admissions ∧ (∀ e : Dom, (s.manifestGiven k).admission e = s.admission e)
    ∧ (s.manifestGiven k).works = s.works ∧ (∀ e : Dom, (s.manifestGiven k).work e = s.work e)
    ∧ (s.manifestGiven k).channels = s.channels ∧ (∀ c' : Fin 4, (s.manifestGiven k).channel c' = s.channel c')
    ∧ (s.manifestGiven k).lastPicked = s.lastPicked ∧ (s.manifestGiven k).links = s.links
    ∧ (∀ e : Dom, (s.manifestGiven k).link e = s.link e) ∧ (s.manifestGiven k).journals = s.journals
    ∧ (∀ e : Dom, (s.manifestGiven k).journal e = s.journal e) ∧ (s.manifestGiven k).directory = s.directory
    ∧ (∀ m : Num, (s.manifestGiven k).dump m = s.dump m) ∧ (s.manifestGiven k).flash = s.flash
    ∧ (s.manifestGiven k).servicePort = s.servicePort ∧ (s.manifestGiven k).platformPorts = s.platformPorts
    ∧ (s.manifestGiven k).service = s.service ∧ (s.manifestGiven k).config = s.config
    ∧ (∀ e : Dom, (s.manifestGiven k).settings e = s.settings e)
    ∧ (∀ q : PortId, (s.manifestGiven k).port q = s.port q) := by
  unfold State.manifestGiven; try dsimp only
  (repeat' split) <;> simp

@[simp] theorem State.given_frame (s : State) (r : StagingRequest) :
    (s.given r).pending = s.pending ∧ (s.given r).freeCount = s.freeCount ∧ (s.given r).partTime = s.partTime
    ∧ (s.given r).startUp = s.startUp ∧ (s.given r).restart = s.restart ∧ (s.given r).powerGood = s.powerGood
    ∧ (s.given r).plans = s.plans ∧ (∀ e : Dom, (s.given r).plan e = s.plan e)
    ∧ (s.given r).lastPicked = s.lastPicked ∧ (s.given r).flash = s.flash
    ∧ (s.given r).platformPorts = s.platformPorts ∧ (s.given r).config = s.config
    ∧ (∀ e : Dom, (s.given r).settings e = s.settings e)
    ∧ (∀ e : Dom, (s.given r).port (.platform e) = s.port (.platform e)) := by
  unfold State.given; try dsimp only
  (repeat' split) <;> simp

@[simp] theorem State.startPost_frame (s : State) (d : Dom) (n : Num) :
    (s.startPost d n).pending = s.pending ∧ (s.startPost d n).freeCount = s.freeCount
    ∧ (s.startPost d n).partTime = s.partTime ∧ (s.startPost d n).startUp = s.startUp
    ∧ (s.startPost d n).restart = s.restart ∧ (s.startPost d n).powerGood = s.powerGood
    ∧ (s.startPost d n).domains = s.domains ∧ (∀ e : Dom, (s.startPost d n).domain e = s.domain e)
    ∧ (s.startPost d n).plans = s.plans ∧ (∀ e : Dom, (s.startPost d n).plan e = s.plan e)
    ∧ (s.startPost d n).admissions = s.admissions ∧ (∀ e : Dom, (s.startPost d n).admission e = s.admission e)
    ∧ (s.startPost d n).works = s.works ∧ (∀ e : Dom, (s.startPost d n).work e = s.work e)
    ∧ (s.startPost d n).channels = s.channels ∧ (∀ c' : Fin 4, (s.startPost d n).channel c' = s.channel c')
    ∧ (s.startPost d n).lastPicked = s.lastPicked ∧ (s.startPost d n).links = s.links
    ∧ (∀ e : Dom, (s.startPost d n).link e = s.link e) ∧ (s.startPost d n).store = s.store
    ∧ (s.startPost d n).flash = s.flash ∧ (s.startPost d n).servicePort = s.servicePort
    ∧ (s.startPost d n).platformPorts = s.platformPorts ∧ (s.startPost d n).service = s.service
    ∧ (s.startPost d n).config = s.config ∧ (∀ e : Dom, (s.startPost d n).settings e = s.settings e)
    ∧ (∀ q : PortId, (s.startPost d n).port q = s.port q) := by
  unfold State.startPost; try dsimp only
  (repeat' split) <;> simp

@[simp] theorem State.buildManifest_frame (s : State) (d : Dom) (n : Num) :
    (s.buildManifest d n).pending = s.pending ∧ (s.buildManifest d n).freeCount = s.freeCount
    ∧ (s.buildManifest d n).partTime = s.partTime ∧ (s.buildManifest d n).startUp = s.startUp
    ∧ (s.buildManifest d n).restart = s.restart ∧ (s.buildManifest d n).powerGood = s.powerGood
    ∧ (s.buildManifest d n).domains = s.domains ∧ (∀ e : Dom, (s.buildManifest d n).domain e = s.domain e)
    ∧ (s.buildManifest d n).plans = s.plans ∧ (∀ e : Dom, (s.buildManifest d n).plan e = s.plan e)
    ∧ (s.buildManifest d n).admissions = s.admissions
    ∧ (∀ e : Dom, (s.buildManifest d n).admission e = s.admission e) ∧ (s.buildManifest d n).channels = s.channels
    ∧ (∀ c' : Fin 4, (s.buildManifest d n).channel c' = s.channel c')
    ∧ (s.buildManifest d n).lastPicked = s.lastPicked ∧ (s.buildManifest d n).staging = s.staging
    ∧ (s.buildManifest d n).links = s.links ∧ (∀ e : Dom, (s.buildManifest d n).link e = s.link e)
    ∧ (s.buildManifest d n).journals = s.journals ∧ (∀ e : Dom, (s.buildManifest d n).journal e = s.journal e)
    ∧ (s.buildManifest d n).store = s.store ∧ (s.buildManifest d n).flash = s.flash
    ∧ (s.buildManifest d n).servicePort = s.servicePort ∧ (s.buildManifest d n).platformPorts = s.platformPorts
    ∧ (s.buildManifest d n).service = s.service ∧ (s.buildManifest d n).config = s.config
    ∧ (∀ e : Dom, (s.buildManifest d n).settings e = s.settings e)
    ∧ (∀ q : PortId, (s.buildManifest d n).port q = s.port q) := by
  unfold State.buildManifest; try dsimp only
  (repeat' split) <;> simp

end Sys2Proof.Machine
end

