-- ==== Sys2Proof/Laws/Own.lean ====
section
/-! SUPPORT. What the parts of the device's own work leave of the directory, the journals, the links, the store and the
Service Port. -/

set_option linter.unusedSimpArgs false
set_option linter.unusedTactic false
set_option linter.unreachableTactic false
set_option linter.unnecessarySeqFocus false

namespace Sys2Proof.Machine

/-! ### The directory -/

@[simp] theorem DumpEntry.still_number (e : DumpEntry) : e.still.number = e.number := rfl
@[simp] theorem DumpEntry.still_domain (e : DumpEntry) : e.still.domain = e.domain := rfl
@[simp] theorem DumpEntry.still_state (e : DumpEntry) : e.still.state = e.state := rfl
@[simp] theorem Directory.still_nextNumber (x : Directory) : x.still.nextNumber = x.nextNumber := rfl
@[simp] theorem Directory.still_verify (x : Directory) : x.still.verify = x.verify := rfl

/-- A change of a dump's entry that its still form does not see leaves the directory's still form. -/
theorem State.updDump_still (s : State) (n : Num) (f : DumpEntry → DumpEntry) (h : ∀ e, (f e).still = e.still) :
    (s.updDump n f).directory.still = s.directory.still := by
  simp only [Directory.still, State.updDump, List.map_map]
  congr 1
  apply List.map_congr_left
  intro e _
  simp only [Function.comp]
  split <;> simp [h]

@[simp] theorem State.updSection_still (s : State) (n : Num) (i : Nat) (f : SectionRecord → SectionRecord) :
    (s.updSection n i f).directory.still = s.directory.still := s.updDump_still n _ fun _ => rfl

theorem State.updDump_sections_still (s : State) (n : Num) (g : DumpEntry → List SectionRecord) :
    (s.updDump n fun e => { e with sections := g e }).directory.still = s.directory.still :=
  s.updDump_still n _ fun _ => rfl

@[simp] theorem State.pass_dirStill (s : State) (d : Dom) :
    (s.pass d).directory.still = s.directory.still := by
  unfold State.pass; try dsimp only
  (repeat' split) <;> first | rfl | (simp [State.updDump_sections_still]; done)

@[simp] theorem State.replan_dirStill (s : State) (d : Dom) :
    (s.replan d).directory.still = s.directory.still := by
  unfold State.replan; try dsimp only
  (repeat' split) <;> simp

@[simp] theorem State.replanAll_dirStill (s : State)  :
    s.replanAll.directory.still = s.directory.still := by
  unfold State.replanAll; try dsimp only
  (repeat' split) <;> simp

@[simp] theorem State.endSections_dirStill (s : State) (d : Dom) (n : Num) (k : SectionCause) :
    (s.endSections d n k).directory.still = s.directory.still := by
  unfold State.endSections; dsimp only; split <;> simp [channelsShort_frame, State.updDump_sections_still]

@[simp] theorem State.enterClosing_dirStill (s : State) (d : Dom) (k : EndCause) :
    (s.enterClosing d k).directory.still = s.directory.still := by
  unfold State.enterClosing; dsimp only
  have h (t : State) (n : Num) : (t.updDump n fun e => { e with endCause := some k }).directory.still
      = t.directory.still := t.updDump_still n _ fun _ => rfl
  split
  · simp
  · split <;> simp [h]

@[simp] theorem State.endHarvest_dirStill (s : State) (d : Dom) (k : EndCause) :
    (s.endHarvest d k).directory.still = s.directory.still := by
  unfold State.endHarvest; try dsimp only
  (repeat' split) <;> simp

@[simp] theorem State.completionTest_dirStill (s : State) (d : Dom) :
    (s.completionTest d).directory.still = s.directory.still := by
  unfold State.completionTest; try dsimp only
  (repeat' split) <;> simp

@[simp] theorem State.headerProgrammed_dirStill (s : State) (d : Dom) :
    (s.headerProgrammed d).directory.still = s.directory.still := by
  unfold State.headerProgrammed; try dsimp only
  (repeat' split) <;> simp

@[simp] theorem State.pagesReturned_dirStill (s : State) (d : Dom) (x : SectionRecord) :
    (s.pagesReturned d x).directory.still = s.directory.still := by
  unfold State.pagesReturned; try dsimp only
  (repeat' split) <;> simp

@[simp] theorem State.sectionEnded_dirStill (s : State) (d : Dom) (n : Num) (i : Nat) :
    (s.sectionEnded d n i).directory.still = s.directory.still := by
  unfold State.sectionEnded; try dsimp only
  (repeat' split) <;> simp

@[simp] theorem State.handle_dirStill (s : State) (c : Fin 4) (j : Job) (x : Extent) (h : Option HoleCause) :
    (s.handle c j x h).directory.still = s.directory.still := by
  unfold State.handle; try dsimp only
  (repeat' split) <;> simp

@[simp] theorem State.endClean_dirStill (s : State) (c : Fin 4) (j : Job) (r : HandRead) (bs : List Byte) :
    (s.endClean c j r bs).directory.still = s.directory.still := by
  unfold State.endClean; try dsimp only
  (repeat' split) <;> simp

@[simp] theorem State.endHole_dirStill (s : State) (c : Fin 4) (j : Job) (r : HandRead) (h : HoleCause) (bs : List Byte) :
    (s.endHole c j r h bs).directory.still = s.directory.still := by
  unfold State.endHole; try dsimp only
  (repeat' split) <;> simp

@[simp] theorem State.failedIssue_dirStill (s : State) (c : Fin 4) (j : Job) (r : HandRead) (h : HoleCause) (bs : List Byte) :
    (s.failedIssue c j r h bs).directory.still = s.directory.still := by
  unfold State.failedIssue; try dsimp only
  (repeat' split) <;> simp

@[simp] theorem State.disconnected_dirStill (s : State) (c : Fin 4) (j : Job) (r : HandRead) (bs : List Byte) :
    (s.disconnected c j r bs).directory.still = s.directory.still := by
  unfold State.disconnected; try dsimp only
  (repeat' split) <;> simp

@[simp] theorem State.takeOutcome_dirStill (s : State) (c : Fin 4) (j : Job) (r : HandRead) (o : ReadOutcome) :
    (s.takeOutcome c j r o).directory.still = s.directory.still := by
  unfold State.takeOutcome; split <;> simp

@[simp] theorem State.takeLastOutcome_dirStill (s : State) (c : Fin 4) (j : Job) (r : HandRead) (o : ReadOutcome) :
    (s.takeLastOutcome c j r o).directory.still = s.directory.still := by
  unfold State.takeLastOutcome; cases o <;> simp

@[simp] theorem State.afterOutcome_dirStill (s : State) (c : Fin 4) (j : Job) :
    (s.afterOutcome c j).directory.still = s.directory.still := by
  unfold State.afterOutcome; try dsimp only
  (repeat' split) <;> simp

@[simp] theorem State.deliver_dirStill (s : State) (c : Fin 4) (a : Nat) (o : ReadOutcome) :
    (s.deliver c a o).directory.still = s.directory.still := by
  unfold State.deliver; try dsimp only
  (repeat' split) <;> simp

@[simp] theorem State.dropOutstanding_dirStill (s : State) (d : Dom) (o : ReadOutcome) (i : Fin 2) :
    (s.dropOutstanding d o i).directory.still = s.directory.still := by
  unfold State.dropOutstanding; try dsimp only
  (repeat' split) <;> simp

@[simp] theorem State.dropAll_dirStill (s : State) (d : Dom) (o : ReadOutcome) :
    (s.dropAll d o).directory.still = s.directory.still := by
  unfold State.dropAll; try dsimp only
  (repeat' split) <;> simp

@[simp] theorem State.pick_dirStill (s : State) (c : Fin 4) (d : Dom) (n : Num) (x : SectionRecord) :
    (s.pick c d n x).directory.still = s.directory.still := by
  unfold State.pick; try dsimp only
  (repeat' split) <;> simp

@[simp] theorem State.copyEnded_dirStill (s : State) (d : Dom) (k : Copy) :
    (s.copyEnded d k).directory.still = s.directory.still := by
  unfold State.copyEnded; dsimp only
  have h (t : State) : (t.updDump k.dump fun e => { e with preDrops := some k.drops }).directory.still
      = t.directory.still := t.updDump_still _ _ fun _ => rfl
  split <;> simp [h]

@[simp] theorem State.copyTest_dirStill (s : State) (d : Dom) (k : Copy) :
    (s.copyTest d k).directory.still = s.directory.still := by
  unfold State.copyTest; try dsimp only
  (repeat' split) <;> simp

@[simp] theorem State.copierHeader_dirStill (s : State) (d : Dom) :
    (s.copierHeader d).directory.still = s.directory.still := by
  unfold State.copierHeader; try dsimp only
  (repeat' split) <;> simp

@[simp] theorem State.copierData_dirStill (s : State) (d : Dom) (k : PageKey) :
    (s.copierData d k).directory.still = s.directory.still := by
  unfold State.copierData; try dsimp only
  (repeat' split) <;> simp

@[simp] theorem State.latchGiven_dirStill (s : State) (n : Num) :
    (s.latchGiven n).directory.still = s.directory.still := by
  unfold State.latchGiven; try dsimp only
  (repeat' split) <;> simp

@[simp] theorem State.given_dirStill (s : State) (r : StagingRequest) :
    (s.given r).directory.still = s.directory.still := by
  unfold State.given; try dsimp only
  (repeat' split) <;> simp

@[simp] theorem State.startPost_dirStill (s : State) (d : Dom) (n : Num) :
    (s.startPost d n).directory.still = s.directory.still := by
  unfold State.startPost; dsimp only
  have h (t : State) (x : BitVec 32 × BitVec 32) :
      (t.updDump n fun e => { e with postCounts := some x }).directory.still = t.directory.still :=
    t.updDump_still _ _ fun _ => rfl
  simp [h]

@[simp] theorem State.buildManifest_dirStill (s : State) (d : Dom) (n : Num) :
    (s.buildManifest d n).directory.still = s.directory.still := by
  unfold State.buildManifest; dsimp only
  have h (t : State) (x : Time) (y : DomainCounters) :
      (t.updDump n fun e => { e with closeTime := some x, countersAtClose := some y }).directory.still
        = t.directory.still :=
    t.updDump_still _ _ fun _ => rfl
  split <;> simp [h]

/-! ### The journals -/

theorem State.setJournal_still (s : State) (d e : Dom) (c : Option Copy) :
    ((s.setJournal d { s.journal d with copier := c }).journal e).still = (s.journal e).still := by
  rw [State.setJournal_journal]; split
  · rename_i h; subst h; rfl
  · rfl

@[simp] theorem State.startPost_journalStill (s : State) (d : Dom) (n : Num) :
    ∀ e, ((s.startPost d n).journal e).still = (s.journal e).still := by
  intro e
  unfold State.startPost; dsimp only
  simp only [State.askPages_journal, State.updSection_journal, State.updDump_journal, State.setJournal_journal]
  split
  · rename_i h; subst h; rfl
  · rfl

@[simp] theorem State.copyEnded_journalStill (s : State) (d : Dom) (k : Copy) :
    ∀ e, ((s.copyEnded d k).journal e).still = (s.journal e).still := by
  intro e
  unfold State.copyEnded; dsimp only
  cases k.kind <;> simp [State.setJournal_journal] <;> (split <;> first | rfl | (rename_i h; subst h; rfl))

@[simp] theorem State.copyTest_journalStill (s : State) (d : Dom) (k : Copy) :
    ∀ e, ((s.copyTest d k).journal e).still = (s.journal e).still := by
  intro e; unfold State.copyTest; split <;> simp

@[simp] theorem State.copierHeader_journalStill (s : State) (d : Dom) :
    ∀ e, ((s.copierHeader d).journal e).still = (s.journal e).still := by
  intro e
  unfold State.copierHeader; dsimp only
  (repeat' split) <;> first | rfl | skip
  simp only [State.copyTest_journalStill, State.setJournal_journal, State.stage_journal]
  split
  · rename_i h; subst h; rfl
  · rfl

@[simp] theorem State.copierData_journalStill (s : State) (d : Dom) (k : PageKey) :
    ∀ e, ((s.copierData d k).journal e).still = (s.journal e).still := by
  intro e
  unfold State.copierData; dsimp only
  (repeat' split) <;> first | rfl | skip
  simp only [State.copyTest_journalStill, State.setJournal_journal, State.updSection_journal, State.stage_journal]
  split
  · rename_i h; subst h; rfl
  · rfl

@[simp] theorem State.given_journalStill (s : State) (r : StagingRequest) :
    ∀ e, ((s.given r).journal e).still = (s.journal e).still := by
  intro e; unfold State.given; (repeat' split) <;> simp

/-! ### The links -/

@[simp] theorem Link.withdrawLock_still (l : Link) (c : Fin 4) : (l.withdrawLock c).still = l.still := rfl
theorem State.setLink_still (s : State) (d e : Dom) (l : Link) (h : l.still = (s.link d).still) :
    ((s.setLink d l).link e).still = (s.link e).still := by
  rw [State.setLink_link]; split
  · rename_i k; subst k; exact h
  · rfl

@[simp] theorem State.channelShort_linkStill (s : State) (c : Fin 4) (k : SectionCause) :
    ∀ e, ((s.channelShort c k).link e).still = (s.link e).still := by
  intro e; unfold State.channelShort; dsimp only; split
  · rw [State.setLink_still] <;> simp
  · simp

theorem channelsShort_linkStill (n : Num) (k : SectionCause) (l : List (Fin 4)) (s : State) (e : Dom) :
    ((List.foldl (fun t c => if (t.channel c).endsWith n then t.channelShort c k else t) s l).link e).still
      = (s.link e).still := by
  induction l generalizing s with
  | nil => rfl
  | cons c l ih => simp only [List.foldl_cons]; split <;> simp [ih]

@[simp] theorem State.endSections_linkStill (s : State) (d : Dom) (n : Num) (k : SectionCause) :
    ∀ e, ((s.endSections d n k).link e).still = (s.link e).still := by
  intro e; unfold State.endSections; dsimp only; split <;> simp [channelsShort_linkStill]

@[simp] theorem State.enterClosing_linkStill (s : State) (d : Dom) (k : EndCause) :
    ∀ e, ((s.enterClosing d k).link e).still = (s.link e).still := by
  intro e; unfold State.enterClosing; dsimp only; (repeat' split) <;> simp

@[simp] theorem State.endHarvest_linkStill (s : State) (d : Dom) (k : EndCause) :
    ∀ e, ((s.endHarvest d k).link e).still = (s.link e).still := by
  intro e; unfold State.endHarvest; try dsimp only
  (repeat' split) <;> simp

@[simp] theorem State.completionTest_linkStill (s : State) (d : Dom) :
    ∀ e, ((s.completionTest d).link e).still = (s.link e).still := by
  intro e; unfold State.completionTest; try dsimp only
  (repeat' split) <;> simp

@[simp] theorem State.headerProgrammed_linkStill (s : State) (d : Dom) :
    ∀ e, ((s.headerProgrammed d).link e).still = (s.link e).still := by
  intro e; unfold State.headerProgrammed; try dsimp only
  (repeat' split) <;> simp

@[simp] theorem State.sectionEnded_linkStill (s : State) (d : Dom) (n : Num) (i : Nat) :
    ∀ e, ((s.sectionEnded d n i).link e).still = (s.link e).still := by
  intro e; unfold State.sectionEnded; try dsimp only
  (repeat' split) <;> simp

@[simp] theorem State.headerGiven_linkStill (s : State) (c : Fin 4) :
    ∀ e, ((s.headerGiven c).link e).still = (s.link e).still := by
  intro e; unfold State.headerGiven; dsimp only
  (repeat' split) <;> first | rfl | simp
  rw [State.setLink_still] <;> simp; rfl

@[simp] theorem State.afterOutcome_linkStill (s : State) (c : Fin 4) (j : Job) :
    ∀ e, ((s.afterOutcome c j).link e).still = (s.link e).still := by
  intro e; unfold State.afterOutcome; dsimp only; (repeat' split) <;> simp

@[simp] theorem State.deliver_linkStill (s : State) (c : Fin 4) (a : Nat) (o : ReadOutcome) :
    ∀ e, ((s.deliver c a o).link e).still = (s.link e).still := by
  intro e; unfold State.deliver; dsimp only; (repeat' split) <;> simp

@[simp] theorem State.copyEnded_linkStill (s : State) (d : Dom) (k : Copy) :
    ∀ e, ((s.copyEnded d k).link e).still = (s.link e).still := by
  intro e; unfold State.copyEnded; try dsimp only
  (repeat' split) <;> simp

@[simp] theorem State.copyTest_linkStill (s : State) (d : Dom) (k : Copy) :
    ∀ e, ((s.copyTest d k).link e).still = (s.link e).still := by
  intro e; unfold State.copyTest; try dsimp only
  (repeat' split) <;> simp

@[simp] theorem State.copierHeader_linkStill (s : State) (d : Dom) :
    ∀ e, ((s.copierHeader d).link e).still = (s.link e).still := by
  intro e; unfold State.copierHeader; try dsimp only
  (repeat' split) <;> simp

@[simp] theorem State.copierData_linkStill (s : State) (d : Dom) (k : PageKey) :
    ∀ e, ((s.copierData d k).link e).still = (s.link e).still := by
  intro e; unfold State.copierData; try dsimp only
  (repeat' split) <;> simp

@[simp] theorem State.latchGiven_linkStill (s : State) (n : Num) :
    ∀ e, ((s.latchGiven n).link e).still = (s.link e).still := by
  intro e; unfold State.latchGiven; try dsimp only
  (repeat' split) <;> simp

@[simp] theorem State.given_linkStill (s : State) (r : StagingRequest) :
    ∀ e, ((s.given r).link e).still = (s.link e).still := by
  intro e; unfold State.given; try dsimp only
  (repeat' split) <;> simp

/-! ### The domains -/

@[simp] theorem State.enterClosing_domain (s : State) (d : Dom) (k : EndCause) :
    (s.enterClosing d k).domain d = { s.domain d with state := .closing, endCause := some k } := by
  unfold State.enterClosing; dsimp only; (repeat' split) <;> simp

@[simp] theorem State.enterClosing_domain_other (s : State) (d : Dom) (k : EndCause) :
    (s.enterClosing d k).domain (otherDom d) = s.domain (otherDom d) := by
  unfold State.enterClosing; dsimp only; (repeat' split) <;> simp

end Sys2Proof.Machine
end

