-- ==== Sys2Proof/Laws/Settle.lean ====
section
/-! SUPPORT. The device's own work: which step a pump takes, what each step leaves, and induction over the steps of
`settle`. -/

set_option linter.unusedSimpArgs false
set_option linter.unusedTactic false
set_option linter.unreachableTactic false
set_option linter.unnecessarySeqFocus false

namespace Sys2Proof.Machine

/-! ### One step and all of them -/

/-- A pump takes one of the twelve kinds of step. -/
theorem State.pump_cases {s t : State} (h : s.pump = some t) :
    s.serveStep = some t ∨ (∃ c, s.passStep c = some t) ∨ (∃ c, s.finishStep c = some t)
      ∨ (∃ c, s.cutStep c = some t) ∨ (∃ d, s.lockStep d = some t) ∨ (∃ d, s.askStep d = some t)
      ∨ (∃ d, s.grantStep d = some t) ∨ s.pickStep = some t ∨ (∃ d, s.copierStep d = some t)
      ∨ (∃ d, s.closingStep d = some t) ∨ (∃ d, s.manifestStep d = some t) ∨ s.storeStep = some t := by
  obtain ⟨f, hf, e⟩ := List.exists_of_findSome?_eq_some h
  simp only [State.steps, List.mem_append, List.mem_flatMap, List.mem_cons, List.not_mem_nil, or_false] at hf
  rcases hf with (((((rfl | ⟨c, -, rfl | rfl | rfl⟩) | ⟨d, -, rfl | rfl | rfl⟩) | rfl) | ⟨d, -, rfl | rfl | rfl⟩) | rfl)
  · exact .inl e
  · exact .inr (.inl ⟨c, e⟩)
  · exact .inr (.inr (.inl ⟨c, e⟩))
  · exact .inr (.inr (.inr (.inl ⟨c, e⟩)))
  · exact .inr (.inr (.inr (.inr (.inl ⟨d, e⟩))))
  · exact .inr (.inr (.inr (.inr (.inr (.inl ⟨d, e⟩)))))
  · exact .inr (.inr (.inr (.inr (.inr (.inr (.inl ⟨d, e⟩))))))
  · exact .inr (.inr (.inr (.inr (.inr (.inr (.inr (.inl e)))))))
  · exact .inr (.inr (.inr (.inr (.inr (.inr (.inr (.inr (.inl ⟨d, e⟩))))))))
  · exact .inr (.inr (.inr (.inr (.inr (.inr (.inr (.inr (.inr (.inl ⟨d, e⟩)))))))))
  · exact .inr (.inr (.inr (.inr (.inr (.inr (.inr (.inr (.inr (.inr (.inl ⟨d, e⟩))))))))))
  · exact .inr (.inr (.inr (.inr (.inr (.inr (.inr (.inr (.inr (.inr (.inr e))))))))))

theorem settleLoop_induction {P : State → Prop} (h : ∀ s t, s.pump = some t → P s → P t) (n : Nat) (s : State)
    (hs : P s) : P (settleLoop n s) := by
  induction n generalizing s with
  | zero => exact hs
  | succ n ih =>
    unfold settleLoop
    split
    · rename_i t e; exact ih t (h s t e hs)
    · exact hs

/-- What every pump keeps, settling keeps. -/
theorem State.settle_induction {P : State → Prop} (h : ∀ s t, s.pump = some t → P s → P t) (s : State) (hs : P s) :
    P s.settle := settleLoop_induction h 4096 s hs

/-- A part of the state that no pump changes is what it was after settling. -/
theorem State.settle_keeps {α : Type} (m : State → α) (h : ∀ s t, s.pump = some t → m t = m s) (s : State) :
    m s.settle = m s :=
  State.settle_induction (P := fun t => m t = m s) (fun a b e hb => (h a b e).trans hb) s rfl

/-! ### The frame of each step -/

theorem State.serveStep_frame {s t : State}  (h : s.serveStep = some t) :
    t.pending = s.pending ∧ t.freeCount = s.freeCount ∧ t.partTime = s.partTime ∧ t.startUp = s.startUp
    ∧ t.restart = s.restart ∧ t.powerGood = s.powerGood ∧ t.plans = s.plans ∧ (∀ e : Dom, t.plan e = s.plan e)
    ∧ t.lastPicked = s.lastPicked ∧ t.flash = s.flash ∧ t.platformPorts = s.platformPorts ∧ t.config = s.config
    ∧ (∀ e : Dom, t.settings e = s.settings e) ∧ (∀ e : Dom, t.port (.platform e) = s.port (.platform e)) := by
  unfold State.serveStep at h; try dsimp only at h
  (repeat' split at h) <;> first | (cases h; done) | (cases h; simp)

theorem State.passStep_frame {s t : State} {c : Fin 4} (h : s.passStep c = some t) :
    t.pending = s.pending ∧ t.freeCount = s.freeCount ∧ t.partTime = s.partTime ∧ t.startUp = s.startUp
    ∧ t.restart = s.restart ∧ t.powerGood = s.powerGood ∧ t.domains = s.domains
    ∧ (∀ e : Dom, t.domain e = s.domain e) ∧ t.plans = s.plans ∧ (∀ e : Dom, t.plan e = s.plan e)
    ∧ t.admissions = s.admissions ∧ (∀ e : Dom, t.admission e = s.admission e) ∧ t.works = s.works
    ∧ (∀ e : Dom, t.work e = s.work e) ∧ t.lastPicked = s.lastPicked ∧ t.links = s.links
    ∧ (∀ e : Dom, t.link e = s.link e) ∧ t.journals = s.journals ∧ (∀ e : Dom, t.journal e = s.journal e)
    ∧ t.directory = s.directory ∧ (∀ m : Num, t.dump m = s.dump m) ∧ t.flash = s.flash
    ∧ t.servicePort = s.servicePort ∧ t.platformPorts = s.platformPorts ∧ t.service = s.service ∧ t.config = s.config
    ∧ (∀ e : Dom, t.settings e = s.settings e) ∧ (∀ q : PortId, t.port q = s.port q) := by
  unfold State.passStep at h; try dsimp only at h
  (repeat' split at h) <;> first | (cases h; done) | (cases h; simp)

theorem State.finishStep_frame {s t : State} {c : Fin 4} (h : s.finishStep c = some t) :
    t.pending = s.pending ∧ t.freeCount = s.freeCount ∧ t.partTime = s.partTime ∧ t.startUp = s.startUp
    ∧ t.restart = s.restart ∧ t.powerGood = s.powerGood ∧ t.plans = s.plans ∧ (∀ e : Dom, t.plan e = s.plan e)
    ∧ t.works = s.works ∧ (∀ e : Dom, t.work e = s.work e) ∧ t.lastPicked = s.lastPicked ∧ t.journals = s.journals
    ∧ (∀ e : Dom, t.journal e = s.journal e) ∧ t.flash = s.flash ∧ t.platformPorts = s.platformPorts
    ∧ t.config = s.config ∧ (∀ e : Dom, t.settings e = s.settings e)
    ∧ (∀ e : Dom, t.port (.platform e) = s.port (.platform e)) := by
  unfold State.finishStep at h; try dsimp only at h
  (repeat' split at h) <;> first | (cases h; done) | (cases h; simp)

theorem State.cutStep_frame {s t : State} {c : Fin 4} (h : s.cutStep c = some t) :
    t.pending = s.pending ∧ t.freeCount = s.freeCount ∧ t.partTime = s.partTime ∧ t.startUp = s.startUp
    ∧ t.restart = s.restart ∧ t.powerGood = s.powerGood ∧ t.domains = s.domains
    ∧ (∀ e : Dom, t.domain e = s.domain e) ∧ t.plans = s.plans ∧ (∀ e : Dom, t.plan e = s.plan e)
    ∧ t.admissions = s.admissions ∧ (∀ e : Dom, t.admission e = s.admission e) ∧ t.works = s.works
    ∧ (∀ e : Dom, t.work e = s.work e) ∧ t.lastPicked = s.lastPicked ∧ t.links = s.links
    ∧ (∀ e : Dom, t.link e = s.link e) ∧ t.journals = s.journals ∧ (∀ e : Dom, t.journal e = s.journal e)
    ∧ t.directory = s.directory ∧ (∀ m : Num, t.dump m = s.dump m) ∧ t.store = s.store ∧ t.flash = s.flash
    ∧ t.servicePort = s.servicePort ∧ t.platformPorts = s.platformPorts ∧ t.service = s.service ∧ t.config = s.config
    ∧ (∀ e : Dom, t.settings e = s.settings e) ∧ (∀ q : PortId, t.port q = s.port q) := by
  unfold State.cutStep at h; try dsimp only at h
  (repeat' split at h) <;> first | (cases h; done) | (cases h; simp)

theorem State.lockStep_frame {s t : State} {d : Dom} (h : s.lockStep d = some t) :
    t.pending = s.pending ∧ t.freeCount = s.freeCount ∧ t.partTime = s.partTime ∧ t.startUp = s.startUp
    ∧ t.restart = s.restart ∧ t.powerGood = s.powerGood ∧ t.domains = s.domains
    ∧ (∀ e : Dom, t.domain e = s.domain e) ∧ t.plans = s.plans ∧ (∀ e : Dom, t.plan e = s.plan e)
    ∧ t.admissions = s.admissions ∧ (∀ e : Dom, t.admission e = s.admission e) ∧ t.works = s.works
    ∧ (∀ e : Dom, t.work e = s.work e) ∧ t.lastPicked = s.lastPicked ∧ t.staging = s.staging
    ∧ t.journals = s.journals ∧ (∀ e : Dom, t.journal e = s.journal e) ∧ t.directory = s.directory
    ∧ (∀ m : Num, t.dump m = s.dump m) ∧ t.store = s.store ∧ t.flash = s.flash ∧ t.servicePort = s.servicePort
    ∧ t.platformPorts = s.platformPorts ∧ t.service = s.service ∧ t.config = s.config
    ∧ (∀ e : Dom, t.settings e = s.settings e) ∧ (∀ q : PortId, t.port q = s.port q) := by
  unfold State.lockStep at h; try dsimp only at h
  (repeat' split at h) <;> first | (cases h; done) | (cases h; simp)

theorem State.askStep_frame {s t : State} {d : Dom} (h : s.askStep d = some t) :
    t.pending = s.pending ∧ t.freeCount = s.freeCount ∧ t.partTime = s.partTime ∧ t.startUp = s.startUp
    ∧ t.restart = s.restart ∧ t.powerGood = s.powerGood ∧ t.domains = s.domains
    ∧ (∀ e : Dom, t.domain e = s.domain e) ∧ t.plans = s.plans ∧ (∀ e : Dom, t.plan e = s.plan e)
    ∧ t.admissions = s.admissions ∧ (∀ e : Dom, t.admission e = s.admission e) ∧ t.works = s.works
    ∧ (∀ e : Dom, t.work e = s.work e) ∧ t.channels = s.channels ∧ (∀ c' : Fin 4, t.channel c' = s.channel c')
    ∧ t.lastPicked = s.lastPicked ∧ t.staging = s.staging ∧ t.journals = s.journals
    ∧ (∀ e : Dom, t.journal e = s.journal e) ∧ t.directory = s.directory ∧ (∀ m : Num, t.dump m = s.dump m)
    ∧ t.store = s.store ∧ t.flash = s.flash ∧ t.servicePort = s.servicePort ∧ t.platformPorts = s.platformPorts
    ∧ t.service = s.service ∧ t.config = s.config ∧ (∀ e : Dom, t.settings e = s.settings e)
    ∧ (∀ q : PortId, t.port q = s.port q) := by
  unfold State.askStep at h; try dsimp only at h
  (repeat' split at h) <;> first | (cases h; done) | (cases h; simp)

theorem State.grantStep_frame {s t : State} {d : Dom} (h : s.grantStep d = some t) :
    t.pending = s.pending ∧ t.freeCount = s.freeCount ∧ t.partTime = s.partTime ∧ t.startUp = s.startUp
    ∧ t.restart = s.restart ∧ t.powerGood = s.powerGood ∧ t.domains = s.domains
    ∧ (∀ e : Dom, t.domain e = s.domain e) ∧ t.plans = s.plans ∧ (∀ e : Dom, t.plan e = s.plan e)
    ∧ t.admissions = s.admissions ∧ (∀ e : Dom, t.admission e = s.admission e) ∧ t.works = s.works
    ∧ (∀ e : Dom, t.work e = s.work e) ∧ t.lastPicked = s.lastPicked ∧ t.staging = s.staging
    ∧ t.journals = s.journals ∧ (∀ e : Dom, t.journal e = s.journal e) ∧ t.directory = s.directory
    ∧ (∀ m : Num, t.dump m = s.dump m) ∧ t.store = s.store ∧ t.flash = s.flash ∧ t.servicePort = s.servicePort
    ∧ t.platformPorts = s.platformPorts ∧ t.service = s.service ∧ t.config = s.config
    ∧ (∀ e : Dom, t.settings e = s.settings e) ∧ (∀ q : PortId, t.port q = s.port q) := by
  unfold State.grantStep at h; try dsimp only at h
  (repeat' split at h) <;> first | (cases h; done) | (cases h; simp)

theorem State.pickStep_frame {s t : State}  (h : s.pickStep = some t) :
    t.pending = s.pending ∧ t.freeCount = s.freeCount ∧ t.partTime = s.partTime ∧ t.startUp = s.startUp
    ∧ t.restart = s.restart ∧ t.powerGood = s.powerGood ∧ t.domains = s.domains
    ∧ (∀ e : Dom, t.domain e = s.domain e) ∧ t.plans = s.plans ∧ (∀ e : Dom, t.plan e = s.plan e)
    ∧ t.admissions = s.admissions ∧ (∀ e : Dom, t.admission e = s.admission e) ∧ t.works = s.works
    ∧ (∀ e : Dom, t.work e = s.work e) ∧ t.links = s.links ∧ (∀ e : Dom, t.link e = s.link e)
    ∧ t.journals = s.journals ∧ (∀ e : Dom, t.journal e = s.journal e) ∧ t.store = s.store ∧ t.flash = s.flash
    ∧ t.servicePort = s.servicePort ∧ t.platformPorts = s.platformPorts ∧ t.service = s.service ∧ t.config = s.config
    ∧ (∀ e : Dom, t.settings e = s.settings e) ∧ (∀ q : PortId, t.port q = s.port q) := by
  unfold State.pickStep at h; try dsimp only at h
  (repeat' split at h) <;> first | (cases h; done) | (cases h; simp)

theorem State.copierStep_frame {s t : State} {d : Dom} (h : s.copierStep d = some t) :
    t.pending = s.pending ∧ t.freeCount = s.freeCount ∧ t.partTime = s.partTime ∧ t.startUp = s.startUp
    ∧ t.restart = s.restart ∧ t.powerGood = s.powerGood ∧ t.domains = s.domains
    ∧ (∀ e : Dom, t.domain e = s.domain e) ∧ t.plans = s.plans ∧ (∀ e : Dom, t.plan e = s.plan e)
    ∧ t.admissions = s.admissions ∧ (∀ e : Dom, t.admission e = s.admission e) ∧ t.works = s.works
    ∧ (∀ e : Dom, t.work e = s.work e) ∧ t.channels = s.channels ∧ (∀ c' : Fin 4, t.channel c' = s.channel c')
    ∧ t.lastPicked = s.lastPicked ∧ t.links = s.links ∧ (∀ e : Dom, t.link e = s.link e) ∧ t.journals = s.journals
    ∧ (∀ e : Dom, t.journal e = s.journal e) ∧ t.directory = s.directory ∧ (∀ m : Num, t.dump m = s.dump m)
    ∧ t.store = s.store ∧ t.flash = s.flash ∧ t.servicePort = s.servicePort ∧ t.platformPorts = s.platformPorts
    ∧ t.service = s.service ∧ t.config = s.config ∧ (∀ e : Dom, t.settings e = s.settings e)
    ∧ (∀ q : PortId, t.port q = s.port q) := by
  unfold State.copierStep at h; try dsimp only at h
  (repeat' split at h) <;> first | (cases h; done) | (cases h; simp)

theorem State.closingStep_frame {s t : State} {d : Dom} (h : s.closingStep d = some t) :
    t.pending = s.pending ∧ t.freeCount = s.freeCount ∧ t.partTime = s.partTime ∧ t.startUp = s.startUp
    ∧ t.restart = s.restart ∧ t.powerGood = s.powerGood ∧ t.domains = s.domains
    ∧ (∀ e : Dom, t.domain e = s.domain e) ∧ t.plans = s.plans ∧ (∀ e : Dom, t.plan e = s.plan e)
    ∧ t.admissions = s.admissions ∧ (∀ e : Dom, t.admission e = s.admission e) ∧ t.channels = s.channels
    ∧ (∀ c' : Fin 4, t.channel c' = s.channel c') ∧ t.lastPicked = s.lastPicked ∧ t.links = s.links
    ∧ (∀ e : Dom, t.link e = s.link e) ∧ t.store = s.store ∧ t.flash = s.flash ∧ t.servicePort = s.servicePort
    ∧ t.platformPorts = s.platformPorts ∧ t.service = s.service ∧ t.config = s.config
    ∧ (∀ e : Dom, t.settings e = s.settings e) ∧ (∀ q : PortId, t.port q = s.port q) := by
  unfold State.closingStep at h; try dsimp only at h
  (repeat' split at h) <;> first | (cases h; done) | (cases h; simp)

theorem State.manifestStep_frame {s t : State} {d : Dom} (h : s.manifestStep d = some t) :
    t.pending = s.pending ∧ t.freeCount = s.freeCount ∧ t.partTime = s.partTime ∧ t.startUp = s.startUp
    ∧ t.restart = s.restart ∧ t.powerGood = s.powerGood ∧ t.domains = s.domains
    ∧ (∀ e : Dom, t.domain e = s.domain e) ∧ t.plans = s.plans ∧ (∀ e : Dom, t.plan e = s.plan e)
    ∧ t.admissions = s.admissions ∧ (∀ e : Dom, t.admission e = s.admission e) ∧ t.channels = s.channels
    ∧ (∀ c' : Fin 4, t.channel c' = s.channel c') ∧ t.lastPicked = s.lastPicked ∧ t.links = s.links
    ∧ (∀ e : Dom, t.link e = s.link e) ∧ t.journals = s.journals ∧ (∀ e : Dom, t.journal e = s.journal e)
    ∧ t.directory = s.directory ∧ (∀ m : Num, t.dump m = s.dump m) ∧ t.store = s.store ∧ t.flash = s.flash
    ∧ t.servicePort = s.servicePort ∧ t.platformPorts = s.platformPorts ∧ t.service = s.service ∧ t.config = s.config
    ∧ (∀ e : Dom, t.settings e = s.settings e) ∧ (∀ q : PortId, t.port q = s.port q) := by
  unfold State.manifestStep at h; try dsimp only at h
  (repeat' split at h) <;> first | (cases h; done) | (cases h; simp)

theorem State.storeStep_frame {s t : State}  (h : s.storeStep = some t) :
    t.pending = s.pending ∧ t.freeCount = s.freeCount ∧ t.partTime = s.partTime ∧ t.startUp = s.startUp
    ∧ t.restart = s.restart ∧ t.powerGood = s.powerGood ∧ t.domains = s.domains
    ∧ (∀ e : Dom, t.domain e = s.domain e) ∧ t.plans = s.plans ∧ (∀ e : Dom, t.plan e = s.plan e)
    ∧ t.admissions = s.admissions ∧ (∀ e : Dom, t.admission e = s.admission e) ∧ t.works = s.works
    ∧ (∀ e : Dom, t.work e = s.work e) ∧ t.channels = s.channels ∧ (∀ c' : Fin 4, t.channel c' = s.channel c')
    ∧ t.lastPicked = s.lastPicked ∧ t.staging = s.staging ∧ t.links = s.links ∧ (∀ e : Dom, t.link e = s.link e)
    ∧ t.journals = s.journals ∧ (∀ e : Dom, t.journal e = s.journal e) ∧ t.directory = s.directory
    ∧ (∀ m : Num, t.dump m = s.dump m) ∧ t.flash = s.flash ∧ t.servicePort = s.servicePort
    ∧ t.platformPorts = s.platformPorts ∧ t.service = s.service ∧ t.config = s.config
    ∧ (∀ e : Dom, t.settings e = s.settings e) ∧ (∀ q : PortId, t.port q = s.port q) := by
  unfold State.storeStep at h; try dsimp only at h
  (repeat' split at h) <;> first | (cases h; done) | (cases h; simp)

theorem State.pump_frame {s t : State} (h : s.pump = some t) :
    t.pending = s.pending ∧ t.freeCount = s.freeCount ∧ t.partTime = s.partTime ∧ t.startUp = s.startUp
    ∧ t.restart = s.restart ∧ t.powerGood = s.powerGood ∧ t.plans = s.plans ∧ (∀ e : Dom, t.plan e = s.plan e)
    ∧ t.flash = s.flash ∧ t.platformPorts = s.platformPorts ∧ t.config = s.config
    ∧ (∀ e : Dom, t.settings e = s.settings e) ∧ (∀ e : Dom, t.port (.platform e) = s.port (.platform e)) := by
  rcases State.pump_cases h with h | ⟨_, h⟩ | ⟨_, h⟩ | ⟨_, h⟩ | ⟨_, h⟩ | ⟨_, h⟩ | ⟨_, h⟩ | h | ⟨_, h⟩ | ⟨_, h⟩ | ⟨_, h⟩ | h
  · simp [State.serveStep_frame h]
  · simp [State.passStep_frame h]
  · simp [State.finishStep_frame h]
  · simp [State.cutStep_frame h]
  · simp [State.lockStep_frame h]
  · simp [State.askStep_frame h]
  · simp [State.grantStep_frame h]
  · simp [State.pickStep_frame h]
  · simp [State.copierStep_frame h]
  · simp [State.closingStep_frame h]
  · simp [State.manifestStep_frame h]
  · simp [State.storeStep_frame h]

@[simp] theorem State.settle_frame (s : State) :
    s.settle.pending = s.pending ∧ s.settle.freeCount = s.freeCount ∧ s.settle.partTime = s.partTime
    ∧ s.settle.startUp = s.startUp ∧ s.settle.restart = s.restart ∧ s.settle.powerGood = s.powerGood
    ∧ s.settle.plans = s.plans ∧ (∀ e : Dom, s.settle.plan e = s.plan e) ∧ s.settle.flash = s.flash
    ∧ s.settle.platformPorts = s.platformPorts ∧ s.settle.config = s.config
    ∧ (∀ e : Dom, s.settle.settings e = s.settings e)
    ∧ (∀ e : Dom, s.settle.port (.platform e) = s.port (.platform e)) :=
  State.settle_induction (P := fun t =>
    t.pending = s.pending ∧ t.freeCount = s.freeCount ∧ t.partTime = s.partTime ∧ t.startUp = s.startUp
    ∧ t.restart = s.restart ∧ t.powerGood = s.powerGood ∧ t.plans = s.plans ∧ (∀ e : Dom, t.plan e = s.plan e)
    ∧ t.flash = s.flash ∧ t.platformPorts = s.platformPorts ∧ t.config = s.config
    ∧ (∀ e : Dom, t.settings e = s.settings e) ∧ (∀ e : Dom, t.port (.platform e) = s.port (.platform e)))
    (fun a b e hb => by simp only [State.pump_frame e]; exact hb) s (by simp)

/-! ### The directory -/

theorem State.pump_dirStill {s t : State} (h : s.pump = some t) : t.directory.still = s.directory.still := by
  rcases State.pump_cases h with h | ⟨c, h⟩ | ⟨c, h⟩ | ⟨c, h⟩ | ⟨d, h⟩ | ⟨d, h⟩ | ⟨d, h⟩ | h | ⟨d, h⟩ | ⟨d, h⟩
    | ⟨d, h⟩ | h
  · unfold State.serveStep at h; (repeat' split at h) <;> cases h; simp
  · simp [State.passStep_frame h]
  · unfold State.finishStep at h; dsimp only at h
    (repeat' split at h) <;> cases h <;> simp
  · simp [State.cutStep_frame h]
  · simp [State.lockStep_frame h]
  · simp [State.askStep_frame h]
  · simp [State.grantStep_frame h]
  · unfold State.pickStep at h; (repeat' split at h) <;> cases h <;> simp
  · simp [State.copierStep_frame h]
  · unfold State.closingStep at h; (repeat' split at h) <;> cases h <;> simp
  · simp [State.manifestStep_frame h]
  · simp [State.storeStep_frame h]

@[simp] theorem State.settle_dirStill (s : State) : s.settle.directory.still = s.directory.still :=
  s.settle_keeps (fun t => t.directory.still) fun _ _ e => State.pump_dirStill e

/-! ### The journals -/

theorem State.pump_journalStill {s t : State} (h : s.pump = some t) (e : Dom) :
    (t.journal e).still = (s.journal e).still := by
  rcases State.pump_cases h with h | ⟨c, h⟩ | ⟨c, h⟩ | ⟨c, h⟩ | ⟨d, h⟩ | ⟨d, h⟩ | ⟨d, h⟩ | h | ⟨d, h⟩ | ⟨d, h⟩
    | ⟨d, h⟩ | h
  · unfold State.serveStep at h; (repeat' split at h) <;> cases h; simp
  · simp [State.passStep_frame h]
  · simp [State.finishStep_frame h]
  · simp [State.cutStep_frame h]
  · simp [State.lockStep_frame h]
  · simp [State.askStep_frame h]
  · simp [State.grantStep_frame h]
  · simp [State.pickStep_frame h]
  · simp [State.copierStep_frame h]
  · unfold State.closingStep at h; (repeat' split at h) <;> cases h <;> simp
  · simp [State.manifestStep_frame h]
  · simp [State.storeStep_frame h]

@[simp] theorem State.settle_journalStill (s : State) (e : Dom) :
    (s.settle.journal e).still = (s.journal e).still :=
  s.settle_keeps (fun t => (t.journal e).still) fun _ _ h => State.pump_journalStill h e

/-! ### The links -/

theorem State.issue_linkStill (s : State) (d : Dom) (pos : Fin 2) (q : GrantRequest) (hu : (s.link d).state = .up)
    (e : Dom) : ((s.issue d pos q).link e).still = (s.link e).still := by
  unfold State.issue; dsimp only
  split
  all_goals
    try rw [State.setChannel_link]
    refine State.setLink_still _ _ _ _ ?_
    simp [Link.still, hu]

theorem State.pump_linkStill {s t : State} (h : s.pump = some t) (e : Dom) : (t.link e).still = (s.link e).still := by
  rcases State.pump_cases h with h | ⟨c, h⟩ | ⟨c, h⟩ | ⟨c, h⟩ | ⟨d, h⟩ | ⟨d, h⟩ | ⟨d, h⟩ | h | ⟨d, h⟩ | ⟨d, h⟩
    | ⟨d, h⟩ | h
  · unfold State.serveStep at h; (repeat' split at h) <;> cases h; simp
  · simp [State.passStep_frame h]
  · unfold State.finishStep at h; dsimp only at h
    (repeat' split at h) <;> cases h <;> simp
    rw [State.setLink_still] <;> simp
    rfl
  · simp [State.cutStep_frame h]
  · unfold State.lockStep at h; dsimp only at h
    (repeat' split at h) <;> cases h <;>
      first
        | exact State.setLink_still _ _ _ _ rfl
        | (rw [State.setChannel_link]; exact State.setLink_still _ _ _ _ rfl)
  · unfold State.askStep at h; dsimp only at h
    (repeat' split at h) <;> cases h
    exact State.setLink_still _ _ _ _ rfl
  · unfold State.grantStep at h; dsimp only at h
    split at h
    · cases h
    · split at h
      · rename_i pos _ _ q hq
        cases h
        obtain ⟨c, -, hc⟩ := List.exists_of_findSome?_eq_some hq
        have he := List.find?_some hc
        simp only [Bool.and_eq_true, Link.eligible, beq_iff_eq] at he
        exact State.issue_linkStill s d pos q he.2.1 e
      · cases h
  · simp [State.pickStep_frame h]
  · simp [State.copierStep_frame h]
  · simp [State.closingStep_frame h]
  · simp [State.manifestStep_frame h]
  · simp [State.storeStep_frame h]

@[simp] theorem State.settle_linkStill (s : State) (e : Dom) : (s.settle.link e).still = (s.link e).still :=
  s.settle_keeps (fun t => (t.link e).still) fun _ _ h => State.pump_linkStill h e

/-! ### The domains -/

theorem Domain.mayComplete_refl (x : Domain) : x.mayComplete x := .inl rfl

theorem Domain.mayComplete_trans {x y z : Domain} (h : x.mayComplete y) (k : y.mayComplete z) : x.mayComplete z := by
  rcases h with rfl | ⟨hx, rfl⟩
  · exact k
  · rcases k with rfl | ⟨hy, -⟩
    · exact .inr ⟨hx, rfl⟩
    · cases hy

theorem State.completionTest_domain (s : State) (d e : Dom) :
    (s.domain e).mayComplete ((s.completionTest d).domain e) := by
  unfold State.completionTest
  split
  · rename_i h _
    split
    · rcases dom_eq_or d e with rfl | rfl
      · exact .inr ⟨h, by simp⟩
      · exact .inl (by simp)
    · exact .inl rfl
  · exact .inl rfl

theorem State.sectionEnded_domain (s : State) (d : Dom) (n : Num) (i : Nat) (e : Dom) :
    (s.domain e).mayComplete ((s.sectionEnded d n i).domain e) := by
  unfold State.sectionEnded; dsimp only
  split
  · exact .inl rfl
  · refine Domain.mayComplete_trans ?_ (State.completionTest_domain _ d e)
    refine .inl ?_
    split <;> simp

theorem State.copyEnded_domain (s : State) (d : Dom) (k : Copy) (e : Dom) :
    (s.domain e).mayComplete ((s.copyEnded d k).domain e) := by
  unfold State.copyEnded; dsimp only
  refine Domain.mayComplete_trans ?_ (State.sectionEnded_domain _ d _ _ e)
  exact .inl (by split <;> simp)

theorem State.copyTest_domain (s : State) (d : Dom) (k : Copy) (e : Dom) :
    (s.domain e).mayComplete ((s.copyTest d k).domain e) := by
  unfold State.copyTest
  split
  · exact s.copyEnded_domain d k e
  · exact .inl rfl

theorem State.copierHeader_domain (s : State) (d e : Dom) :
    (s.domain e).mayComplete ((s.copierHeader d).domain e) := by
  unfold State.copierHeader; dsimp only
  (repeat' split) <;> first | exact .inl rfl | skip
  exact Domain.mayComplete_trans (.inl (by simp)) (State.copyTest_domain _ d _ e)

theorem State.copierData_domain (s : State) (d : Dom) (k : PageKey) (e : Dom) :
    (s.domain e).mayComplete ((s.copierData d k).domain e) := by
  unfold State.copierData; dsimp only
  split
  · exact .inl rfl
  · exact Domain.mayComplete_trans (.inl (by simp)) (State.copyTest_domain _ d _ e)

theorem State.latchGiven_domain (s : State) (n : Num) (e : Dom) :
    (s.domain e).mayComplete ((s.latchGiven n).domain e) := by
  unfold State.latchGiven; dsimp only
  (repeat' split) <;> first | exact .inl rfl | skip
  exact Domain.mayComplete_trans (.inl (by simp)) (State.sectionEnded_domain _ _ _ _ e)

theorem State.given_domain (s : State) (r : StagingRequest) (e : Dom) :
    (s.domain e).mayComplete ((s.given r).domain e) := by
  unfold State.given
  (repeat' split)
  all_goals first
    | exact .inl rfl
    | exact .inl (by simp)
    | exact s.copierHeader_domain _ e
    | exact s.copierData_domain _ _ e
    | exact s.latchGiven_domain _ e

theorem State.pump_domain {s t : State} (h : s.pump = some t) (e : Dom) :
    (s.domain e).mayComplete (t.domain e) := by
  rcases State.pump_cases h with h | ⟨c, h⟩ | ⟨c, h⟩ | ⟨c, h⟩ | ⟨d, h⟩ | ⟨d, h⟩ | ⟨d, h⟩ | h | ⟨d, h⟩ | ⟨d, h⟩
    | ⟨d, h⟩ | h
  · unfold State.serveStep at h; (repeat' split at h) <;> cases h
    exact Domain.mayComplete_trans (.inl rfl) (State.given_domain _ _ e)
  · exact .inl (by simp [State.passStep_frame h])
  · unfold State.finishStep at h; dsimp only at h
    (repeat' split at h) <;> cases h <;>
      exact Domain.mayComplete_trans (.inl (by simp)) (State.sectionEnded_domain _ _ _ _ e)
  · exact .inl (by simp [State.cutStep_frame h])
  · exact .inl (by simp [State.lockStep_frame h])
  · exact .inl (by simp [State.askStep_frame h])
  · exact .inl (by simp [State.grantStep_frame h])
  · exact .inl (by simp [State.pickStep_frame h])
  · exact .inl (by simp [State.copierStep_frame h])
  · exact .inl (by simp [State.closingStep_frame h])
  · exact .inl (by simp [State.manifestStep_frame h])
  · exact .inl (by simp [State.storeStep_frame h])

/-- Settling changes a domain record at most by the end of a complete harvest (R12). -/
theorem State.settle_domain (s : State) (e : Dom) : (s.domain e).mayComplete (s.settle.domain e) :=
  State.settle_induction (P := fun t => (s.domain e).mayComplete (t.domain e))
    (fun _ _ h k => Domain.mayComplete_trans k (State.pump_domain h e)) s (.inl rfl)

/-! ### The staging buffer -/

@[simp] theorem State.askPages_pages (s : State) (h : Holder) (ks : List PageKey) :
    (s.askPages h ks).staging.pages = s.staging.pages := rfl
@[simp] theorem State.withdrawPages_pages (s : State) (h : Holder) :
    (s.withdrawPages h).staging.pages = s.staging.pages := rfl
@[simp] theorem State.stage_count (s : State) (k : PageKey) (bs : List Byte) :
    (s.stage k bs).staging.pages.length = s.staging.pages.length := by
  simp [State.stage, State.passPage, Staging.updData]

end Sys2Proof.Machine
end

