-- ==== Sys2Proof/Laws/CommandFrames.lean ====
section
/-! SUPPORT. The frames of the commands' own operations: for each, the parts of the state that it leaves as they were. -/
set_option linter.unusedSimpArgs false
set_option linter.unusedTactic false
set_option linter.unreachableTactic false
set_option linter.unnecessarySeqFocus false

namespace Sys2Proof.Machine

@[simp] theorem State.countMissed_frame (s : State) (d : Dom) :
    (s.countMissed d).pending = s.pending ∧ (s.countMissed d).freeCount = s.freeCount
    ∧ (s.countMissed d).partTime = s.partTime ∧ (s.countMissed d).startUp = s.startUp
    ∧ (s.countMissed d).restart = s.restart ∧ (s.countMissed d).powerGood = s.powerGood
    ∧ (s.countMissed d).plans = s.plans ∧ (∀ e : Dom, (s.countMissed d).plan e = s.plan e)
    ∧ (s.countMissed d).admissions = s.admissions ∧ (∀ e : Dom, (s.countMissed d).admission e = s.admission e)
    ∧ (s.countMissed d).works = s.works ∧ (∀ e : Dom, (s.countMissed d).work e = s.work e)
    ∧ (s.countMissed d).channels = s.channels ∧ (∀ c' : Fin 4, (s.countMissed d).channel c' = s.channel c')
    ∧ (s.countMissed d).lastPicked = s.lastPicked ∧ (s.countMissed d).staging = s.staging
    ∧ (s.countMissed d).links = s.links ∧ (∀ e : Dom, (s.countMissed d).link e = s.link e)
    ∧ (s.countMissed d).journals = s.journals ∧ (∀ e : Dom, (s.countMissed d).journal e = s.journal e)
    ∧ (s.countMissed d).directory = s.directory ∧ (∀ m : Num, (s.countMissed d).dump m = s.dump m)
    ∧ (s.countMissed d).store = s.store ∧ (s.countMissed d).flash = s.flash
    ∧ (s.countMissed d).servicePort = s.servicePort ∧ (s.countMissed d).platformPorts = s.platformPorts
    ∧ (s.countMissed d).service = s.service ∧ (s.countMissed d).config = s.config
    ∧ (∀ e : Dom, (s.countMissed d).settings e = s.settings e) ∧ (∀ q : PortId, (s.countMissed d).port q = s.port q) := by
  unfold State.countMissed; try dsimp only
  (repeat' split) <;> simp

@[simp] theorem State.countLate_frame (s : State) (d : Dom) :
    (s.countLate d).pending = s.pending ∧ (s.countLate d).freeCount = s.freeCount
    ∧ (s.countLate d).partTime = s.partTime ∧ (s.countLate d).startUp = s.startUp
    ∧ (s.countLate d).restart = s.restart ∧ (s.countLate d).powerGood = s.powerGood ∧ (s.countLate d).plans = s.plans
    ∧ (∀ e : Dom, (s.countLate d).plan e = s.plan e) ∧ (s.countLate d).admissions = s.admissions
    ∧ (∀ e : Dom, (s.countLate d).admission e = s.admission e) ∧ (s.countLate d).works = s.works
    ∧ (∀ e : Dom, (s.countLate d).work e = s.work e) ∧ (s.countLate d).channels = s.channels
    ∧ (∀ c' : Fin 4, (s.countLate d).channel c' = s.channel c') ∧ (s.countLate d).lastPicked = s.lastPicked
    ∧ (s.countLate d).staging = s.staging ∧ (s.countLate d).links = s.links
    ∧ (∀ e : Dom, (s.countLate d).link e = s.link e) ∧ (s.countLate d).journals = s.journals
    ∧ (∀ e : Dom, (s.countLate d).journal e = s.journal e) ∧ (s.countLate d).directory = s.directory
    ∧ (∀ m : Num, (s.countLate d).dump m = s.dump m) ∧ (s.countLate d).store = s.store
    ∧ (s.countLate d).flash = s.flash ∧ (s.countLate d).servicePort = s.servicePort
    ∧ (s.countLate d).platformPorts = s.platformPorts ∧ (s.countLate d).service = s.service
    ∧ (s.countLate d).config = s.config ∧ (∀ e : Dom, (s.countLate d).settings e = s.settings e)
    ∧ (∀ q : PortId, (s.countLate d).port q = s.port q) := by
  unfold State.countLate; try dsimp only
  (repeat' split) <;> simp

@[simp] theorem State.addDump_frame (s : State) (d : Dom) (t : TriggerEntry) :
    (s.addDump d t).pending = s.pending ∧ (s.addDump d t).freeCount = s.freeCount
    ∧ (s.addDump d t).partTime = s.partTime ∧ (s.addDump d t).startUp = s.startUp
    ∧ (s.addDump d t).restart = s.restart ∧ (s.addDump d t).powerGood = s.powerGood
    ∧ (s.addDump d t).domains = s.domains ∧ (∀ e : Dom, (s.addDump d t).domain e = s.domain e)
    ∧ (s.addDump d t).plans = s.plans ∧ (∀ e : Dom, (s.addDump d t).plan e = s.plan e)
    ∧ (s.addDump d t).admissions = s.admissions ∧ (∀ e : Dom, (s.addDump d t).admission e = s.admission e)
    ∧ (s.addDump d t).works = s.works ∧ (∀ e : Dom, (s.addDump d t).work e = s.work e)
    ∧ (s.addDump d t).channels = s.channels ∧ (∀ c' : Fin 4, (s.addDump d t).channel c' = s.channel c')
    ∧ (s.addDump d t).lastPicked = s.lastPicked ∧ (s.addDump d t).staging = s.staging
    ∧ (s.addDump d t).links = s.links ∧ (∀ e : Dom, (s.addDump d t).link e = s.link e)
    ∧ (s.addDump d t).journals = s.journals ∧ (∀ e : Dom, (s.addDump d t).journal e = s.journal e)
    ∧ (s.addDump d t).flash = s.flash ∧ (s.addDump d t).servicePort = s.servicePort
    ∧ (s.addDump d t).platformPorts = s.platformPorts ∧ (s.addDump d t).service = s.service
    ∧ (s.addDump d t).config = s.config ∧ (∀ e : Dom, (s.addDump d t).settings e = s.settings e)
    ∧ (∀ q : PortId, (s.addDump d t).port q = s.port q) := by
  unfold State.addDump; try dsimp only
  (repeat' split) <;> simp

@[simp] theorem State.startDumpWork_frame (s : State) (d : Dom) (n : Num) (t : Time) :
    (s.startDumpWork d n t).pending = s.pending ∧ (s.startDumpWork d n t).freeCount = s.freeCount
    ∧ (s.startDumpWork d n t).partTime = s.partTime ∧ (s.startDumpWork d n t).startUp = s.startUp
    ∧ (s.startDumpWork d n t).restart = s.restart ∧ (s.startDumpWork d n t).powerGood = s.powerGood
    ∧ (s.startDumpWork d n t).domains = s.domains ∧ (∀ e : Dom, (s.startDumpWork d n t).domain e = s.domain e)
    ∧ (s.startDumpWork d n t).plans = s.plans ∧ (∀ e : Dom, (s.startDumpWork d n t).plan e = s.plan e)
    ∧ (s.startDumpWork d n t).admissions = s.admissions
    ∧ (∀ e : Dom, (s.startDumpWork d n t).admission e = s.admission e)
    ∧ (s.startDumpWork d n t).channels = s.channels
    ∧ (∀ c' : Fin 4, (s.startDumpWork d n t).channel c' = s.channel c')
    ∧ (s.startDumpWork d n t).lastPicked = s.lastPicked ∧ (s.startDumpWork d n t).links = s.links
    ∧ (∀ e : Dom, (s.startDumpWork d n t).link e = s.link e) ∧ (s.startDumpWork d n t).directory = s.directory
    ∧ (∀ m : Num, (s.startDumpWork d n t).dump m = s.dump m) ∧ (s.startDumpWork d n t).store = s.store
    ∧ (s.startDumpWork d n t).flash = s.flash ∧ (s.startDumpWork d n t).servicePort = s.servicePort
    ∧ (s.startDumpWork d n t).platformPorts = s.platformPorts ∧ (s.startDumpWork d n t).service = s.service
    ∧ (s.startDumpWork d n t).config = s.config ∧ (∀ e : Dom, (s.startDumpWork d n t).settings e = s.settings e)
    ∧ (∀ q : PortId, (s.startDumpWork d n t).port q = s.port q) := by
  unfold State.startDumpWork; try dsimp only
  (repeat' split) <;> simp

@[simp] theorem State.openDump_frame (s : State) (d : Dom) (t : TriggerEntry) :
    (s.openDump d t).pending = s.pending ∧ (s.openDump d t).freeCount = s.freeCount
    ∧ (s.openDump d t).partTime = s.partTime ∧ (s.openDump d t).startUp = s.startUp
    ∧ (s.openDump d t).restart = s.restart ∧ (s.openDump d t).powerGood = s.powerGood
    ∧ (s.openDump d t).domains = s.domains ∧ (∀ e : Dom, (s.openDump d t).domain e = s.domain e)
    ∧ (s.openDump d t).plans = s.plans ∧ (∀ e : Dom, (s.openDump d t).plan e = s.plan e)
    ∧ (s.openDump d t).channels = s.channels ∧ (∀ c' : Fin 4, (s.openDump d t).channel c' = s.channel c')
    ∧ (s.openDump d t).lastPicked = s.lastPicked ∧ (s.openDump d t).links = s.links
    ∧ (∀ e : Dom, (s.openDump d t).link e = s.link e) ∧ (s.openDump d t).flash = s.flash
    ∧ (s.openDump d t).servicePort = s.servicePort ∧ (s.openDump d t).platformPorts = s.platformPorts
    ∧ (s.openDump d t).service = s.service ∧ (s.openDump d t).config = s.config
    ∧ (∀ e : Dom, (s.openDump d t).settings e = s.settings e) ∧ (∀ q : PortId, (s.openDump d t).port q = s.port q) := by
  unfold State.openDump; try dsimp only
  (repeat' split) <;> simp

@[simp] theorem State.triggerStarts_frame (s : State) (d : Dom) (x : TriggerCause) (k : Option (BitVec 32)) :
    (s.triggerStarts d x k).pending = s.pending ∧ (s.triggerStarts d x k).freeCount = s.freeCount
    ∧ (s.triggerStarts d x k).partTime = s.partTime ∧ (s.triggerStarts d x k).startUp = s.startUp
    ∧ (s.triggerStarts d x k).restart = s.restart ∧ (s.triggerStarts d x k).powerGood = s.powerGood
    ∧ (s.triggerStarts d x k).plans = s.plans ∧ (∀ e : Dom, (s.triggerStarts d x k).plan e = s.plan e)
    ∧ (s.triggerStarts d x k).admissions = s.admissions
    ∧ (∀ e : Dom, (s.triggerStarts d x k).admission e = s.admission e) ∧ (s.triggerStarts d x k).works = s.works
    ∧ (∀ e : Dom, (s.triggerStarts d x k).work e = s.work e) ∧ (s.triggerStarts d x k).channels = s.channels
    ∧ (∀ c' : Fin 4, (s.triggerStarts d x k).channel c' = s.channel c')
    ∧ (s.triggerStarts d x k).lastPicked = s.lastPicked ∧ (s.triggerStarts d x k).staging = s.staging
    ∧ (s.triggerStarts d x k).links = s.links ∧ (∀ e : Dom, (s.triggerStarts d x k).link e = s.link e)
    ∧ (s.triggerStarts d x k).directory = s.directory ∧ (∀ m : Num, (s.triggerStarts d x k).dump m = s.dump m)
    ∧ (s.triggerStarts d x k).store = s.store ∧ (s.triggerStarts d x k).flash = s.flash
    ∧ (s.triggerStarts d x k).servicePort = s.servicePort ∧ (s.triggerStarts d x k).platformPorts = s.platformPorts
    ∧ (s.triggerStarts d x k).config = s.config ∧ (∀ e : Dom, (s.triggerStarts d x k).settings e = s.settings e)
    ∧ (∀ q : PortId, (s.triggerStarts d x k).port q = s.port q) := by
  unfold State.triggerStarts; try dsimp only
  (repeat' split) <;> simp

@[simp] theorem State.openingFails_frame (s : State) (d : Dom) (x : TriggerCause) (w : FailureCause) :
    (s.openingFails d x w).pending = s.pending ∧ (s.openingFails d x w).freeCount = s.freeCount
    ∧ (s.openingFails d x w).partTime = s.partTime ∧ (s.openingFails d x w).startUp = s.startUp
    ∧ (s.openingFails d x w).restart = s.restart ∧ (s.openingFails d x w).powerGood = s.powerGood
    ∧ (s.openingFails d x w).plans = s.plans ∧ (∀ e : Dom, (s.openingFails d x w).plan e = s.plan e)
    ∧ (s.openingFails d x w).admissions = s.admissions
    ∧ (∀ e : Dom, (s.openingFails d x w).admission e = s.admission e) ∧ (s.openingFails d x w).works = s.works
    ∧ (∀ e : Dom, (s.openingFails d x w).work e = s.work e) ∧ (s.openingFails d x w).channels = s.channels
    ∧ (∀ c' : Fin 4, (s.openingFails d x w).channel c' = s.channel c')
    ∧ (s.openingFails d x w).lastPicked = s.lastPicked ∧ (s.openingFails d x w).staging = s.staging
    ∧ (s.openingFails d x w).links = s.links ∧ (∀ e : Dom, (s.openingFails d x w).link e = s.link e)
    ∧ (s.openingFails d x w).directory = s.directory ∧ (∀ m : Num, (s.openingFails d x w).dump m = s.dump m)
    ∧ (s.openingFails d x w).store = s.store ∧ (s.openingFails d x w).flash = s.flash
    ∧ (s.openingFails d x w).platformPorts = s.platformPorts ∧ (s.openingFails d x w).config = s.config
    ∧ (∀ e : Dom, (s.openingFails d x w).settings e = s.settings e)
    ∧ (∀ e : Dom, (s.openingFails d x w).port (.platform e) = s.port (.platform e)) := by
  unfold State.openingFails; try dsimp only
  (repeat' split) <;> simp

@[simp] theorem State.openingSucceeds_frame (s : State) (d : Dom) (x : TriggerCause) (k : Option (BitVec 32)) :
    (s.openingSucceeds d x k).pending = s.pending ∧ (s.openingSucceeds d x k).freeCount = s.freeCount
    ∧ (s.openingSucceeds d x k).partTime = s.partTime ∧ (s.openingSucceeds d x k).startUp = s.startUp
    ∧ (s.openingSucceeds d x k).restart = s.restart ∧ (s.openingSucceeds d x k).powerGood = s.powerGood
    ∧ (s.openingSucceeds d x k).plans = s.plans ∧ (∀ e : Dom, (s.openingSucceeds d x k).plan e = s.plan e)
    ∧ (s.openingSucceeds d x k).channels = s.channels
    ∧ (∀ c' : Fin 4, (s.openingSucceeds d x k).channel c' = s.channel c')
    ∧ (s.openingSucceeds d x k).lastPicked = s.lastPicked ∧ (s.openingSucceeds d x k).links = s.links
    ∧ (∀ e : Dom, (s.openingSucceeds d x k).link e = s.link e) ∧ (s.openingSucceeds d x k).flash = s.flash
    ∧ (s.openingSucceeds d x k).platformPorts = s.platformPorts ∧ (s.openingSucceeds d x k).config = s.config
    ∧ (∀ e : Dom, (s.openingSucceeds d x k).settings e = s.settings e)
    ∧ (∀ e : Dom, (s.openingSucceeds d x k).port (.platform e) = s.port (.platform e)) := by
  unfold State.openingSucceeds; try dsimp only
  (repeat' split) <;> simp

@[simp] theorem State.startDump_frame (s : State) (d : Dom) (x : TriggerCause) (k : Option (BitVec 32)) :
    (s.startDump d x k).1.pending = s.pending ∧ (s.startDump d x k).1.freeCount = s.freeCount
    ∧ (s.startDump d x k).1.partTime = s.partTime ∧ (s.startDump d x k).1.startUp = s.startUp
    ∧ (s.startDump d x k).1.restart = s.restart ∧ (s.startDump d x k).1.powerGood = s.powerGood
    ∧ (s.startDump d x k).1.plans = s.plans ∧ (∀ e : Dom, (s.startDump d x k).1.plan e = s.plan e)
    ∧ (s.startDump d x k).1.channels = s.channels ∧ (∀ c' : Fin 4, (s.startDump d x k).1.channel c' = s.channel c')
    ∧ (s.startDump d x k).1.lastPicked = s.lastPicked ∧ (s.startDump d x k).1.links = s.links
    ∧ (∀ e : Dom, (s.startDump d x k).1.link e = s.link e) ∧ (s.startDump d x k).1.flash = s.flash
    ∧ (s.startDump d x k).1.platformPorts = s.platformPorts ∧ (s.startDump d x k).1.config = s.config
    ∧ (∀ e : Dom, (s.startDump d x k).1.settings e = s.settings e)
    ∧ (∀ e : Dom, (s.startDump d x k).1.port (.platform e) = s.port (.platform e)) := by
  unfold State.startDump; try dsimp only
  (repeat' split) <;> simp

@[simp] theorem State.appendTrigger_frame (s : State) (d : Dom) (x : TriggerCause) (k : Option (BitVec 32)) :
    (s.appendTrigger d x k).1.pending = s.pending ∧ (s.appendTrigger d x k).1.freeCount = s.freeCount
    ∧ (s.appendTrigger d x k).1.partTime = s.partTime ∧ (s.appendTrigger d x k).1.startUp = s.startUp
    ∧ (s.appendTrigger d x k).1.restart = s.restart ∧ (s.appendTrigger d x k).1.powerGood = s.powerGood
    ∧ (s.appendTrigger d x k).1.plans = s.plans ∧ (∀ e : Dom, (s.appendTrigger d x k).1.plan e = s.plan e)
    ∧ (s.appendTrigger d x k).1.admissions = s.admissions
    ∧ (∀ e : Dom, (s.appendTrigger d x k).1.admission e = s.admission e) ∧ (s.appendTrigger d x k).1.works = s.works
    ∧ (∀ e : Dom, (s.appendTrigger d x k).1.work e = s.work e) ∧ (s.appendTrigger d x k).1.channels = s.channels
    ∧ (∀ c' : Fin 4, (s.appendTrigger d x k).1.channel c' = s.channel c')
    ∧ (s.appendTrigger d x k).1.lastPicked = s.lastPicked ∧ (s.appendTrigger d x k).1.staging = s.staging
    ∧ (s.appendTrigger d x k).1.links = s.links ∧ (∀ e : Dom, (s.appendTrigger d x k).1.link e = s.link e)
    ∧ (s.appendTrigger d x k).1.store = s.store ∧ (s.appendTrigger d x k).1.flash = s.flash
    ∧ (s.appendTrigger d x k).1.servicePort = s.servicePort
    ∧ (s.appendTrigger d x k).1.platformPorts = s.platformPorts ∧ (s.appendTrigger d x k).1.service = s.service
    ∧ (s.appendTrigger d x k).1.config = s.config ∧ (∀ e : Dom, (s.appendTrigger d x k).1.settings e = s.settings e)
    ∧ (∀ q : PortId, (s.appendTrigger d x k).1.port q = s.port q) := by
  unfold State.appendTrigger; try dsimp only
  (repeat' split) <;> simp

@[simp] theorem State.takeTrigger_frame (s : State) (d : Dom) (x : TriggerCause) (k : Option (BitVec 32)) :
    (s.takeTrigger d x k).1.pending = s.pending ∧ (s.takeTrigger d x k).1.freeCount = s.freeCount
    ∧ (s.takeTrigger d x k).1.partTime = s.partTime ∧ (s.takeTrigger d x k).1.startUp = s.startUp
    ∧ (s.takeTrigger d x k).1.restart = s.restart ∧ (s.takeTrigger d x k).1.powerGood = s.powerGood
    ∧ (s.takeTrigger d x k).1.plans = s.plans ∧ (∀ e : Dom, (s.takeTrigger d x k).1.plan e = s.plan e)
    ∧ (s.takeTrigger d x k).1.channels = s.channels
    ∧ (∀ c' : Fin 4, (s.takeTrigger d x k).1.channel c' = s.channel c')
    ∧ (s.takeTrigger d x k).1.lastPicked = s.lastPicked ∧ (s.takeTrigger d x k).1.links = s.links
    ∧ (∀ e : Dom, (s.takeTrigger d x k).1.link e = s.link e) ∧ (s.takeTrigger d x k).1.flash = s.flash
    ∧ (s.takeTrigger d x k).1.platformPorts = s.platformPorts ∧ (s.takeTrigger d x k).1.config = s.config
    ∧ (∀ e : Dom, (s.takeTrigger d x k).1.settings e = s.settings e)
    ∧ (∀ e : Dom, (s.takeTrigger d x k).1.port (.platform e) = s.port (.platform e)) := by
  unfold State.takeTrigger; try dsimp only
  (repeat' split) <;> simp

@[simp] theorem State.throttle_frame (s : State) (d : Dom) :
    (s.throttle d).pending = s.pending ∧ (s.throttle d).freeCount = s.freeCount
    ∧ (s.throttle d).partTime = s.partTime ∧ (s.throttle d).startUp = s.startUp ∧ (s.throttle d).restart = s.restart
    ∧ (s.throttle d).powerGood = s.powerGood ∧ (s.throttle d).domains = s.domains
    ∧ (∀ e : Dom, (s.throttle d).domain e = s.domain e) ∧ (s.throttle d).plans = s.plans
    ∧ (∀ e : Dom, (s.throttle d).plan e = s.plan e) ∧ (s.throttle d).admissions = s.admissions
    ∧ (∀ e : Dom, (s.throttle d).admission e = s.admission e) ∧ (s.throttle d).works = s.works
    ∧ (∀ e : Dom, (s.throttle d).work e = s.work e) ∧ (s.throttle d).channels = s.channels
    ∧ (∀ c' : Fin 4, (s.throttle d).channel c' = s.channel c') ∧ (s.throttle d).lastPicked = s.lastPicked
    ∧ (s.throttle d).staging = s.staging ∧ (s.throttle d).links = s.links
    ∧ (∀ e : Dom, (s.throttle d).link e = s.link e) ∧ (s.throttle d).directory = s.directory
    ∧ (∀ m : Num, (s.throttle d).dump m = s.dump m) ∧ (s.throttle d).store = s.store ∧ (s.throttle d).flash = s.flash
    ∧ (s.throttle d).service = s.service ∧ (s.throttle d).config = s.config
    ∧ (∀ e : Dom, (s.throttle d).settings e = s.settings e) := by
  unfold State.throttle; try dsimp only
  (repeat' split) <;> simp

@[simp] theorem State.unthrottle_frame (s : State) (d : Dom) :
    (s.unthrottle d).pending = s.pending ∧ (s.unthrottle d).freeCount = s.freeCount
    ∧ (s.unthrottle d).partTime = s.partTime ∧ (s.unthrottle d).startUp = s.startUp
    ∧ (s.unthrottle d).restart = s.restart ∧ (s.unthrottle d).powerGood = s.powerGood
    ∧ (s.unthrottle d).domains = s.domains ∧ (∀ e : Dom, (s.unthrottle d).domain e = s.domain e)
    ∧ (s.unthrottle d).plans = s.plans ∧ (∀ e : Dom, (s.unthrottle d).plan e = s.plan e)
    ∧ (s.unthrottle d).admissions = s.admissions ∧ (∀ e : Dom, (s.unthrottle d).admission e = s.admission e)
    ∧ (s.unthrottle d).works = s.works ∧ (∀ e : Dom, (s.unthrottle d).work e = s.work e)
    ∧ (s.unthrottle d).channels = s.channels ∧ (∀ c' : Fin 4, (s.unthrottle d).channel c' = s.channel c')
    ∧ (s.unthrottle d).lastPicked = s.lastPicked ∧ (s.unthrottle d).staging = s.staging
    ∧ (s.unthrottle d).links = s.links ∧ (∀ e : Dom, (s.unthrottle d).link e = s.link e)
    ∧ (s.unthrottle d).directory = s.directory ∧ (∀ m : Num, (s.unthrottle d).dump m = s.dump m)
    ∧ (s.unthrottle d).store = s.store ∧ (s.unthrottle d).flash = s.flash ∧ (s.unthrottle d).service = s.service
    ∧ (s.unthrottle d).config = s.config ∧ (∀ e : Dom, (s.unthrottle d).settings e = s.settings e) := by
  unfold State.unthrottle; try dsimp only
  (repeat' split) <;> simp

@[simp] theorem State.land_frame (s : State) (i : Fin 8) :
    (s.land i).pending = s.pending ∧ (s.land i).freeCount = s.freeCount ∧ (s.land i).partTime = s.partTime
    ∧ (s.land i).startUp = s.startUp ∧ (s.land i).restart = s.restart ∧ (s.land i).powerGood = s.powerGood
    ∧ (s.land i).domains = s.domains ∧ (∀ e : Dom, (s.land i).domain e = s.domain e) ∧ (s.land i).plans = s.plans
    ∧ (∀ e : Dom, (s.land i).plan e = s.plan e) ∧ (s.land i).admissions = s.admissions
    ∧ (∀ e : Dom, (s.land i).admission e = s.admission e) ∧ (s.land i).works = s.works
    ∧ (∀ e : Dom, (s.land i).work e = s.work e) ∧ (s.land i).channels = s.channels
    ∧ (∀ c' : Fin 4, (s.land i).channel c' = s.channel c') ∧ (s.land i).lastPicked = s.lastPicked
    ∧ (s.land i).staging = s.staging ∧ (s.land i).links = s.links ∧ (∀ e : Dom, (s.land i).link e = s.link e)
    ∧ (s.land i).journals = s.journals ∧ (∀ e : Dom, (s.land i).journal e = s.journal e)
    ∧ (s.land i).directory = s.directory ∧ (∀ m : Num, (s.land i).dump m = s.dump m) ∧ (s.land i).flash = s.flash
    ∧ (s.land i).servicePort = s.servicePort ∧ (s.land i).platformPorts = s.platformPorts
    ∧ (s.land i).service = s.service ∧ (s.land i).config = s.config
    ∧ (∀ e : Dom, (s.land i).settings e = s.settings e) ∧ (∀ q : PortId, (s.land i).port q = s.port q) := by
  unfold State.land; try dsimp only
  (repeat' split) <;> simp

@[simp] theorem State.delivered_frame (s : State) (n : Num) (i a b : Nat) :
    (s.delivered n i a b).pending = s.pending ∧ (s.delivered n i a b).freeCount = s.freeCount
    ∧ (s.delivered n i a b).partTime = s.partTime ∧ (s.delivered n i a b).startUp = s.startUp
    ∧ (s.delivered n i a b).restart = s.restart ∧ (s.delivered n i a b).powerGood = s.powerGood
    ∧ (s.delivered n i a b).domains = s.domains ∧ (∀ e : Dom, (s.delivered n i a b).domain e = s.domain e)
    ∧ (s.delivered n i a b).plans = s.plans ∧ (∀ e : Dom, (s.delivered n i a b).plan e = s.plan e)
    ∧ (s.delivered n i a b).admissions = s.admissions
    ∧ (∀ e : Dom, (s.delivered n i a b).admission e = s.admission e) ∧ (s.delivered n i a b).works = s.works
    ∧ (∀ e : Dom, (s.delivered n i a b).work e = s.work e) ∧ (s.delivered n i a b).channels = s.channels
    ∧ (∀ c' : Fin 4, (s.delivered n i a b).channel c' = s.channel c')
    ∧ (s.delivered n i a b).lastPicked = s.lastPicked ∧ (s.delivered n i a b).staging = s.staging
    ∧ (s.delivered n i a b).links = s.links ∧ (∀ e : Dom, (s.delivered n i a b).link e = s.link e)
    ∧ (s.delivered n i a b).journals = s.journals ∧ (∀ e : Dom, (s.delivered n i a b).journal e = s.journal e)
    ∧ (s.delivered n i a b).store = s.store ∧ (s.delivered n i a b).flash = s.flash
    ∧ (s.delivered n i a b).servicePort = s.servicePort ∧ (s.delivered n i a b).platformPorts = s.platformPorts
    ∧ (s.delivered n i a b).config = s.config ∧ (∀ e : Dom, (s.delivered n i a b).settings e = s.settings e)
    ∧ (∀ q : PortId, (s.delivered n i a b).port q = s.port q) := by
  unfold State.delivered; try dsimp only
  (repeat' split) <;> simp

@[simp] theorem State.readEnds_frame (s : State) (n : Num) (i o t c : Nat) (ps : List PageRead) :
    (s.readEnds n i o t c ps).1.pending = s.pending ∧ (s.readEnds n i o t c ps).1.freeCount = s.freeCount
    ∧ (s.readEnds n i o t c ps).1.partTime = s.partTime ∧ (s.readEnds n i o t c ps).1.startUp = s.startUp
    ∧ (s.readEnds n i o t c ps).1.restart = s.restart ∧ (s.readEnds n i o t c ps).1.powerGood = s.powerGood
    ∧ (s.readEnds n i o t c ps).1.domains = s.domains
    ∧ (∀ e : Dom, (s.readEnds n i o t c ps).1.domain e = s.domain e) ∧ (s.readEnds n i o t c ps).1.plans = s.plans
    ∧ (∀ e : Dom, (s.readEnds n i o t c ps).1.plan e = s.plan e)
    ∧ (s.readEnds n i o t c ps).1.admissions = s.admissions
    ∧ (∀ e : Dom, (s.readEnds n i o t c ps).1.admission e = s.admission e)
    ∧ (s.readEnds n i o t c ps).1.works = s.works ∧ (∀ e : Dom, (s.readEnds n i o t c ps).1.work e = s.work e)
    ∧ (s.readEnds n i o t c ps).1.channels = s.channels
    ∧ (∀ c' : Fin 4, (s.readEnds n i o t c ps).1.channel c' = s.channel c')
    ∧ (s.readEnds n i o t c ps).1.lastPicked = s.lastPicked ∧ (s.readEnds n i o t c ps).1.staging = s.staging
    ∧ (s.readEnds n i o t c ps).1.links = s.links ∧ (∀ e : Dom, (s.readEnds n i o t c ps).1.link e = s.link e)
    ∧ (s.readEnds n i o t c ps).1.journals = s.journals
    ∧ (∀ e : Dom, (s.readEnds n i o t c ps).1.journal e = s.journal e) ∧ (s.readEnds n i o t c ps).1.store = s.store
    ∧ (s.readEnds n i o t c ps).1.flash = s.flash ∧ (s.readEnds n i o t c ps).1.servicePort = s.servicePort
    ∧ (s.readEnds n i o t c ps).1.platformPorts = s.platformPorts ∧ (s.readEnds n i o t c ps).1.config = s.config
    ∧ (∀ e : Dom, (s.readEnds n i o t c ps).1.settings e = s.settings e)
    ∧ (∀ q : PortId, (s.readEnds n i o t c ps).1.port q = s.port q) := by
  unfold State.readEnds; try dsimp only
  (repeat' split) <;> simp

@[simp] theorem State.cursorPage_frame (s : State) (x : PageRead) :
    (s.cursorPage x).pending = s.pending ∧ (s.cursorPage x).freeCount = s.freeCount
    ∧ (s.cursorPage x).partTime = s.partTime ∧ (s.cursorPage x).startUp = s.startUp
    ∧ (s.cursorPage x).restart = s.restart ∧ (s.cursorPage x).powerGood = s.powerGood
    ∧ (s.cursorPage x).domains = s.domains ∧ (∀ e : Dom, (s.cursorPage x).domain e = s.domain e)
    ∧ (s.cursorPage x).plans = s.plans ∧ (∀ e : Dom, (s.cursorPage x).plan e = s.plan e)
    ∧ (s.cursorPage x).admissions = s.admissions ∧ (∀ e : Dom, (s.cursorPage x).admission e = s.admission e)
    ∧ (s.cursorPage x).works = s.works ∧ (∀ e : Dom, (s.cursorPage x).work e = s.work e)
    ∧ (s.cursorPage x).channels = s.channels ∧ (∀ c' : Fin 4, (s.cursorPage x).channel c' = s.channel c')
    ∧ (s.cursorPage x).lastPicked = s.lastPicked ∧ (s.cursorPage x).staging = s.staging
    ∧ (s.cursorPage x).links = s.links ∧ (∀ e : Dom, (s.cursorPage x).link e = s.link e)
    ∧ (s.cursorPage x).journals = s.journals ∧ (∀ e : Dom, (s.cursorPage x).journal e = s.journal e)
    ∧ (s.cursorPage x).store = s.store ∧ (s.cursorPage x).flash = s.flash ∧ (s.cursorPage x).config = s.config
    ∧ (∀ e : Dom, (s.cursorPage x).settings e = s.settings e) := by
  unfold State.cursorPage; try dsimp only
  (repeat' split) <;> simp

@[simp] theorem State.releaseDump_frame (s : State) (n : Num) :
    (s.releaseDump n).pending = s.pending ∧ (s.releaseDump n).freeCount = s.freeCount
    ∧ (s.releaseDump n).partTime = s.partTime ∧ (s.releaseDump n).startUp = s.startUp
    ∧ (s.releaseDump n).restart = s.restart ∧ (s.releaseDump n).powerGood = s.powerGood
    ∧ (s.releaseDump n).domains = s.domains ∧ (∀ e : Dom, (s.releaseDump n).domain e = s.domain e)
    ∧ (s.releaseDump n).plans = s.plans ∧ (∀ e : Dom, (s.releaseDump n).plan e = s.plan e)
    ∧ (s.releaseDump n).works = s.works ∧ (∀ e : Dom, (s.releaseDump n).work e = s.work e)
    ∧ (s.releaseDump n).channels = s.channels ∧ (∀ c' : Fin 4, (s.releaseDump n).channel c' = s.channel c')
    ∧ (s.releaseDump n).lastPicked = s.lastPicked ∧ (s.releaseDump n).staging = s.staging
    ∧ (s.releaseDump n).links = s.links ∧ (∀ e : Dom, (s.releaseDump n).link e = s.link e)
    ∧ (s.releaseDump n).journals = s.journals ∧ (∀ e : Dom, (s.releaseDump n).journal e = s.journal e)
    ∧ (s.releaseDump n).flash = s.flash ∧ (s.releaseDump n).servicePort = s.servicePort
    ∧ (s.releaseDump n).platformPorts = s.platformPorts ∧ (∀ q : PortId, (s.releaseDump n).port q = s.port q) := by
  unfold State.releaseDump; try dsimp only
  (repeat' split) <;> simp

@[simp] theorem State.drawn_frame (s : State) (n : Nat) :
    (s.drawn n).pending = s.pending ∧ (s.drawn n).partTime = s.partTime ∧ (s.drawn n).startUp = s.startUp
    ∧ (s.drawn n).restart = s.restart ∧ (s.drawn n).powerGood = s.powerGood ∧ (s.drawn n).domains = s.domains
    ∧ (∀ e : Dom, (s.drawn n).domain e = s.domain e) ∧ (s.drawn n).plans = s.plans
    ∧ (∀ e : Dom, (s.drawn n).plan e = s.plan e) ∧ (s.drawn n).admissions = s.admissions
    ∧ (∀ e : Dom, (s.drawn n).admission e = s.admission e) ∧ (s.drawn n).works = s.works
    ∧ (∀ e : Dom, (s.drawn n).work e = s.work e) ∧ (s.drawn n).channels = s.channels
    ∧ (∀ c' : Fin 4, (s.drawn n).channel c' = s.channel c') ∧ (s.drawn n).lastPicked = s.lastPicked
    ∧ (s.drawn n).staging = s.staging ∧ (s.drawn n).links = s.links ∧ (∀ e : Dom, (s.drawn n).link e = s.link e)
    ∧ (s.drawn n).journals = s.journals ∧ (∀ e : Dom, (s.drawn n).journal e = s.journal e)
    ∧ (s.drawn n).directory = s.directory ∧ (∀ m : Num, (s.drawn n).dump m = s.dump m) ∧ (s.drawn n).store = s.store
    ∧ (s.drawn n).flash = s.flash ∧ (s.drawn n).servicePort = s.servicePort
    ∧ (s.drawn n).platformPorts = s.platformPorts ∧ (s.drawn n).service = s.service ∧ (s.drawn n).config = s.config
    ∧ (∀ e : Dom, (s.drawn n).settings e = s.settings e) ∧ (∀ q : PortId, (s.drawn n).port q = s.port q) := by
  unfold State.drawn; try dsimp only
  (repeat' split) <;> simp

@[simp] theorem State.verifyEnds_frame (s : State) (v : Verify) (c : BitVec 32) :
    (s.verifyEnds v c).pending = s.pending ∧ (s.verifyEnds v c).partTime = s.partTime
    ∧ (s.verifyEnds v c).startUp = s.startUp ∧ (s.verifyEnds v c).restart = s.restart
    ∧ (s.verifyEnds v c).powerGood = s.powerGood ∧ (s.verifyEnds v c).domains = s.domains
    ∧ (∀ e : Dom, (s.verifyEnds v c).domain e = s.domain e) ∧ (s.verifyEnds v c).plans = s.plans
    ∧ (∀ e : Dom, (s.verifyEnds v c).plan e = s.plan e) ∧ (s.verifyEnds v c).admissions = s.admissions
    ∧ (∀ e : Dom, (s.verifyEnds v c).admission e = s.admission e) ∧ (s.verifyEnds v c).works = s.works
    ∧ (∀ e : Dom, (s.verifyEnds v c).work e = s.work e) ∧ (s.verifyEnds v c).channels = s.channels
    ∧ (∀ c' : Fin 4, (s.verifyEnds v c).channel c' = s.channel c') ∧ (s.verifyEnds v c).lastPicked = s.lastPicked
    ∧ (s.verifyEnds v c).staging = s.staging ∧ (s.verifyEnds v c).links = s.links
    ∧ (∀ e : Dom, (s.verifyEnds v c).link e = s.link e) ∧ (s.verifyEnds v c).journals = s.journals
    ∧ (∀ e : Dom, (s.verifyEnds v c).journal e = s.journal e) ∧ (s.verifyEnds v c).store = s.store
    ∧ (s.verifyEnds v c).flash = s.flash ∧ (s.verifyEnds v c).platformPorts = s.platformPorts
    ∧ (s.verifyEnds v c).config = s.config ∧ (∀ e : Dom, (s.verifyEnds v c).settings e = s.settings e)
    ∧ (∀ e : Dom, (s.verifyEnds v c).port (.platform e) = s.port (.platform e)) := by
  unfold State.verifyEnds; try dsimp only
  (repeat' split) <;> simp

@[simp] theorem State.verifyNext_frame (s : State) (v : Verify) :
    (s.verifyNext v).pending = s.pending ∧ (s.verifyNext v).partTime = s.partTime
    ∧ (s.verifyNext v).startUp = s.startUp ∧ (s.verifyNext v).restart = s.restart
    ∧ (s.verifyNext v).powerGood = s.powerGood ∧ (s.verifyNext v).domains = s.domains
    ∧ (∀ e : Dom, (s.verifyNext v).domain e = s.domain e) ∧ (s.verifyNext v).plans = s.plans
    ∧ (∀ e : Dom, (s.verifyNext v).plan e = s.plan e) ∧ (s.verifyNext v).admissions = s.admissions
    ∧ (∀ e : Dom, (s.verifyNext v).admission e = s.admission e) ∧ (s.verifyNext v).works = s.works
    ∧ (∀ e : Dom, (s.verifyNext v).work e = s.work e) ∧ (s.verifyNext v).channels = s.channels
    ∧ (∀ c' : Fin 4, (s.verifyNext v).channel c' = s.channel c') ∧ (s.verifyNext v).lastPicked = s.lastPicked
    ∧ (s.verifyNext v).staging = s.staging ∧ (s.verifyNext v).links = s.links
    ∧ (∀ e : Dom, (s.verifyNext v).link e = s.link e) ∧ (s.verifyNext v).journals = s.journals
    ∧ (∀ e : Dom, (s.verifyNext v).journal e = s.journal e) ∧ (s.verifyNext v).flash = s.flash
    ∧ (s.verifyNext v).platformPorts = s.platformPorts ∧ (s.verifyNext v).config = s.config
    ∧ (∀ e : Dom, (s.verifyNext v).settings e = s.settings e)
    ∧ (∀ e : Dom, (s.verifyNext v).port (.platform e) = s.port (.platform e)) := by
  unfold State.verifyNext; try dsimp only
  (repeat' split) <;> simp

@[simp] theorem State.verifyPage_frame (s : State) (x : Option (List Byte)) :
    (s.verifyPage x).pending = s.pending ∧ (s.verifyPage x).partTime = s.partTime
    ∧ (s.verifyPage x).startUp = s.startUp ∧ (s.verifyPage x).restart = s.restart
    ∧ (s.verifyPage x).powerGood = s.powerGood ∧ (s.verifyPage x).domains = s.domains
    ∧ (∀ e : Dom, (s.verifyPage x).domain e = s.domain e) ∧ (s.verifyPage x).plans = s.plans
    ∧ (∀ e : Dom, (s.verifyPage x).plan e = s.plan e) ∧ (s.verifyPage x).admissions = s.admissions
    ∧ (∀ e : Dom, (s.verifyPage x).admission e = s.admission e) ∧ (s.verifyPage x).works = s.works
    ∧ (∀ e : Dom, (s.verifyPage x).work e = s.work e) ∧ (s.verifyPage x).channels = s.channels
    ∧ (∀ c' : Fin 4, (s.verifyPage x).channel c' = s.channel c') ∧ (s.verifyPage x).lastPicked = s.lastPicked
    ∧ (s.verifyPage x).staging = s.staging ∧ (s.verifyPage x).links = s.links
    ∧ (∀ e : Dom, (s.verifyPage x).link e = s.link e) ∧ (s.verifyPage x).journals = s.journals
    ∧ (∀ e : Dom, (s.verifyPage x).journal e = s.journal e) ∧ (s.verifyPage x).flash = s.flash
    ∧ (s.verifyPage x).platformPorts = s.platformPorts ∧ (s.verifyPage x).config = s.config
    ∧ (∀ e : Dom, (s.verifyPage x).settings e = s.settings e)
    ∧ (∀ e : Dom, (s.verifyPage x).port (.platform e) = s.port (.platform e)) := by
  unfold State.verifyPage; try dsimp only
  (repeat' split) <;> simp

@[simp] theorem State.dropVerify_frame (s : State)  :
    s.dropVerify.pending = s.pending ∧ s.dropVerify.freeCount = s.freeCount ∧ s.dropVerify.partTime = s.partTime
    ∧ s.dropVerify.startUp = s.startUp ∧ s.dropVerify.restart = s.restart ∧ s.dropVerify.powerGood = s.powerGood
    ∧ s.dropVerify.domains = s.domains ∧ (∀ e : Dom, s.dropVerify.domain e = s.domain e)
    ∧ s.dropVerify.plans = s.plans ∧ (∀ e : Dom, s.dropVerify.plan e = s.plan e)
    ∧ s.dropVerify.admissions = s.admissions ∧ (∀ e : Dom, s.dropVerify.admission e = s.admission e)
    ∧ s.dropVerify.works = s.works ∧ (∀ e : Dom, s.dropVerify.work e = s.work e) ∧ s.dropVerify.channels = s.channels
    ∧ (∀ c' : Fin 4, s.dropVerify.channel c' = s.channel c') ∧ s.dropVerify.lastPicked = s.lastPicked
    ∧ s.dropVerify.staging = s.staging ∧ s.dropVerify.links = s.links ∧ (∀ e : Dom, s.dropVerify.link e = s.link e)
    ∧ s.dropVerify.journals = s.journals ∧ (∀ e : Dom, s.dropVerify.journal e = s.journal e)
    ∧ s.dropVerify.flash = s.flash ∧ s.dropVerify.servicePort = s.servicePort
    ∧ s.dropVerify.platformPorts = s.platformPorts ∧ s.dropVerify.service = s.service
    ∧ s.dropVerify.config = s.config ∧ (∀ e : Dom, s.dropVerify.settings e = s.settings e)
    ∧ (∀ q : PortId, s.dropVerify.port q = s.port q) := by
  unfold State.dropVerify; try dsimp only
  (repeat' split) <;> simp

@[simp] theorem State.answerSave_frame (s : State) (ok : Bool) :
    (s.answerSave ok).pending = s.pending ∧ (s.answerSave ok).freeCount = s.freeCount
    ∧ (s.answerSave ok).partTime = s.partTime ∧ (s.answerSave ok).startUp = s.startUp
    ∧ (s.answerSave ok).restart = s.restart ∧ (s.answerSave ok).powerGood = s.powerGood
    ∧ (s.answerSave ok).domains = s.domains ∧ (∀ e : Dom, (s.answerSave ok).domain e = s.domain e)
    ∧ (s.answerSave ok).plans = s.plans ∧ (∀ e : Dom, (s.answerSave ok).plan e = s.plan e)
    ∧ (s.answerSave ok).admissions = s.admissions ∧ (∀ e : Dom, (s.answerSave ok).admission e = s.admission e)
    ∧ (s.answerSave ok).works = s.works ∧ (∀ e : Dom, (s.answerSave ok).work e = s.work e)
    ∧ (s.answerSave ok).channels = s.channels ∧ (∀ c' : Fin 4, (s.answerSave ok).channel c' = s.channel c')
    ∧ (s.answerSave ok).lastPicked = s.lastPicked ∧ (s.answerSave ok).staging = s.staging
    ∧ (s.answerSave ok).links = s.links ∧ (∀ e : Dom, (s.answerSave ok).link e = s.link e)
    ∧ (s.answerSave ok).journals = s.journals ∧ (∀ e : Dom, (s.answerSave ok).journal e = s.journal e)
    ∧ (s.answerSave ok).directory = s.directory ∧ (∀ m : Num, (s.answerSave ok).dump m = s.dump m)
    ∧ (s.answerSave ok).store = s.store ∧ (s.answerSave ok).flash = s.flash ∧ (s.answerSave ok).config = s.config
    ∧ (∀ e : Dom, (s.answerSave ok).settings e = s.settings e) := by
  unfold State.answerSave; try dsimp only
  (repeat' split) <;> simp

@[simp] theorem State.afterProgram_frame (s : State) (k : PageKey) :
    (s.afterProgram k).pending = s.pending ∧ (s.afterProgram k).freeCount = s.freeCount
    ∧ (s.afterProgram k).partTime = s.partTime ∧ (s.afterProgram k).startUp = s.startUp
    ∧ (s.afterProgram k).restart = s.restart ∧ (s.afterProgram k).powerGood = s.powerGood
    ∧ (s.afterProgram k).plans = s.plans ∧ (∀ e : Dom, (s.afterProgram k).plan e = s.plan e)
    ∧ (s.afterProgram k).lastPicked = s.lastPicked ∧ (s.afterProgram k).flash = s.flash
    ∧ (s.afterProgram k).platformPorts = s.platformPorts ∧ (s.afterProgram k).config = s.config
    ∧ (∀ e : Dom, (s.afterProgram k).settings e = s.settings e)
    ∧ (∀ e : Dom, (s.afterProgram k).port (.platform e) = s.port (.platform e)) := by
  unfold State.afterProgram; try dsimp only
  (repeat' split) <;> simp

@[simp] theorem State.domainPowerFall_frame (s : State) (d : Dom) :
    (s.domainPowerFall d).pending = s.pending ∧ (s.domainPowerFall d).freeCount = s.freeCount
    ∧ (s.domainPowerFall d).partTime = s.partTime ∧ (s.domainPowerFall d).startUp = s.startUp
    ∧ (s.domainPowerFall d).restart = s.restart ∧ (s.domainPowerFall d).powerGood = s.powerGood
    ∧ (s.domainPowerFall d).plans = s.plans ∧ (∀ e : Dom, (s.domainPowerFall d).plan e = s.plan e)
    ∧ (s.domainPowerFall d).works = s.works ∧ (∀ e : Dom, (s.domainPowerFall d).work e = s.work e)
    ∧ (s.domainPowerFall d).lastPicked = s.lastPicked ∧ (s.domainPowerFall d).journals = s.journals
    ∧ (∀ e : Dom, (s.domainPowerFall d).journal e = s.journal e) ∧ (s.domainPowerFall d).flash = s.flash
    ∧ (s.domainPowerFall d).servicePort = s.servicePort ∧ (s.domainPowerFall d).platformPorts = s.platformPorts
    ∧ (s.domainPowerFall d).service = s.service ∧ (s.domainPowerFall d).config = s.config
    ∧ (∀ e : Dom, (s.domainPowerFall d).settings e = s.settings e)
    ∧ (∀ q : PortId, (s.domainPowerFall d).port q = s.port q) := by
  unfold State.domainPowerFall; try dsimp only
  (repeat' split) <;> simp

@[simp] theorem State.armAtEnd_frame (s : State) (d : Dom) :
    (s.armAtEnd d).pending = s.pending ∧ (s.armAtEnd d).freeCount = s.freeCount
    ∧ (s.armAtEnd d).partTime = s.partTime ∧ (s.armAtEnd d).startUp = s.startUp ∧ (s.armAtEnd d).restart = s.restart
    ∧ (s.armAtEnd d).powerGood = s.powerGood ∧ (s.armAtEnd d).plans = s.plans
    ∧ (∀ e : Dom, (s.armAtEnd d).plan e = s.plan e) ∧ (s.armAtEnd d).admissions = s.admissions
    ∧ (∀ e : Dom, (s.armAtEnd d).admission e = s.admission e) ∧ (s.armAtEnd d).works = s.works
    ∧ (∀ e : Dom, (s.armAtEnd d).work e = s.work e) ∧ (s.armAtEnd d).channels = s.channels
    ∧ (∀ c' : Fin 4, (s.armAtEnd d).channel c' = s.channel c') ∧ (s.armAtEnd d).lastPicked = s.lastPicked
    ∧ (s.armAtEnd d).staging = s.staging ∧ (s.armAtEnd d).journals = s.journals
    ∧ (∀ e : Dom, (s.armAtEnd d).journal e = s.journal e) ∧ (s.armAtEnd d).directory = s.directory
    ∧ (∀ m : Num, (s.armAtEnd d).dump m = s.dump m) ∧ (s.armAtEnd d).store = s.store ∧ (s.armAtEnd d).flash = s.flash
    ∧ (s.armAtEnd d).servicePort = s.servicePort ∧ (s.armAtEnd d).platformPorts = s.platformPorts
    ∧ (s.armAtEnd d).service = s.service ∧ (s.armAtEnd d).config = s.config
    ∧ (∀ e : Dom, (s.armAtEnd d).settings e = s.settings e) ∧ (∀ q : PortId, (s.armAtEnd d).port q = s.port q) := by
  unfold State.armAtEnd; try dsimp only
  (repeat' split) <;> simp

@[simp] theorem State.domainRestart_frame (s : State) (d : Dom) :
    (s.domainRestart d).pending = s.pending ∧ (s.domainRestart d).freeCount = s.freeCount
    ∧ (s.domainRestart d).partTime = s.partTime ∧ (s.domainRestart d).startUp = s.startUp
    ∧ (s.domainRestart d).restart = s.restart ∧ (s.domainRestart d).powerGood = s.powerGood
    ∧ (s.domainRestart d).plans = s.plans ∧ (∀ e : Dom, (s.domainRestart d).plan e = s.plan e)
    ∧ (s.domainRestart d).admissions = s.admissions ∧ (∀ e : Dom, (s.domainRestart d).admission e = s.admission e)
    ∧ (s.domainRestart d).works = s.works ∧ (∀ e : Dom, (s.domainRestart d).work e = s.work e)
    ∧ (s.domainRestart d).channels = s.channels ∧ (∀ c' : Fin 4, (s.domainRestart d).channel c' = s.channel c')
    ∧ (s.domainRestart d).lastPicked = s.lastPicked ∧ (s.domainRestart d).staging = s.staging
    ∧ (s.domainRestart d).journals = s.journals ∧ (∀ e : Dom, (s.domainRestart d).journal e = s.journal e)
    ∧ (s.domainRestart d).directory = s.directory ∧ (∀ m : Num, (s.domainRestart d).dump m = s.dump m)
    ∧ (s.domainRestart d).store = s.store ∧ (s.domainRestart d).flash = s.flash
    ∧ (s.domainRestart d).servicePort = s.servicePort ∧ (s.domainRestart d).platformPorts = s.platformPorts
    ∧ (s.domainRestart d).service = s.service ∧ (s.domainRestart d).config = s.config
    ∧ (∀ e : Dom, (s.domainRestart d).settings e = s.settings e)
    ∧ (∀ q : PortId, (s.domainRestart d).port q = s.port q) := by
  unfold State.domainRestart; try dsimp only
  (repeat' split) <;> simp

@[simp] theorem State.applySlots_frame (s : State) (x : Option Image) :
    (s.applySlots x).pending = s.pending ∧ (s.applySlots x).freeCount = s.freeCount
    ∧ (s.applySlots x).partTime = s.partTime ∧ (s.applySlots x).startUp = s.startUp
    ∧ (s.applySlots x).restart = s.restart ∧ (s.applySlots x).powerGood = s.powerGood
    ∧ (s.applySlots x).domains = s.domains ∧ (∀ e : Dom, (s.applySlots x).domain e = s.domain e)
    ∧ (s.applySlots x).plans = s.plans ∧ (∀ e : Dom, (s.applySlots x).plan e = s.plan e)
    ∧ (s.applySlots x).admissions = s.admissions ∧ (∀ e : Dom, (s.applySlots x).admission e = s.admission e)
    ∧ (s.applySlots x).works = s.works ∧ (∀ e : Dom, (s.applySlots x).work e = s.work e)
    ∧ (s.applySlots x).channels = s.channels ∧ (∀ c' : Fin 4, (s.applySlots x).channel c' = s.channel c')
    ∧ (s.applySlots x).lastPicked = s.lastPicked ∧ (s.applySlots x).staging = s.staging
    ∧ (s.applySlots x).links = s.links ∧ (∀ e : Dom, (s.applySlots x).link e = s.link e)
    ∧ (s.applySlots x).directory = s.directory ∧ (∀ m : Num, (s.applySlots x).dump m = s.dump m)
    ∧ (s.applySlots x).store = s.store ∧ (s.applySlots x).flash = s.flash
    ∧ (s.applySlots x).servicePort = s.servicePort ∧ (s.applySlots x).platformPorts = s.platformPorts
    ∧ (s.applySlots x).service = s.service ∧ (s.applySlots x).config = s.config
    ∧ (∀ e : Dom, (s.applySlots x).settings e = s.settings e) ∧ (∀ q : PortId, (s.applySlots x).port q = s.port q) := by
  unfold State.applySlots; try dsimp only
  (repeat' split) <;> simp

@[simp] theorem State.peerHolds_frame (s : State) (p : PortId) (bs : List Byte) :
    (s.peerHolds p bs).pending = s.pending ∧ (s.peerHolds p bs).freeCount = s.freeCount
    ∧ (s.peerHolds p bs).partTime = s.partTime ∧ (s.peerHolds p bs).startUp = s.startUp
    ∧ (s.peerHolds p bs).restart = s.restart ∧ (s.peerHolds p bs).powerGood = s.powerGood
    ∧ (s.peerHolds p bs).domains = s.domains ∧ (∀ e : Dom, (s.peerHolds p bs).domain e = s.domain e)
    ∧ (s.peerHolds p bs).plans = s.plans ∧ (∀ e : Dom, (s.peerHolds p bs).plan e = s.plan e)
    ∧ (s.peerHolds p bs).admissions = s.admissions ∧ (∀ e : Dom, (s.peerHolds p bs).admission e = s.admission e)
    ∧ (s.peerHolds p bs).works = s.works ∧ (∀ e : Dom, (s.peerHolds p bs).work e = s.work e)
    ∧ (s.peerHolds p bs).channels = s.channels ∧ (∀ c' : Fin 4, (s.peerHolds p bs).channel c' = s.channel c')
    ∧ (s.peerHolds p bs).lastPicked = s.lastPicked ∧ (s.peerHolds p bs).staging = s.staging
    ∧ (s.peerHolds p bs).links = s.links ∧ (∀ e : Dom, (s.peerHolds p bs).link e = s.link e)
    ∧ (s.peerHolds p bs).journals = s.journals ∧ (∀ e : Dom, (s.peerHolds p bs).journal e = s.journal e)
    ∧ (s.peerHolds p bs).directory = s.directory ∧ (∀ m : Num, (s.peerHolds p bs).dump m = s.dump m)
    ∧ (s.peerHolds p bs).store = s.store ∧ (s.peerHolds p bs).flash = s.flash
    ∧ (s.peerHolds p bs).service = s.service ∧ (s.peerHolds p bs).config = s.config
    ∧ (∀ e : Dom, (s.peerHolds p bs).settings e = s.settings e) := by
  unfold State.peerHolds; try dsimp only
  (repeat' split) <;> simp

@[simp] theorem State.goodFrame_frame (s : State) (p : PortId) (f : Frame) :
    (s.goodFrame p f).pending = s.pending ∧ (s.goodFrame p f).freeCount = s.freeCount
    ∧ (s.goodFrame p f).partTime = s.partTime ∧ (s.goodFrame p f).startUp = s.startUp
    ∧ (s.goodFrame p f).restart = s.restart ∧ (s.goodFrame p f).powerGood = s.powerGood
    ∧ (s.goodFrame p f).domains = s.domains ∧ (∀ e : Dom, (s.goodFrame p f).domain e = s.domain e)
    ∧ (s.goodFrame p f).plans = s.plans ∧ (∀ e : Dom, (s.goodFrame p f).plan e = s.plan e)
    ∧ (s.goodFrame p f).admissions = s.admissions ∧ (∀ e : Dom, (s.goodFrame p f).admission e = s.admission e)
    ∧ (s.goodFrame p f).works = s.works ∧ (∀ e : Dom, (s.goodFrame p f).work e = s.work e)
    ∧ (s.goodFrame p f).channels = s.channels ∧ (∀ c' : Fin 4, (s.goodFrame p f).channel c' = s.channel c')
    ∧ (s.goodFrame p f).lastPicked = s.lastPicked ∧ (s.goodFrame p f).staging = s.staging
    ∧ (s.goodFrame p f).links = s.links ∧ (∀ e : Dom, (s.goodFrame p f).link e = s.link e)
    ∧ (s.goodFrame p f).journals = s.journals ∧ (∀ e : Dom, (s.goodFrame p f).journal e = s.journal e)
    ∧ (s.goodFrame p f).directory = s.directory ∧ (∀ m : Num, (s.goodFrame p f).dump m = s.dump m)
    ∧ (s.goodFrame p f).store = s.store ∧ (s.goodFrame p f).flash = s.flash ∧ (s.goodFrame p f).config = s.config
    ∧ (∀ e : Dom, (s.goodFrame p f).settings e = s.settings e) := by
  unfold State.goodFrame; try dsimp only
  (repeat' split) <;> simp

@[simp] theorem State.refuse_frame (s : State) (p : PortId) (f : Frame) (b : Byte) :
    (s.refuse p f b).pending = s.pending ∧ (s.refuse p f b).freeCount = s.freeCount
    ∧ (s.refuse p f b).partTime = s.partTime ∧ (s.refuse p f b).startUp = s.startUp
    ∧ (s.refuse p f b).restart = s.restart ∧ (s.refuse p f b).powerGood = s.powerGood
    ∧ (s.refuse p f b).plans = s.plans ∧ (∀ e : Dom, (s.refuse p f b).plan e = s.plan e)
    ∧ (s.refuse p f b).admissions = s.admissions ∧ (∀ e : Dom, (s.refuse p f b).admission e = s.admission e)
    ∧ (s.refuse p f b).works = s.works ∧ (∀ e : Dom, (s.refuse p f b).work e = s.work e)
    ∧ (s.refuse p f b).channels = s.channels ∧ (∀ c' : Fin 4, (s.refuse p f b).channel c' = s.channel c')
    ∧ (s.refuse p f b).lastPicked = s.lastPicked ∧ (s.refuse p f b).staging = s.staging
    ∧ (s.refuse p f b).links = s.links ∧ (∀ e : Dom, (s.refuse p f b).link e = s.link e)
    ∧ (s.refuse p f b).journals = s.journals ∧ (∀ e : Dom, (s.refuse p f b).journal e = s.journal e)
    ∧ (s.refuse p f b).directory = s.directory ∧ (∀ m : Num, (s.refuse p f b).dump m = s.dump m)
    ∧ (s.refuse p f b).store = s.store ∧ (s.refuse p f b).flash = s.flash ∧ (s.refuse p f b).config = s.config
    ∧ (∀ e : Dom, (s.refuse p f b).settings e = s.settings e) := by
  unfold State.refuse; try dsimp only
  (repeat' split) <;> simp

@[simp] theorem State.worked_frame (s : State) (x : Disposition) :
    (s.worked x).pending = s.pending ∧ (s.worked x).freeCount = s.freeCount ∧ (s.worked x).partTime = s.partTime
    ∧ (s.worked x).startUp = s.startUp ∧ (s.worked x).restart = s.restart ∧ (s.worked x).powerGood = s.powerGood
    ∧ (s.worked x).plans = s.plans ∧ (∀ e : Dom, (s.worked x).plan e = s.plan e) ∧ (s.worked x).flash = s.flash
    ∧ (s.worked x).platformPorts = s.platformPorts ∧ (s.worked x).config = s.config
    ∧ (∀ e : Dom, (s.worked x).settings e = s.settings e)
    ∧ (∀ e : Dom, (s.worked x).port (.platform e) = s.port (.platform e)) := by
  unfold State.worked; try dsimp only
  (repeat' split) <;> simp

end Sys2Proof.Machine
end

