-- ==== Sys2Proof/Laws/Flash.lean ====
section
/-! SUPPORT. The flash array (R143): what a page reads after each operation, and that each keeps the canonical form. -/
namespace Sys2Proof.Machine

/-! ### Reading a page -/

@[simp] theorem Flash.page_nil (a : Nat) : Flash.page [] a = none := rfl

/-- A page reads absent when the array lists no such page. -/
theorem Flash.page_eq_none_of_ne (f : Flash) (a : Nat) (h : ∀ e ∈ f, e.1 ≠ a) : f.page a = none := by
  induction f with
  | nil => rfl
  | cons e rest ih =>
    obtain ⟨k, p⟩ := e
    have hk : k ≠ a := h (k, p) (by simp)
    simp only [Flash.page, if_neg hk]
    exact ih fun x hx => h x (by simp [hx])

/-- A page that reads as something is listed. -/
theorem Flash.mem_of_page (f : Flash) (a : Nat) (p : ArrayPage) (h : f.page a = some p) : (a, p) ∈ f := by
  induction f with
  | nil => simp at h
  | cons e rest ih =>
    obtain ⟨k, q⟩ := e
    simp only [Flash.page] at h
    split at h
    · next hk => cases h; subst hk; simp
    · exact List.mem_cons_of_mem _ (ih h)

/-- A page set reads as set, and every other page as before (read after write). -/
theorem Flash.page_put (f : Flash) (a b : Nat) (p : ArrayPage) :
    (f.put a p).page b = if b = a then some p else f.page b := by
  induction f with
  | nil => simp only [Flash.put, Flash.page, eq_comm (a := a)]
  | cons e rest ih =>
    obtain ⟨k, q⟩ := e
    simp only [Flash.put]
    by_cases h1 : a < k
    · simp only [if_pos h1, Flash.page, eq_comm (a := a)]
    · by_cases h2 : a = k
      · subst h2
        simp only [if_neg h1, if_true, Flash.page]
        by_cases hb : a = b
        · simp [hb]
        · simp [hb, Ne.symm hb]
      · simp only [if_neg h1, if_neg h2, Flash.page, ih]
        by_cases hb : k = b
        · subst hb; simp [Ne.symm h2]
        · simp [hb]

/-- Every page of an erased block reads erased, and every other page as before. -/
theorem Flash.page_eraseBlock (f : Flash) (b a : Nat) :
    (f.eraseBlock b).page a = if a / 128 = b then none else f.page a := by
  induction f with
  | nil => simp [Flash.eraseBlock]
  | cons e rest ih =>
    obtain ⟨k, q⟩ := e
    simp only [Flash.eraseBlock, List.filter_cons, Config.blockPages] at ih ⊢
    by_cases hk : k / 128 = b
    · simp only [hk, ne_eq, not_true_eq_false, decide_false, Bool.false_eq_true, if_false]
      rw [ih]
      by_cases ha : k = a
      · subst ha; simp [hk]
      · simp [Flash.page, ha]
    · simp only [ne_eq, hk, not_false_eq_true, decide_true, if_true, Flash.page]
      rw [ih]
      by_cases ha : k = a
      · subst ha; simp [hk]
      · simp [ha]

/-- A walk over page offsets that sets some of them to one value. -/
theorem Flash.page_foldl_put (l : List Nat) (f : Flash) (base a : Nat) (keep : Nat → Bool) (p : ArrayPage) :
    (l.foldl (fun g i => if keep i then g else g.put (base + i) p) f).page a
      = if ∃ i ∈ l, keep i = false ∧ a = base + i then some p else f.page a := by
  induction l generalizing f with
  | nil => simp
  | cons i l ih =>
    simp only [List.foldl_cons, ih]
    by_cases h : ∃ j ∈ l, keep j = false ∧ a = base + j
    · simp [h]
    · simp only [h, if_false, List.exists_mem_cons_iff, or_false]
      cases hk : keep i
      · simp [Flash.page_put]
      · simp

/-- Every page of a spoiled block reads unreadable, and every other page as before. -/
theorem Flash.page_spoilBlock (f : Flash) (b a : Nat) :
    (f.spoilBlock b).page a = if a / 128 = b then some .unreadable else f.page a := by
  have h := Flash.page_foldl_put (List.range 128) f (b * 128) a (fun _ => false) .unreadable
  simp only [Bool.false_eq_true, if_false] at h
  simp only [Flash.spoilBlock, Config.blockPages, h, List.mem_range]
  by_cases hb : a / 128 = b
  · have : ∃ i, i < 128 ∧ True ∧ a = b * 128 + i := ⟨a % 128, Nat.mod_lt _ (by omega), trivial, by omega⟩
    simp only [hb, if_true]
    rw [if_pos (by simpa using this)]
  · rw [if_neg, if_neg hb]
    rintro ⟨i, hi, -, rfl⟩
    omega

/-- What a cut erase leaves of each page: in its block erased or unreadable, elsewhere as before. -/
theorem Flash.page_cutErase_eq (f : Flash) (b seed a : Nat) :
    (f.cutErase b seed).page a = if a / 128 = b then (if cutKeepsErased seed (a % 128) then none else some .unreadable)
      else f.page a := by
  have hw := Flash.page_foldl_put (List.range 128) (f.eraseBlock b) (b * 128) a (cutKeepsErased seed) .unreadable
  simp only [Flash.cutErase, Config.blockPages] at hw ⊢
  rw [hw, Flash.page_eraseBlock]
  by_cases hb : a / 128 = b
  · simp only [if_pos hb, List.mem_range]
    have hi : (∃ i, i < 128 ∧ cutKeepsErased seed i = false ∧ a = b * 128 + i)
        ↔ cutKeepsErased seed (a % 128) = false := by
      refine ⟨fun ⟨i, hi, hk, ha⟩ => ?_, fun hk => ⟨a % 128, Nat.mod_lt _ (by omega), hk, by omega⟩⟩
      rwa [show a % 128 = i by omega]
    simp only [hi]
    cases cutKeepsErased seed (a % 128) <;> simp
  · rw [if_neg, if_neg hb, if_neg hb]
    rintro ⟨i, hi, -, rfl⟩
    rw [List.mem_range] at hi
    omega

/-- A cut erase touches no page of another block. -/
theorem Flash.page_cutErase (f : Flash) (b seed a : Nat) (h : a / 128 ≠ b) :
    (f.cutErase b seed).page a = f.page a := by
  rw [Flash.page_cutErase_eq, if_neg h]

/-- A cut erase leaves a page of its block unreadable (R150). -/
theorem Flash.cutErase_spoils (f : Flash) (b seed : Nat) :
    ∃ a, a / 128 = b ∧ (f.cutErase b seed).page a = some .unreadable := by
  have hs := (Config.cutPageSpoiled seed).isLt
  refine ⟨b * 128 + (Config.cutPageSpoiled seed).val, by omega, ?_⟩
  rw [Flash.page_cutErase_eq, if_pos (by omega), show (b * 128 + (Config.cutPageSpoiled seed).val) % 128
    = (Config.cutPageSpoiled seed).val by omega]
  simp [cutKeepsErased]

/-- A page that no cut program aims at and no cut erase's block holds is kept through a hard reset. -/
theorem Flash.page_cutAll (ops : List (Option StoreOp)) (f : Flash) (seed a : Nat)
    (h : ∀ o ∈ ops, (∀ item, o ≠ some (.program item a)) ∧ ∀ w, o ≠ some (.erase (a / 128) w)) :
    (f.cutAll seed ops).page a = f.page a := by
  induction ops generalizing f seed with
  | nil => rfl
  | cons o os ih =>
    obtain ⟨hp, he⟩ := h o (by simp)
    rw [Flash.cutAll, ih _ _ fun x hx => h x (by simp [hx])]
    cases o with
    | none => rfl
    | some op =>
      cases op with
      | program item b =>
        rw [Flash.cut, Flash.page_put, if_neg]
        rintro rfl
        exact hp item rfl
      | read r b => rfl
      | erase b w =>
        rw [Flash.cut, Flash.page_cutErase]
        rintro rfl
        exact he w rfl

/-! ### The canonical form -/

/-- The canonical form, said by its two halves. -/
theorem Flash.wf_iff (f : Flash) :
    f.wf = true ↔ f.Pairwise (fun x y => x.1 < y.1) ∧ ∀ e ∈ f, e.2.trimmed = true := by
  simp [Flash.wf]

theorem Flash.mem_put (f : Flash) (a : Nat) (p : ArrayPage) (e : Nat × ArrayPage) (h : e ∈ f.put a p) :
    e = (a, p) ∨ e ∈ f := by
  induction f with
  | nil => simpa [Flash.put] using h
  | cons x rest ih =>
    obtain ⟨k, q⟩ := x
    simp only [Flash.put] at h
    split at h
    · simpa using h
    · split at h
      · rcases List.mem_cons.1 h with h | h
        · exact .inl h
        · exact .inr (List.mem_cons_of_mem _ h)
      · rcases List.mem_cons.1 h with h | h
        · exact .inr (by simp [h])
        · rcases ih h with h | h
          · exact .inl h
          · exact .inr (List.mem_cons_of_mem _ h)

/-- Setting a page keeps the canonical form, if its bytes are in their one form. -/
theorem Flash.put_wf (f : Flash) (a : Nat) (p : ArrayPage) (hf : f.wf = true) (hp : p.trimmed = true) :
    (f.put a p).wf = true := by
  rw [Flash.wf_iff] at hf ⊢
  obtain ⟨hs, ht⟩ := hf
  refine ⟨?_, fun e he => ?_⟩
  · clear ht
    induction f with
    | nil => simp [Flash.put]
    | cons x rest ih =>
      obtain ⟨k, q⟩ := x
      rw [List.pairwise_cons] at hs
      simp only [Flash.put]
      split
      · next hk =>
        refine List.pairwise_cons.2 ⟨fun e he => ?_, List.pairwise_cons.2 hs⟩
        rcases List.mem_cons.1 he with rfl | he
        · exact hk
        · exact lt_trans hk (hs.1 e he)
      · split
        · next hk => subst hk; exact List.pairwise_cons.2 hs
        · next h1 h2 =>
          refine List.pairwise_cons.2 ⟨fun e he => ?_, ih hs.2⟩
          rcases Flash.mem_put _ _ _ _ he with rfl | he
          · show k < a
            omega
          · exact hs.1 e he
  · rcases Flash.mem_put _ _ _ _ he with rfl | he
    · exact hp
    · exact ht e he

theorem Flash.filter_wf (f : Flash) (keep : Nat × ArrayPage → Bool) (hf : f.wf = true) :
    Flash.wf (f.filter keep) = true := by
  rw [Flash.wf_iff] at hf ⊢
  exact ⟨hf.1.filter _, fun e he => hf.2 e (List.mem_filter.1 he).1⟩

theorem Flash.eraseBlock_wf (f : Flash) (b : Nat) (hf : f.wf = true) : (f.eraseBlock b).wf = true :=
  Flash.filter_wf f _ hf

theorem Flash.foldl_put_wf (l : List Nat) (f : Flash) (base : Nat) (keep : Nat → Bool) (hf : f.wf = true) :
    Flash.wf (l.foldl (fun g i => if keep i then g else g.put (base + i) .unreadable) f) = true := by
  induction l generalizing f with
  | nil => exact hf
  | cons i l ih =>
    simp only [List.foldl_cons]
    apply ih
    split
    · exact hf
    · exact Flash.put_wf _ _ _ hf rfl

theorem Flash.spoilBlock_wf (f : Flash) (b : Nat) (hf : f.wf = true) : (f.spoilBlock b).wf = true := by
  have h := Flash.foldl_put_wf (List.range 128) f (b * 128) (fun _ => false) hf
  simpa [Flash.spoilBlock, Config.blockPages] using h

theorem Flash.cutErase_wf (f : Flash) (b seed : Nat) (hf : f.wf = true) : (f.cutErase b seed).wf = true :=
  Flash.foldl_put_wf (List.range 128) _ (b * 128) (cutKeepsErased seed)
    (Flash.eraseBlock_wf f b hf)

theorem Flash.cut_wf (f : Flash) (seed : Nat) (o : Option StoreOp) (hf : f.wf = true) : (f.cut seed o).wf = true := by
  cases o with
  | none => exact hf
  | some op =>
    cases op with
    | program item a => exact Flash.put_wf _ _ _ hf rfl
    | read r a => exact hf
    | erase b w => exact Flash.cutErase_wf _ _ _ hf

theorem Flash.cutAll_wf (ops : List (Option StoreOp)) (f : Flash) (seed : Nat) (hf : f.wf = true) :
    (f.cutAll seed ops).wf = true := by
  induction ops generalizing f seed with
  | nil => exact hf
  | cons o os ih => exact ih _ _ (Flash.cut_wf _ _ _ hf)

/-- Dropping trailing zero bytes twice is dropping them once: the bytes a program writes are in their one form. -/
theorem trimZeros_trimZeros (bs : List Byte) : trimZeros (trimZeros bs) = trimZeros bs := by
  induction bs with
  | nil => rfl
  | cons b bs ih =>
    simp only [trimZeros]
    cases h : trimZeros bs with
    | nil => by_cases hb : b = 0#8 <;> simp [hb, trimZeros]
    | cons c cs =>
      rw [h] at ih
      simp [trimZeros] at ih ⊢
      rw [ih]

/-- The array after reset is in the canonical form. -/
theorem State.reset_flash_wf : State.reset.flash.wf = true := rfl

end Sys2Proof.Machine
end

