-- ==== Sys2Proof/Laws/OwnStore.lean ====
section
/-! SUPPORT. What the device's own work leaves of the staging buffer's count, the store's lists and the Service Port. -/

set_option linter.unusedSimpArgs false
set_option linter.unusedTactic false
set_option linter.unreachableTactic false
set_option linter.unnecessarySeqFocus false

namespace Sys2Proof.Machine

/-! ### The staging buffer (R64) -/

@[simp] theorem State.channelShort_count (s : State) (c : Fin 4) (k : SectionCause) :
    (s.channelShort c k).staging.pages.length = s.staging.pages.length := by
  unfold State.channelShort; dsimp only; split <;> simp

theorem channelsShort_count (n : Num) (k : SectionCause) (l : List (Fin 4)) (s : State) :
    (List.foldl (fun t c => if (t.channel c).endsWith n then t.channelShort c k else t) s l).staging.pages.length
      = s.staging.pages.length := by
  induction l generalizing s with
  | nil => rfl
  | cons c l ih => simp only [List.foldl_cons]; split <;> simp [ih]

@[simp] theorem State.endSections_count (s : State) (d : Dom) (n : Num) (k : SectionCause) :
    (s.endSections d n k).staging.pages.length = s.staging.pages.length := by
  unfold State.endSections; dsimp only; split <;> simp [channelsShort_count]

@[simp] theorem State.enterClosing_count (s : State) (d : Dom) (k : EndCause) :
    (s.enterClosing d k).staging.pages.length = s.staging.pages.length := by
  unfold State.enterClosing; try dsimp only
  (repeat' split) <;> simp

@[simp] theorem State.endHarvest_count (s : State) (d : Dom) (k : EndCause) :
    (s.endHarvest d k).staging.pages.length = s.staging.pages.length := by
  unfold State.endHarvest; try dsimp only
  (repeat' split) <;> simp

@[simp] theorem State.completionTest_count (s : State) (d : Dom) :
    (s.completionTest d).staging.pages.length = s.staging.pages.length := by
  unfold State.completionTest; try dsimp only
  (repeat' split) <;> simp

@[simp] theorem State.headerProgrammed_count (s : State) (d : Dom) :
    (s.headerProgrammed d).staging.pages.length = s.staging.pages.length := by
  unfold State.headerProgrammed; try dsimp only
  (repeat' split) <;> simp

@[simp] theorem State.sectionEnded_count (s : State) (d : Dom) (n : Num) (i : Nat) :
    (s.sectionEnded d n i).staging.pages.length = s.staging.pages.length := by
  unfold State.sectionEnded; try dsimp only
  (repeat' split) <;> simp

@[simp] theorem State.headerGiven_count (s : State) (c : Fin 4) :
    (s.headerGiven c).staging.pages.length = s.staging.pages.length := by
  unfold State.headerGiven; try dsimp only
  (repeat' split) <;> simp

@[simp] theorem State.placeBytes_count (s : State) (j : Job) (o : Nat) (bs : List Byte) :
    (s.placeBytes j o bs).staging.pages.length = s.staging.pages.length := by
  unfold State.placeBytes; dsimp only; split <;> simp [Staging.updData]

@[simp] theorem State.endClean_count (s : State) (c : Fin 4) (j : Job) (r : HandRead) (bs : List Byte) :
    (s.endClean c j r bs).staging.pages.length = s.staging.pages.length := by
  unfold State.endClean; try dsimp only
  (repeat' split) <;> simp

@[simp] theorem State.endHole_count (s : State) (c : Fin 4) (j : Job) (r : HandRead) (h : HoleCause) (bs : List Byte) :
    (s.endHole c j r h bs).staging.pages.length = s.staging.pages.length := by
  unfold State.endHole; try dsimp only
  (repeat' split) <;> simp

@[simp] theorem State.failedIssue_count (s : State) (c : Fin 4) (j : Job) (r : HandRead) (h : HoleCause) (bs : List Byte) :
    (s.failedIssue c j r h bs).staging.pages.length = s.staging.pages.length := by
  unfold State.failedIssue; try dsimp only
  (repeat' split) <;> simp

@[simp] theorem State.disconnected_count (s : State) (c : Fin 4) (j : Job) (r : HandRead) (bs : List Byte) :
    (s.disconnected c j r bs).staging.pages.length = s.staging.pages.length := by
  unfold State.disconnected; try dsimp only
  (repeat' split) <;> simp

@[simp] theorem State.takeOutcome_count (s : State) (c : Fin 4) (j : Job) (r : HandRead) (o : ReadOutcome) :
    (s.takeOutcome c j r o).staging.pages.length = s.staging.pages.length := by
  unfold State.takeOutcome; split <;> simp

@[simp] theorem State.takeLastOutcome_count (s : State) (c : Fin 4) (j : Job) (r : HandRead) (o : ReadOutcome) :
    (s.takeLastOutcome c j r o).staging.pages.length = s.staging.pages.length := by
  unfold State.takeLastOutcome; cases o <;> simp

@[simp] theorem State.afterOutcome_count (s : State) (c : Fin 4) (j : Job) :
    (s.afterOutcome c j).staging.pages.length = s.staging.pages.length := by
  unfold State.afterOutcome; try dsimp only
  (repeat' split) <;> simp

@[simp] theorem State.deliver_count (s : State) (c : Fin 4) (a : Nat) (o : ReadOutcome) :
    (s.deliver c a o).staging.pages.length = s.staging.pages.length := by
  unfold State.deliver; try dsimp only
  (repeat' split) <;> simp

@[simp] theorem State.dropOutstanding_count (s : State) (d : Dom) (o : ReadOutcome) (i : Fin 2) :
    (s.dropOutstanding d o i).staging.pages.length = s.staging.pages.length := by
  unfold State.dropOutstanding; try dsimp only
  (repeat' split) <;> simp

@[simp] theorem State.dropAll_count (s : State) (d : Dom) (o : ReadOutcome) :
    (s.dropAll d o).staging.pages.length = s.staging.pages.length := by
  unfold State.dropAll; try dsimp only
  (repeat' split) <;> simp

@[simp] theorem State.retrain_count (s : State) (d : Dom) (m : Mode) :
    (s.retrain d m).staging.pages.length = s.staging.pages.length := by
  unfold State.retrain; try dsimp only
  (repeat' split) <;> simp

@[simp] theorem State.downshift_count (s : State) (d : Dom) (x y : Mode) :
    (s.downshift d x y).staging.pages.length = s.staging.pages.length := by
  unfold State.downshift; try dsimp only
  (repeat' split) <;> simp

@[simp] theorem State.parityCounted_count (s : State) (d : Dom) :
    (s.parityCounted d).staging.pages.length = s.staging.pages.length := by
  unfold State.parityCounted; try dsimp only
  (repeat' split) <;> simp

@[simp] theorem State.endRead_count (s : State) (d : Dom) (i : Fin 2) (r : LinkRead) (o : ReadOutcome) :
    (s.endRead d i r o).staging.pages.length = s.staging.pages.length := by
  unfold State.endRead; cases o <;> simp

@[simp] theorem State.passData_count (s : State) (c : Fin 4) (j : Job) (p u : Nat) :
    (s.passData c j p u).staging.pages.length = s.staging.pages.length := by
  unfold State.passData; try dsimp only
  (repeat' split) <;> simp

@[simp] theorem State.passRest_count (s : State) (c : Fin 4) (j : Job) (w n : Nat) :
    (s.passRest c j w n).staging.pages.length = s.staging.pages.length := by
  induction n generalizing s with
  | zero => simp [State.passRest]
  | succ n ih => unfold State.passRest; dsimp only; split <;> simp [ih]

@[simp] theorem Staging.disown_count (b : Staging) (h : Holder) : (b.disown h).pages.length = b.pages.length := by
  simp [Staging.disown]
theorem Staging.leave_count (b : Staging) (c : Fin 4) (k : Nat) : (b.leave c k).pages.length ≤ b.pages.length := by
  simp only [Staging.leave, Staging.disown_count]; exact List.length_filter_le _ _

@[simp] theorem State.copyEnded_count (s : State) (d : Dom) (k : Copy) :
    (s.copyEnded d k).staging.pages.length = s.staging.pages.length := by
  unfold State.copyEnded; try dsimp only
  (repeat' split) <;> simp

@[simp] theorem State.copyTest_count (s : State) (d : Dom) (k : Copy) :
    (s.copyTest d k).staging.pages.length = s.staging.pages.length := by
  unfold State.copyTest; try dsimp only
  (repeat' split) <;> simp

@[simp] theorem State.copierHeader_count (s : State) (d : Dom) :
    (s.copierHeader d).staging.pages.length = s.staging.pages.length := by
  unfold State.copierHeader; try dsimp only
  (repeat' split) <;> simp

@[simp] theorem State.copierData_count (s : State) (d : Dom) (k : PageKey) :
    (s.copierData d k).staging.pages.length = s.staging.pages.length := by
  unfold State.copierData; try dsimp only
  (repeat' split) <;> simp

@[simp] theorem State.dumpHeaderGiven_count (s : State) (n : Num) :
    (s.dumpHeaderGiven n).staging.pages.length = s.staging.pages.length := by
  unfold State.dumpHeaderGiven; try dsimp only
  (repeat' split) <;> simp

@[simp] theorem State.latchGiven_count (s : State) (n : Num) :
    (s.latchGiven n).staging.pages.length = s.staging.pages.length := by
  unfold State.latchGiven; try dsimp only
  (repeat' split) <;> simp

@[simp] theorem State.manifestGiven_count (s : State) (k : PageKey) :
    (s.manifestGiven k).staging.pages.length = s.staging.pages.length := by
  unfold State.manifestGiven; try dsimp only
  (repeat' split) <;> simp

@[simp] theorem State.given_count (s : State) (r : StagingRequest) :
    (s.given r).staging.pages.length = s.staging.pages.length := by
  unfold State.given; try dsimp only
  (repeat' split) <;> simp

@[simp] theorem State.startPost_count (s : State) (d : Dom) (n : Num) :
    (s.startPost d n).staging.pages.length = s.staging.pages.length := by
  unfold State.startPost; try dsimp only
  (repeat' split) <;> simp

@[simp] theorem State.pick_count (s : State) (c : Fin 4) (d : Dom) (n : Num) (x : SectionRecord) :
    (s.pick c d n x).staging.pages.length = s.staging.pages.length := by
  unfold State.pick; try dsimp only
  (repeat' split) <;> simp

theorem State.pump_staging {s t : State} (h : s.pump = some t) :
    s.staging.pages.length ≤ 64 → t.staging.pages.length ≤ 64 := by
  rcases State.pump_cases h with h | ⟨c, h⟩ | ⟨c, h⟩ | ⟨c, h⟩ | ⟨d, h⟩ | ⟨d, h⟩ | ⟨d, h⟩ | h | ⟨d, h⟩ | ⟨d, h⟩
    | ⟨d, h⟩ | h
  · unfold State.serveStep at h; (repeat' split at h) <;> cases h
    rename_i k
    intro hs
    simp only [Staging.free, Config.stagingPages] at k
    simp only [State.given_count, List.length_append, List.length_map]
    omega
  · unfold State.passStep at h; (try dsimp only at h); (repeat' split at h) <;> cases h <;> simp
  · unfold State.finishStep at h; dsimp only at h
    (repeat' split at h) <;> cases h <;> intro hs <;> simp <;> refine le_trans (Staging.leave_count _ _ _) ?_ <;> simpa
  · unfold State.cutStep at h; (try dsimp only at h); (repeat' split at h) <;> cases h <;> simp
  · simp [State.lockStep_frame h]
  · simp [State.askStep_frame h]
  · simp [State.grantStep_frame h]
  · unfold State.pickStep at h; (try dsimp only at h); (repeat' split at h) <;> cases h <;> simp
  · unfold State.copierStep at h; (try dsimp only at h); (repeat' split at h) <;> cases h <;> simp
  · unfold State.closingStep at h; (try dsimp only at h); (repeat' split at h) <;> cases h <;> simp
  · unfold State.manifestStep at h; (try dsimp only at h); (repeat' split at h) <;> cases h <;> simp
  · simp [State.storeStep_frame h]

theorem State.settle_staging (s : State) (h : s.staging.pages.length ≤ 64) : s.settle.staging.pages.length ≤ 64 :=
  State.settle_induction (P := fun t => t.staging.pages.length ≤ 64) (fun _ _ e k => State.pump_staging e k) s h

/-! ### The store (R149, R153) -/

/-- What a change of the store may do to its lists: the retired list and the failure counters stay, and the spare
reserve grows to at most 2. -/
def Store.Within (x y : Store) : Prop := y.still = x.still ∧ (x.spares.length ≤ 2 → y.spares.length ≤ 2)

theorem Store.Within.rfl' {x : Store} : x.Within x := ⟨rfl, id⟩
theorem Store.Within.trans {x y z : Store} (h : x.Within y) (k : y.Within z) : x.Within z :=
  ⟨k.1.trans h.1, fun a => k.2 (h.2 a)⟩
@[simp] theorem Store.setBlock_still (x : Store) (b : Nat) (y : Block) : (x.setBlock b y).still = x.still := rfl
@[simp] theorem Store.setBlock_spares (x : Store) (b : Nat) (y : Block) : (x.setBlock b y).spares = x.spares := rfl
@[simp] theorem Store.updRecord_still (x : Store) (n : Num) (f : StoreRecord → StoreRecord) :
    (x.updRecord n f).still = x.still := rfl
@[simp] theorem Store.updRecord_spares (x : Store) (n : Num) (f : StoreRecord → StoreRecord) :
    (x.updRecord n f).spares = x.spares := rfl
@[simp] theorem Store.giveBlock_still (x : Store) (n : Num) (b : Nat) (f : StoreRecord → StoreRecord) :
    (x.giveBlock n b f).still = x.still := by
  unfold Store.giveBlock; dsimp only; (repeat' split) <;> rfl
@[simp] theorem Store.giveBlock_spares (x : Store) (n : Num) (b : Nat) (f : StoreRecord → StoreRecord) :
    (x.giveBlock n b f).spares = x.spares := by
  unfold Store.giveBlock; dsimp only; (repeat' split) <;> rfl
@[simp] theorem Store.fly_still (x : Store) (i : Fin 8) (op : StoreOp) : (x.fly i op).still = x.still := rfl
@[simp] theorem Store.fly_spares (x : Store) (i : Fin 8) (op : StoreOp) : (x.fly i op).spares = x.spares := rfl
theorem State.endWait_within (s : State) : s.store.Within s.endWait.store := by
  unfold State.endWait
  split
  · rename_i h
    refine ⟨?_, ?_⟩ <;> simp
    · rfl
    · intro k; rw [h] at k; simp at k; omega
  · exact .rfl'
theorem State.refillOnce_within {s t : State} (h : s.refillOnce = some t) : s.store.Within t.store := by
  unfold State.refillOnce at h
  (repeat' split at h) <;> cases h
  rename_i k
  refine ⟨rfl, fun _ => ?_⟩
  simp; omega
theorem refillLoop_within (n : Nat) (s : State) : s.store.Within (refillLoop n s).store := by
  induction n generalizing s with
  | zero => exact .rfl'
  | succ n ih =>
    unfold refillLoop
    split
    · rename_i t h
      exact ((State.refillOnce_within h).trans t.endWait_within).trans (ih _)
    · exact .rfl'
theorem State.refill_within (s : State) : s.store.Within s.refill.store := refillLoop_within _ s
theorem State.refillIfFell_within (s : State) (d : Dom) (before : Nat) : s.store.Within (s.refillIfFell d before).store := by
  unfold State.refillIfFell; split
  · exact State.refill_within s
  · exact .rfl'

theorem State.startProgram_within (s : State) (i : Fin 8) (x : ProgramItem) :
    s.store.Within (s.startProgram i x).store := by
  unfold State.startProgram; dsimp only
  split
  · exact ⟨rfl, id⟩
  · split
    · exact ⟨rfl, id⟩
    · exact ⟨by simp only [Store.fly_still, Store.setBlock_still, Store.giveBlock_still]; rfl,
        by simp only [Store.fly_spares, Store.setBlock_spares, Store.giveBlock_spares]; exact id⟩
    · refine Store.Within.trans ?_ (State.refill_within _)
      refine ⟨by simp only [Store.fly_still, Store.setBlock_still, Store.giveBlock_still]; rfl, ?_⟩
      simp only [Store.fly_spares, Store.setBlock_spares, Store.giveBlock_spares, List.length_tail]
      omega
    · exact ⟨by unfold Store.enterWait; split <;> rfl, by unfold Store.enterWait; split <;> exact id⟩
    · exact .rfl'

theorem State.enterClosing_within (s : State) (d : Dom) (k : EndCause) :
    s.store.Within (s.enterClosing d k).store := by
  unfold State.enterClosing; dsimp only
  split
  · exact .rfl'
  · simp only [State.replan_frame]
    refine Store.Within.trans ?_ (State.refillIfFell_within _ _ _)
    split <;> simp <;> exact .rfl'

theorem State.completionTest_within (s : State) (d : Dom) :
    s.store.Within (s.completionTest d).store := by
  unfold State.completionTest; (repeat' split) <;> first | exact .rfl' | exact State.enterClosing_within _ _ _

theorem State.pagesReturned_within (s : State) (d : Dom) (x : SectionRecord) :
    s.store.Within (s.pagesReturned d x).store := by
  unfold State.pagesReturned
  (repeat' split) <;> (try simp only [State.replanAll_frame, State.replan_frame]) <;> exact .rfl'

theorem State.shareSettled_within (s : State) (d : Dom) (i n : Nat) :
    s.store.Within ((s.setShare d i n).refillIfFell d (s.claim d)).store :=
  Store.Within.trans (y := (s.setShare d i n).store) ⟨by simp, by simp⟩ (State.refillIfFell_within _ _ _)

theorem State.sectionEnded_within (s : State) (d : Dom) (n : Num) (i : Nat) :
    s.store.Within (s.sectionEnded d n i).store := by
  unfold State.sectionEnded; dsimp only
  split
  · exact .rfl'
  · refine Store.Within.trans ?_ (State.completionTest_within _ _)
    simp only [State.noticeSectionEnd_frame]
    split
    · exact (State.shareSettled_within _ _ _ _).trans (State.pagesReturned_within _ _ _)
    · exact State.shareSettled_within _ _ _ _

theorem Store.Within.of_eq {x y : Store} (h : y = x) : x.Within y := h ▸ .rfl'
theorem State.stage_within (s : State) (k : PageKey) (bs : List Byte) : s.store.Within (s.stage k bs).store :=
  ⟨rfl, id⟩
theorem State.passData_within (s : State) (c : Fin 4) (j : Job) (p u : Nat) :
    s.store.Within (s.passData c j p u).store := ⟨rfl, id⟩
theorem State.passRest_within (s : State) (c : Fin 4) (j : Job) (w n : Nat) :
    s.store.Within (s.passRest c j w n).store := by
  induction n generalizing s with
  | zero => exact .rfl'
  | succ n ih =>
    unfold State.passRest; dsimp only
    split
    · exact (State.passData_within _ _ _ _ _).trans (ih _)
    · exact .rfl'

theorem State.headerGiven_within (s : State) (c : Fin 4) :
    s.store.Within (s.headerGiven c).store := by
  unfold State.headerGiven; dsimp only; (repeat' split) <;> exact ⟨rfl, id⟩

theorem State.copyEnded_within (s : State) (d : Dom) (k : Copy) :
    s.store.Within (s.copyEnded d k).store := by
  unfold State.copyEnded; dsimp only
  refine Store.Within.trans ?_ (State.sectionEnded_within _ _ _ _)
  exact .of_eq (by split <;> simp)

theorem State.copyTest_within (s : State) (d : Dom) (k : Copy) :
    s.store.Within (s.copyTest d k).store := by
  unfold State.copyTest; split <;> first | exact .rfl' | exact State.copyEnded_within _ _ _

theorem State.copierHeader_within (s : State) (d : Dom) :
    s.store.Within (s.copierHeader d).store := by
  unfold State.copierHeader; dsimp only
  (repeat' split) <;> first | exact .rfl' | skip
  exact Store.Within.trans ⟨rfl, id⟩ (State.copyTest_within _ _ _)

theorem State.copierData_within (s : State) (d : Dom) (k : PageKey) :
    s.store.Within (s.copierData d k).store := by
  unfold State.copierData; dsimp only
  split
  · exact .rfl'
  · exact Store.Within.trans ⟨rfl, id⟩ (State.copyTest_within _ _ _)

theorem State.latchGiven_within (s : State) (n : Num) :
    s.store.Within (s.latchGiven n).store := by
  unfold State.latchGiven; dsimp only
  (repeat' split) <;> first | exact .rfl' | skip
  exact Store.Within.trans ⟨rfl, id⟩ (State.sectionEnded_within _ _ _ _)

theorem State.given_within (s : State) (r : StagingRequest) :
    s.store.Within (s.given r).store := by
  unfold State.given
  (repeat' split)
  all_goals first
    | exact .rfl'
    | exact State.headerGiven_within _ _
    | exact State.copierHeader_within _ _
    | exact State.copierData_within _ _ _
    | exact State.latchGiven_within _ _
    | (unfold State.dataGiven; dsimp only; split <;> exact .rfl')
    | (unfold State.dumpHeaderGiven; split <;> exact ⟨rfl, id⟩)
    | (unfold State.manifestGiven; split <;> exact ⟨rfl, id⟩)

theorem State.pump_within {s t : State} (h : s.pump = some t) : s.store.Within t.store := by
  rcases State.pump_cases h with h | ⟨c, h⟩ | ⟨c, h⟩ | ⟨c, h⟩ | ⟨d, h⟩ | ⟨d, h⟩ | ⟨d, h⟩ | h | ⟨d, h⟩ | ⟨d, h⟩
    | ⟨d, h⟩ | h
  · unfold State.serveStep at h; (repeat' split at h) <;> cases h
    exact State.given_within _ _
  · unfold State.passStep at h; dsimp only at h; (repeat' split at h) <;> cases h
    exact ⟨rfl, id⟩
  · unfold State.finishStep at h; dsimp only at h
    (repeat' split at h) <;> cases h <;>
      refine Store.Within.trans ?_ (State.sectionEnded_within _ _ _ _) <;> simp <;>
      exact State.passRest_within _ _ _ _ _
  · exact .of_eq (by simp [State.cutStep_frame h])
  · exact .of_eq (by simp [State.lockStep_frame h])
  · exact .of_eq (by simp [State.askStep_frame h])
  · exact .of_eq (by simp [State.grantStep_frame h])
  · exact .of_eq (by simp [State.pickStep_frame h])
  · exact .of_eq (by simp [State.copierStep_frame h])
  · exact .of_eq (by simp [State.closingStep_frame h])
  · exact .of_eq (by simp [State.manifestStep_frame h])
  · unfold State.storeStep at h; dsimp only at h
    (repeat' split at h) <;> cases h
    · exact State.startProgram_within _ _ _
    all_goals exact ⟨rfl, id⟩

theorem State.settle_within (s : State) : s.store.Within s.settle.store :=
  State.settle_induction (P := fun t => s.store.Within t.store) (fun _ _ e k => k.trans (State.pump_within e)) s .rfl'

end Sys2Proof.Machine
end

