-- ==== Sys2Proof/Laws/OwnPorts.lean ====
section
/-! SUPPORT. What notices do to the Service Port, and that the device's own work does nothing else to it. -/

set_option linter.unusedSimpArgs false
set_option linter.unusedTactic false
set_option linter.unreachableTactic false
set_option linter.unnecessarySeqFocus false

namespace Sys2Proof.Machine

@[simp] theorem Port.advance_still (q : Port) : q.advance.still = q.still := by
  unfold Port.advance; (repeat' split) <;> rfl
@[simp] theorem Port.advance_aside (q : Port) : q.advance.aside = q.aside := by
  unfold Port.advance; (repeat' split) <;> rfl
@[simp] theorem Port.advance_sending (q : Port) : q.advance.sending = q.sending := by
  unfold Port.advance
  (repeat' split)
  all_goals simp_all [Port.sending, Frame.hold]
@[simp] theorem Port.advance_input (q : Port) : q.advance.input = q.input := by
  unfold Port.advance; (repeat' split) <;> rfl
@[simp] theorem Port.advance_processing (q : Port) : q.advance.processing = q.processing := by
  unfold Port.advance; (repeat' split) <;> rfl
@[simp] theorem Port.advance_reserved (q : Port) : q.advance.reserved = q.reserved := by
  unfold Port.advance; (repeat' split) <;> rfl
@[simp] theorem Port.advance_receiver (q : Port) : q.advance.receiver = q.receiver := by
  unfold Port.advance; (repeat' split) <;> rfl
@[simp] theorem Port.advance_peerHold (q : Port) : q.advance.peerHold = q.peerHold := by
  unfold Port.advance; (repeat' split) <;> rfl
theorem Port.advance_output (q : Port) : q.advance.output.length ≤ q.output.length := by
  unfold Port.advance; (repeat' split) <;> simp_all
theorem Port.advance_lawful {q : Port} (h : q.Lawful) : q.advance.Lawful :=
  ⟨by simpa using h.input, by simpa using h.reserved,
    by have := q.advance_output; have := h.output; simp; omega⟩

/-- An advance leaves a frame on the line, and the HOLD that waits behind it. -/
theorem Port.advance_line {q : Port} {g : Frame} (h : q.line = some g) : q.advance = q := by
  unfold Port.advance; simp [h]
/-- An advance leaves a HOLD on the line or waiting, or starts it. -/
theorem Port.advance_due {q : Port} {n : BitVec 16} (h : q.line = some (Frame.hold n) ∨ q.outgoingHold = some n) :
    q.advance.line = some (Frame.hold n) ∨ q.advance.outgoingHold = some n := by
  unfold Port.advance
  split
  · exact h
  · rename_i hl
    rcases h with h | h
    · simp [hl] at h
    · simp [h]

/-- What notices do to a port: they join the frames it has to send, within its law. -/
structure Port.Noticed (q r : Port) : Prop where
  still : r.still = q.still
  lawful : q.Lawful → r.Lawful
  sending : ∃ ns, (∀ x ∈ ns, x.isNotice = true) ∧ r.sending = q.sending ++ ns
  line : ∀ g, q.line = some g → r.line = some g ∧ r.outgoingHold = q.outgoingHold
  due : ∀ n, q.line = some (Frame.hold n) ∨ q.outgoingHold = some n →
    r.line = some (Frame.hold n) ∨ r.outgoingHold = some n

/-- What notices do to the device's Service Port: nothing at all while it is detached. -/
structure State.Noticed (s t : State) : Prop where
  port : s.servicePort.Noticed t.servicePort
  service : t.service.still = s.service.still
  detached : s.service.attached = false → t.servicePort = s.servicePort ∧ t.service = s.service

theorem Port.Noticed.refl (q : Port) : q.Noticed q :=
  ⟨rfl, id, ⟨[], by simp, by simp⟩, fun _ h => ⟨h, rfl⟩, fun _ => id⟩
theorem Port.Noticed.trans {q r u : Port} (h : q.Noticed r) (k : r.Noticed u) : q.Noticed u := by
  obtain ⟨a, ha, ea⟩ := h.sending
  obtain ⟨b, hb, eb⟩ := k.sending
  refine ⟨k.still.trans h.still, k.lawful ∘ h.lawful, ⟨a ++ b, ?_, by simp [eb, ea]⟩,
    fun g hg => ⟨(k.line g (h.line g hg).1).1, (k.line g (h.line g hg).1).2.trans (h.line g hg).2⟩,
    fun n hn => k.due n (h.due n hn)⟩
  intro x hx
  rcases List.mem_append.1 hx with hx | hx
  · exact ha x hx
  · exact hb x hx
theorem Service.still_attached {x y : Service} (h : y.still = x.still) : y.attached = x.attached := by
  have := congrArg (fun z : Service => z.attached) h
  exact this
theorem State.Noticed.refl (s : State) : s.Noticed s := ⟨.refl _, rfl, fun _ => ⟨rfl, rfl⟩⟩
theorem State.Noticed.of_eq {s t : State} (h : t.servicePort = s.servicePort) (k : t.service = s.service) :
    s.Noticed t := ⟨h ▸ .refl _, by rw [k], fun _ => ⟨h, k⟩⟩
theorem State.Noticed.trans {s t u : State} (h : s.Noticed t) (k : t.Noticed u) : s.Noticed u :=
  ⟨h.port.trans k.port, k.service.trans h.service, fun a => by
    have hh := h.detached a
    have kk := k.detached ((Service.still_attached h.service).trans a)
    exact ⟨kk.1.trans hh.1, kk.2.trans hh.2⟩⟩

theorem State.Noticed.left {s t u : State} (h : t.Noticed u) (e : t.servicePort = s.servicePort)
    (k : t.service = s.service) : s.Noticed u := State.Noticed.trans (.of_eq e k) h
theorem State.Noticed.right {s t u : State} (h : s.Noticed t) (e : u.servicePort = t.servicePort)
    (k : u.service = t.service) : s.Noticed u := h.trans (.of_eq e k)

theorem State.advancePort_service_noticed (s : State) : s.servicePort.Noticed (s.advancePort .service).servicePort := by
  unfold State.advancePort
  split
  · exact .refl _
  · exact ⟨Port.advance_still _, Port.advance_lawful, ⟨[], by simp, by simp [State.setPort]⟩,
      fun g h => by
        have e : (State.setPort s .service (s.port .service).advance).servicePort = s.servicePort.advance := rfl
        rw [e, Port.advance_line h]; exact ⟨h, rfl⟩,
      fun _ => Port.advance_due⟩

/-- A notice joins the frames to send, or is counted as lost; while detached it does nothing (R164). -/
theorem State.notice_noticed (s : State) (k b : Byte) (bs : List Byte) (hk : 0xC0 ≤ k.toNat) :
    s.Noticed (s.notice k b bs) := by
  unfold State.notice; dsimp only
  split
  · rename_i ha
    split
    · rename_i hf
      refine ⟨?_, by simp [State.setPort]; rfl, fun h => absurd ha (by simp [h])⟩
      refine Port.Noticed.trans ?_ (State.advancePort_service_noticed _)
      refine ⟨rfl, fun h => ⟨h.input, h.reserved, ?_⟩, ⟨[⟨k, s.service.noticeTag, b, bs, true⟩], ?_, ?_⟩,
        fun _ h => ⟨h, rfl⟩, fun _ => id⟩
      · simp only [Port.noticeFits, decide_eq_true_eq] at hf
        simp [State.setPort]; omega
      · simp [Frame.isNotice]
      · have : k ≠ 0x7F := by rintro rfl; simp at hk
        simp [State.setPort, Port.sending]; exact this
    · exact ⟨.refl _, rfl, fun h => absurd ha (by simp [h])⟩
  · exact .refl _

theorem State.noticeOpened_noticed (s : State) (d : Dom) (x : TriggerCause) (n : Num) (g : BitVec 16) : s.Noticed (s.noticeOpened d x n g) := by
  unfold State.noticeOpened; exact State.notice_noticed _ _ _ _ (by decide)

theorem State.noticeOpenFailed_noticed (s : State) (d : Dom) (x : TriggerCause) (w : FailureCause) : s.Noticed (s.noticeOpenFailed d x w) := by
  unfold State.noticeOpenFailed; exact State.notice_noticed _ _ _ _ (by decide)

theorem State.noticeSectionEnd_noticed (s : State) (d : Dom) (n : Num) (x : SectionRecord) : s.Noticed (s.noticeSectionEnd d n x) := by
  unfold State.noticeSectionEnd; exact State.notice_noticed _ _ _ _ (by decide)

theorem State.noticeDumpClosed_noticed (s : State) (d : Dom) (n : Num) (x : Option EndCause) (k : BitVec 32) (g : Nat) : s.Noticed (s.noticeDumpClosed d n x k g) := by
  unfold State.noticeDumpClosed; exact State.notice_noticed _ _ _ _ (by decide)

theorem State.noticeHoldReleased_noticed (s : State) (d : Dom) (r : ReleaseReason) (n : Num) : s.Noticed (s.noticeHoldReleased d r n) := by
  unfold State.noticeHoldReleased; exact State.notice_noticed _ _ _ _ (by decide)

theorem State.noticeLink_noticed (s : State) (d : Dom) (k : Nat) (x y : Mode) : s.Noticed (s.noticeLink d k x y) := by
  unfold State.noticeLink; exact State.notice_noticed _ _ _ _ (by decide)

theorem State.noticeVerify_noticed (s : State) (n : Num) (w r : Nat) (x y : BitVec 32) : s.Noticed (s.noticeVerify n w r x y) := by
  unfold State.noticeVerify; exact State.notice_noticed _ _ _ _ (by decide)

theorem State.noticeIdent_noticed (s : State)  : s.Noticed s.noticeIdent := by
  unfold State.noticeIdent; exact State.notice_noticed _ _ _ _ (by decide)

theorem State.releaseLine_noticed (s : State) (d : Dom) (r : ReleaseReason) : s.Noticed (s.releaseLine d r) := by
  unfold State.releaseLine; dsimp only
  split
  · exact (State.noticeHoldReleased_noticed _ _ _ _).left (by simp) (by simp)
  · exact .refl _

theorem State.sectionEnded_noticed (s : State) (d : Dom) (n : Num) (i : Nat) : s.Noticed (s.sectionEnded d n i) := by
  unfold State.sectionEnded; dsimp only
  split
  · exact .refl _
  · refine State.Noticed.right ?_ (by simp; rfl) (by simp)
    refine (State.noticeSectionEnd_noticed _ _ _ _).left ?_ ?_ <;> split <;> simp

theorem State.closedReport_noticed (s : State) (d : Dom) : s.Noticed (s.closedReport d) := by
  unfold State.closedReport; dsimp only
  exact (State.releaseLine_noticed s d .closed).right (by simp) (by simp)

theorem State.copyEnded_noticed (s : State) (d : Dom) (k : Copy) : s.Noticed (s.copyEnded d k) := by
  unfold State.copyEnded; dsimp only
  exact (State.sectionEnded_noticed _ _ _ _).left (by split <;> simp) (by split <;> simp)

theorem State.copyTest_noticed (s : State) (d : Dom) (k : Copy) : s.Noticed (s.copyTest d k) := by
  unfold State.copyTest; split <;> first | exact .refl _ | exact State.copyEnded_noticed _ _ _

theorem State.copierHeader_noticed (s : State) (d : Dom) : s.Noticed (s.copierHeader d) := by
  unfold State.copierHeader; dsimp only
  (repeat' split) <;> first | exact .refl _ | skip
  exact (State.copyTest_noticed _ _ _).left (by simp) (by simp)

theorem State.copierData_noticed (s : State) (d : Dom) (k : PageKey) : s.Noticed (s.copierData d k) := by
  unfold State.copierData; dsimp only
  split
  · exact .refl _
  · exact (State.copyTest_noticed _ _ _).left (by simp) (by simp)

theorem State.latchGiven_noticed (s : State) (n : Num) : s.Noticed (s.latchGiven n) := by
  unfold State.latchGiven; dsimp only
  (repeat' split) <;> first | exact .refl _ | skip
  exact (State.sectionEnded_noticed _ _ _ _).left (by simp) (by simp)

theorem State.given_noticed (s : State) (r : StagingRequest) : s.Noticed (s.given r) := by
  unfold State.given
  (repeat' split)
  all_goals first
    | exact .refl _
    | exact State.copierHeader_noticed _ _
    | exact State.copierData_noticed _ _ _
    | exact State.latchGiven_noticed _ _
    | exact .of_eq (by simp) (by simp)

theorem State.pump_noticed {s t : State} (h : s.pump = some t) : s.Noticed t := by
  rcases State.pump_cases h with h | ⟨c, h⟩ | ⟨c, h⟩ | ⟨c, h⟩ | ⟨d, h⟩ | ⟨d, h⟩ | ⟨d, h⟩ | h | ⟨d, h⟩ | ⟨d, h⟩
    | ⟨d, h⟩ | h
  · unfold State.serveStep at h; (repeat' split at h) <;> cases h
    exact (State.given_noticed _ _).left rfl rfl
  · exact .of_eq (by simp [State.passStep_frame h]) (by simp [State.passStep_frame h])
  · unfold State.finishStep at h; dsimp only at h
    (repeat' split at h) <;> cases h <;>
      refine (State.sectionEnded_noticed _ _ _ _).left ?_ ?_ <;> simp
  · exact .of_eq (by simp [State.cutStep_frame h]) (by simp [State.cutStep_frame h])
  · exact .of_eq (by simp [State.lockStep_frame h]) (by simp [State.lockStep_frame h])
  · exact .of_eq (by simp [State.askStep_frame h]) (by simp [State.askStep_frame h])
  · exact .of_eq (by simp [State.grantStep_frame h]) (by simp [State.grantStep_frame h])
  · exact .of_eq (by simp [State.pickStep_frame h]) (by simp [State.pickStep_frame h])
  · exact .of_eq (by simp [State.copierStep_frame h]) (by simp [State.copierStep_frame h])
  · exact .of_eq (by simp [State.closingStep_frame h]) (by simp [State.closingStep_frame h])
  · exact .of_eq (by simp [State.manifestStep_frame h]) (by simp [State.manifestStep_frame h])
  · exact .of_eq (by simp [State.storeStep_frame h]) (by simp [State.storeStep_frame h])

/-- Settling does nothing to the Service Port but send notices. -/
theorem State.settle_noticed (s : State) : s.Noticed s.settle :=
  State.settle_induction (P := fun t => s.Noticed t) (fun _ _ e k => k.trans (State.pump_noticed e)) s (.refl s)

theorem State.replan_noticed (s : State) (d : Dom) : s.Noticed (s.replan d) := by
  exact .of_eq (by simp) (by simp)

theorem State.deliver_noticed (s : State) (c : Fin 4) (a : Nat) (o : ReadOutcome) : s.Noticed (s.deliver c a o) := by
  exact .of_eq (by simp) (by simp)

theorem State.dropAll_noticed (s : State) (d : Dom) (o : ReadOutcome) : s.Noticed (s.dropAll d o) := by
  exact .of_eq (by simp) (by simp)

theorem State.updDump_noticed (s : State) (n : Num) (f : DumpEntry → DumpEntry) : s.Noticed (s.updDump n f) :=
  .of_eq rfl rfl

theorem State.downshift_noticed (s : State) (d : Dom) (x y : Mode) : s.Noticed (s.downshift d x y) := by
  unfold State.downshift; dsimp only
  refine State.Noticed.trans ?_ (State.replan_noticed _ _)
  exact (State.noticeLink_noticed _ _ _ _ _).left (by simp) (by simp)

theorem State.parityCounted_noticed (s : State) (d : Dom) : s.Noticed (s.parityCounted d) := by
  unfold State.parityCounted; dsimp only; (repeat' split) <;> first | exact .refl _ | exact State.downshift_noticed _ _ _ _

theorem State.endRead_noticed (s : State) (d : Dom) (i : Fin 2) (r : LinkRead) (o : ReadOutcome) : s.Noticed (s.endRead d i r o) := by
  unfold State.endRead; dsimp only
  cases o
  case parity =>
    refine State.Noticed.trans ?_ (State.deliver_noticed _ _ _ _)
    exact (State.parityCounted_noticed _ _).left (by simp) (by simp)
  all_goals exact .of_eq (by simp) (by simp)

theorem State.dumpClosed_noticed (s : State) (d : Dom) (n : Num) : s.Noticed (s.dumpClosed d n) := by
  unfold State.dumpClosed; dsimp only
  split
  · exact .refl _
  · refine State.Noticed.trans ?_ (State.replan_noticed _ _)
    refine State.Noticed.trans ?_ (State.updDump_noticed _ _ _)
    refine State.Noticed.trans ?_ (State.closedReport_noticed _ _)
    exact (State.noticeDumpClosed_noticed _ _ _ _ _ _).left (by simp) (by simp)

end Sys2Proof.Machine
end

