-- ==== Sys2Proof/Laws/Openings.lean ====
section
/-! SUPPORT. What a pass of the harvest budget and the opening of a dump leave (R37, R42 to R53, R126). -/
namespace Sys2Proof.Machine

/-! ### Visits and walks -/

/-- A visit keeps what the opening fixed of a section. -/
theorem visit_shape (rd : Nat) (b : Budget) (x : SectionRecord) : (visit rd b x).sect.shape = x.shape := by
  unfold visit admitLength
  (repeat' split) <;> rfl

/-- A walk keeps what the opening fixed of every section. -/
theorem walk_shapes (rd : Nat) (b : Budget) (xs : List SectionRecord) (shares : List Nat) :
    (walk rd b xs shares).1.map SectionRecord.shape = xs.map SectionRecord.shape := by
  induction xs generalizing b shares with
  | nil => rfl
  | cons x xs ih =>
    unfold walk
    split <;> simp [ih, visit_shape]

/-- A section that no walk visits keeps its record and its share. -/
theorem walk_cons_fixed (rd : Nat) (b : Budget) (x : SectionRecord) (xs : List SectionRecord) (n : Nat)
    (shares : List Nat) (h : x.visited = false) :
    walk rd b (x :: xs) (n :: shares) = (x :: (walk rd b xs shares).1, n :: (walk rd b xs shares).2) := by
  rw [walk, if_neg (by simp [h])]
  rfl

/-! ### Passes and re-plans -/

/-- A pass changes the sections of one dump and the shares of one domain's admission record, and nothing else. -/
theorem State.pass_eq (s : State) (d : Dom) :
    s.pass d = s ∨ ∃ a e w, s.admission d = some a ∧ s.dump a.dump = some e ∧ w = walk (s.rateDerate d)
        { pages := s.pagesAvailable d (s.reservationOf { a with shares := releaseShares e.sections a.shares })
            (s.store.remainder a.dump), time := s.timeAvailable d (s.rateDerate d) e } e.sections
        (releaseShares e.sections a.shares)
      ∧ s.pass d = (s.updDump a.dump fun x => { x with sections := w.1 }).setAdmission d
        (some { a with shares := w.2 }) := by
  unfold State.pass
  split
  · exact .inl rfl
  · next a ha =>
    split
    · exact .inl rfl
    · next e he => exact .inr ⟨a, e, _, ha, he, rfl, rfl⟩

/-- The walk a pass takes over a dump's sections. -/
def State.passWalk (s : State) (d : Dom) (a : Admission) (e : DumpEntry) : List SectionRecord × List Nat :=
  walk (s.rateDerate d)
    { pages := s.pagesAvailable d (s.reservationOf { a with shares := releaseShares e.sections a.shares })
        (s.store.remainder a.dump), time := s.timeAvailable d (s.rateDerate d) e } e.sections
    (releaseShares e.sections a.shares)

/-- A pass over a dump that the directory holds is its walk. -/
theorem State.pass_of {s : State} {d : Dom} {a : Admission} {e : DumpEntry} (ha : s.admission d = some a)
    (he : s.dump a.dump = some e) :
    s.pass d = (s.updDump a.dump fun x => { x with sections := (s.passWalk d a e).1 }).setAdmission d
      (some { a with shares := (s.passWalk d a e).2 }) := by
  unfold State.pass
  rw [ha]
  simp only [he]
  rfl

/-- A pass on a domain whose dump is not `n` leaves dump `n` as it was. -/
theorem State.pass_dump (s : State) (d : Dom) (n : Num) (h : ∀ a, s.admission d = some a → a.dump ≠ n) :
    (s.pass d).dump n = s.dump n := by
  rcases s.pass_eq d with h' | ⟨a, e, w, ha, -, -, h'⟩
  · rw [h']
  · rw [h']
    have hn := h a ha
    simp only [State.setAdmission, State.updDump, State.dump]
    induction s.directory.entries with
    | nil => rfl
    | cons x xs ih =>
      simp only [List.map_cons, List.find?_cons]
      by_cases hx : x.number = a.dump
      · have hxn : (x.number == n) = false := by rw [hx]; simpa using hn
        simp only [if_pos hx, hxn, ih]
      · simp only [if_neg hx, ih]

theorem State.replan_dump (s : State) (d : Dom) (n : Num) (h : ∀ a, s.admission d = some a → a.dump ≠ n) :
    (s.replan d).dump n = s.dump n := by
  unfold State.replan
  split
  · exact s.pass_dump d n h
  · rfl

/-- A pass keeps the numbers, domains and states of the directory, and all but the sections of every entry. -/
theorem State.pass_still (s : State) (d : Dom) :
    (s.pass d).directory.entries.map DumpEntry.still = s.directory.entries.map DumpEntry.still := by
  rcases s.pass_eq d with h | ⟨a, e, w, -, -, -, h⟩
  · rw [h]
  · rw [h]
    simp only [State.setAdmission, State.updDump, List.map_map]
    apply List.map_congr_left
    intro x _
    simp only [Function.comp_apply]
    split <;> rfl

theorem State.replan_still (s : State) (d : Dom) :
    (s.replan d).directory.entries.map DumpEntry.still = s.directory.entries.map DumpEntry.still := by
  unfold State.replan
  split
  · exact s.pass_still d
  · rfl

/-- A pass keeps the next dump number and the verify in progress. -/
theorem State.pass_next (s : State) (d : Dom) :
    (s.pass d).directory.nextNumber = s.directory.nextNumber ∧ (s.pass d).directory.verify = s.directory.verify := by
  rcases s.pass_eq d with h | ⟨a, e, w, -, -, -, h⟩ <;> rw [h] <;> exact ⟨rfl, rfl⟩

/-- A pass of one domain leaves the other's admission record as it was. -/
theorem State.pass_admission_other (s : State) (d : Dom) :
    (s.pass (otherDom d)).admission d = s.admission d := by
  rcases s.pass_eq (otherDom d) with h | ⟨a, e, w, -, -, -, h⟩
  · rw [h]
  · rw [h]
    simp only [State.setAdmission, State.updDump, State.admission]
    cases d <;> rfl

theorem State.replan_admission_other (s : State) (d : Dom) :
    (s.replan (otherDom d)).admission d = s.admission d := by
  unfold State.replan
  split
  · exact s.pass_admission_other d
  · rfl

/-! ### The directory's entries by number -/

/-- A dump number that the directory gives out next names no entry it holds. -/
theorem State.DirectoryLaw.next_fresh {s : State} (h : s.DirectoryLaw) (e : DumpEntry)
    (he : e ∈ s.directory.entries) : e.number ≠ s.directory.nextNumber := by
  intro k
  have := h.next e he
  rw [k] at this
  exact absurd this (by simp)

/-- The other domain's admission record is for a dump the directory already holds. -/
theorem State.DirectoryLaw.admission_old {s : State} (h : s.DirectoryLaw) (d : Dom) (a : Admission)
    (ha : s.admission d = some a) : a.dump ≠ s.directory.nextNumber := by
  have hd := h.admitted d
  rw [ha] at hd
  obtain ⟨e, he, hn, -⟩ := h.openHeld d a.dump hd.symm
  rw [← hn]
  exact h.next_fresh e he

end Sys2Proof.Machine
end

