-- ==== Sys2Proof/Laws/HarvestEnds.lean ====
section
/-! SUPPORT. What a harvest end leaves of the dump's sections, of the channels that hold them and of the domain (R13 to R16,
R76, R77, R129). -/
namespace Sys2Proof.Machine

/-! ### Channels -/

@[simp] theorem State.channelShort_channel_self (s : State) (c : Fin 4) (k : SectionCause) :
    ((s.channelShort c k).channel c).state = .ending := by
  unfold State.channelShort
  dsimp only
  split <;> simp

theorem State.channelShort_channel_other (s : State) (c x : Fin 4) (k : SectionCause) (h : x ≠ c) :
    (s.channelShort c k).channel x = s.channel x := by
  unfold State.channelShort
  dsimp only
  split <;> simp [State.setChannel_channel, h]

/-- A walk over the channels that ends a dump's sections short leaves none of the walked channels at work on the dump. -/
theorem State.channelsShort_done (n : Num) (k : SectionCause) (l : List (Fin 4)) (s : State) (x : Fin 4)
    (h : x ∈ l ∨ (s.channel x).endsWith n = false) :
    ((l.foldl (fun t c => if (t.channel c).endsWith n then t.channelShort c k else t) s).channel x).endsWith n
      = false := by
  induction l generalizing s with
  | nil =>
    rcases h with h | h
    · simp at h
    · exact h
  | cons c l ih =>
    rw [List.foldl_cons]
    apply ih
    by_cases hx : x ∈ l
    · exact .inl hx
    · right
      by_cases hc : x = c
      · subst hc
        split
        · unfold Channel.endsWith
          rw [State.channelShort_channel_self]
          split <;> simp
        · next hh => simpa using hh
      · have hs : (s.channel x).endsWith n = false := by
          rcases h with h | h
          · rcases List.mem_cons.1 h with h | h
            · exact absurd h hc
            · exact absurd h hx
          · exact h
        split
        · rw [State.channelShort_channel_other _ _ _ _ hc]; exact hs
        · exact hs

/-! ### Sections -/

/-- A dump found by its number, after a change of that dump's entry that keeps the number. -/
theorem State.updDump_find (s : State) (n : Num) (f : DumpEntry → DumpEntry) (h : ∀ e, (f e).number = e.number) :
    (s.updDump n f).dump n = (s.dump n).map f := by
  simp only [State.updDump, State.dump]
  induction s.directory.entries with
  | nil => rfl
  | cons e es ih =>
    simp only [List.map_cons, List.find?_cons]
    by_cases he : e.number = n
    · simp [he, h]
    · have hb : (e.number == n) = false := by simpa using he
      simp only [if_neg he, hb, ih]

/-- The sections of a dump at its harvest end: no REGION section stays PENDING, and no channel stays at work on it. -/
theorem State.endSections_spec (s : State) (d : Dom) (n : Num) (k : SectionCause) :
    (s.endSections d n k).dump n = (s.dump n).map (fun e => { e with sections := e.sections.map fun x => x.lost k })
      ∧ ∀ c, ((s.endSections d n k).channel c).endsWith n = false := by
  unfold State.endSections
  dsimp only
  constructor
  · simp only [channelsShort_frame]
    rw [State.updDump_find]
    · split <;> rfl
    · intro e
      rfl
  · intro c
    exact State.channelsShort_done _ _ _ _ _ (.inl (List.mem_finRange c))

theorem SectionRecord.lost_not_pending (x : SectionRecord) (k : SectionCause) (h : (x.lost k).kind = .region) :
    (x.lost k).state ≠ .pending := by
  unfold SectionRecord.lost at h ⊢
  split
  · simp
  · next hc =>
    rw [if_neg hc] at h
    exact fun e => hc ⟨h, e⟩

/-- The domain's open dump is not the one of the other domain's admission record. -/
theorem State.DirectoryLaw.admission_other {s : State} (h : s.DirectoryLaw) (d : Dom) (n : Num)
    (hn : (s.domain d).openDump = some n) (a : Admission) (ha : s.admission (otherDom d) = some a) : a.dump ≠ n := by
  intro e
  have hd := h.admitted (otherDom d)
  rw [ha] at hd
  obtain ⟨x, hx, hxn, hxd, -⟩ := h.openHeld (otherDom d) a.dump hd.symm
  obtain ⟨y, hy, hyn, hyd, -⟩ := h.openHeld d n hn
  have hxy : x = y := by
    by_contra hne
    have hp := h.rising
    rcases List.mem_iff_getElem.1 hx with ⟨i, hi, rfl⟩
    rcases List.mem_iff_getElem.1 hy with ⟨j, hj, rfl⟩
    have hij : i ≠ j := by rintro rfl; exact hne rfl
    rw [List.pairwise_iff_getElem] at hp
    rcases Nat.lt_or_gt_of_ne hij with k | k
    · have := hp i j hi hj k
      rw [hxn, hyn, e] at this
      exact absurd this (by simp)
    · have := hp j i hj hi k
      rw [hxn, hyn, e] at this
      exact absurd this (by simp)
  rw [hxy, hyd] at hxd
  exact ne_otherDom d hxd

/-- The domain and the sections after the harvest of a HARVESTING domain has ended for a cause other than COMPLETE. -/
theorem State.enterClosing_ended (s : State) (d : Dom) (k : EndCause) (c : SectionCause) (hk : k.toSection = some c)
    (n : Num) (hn : (s.domain d).openDump = some n)
    (ho : ∀ a, s.admission (otherDom d) = some a → a.dump ≠ n) :
    (∀ e, (s.enterClosing d k).dump n = some e → e.endCause = some k ∧
        ∀ x ∈ e.sections, x.kind = .region → x.state ≠ .pending)
      ∧ ∀ x, ((s.enterClosing d k).channel x).endsWith n = false := by
  have hn' : ((s.setDomain d { s.domain d with state := .closing, endCause := some k }).domain d).openDump = some n := by
    simpa using hn
  unfold State.enterClosing
  dsimp only
  rw [hn', hk]
  dsimp only
  obtain ⟨s1, h1⟩ : ∃ s1, s1 = s.setDomain d { s.domain d with state := .closing, endCause := some k } := ⟨_, rfl⟩
  rw [← h1]
  obtain ⟨s2, h2⟩ : ∃ s2, s2 = s1.updDump n fun e => { e with endCause := some k } := ⟨_, rfl⟩
  rw [← h2]
  have hspec := s2.endSections_spec d n c
  have ha : (s2.endSections d n c).admission (otherDom d) = s.admission (otherDom d) := by
    have : ∀ t : State, (t.endSections d n c).admission (otherDom d) = t.admission (otherDom d) := by
      intro t
      unfold State.endSections
      dsimp only
      simp only [channelsShort_frame]
      split <;> simp
    rw [this, h2, h1]
    simp
  constructor
  · intro e he
    rw [State.replan_dump _ _ _ (by simpa [ha] using ho)] at he
    simp only [State.refillIfFell_frame] at he
    rw [hspec.1, h2, State.updDump_find _ _ (fun e => { e with endCause := some k }) (fun _ => rfl), Option.map_map] at he
    obtain ⟨x, -, rfl⟩ := Option.map_eq_some_iff.1 he
    refine ⟨rfl, fun y hy => ?_⟩
    obtain ⟨z, -, rfl⟩ := List.mem_map.1 hy
    exact SectionRecord.lost_not_pending z c
  · intro x
    simpa using hspec.2 x

end Sys2Proof.Machine
end

