-- ==== Sys2Proof/Laws/Images.lean ====
section
/-! SUPPORT. Bytes written and read back, and the configuration image: what a save writes is what a later load reads (R175,
R176, R179). -/
namespace Sys2Proof.Machine

/-! ### Fields and slices -/

theorem le_length (k n : Nat) : (le k n).length = k := by
  induction k generalizing n with
  | zero => rfl
  | succ k ih => simp [le, ih]

theorem ofLe_le (k n : Nat) (h : n < 256 ^ k) : ofLe (le k n) = n := by
  induction k generalizing n with
  | zero => have : n = 0 := by simpa using h
            simp [le, ofLe, this]
  | succ k ih =>
    have : n / 256 < 256 ^ k := Nat.div_lt_of_lt_mul (by rw [← Nat.pow_succ']; exact h)
    simp only [le, ofLe, ih _ this, BitVec.toNat_ofNat]
    omega

/-- A slice holds the bytes from its offset, and 0x00 beyond the list's end. -/
theorem slice_eq (bs : List Byte) (o n : Nat) : slice bs o n = (List.range n).map fun i => bs.getD (o + i) 0 := by
  apply List.ext_getElem?
  intro i
  simp only [slice, List.getElem?_append, List.getElem?_take, List.getElem?_drop, List.getElem?_replicate,
    List.length_take, List.length_drop, List.getElem?_map, List.getD_eq_getElem?_getD]
  by_cases h : i < n
  · by_cases k : o + i < bs.length
    · simp [h, k, show i < min n (bs.length - o) by omega]
    · simp [h, show ¬i < min n (bs.length - o) by omega, List.getElem?_eq_none (Nat.le_of_not_lt k),
        show i - min n (bs.length - o) < n - min n (bs.length - o) by omega]
  · simp [h, show ¬i < min n (bs.length - o) by omega, show ¬i - min n (bs.length - o) < n - min n (bs.length - o) by omega]

theorem slice_length (bs : List Byte) (o n : Nat) : (slice bs o n).length = n := by simp [slice_eq]

theorem padTo_length (n : Nat) (bs : List Byte) : (padTo n bs).length = n := slice_length _ _ _

theorem slice_append_left (xs ys : List Byte) (o n : Nat) (h : o + n ≤ xs.length) :
    slice (xs ++ ys) o n = slice xs o n := by
  simp only [slice_eq]
  refine List.map_congr_left fun i hi => ?_
  have := List.mem_range.1 hi
  simp [List.getD_eq_getElem?_getD, List.getElem?_append_left (show o + i < xs.length by omega)]

theorem slice_append_right (xs ys : List Byte) (o n : Nat) (h : xs.length ≤ o) :
    slice (xs ++ ys) o n = slice ys (o - xs.length) n := by
  simp only [slice_eq]
  refine List.map_congr_left fun i _ => ?_
  simp [List.getD_eq_getElem?_getD, List.getElem?_append_right (show xs.length ≤ o + i by omega),
    show o + i - xs.length = o - xs.length + i by omega]

theorem slice_all (xs : List Byte) (n : Nat) (h : xs.length = n) : slice xs 0 n = xs := by
  simp [slice, h, List.take_of_length_le (Nat.le_of_eq h)]

theorem slice_slice (bs : List Byte) (o n p m : Nat) (h : p + m ≤ n) :
    slice (slice bs o n) p m = slice bs (o + p) m := by
  simp only [slice_eq]
  refine List.map_congr_left fun i hi => ?_
  have := List.mem_range.1 hi
  simp [List.getD_eq_getElem?_getD, List.getElem?_range (show p + i < n by omega), Nat.add_assoc]

theorem slice_drop (bs : List Byte) (k o n : Nat) : slice (bs.drop k) o n = slice bs (k + o) n := by
  simp [slice, List.drop_drop]

theorem slice_padTo (bs : List Byte) (n p m : Nat) (h : p + m ≤ n) : slice (padTo n bs) p m = slice bs p m := by
  rw [padTo, slice_slice _ _ _ _ _ h, Nat.zero_add]

/-- The `i`th part of parts of one size. -/
theorem slice_flatMap {α : Type} (l : List α) (g : α → List Byte) (k : Nat) (hg : ∀ x ∈ l, (g x).length = k)
    (i : Nat) (x : α) (h : l[i]? = some x) : slice (l.flatMap g) (k * i) k = g x := by
  induction l generalizing i with
  | nil => simp at h
  | cons y l ih =>
    have hy : (g y).length = k := hg y (by simp)
    rw [List.flatMap_cons]
    cases i with
    | zero =>
      obtain rfl : y = x := by simpa using h
      rw [Nat.mul_zero, slice_append_left _ _ _ _ (by omega), slice_all _ _ hy]
    | succ i =>
      have e : k * (i + 1) - (g y).length = k * i := by rw [hy, Nat.mul_succ]; omega
      rw [slice_append_right _ _ _ _ (by rw [hy, Nat.mul_succ]; omega), e]
      exact ih (fun z hz => hg z (by simp [hz])) i (by simpa using h)

theorem readMany_eq {α : Type} (f : List Byte → α) (size n : Nat) (bs : List Byte) :
    (readMany f size n bs).1 = (List.range n).map fun i => f (slice bs (size * i) size) := by
  induction n generalizing bs with
  | zero => rfl
  | succ n ih =>
    simp only [readMany, ih, slice_drop, List.range_succ_eq_map, List.map_cons, List.map_map, Nat.mul_zero]
    congr 1
    refine List.map_congr_left fun i _ => ?_
    simp [Nat.mul_succ, Nat.add_comm]

/-- Records of one size are read back, where each is read back from its bytes. -/
theorem readMany_flatMap {α : Type} (f : List Byte → α) (g : α → List Byte) (size total : Nat) (l : List α)
    (bs : List Byte) (hl : size * l.length ≤ total) (hg : ∀ x ∈ l, (g x).length = size) (hf : ∀ x ∈ l, f (g x) = x)
    (hb : ∀ p, p + size ≤ total → slice bs p size = slice (l.flatMap g) p size) :
    (readMany f size l.length bs).1 = l := by
  rw [readMany_eq]
  apply List.ext_getElem?
  intro i
  by_cases h : i < l.length
  · have hi : l[i]? = some l[i] := List.getElem?_eq_getElem h
    have : size * i + size ≤ total := by
      have := Nat.mul_le_mul_left size h
      rw [Nat.mul_succ] at this; omega
    rw [List.getElem?_map, List.getElem?_range h, hi, Option.map_some, hb _ this, slice_flatMap l g size hg i _ hi,
      hf _ (List.getElem_mem h)]
  · rw [List.getElem?_eq_none (by simpa using Nat.le_of_not_lt h), List.getElem?_eq_none (by simpa using Nat.le_of_not_lt h)]

theorem ofLe_lt (bs : List Byte) : ofLe bs < 256 ^ bs.length := by
  induction bs with
  | nil => simp [ofLe]
  | cons b bs ih =>
    have := b.isLt
    simp only [ofLe, List.length_cons, Nat.pow_succ]
    omega

theorem field_lt (bs : List Byte) (o n : Nat) : field bs o n < 256 ^ n := by
  have := ofLe_lt (slice bs o n)
  rwa [slice_length] at this

/-! ### The configuration image -/

@[simp] theorem Settings.running_toStored (x : Settings) : x.toStored.running = x := by
  cases x; rename_i h _ _ _ _ _ _ a; cases h <;> cases a <;> rfl

@[simp] theorem SlotProgram.program_toStored (x : SlotProgram) : x.toStored.program = x := by
  cases x; rename_i k; cases k <;> rfl

/-- The running configuration that a save writes is the one a later load gives (R176, R179; log 64). -/
theorem State.runningImage_settings (s : State) (d : Dom) : s.runningImage.settings.get d = s.settings d := by
  cases d <;> simp [State.runningImage, Image.settings, Two.get]

theorem State.runningImage_slots (s : State) (d : Dom) : s.runningImage.slots.get d = s.slotPrograms d := by
  cases d <;> simp [State.runningImage, Image.slots, Two.get, Function.comp_def]

theorem blockBytes_length (x : StoredSettings) (slots : List StoredSlot) : (blockBytes x slots).length = 48 := by
  simp [blockBytes, padTo_length]

theorem readSettings_blockBytes (x : StoredSettings) (slots : List StoredSlot) (h : x.holdWindow < 65536
    ∧ x.heartbeatTimeout < 256 ∧ x.freshness < 256 ∧ x.derate < 256 ∧ x.retry < 256 ∧ x.threshold < 256) :
    readSettings (blockBytes x slots) = x := by
  have hs : ∀ o n, o + n ≤ 16 → slice (blockBytes x slots) o n = slice ([x.holdEnable] ++ le 2 x.holdWindow
      ++ le 1 x.heartbeatTimeout ++ le 1 x.freshness ++ le 1 x.derate ++ le 1 x.retry ++ le 1 x.threshold
      ++ [x.autoArm]) o n := by
    intro o n hn
    rw [blockBytes, slice_append_left _ _ _ _ (by rw [padTo_length]; exact hn), slice_padTo _ _ _ _ hn]
  obtain ⟨h1, h2, h3, h4, h5, h6⟩ := h
  cases x
  simp only [readSettings, field]
  rw [hs 0 1 (by decide), hs 1 2 (by decide), hs 3 1 (by decide), hs 4 1 (by decide), hs 5 1 (by decide), hs 6 1 (by decide),
    hs 7 1 (by decide), hs 8 1 (by decide)]
  clear hs
  simp only [StoredSettings.mk.injEq]
  refine ⟨?_, ?_, ?_, ?_, ?_, ?_, ?_, ?_⟩ <;> simp [slice, le, ofLe] at * <;> omega

theorem readSlots_blockBytes (x : StoredSettings) (slots : List StoredSlot) (h : slots.length = 16) :
    readSlots (blockBytes x slots) = slots := by
  have : (blockBytes x slots).drop 16 = padTo 32 (slots.flatMap fun p => [p.slotClass, p.keepBad]) := by
    rw [blockBytes, List.drop_append_of_le_length (by simp [padTo_length]), List.drop_eq_nil_of_le (by simp [padTo_length]),
      List.nil_append]
  rw [readSlots, this, ← h]
  refine readMany_flatMap _ (fun p => [p.slotClass, p.keepBad]) 2 32 slots _ (by omega) (fun _ _ => rfl) (fun y _ => ?_)
    (fun p hp => slice_padTo _ _ _ _ hp)
  simp [field, slice, ofLe]

/-- The fields of an image before its domain blocks (Table 10-1), from the version on. -/
def Image.head (im : Image) : List Byte :=
  le 2 1 ++ padTo 16 im.serial ++ padTo 32 im.asset ++ le 1 im.retired.length ++ [0, 0, 0] ++ retiredBytes im.retired

/-- The bytes of an image after its check (Table 10-1). -/
def Image.rest (im : Image) : List Byte :=
  padTo 2046 (padTo 254 im.head ++ blockBytes im.storedSettings.a im.storedSlots.a
    ++ blockBytes im.storedSettings.b im.storedSlots.b)

theorem Image.bytes_eq (im : Image) : im.bytes = le 2 (crc16 im.rest).toNat ++ im.rest := rfl

theorem Image.slice_bytes (im : Image) (o n : Nat) (h : 2 ≤ o) : slice im.bytes o n = slice im.rest (o - 2) n := by
  rw [Image.bytes_eq, slice_append_right _ _ _ _ (by rw [le_length]; exact h), le_length]

theorem Image.slice_head (im : Image) (o n : Nat) (h : 2 ≤ o) (hn : o + n ≤ 256) :
    slice im.bytes o n = slice im.head (o - 2) n := by
  rw [Image.slice_bytes _ _ _ h, Image.rest, slice_padTo _ _ _ _ (by omega), List.append_assoc,
    slice_append_left _ _ _ _ (by rw [padTo_length]; omega), slice_padTo _ _ _ _ (by omega)]

theorem Image.slice_a (im : Image) : slice im.bytes 256 48 = blockBytes im.storedSettings.a im.storedSlots.a := by
  rw [Image.slice_bytes _ _ _ (by decide), Image.rest, slice_padTo _ _ _ _ (by decide), List.append_assoc,
    slice_append_right _ _ _ _ (by rw [padTo_length]), padTo_length,
    slice_append_left _ _ _ _ (by rw [blockBytes_length]), slice_all _ _ (blockBytes_length _ _)]

theorem Image.slice_b (im : Image) : slice im.bytes 304 48 = blockBytes im.storedSettings.b im.storedSlots.b := by
  rw [Image.slice_bytes _ _ _ (by decide), Image.rest, slice_padTo _ _ _ _ (by decide),
    slice_append_right _ _ _ _ (by rw [List.length_append, padTo_length, blockBytes_length]), List.length_append, padTo_length,
    blockBytes_length, slice_all _ _ (blockBytes_length _ _)]

theorem Image.rest_length (im : Image) : im.rest.length = 2046 := padTo_length _ _

/-- The bytes of a retired entry (Table 10-1). -/
def RetiredEntry.bytes (r : RetiredEntry) : List Byte := le 2 r.block ++ le 4 r.dump.toNat

theorem RetiredEntry.bytes_length (r : RetiredEntry) : r.bytes.length = 6 := by simp [RetiredEntry.bytes, le_length]

/-- A retired entry as its bytes give it. -/
def RetiredEntry.ofBytes (x : List Byte) : RetiredEntry := { block := field x 0 2, dump := BitVec.ofNat 32 (field x 2 4) }

theorem RetiredEntry.ofBytes_bytes (r : RetiredEntry) (h : r.block < 65536) : RetiredEntry.ofBytes r.bytes = r := by
  have h1 : field r.bytes 0 2 = r.block := by
    rw [field, RetiredEntry.bytes, slice_append_left _ _ _ _ (by rw [le_length]), slice_all _ _ (le_length _ _), ofLe_le]
    exact h
  have h2 : field r.bytes 2 4 = r.dump.toNat := by
    rw [field, RetiredEntry.bytes, slice_append_right _ _ _ _ (by rw [le_length]), le_length, slice_all _ _ (le_length _ _),
      ofLe_le]
    exact r.dump.isLt
  cases r
  simp only [RetiredEntry.ofBytes, h1, h2]; simp

/-- The retired entries lie from byte 56 on. -/
theorem Image.slice_retired (im : Image) (p : Nat) (hp : p + 6 ≤ 192) :
    slice (im.bytes.drop 56) p 6 = slice (im.retired.flatMap RetiredEntry.bytes) p 6 := by
  rw [slice_drop, Image.slice_head _ _ _ (by omega) (by omega), Image.head,
    slice_append_right _ _ _ _ (by simp [le_length, padTo_length]; omega)]
  have : 56 + p - 2 - (le 2 1 ++ padTo 16 im.serial ++ padTo 32 im.asset ++ le 1 im.retired.length ++ [0, 0, 0]).length = p := by
    simp [le_length, padTo_length]; omega
  rw [this, retiredBytes, slice_padTo _ _ _ _ hp]; rfl

theorem Image.read_retired (im : Image) (h : im.Fits) :
    (readMany RetiredEntry.ofBytes 6 im.retired.length (im.bytes.drop 56)).1 = im.retired :=
  readMany_flatMap _ RetiredEntry.bytes 6 192 im.retired _ (by have := h.retired.1; omega)
    (fun _ _ => RetiredEntry.bytes_length _) (fun y hy => RetiredEntry.ofBytes_bytes y (h.retired.2 y hy))
    (fun p hp => Image.slice_retired im p hp)

/-- An image read back from the bytes a save writes is that image. -/
theorem Image.ofBytes_bytes (im : Image) (h : im.Fits) : Image.ofBytes im.bytes = some im := by
  have hc : field im.bytes 0 2 = (crc16 im.rest).toNat := by
    rw [field, Image.bytes_eq, slice_append_left _ _ _ _ (by rw [le_length]), slice_all _ _ (le_length _ _), ofLe_le]
    exact (crc16 im.rest).isLt
  have hr : slice im.bytes 2 2046 = im.rest := by
    rw [Image.slice_bytes _ _ _ (by decide), Nat.sub_self, slice_all _ _ (Image.rest_length _)]
  have hv : field im.bytes 2 2 = 1 := by
    rw [field, Image.slice_head _ _ _ (by decide) (by decide)]
    simp only [Image.head, List.append_assoc]
    rw [slice_append_left _ _ _ _ (by rw [le_length]), slice_all _ _ (le_length _ _)]; rfl
  have hs : slice im.bytes 4 16 = im.serial := by
    rw [Image.slice_head _ _ _ (by decide) (by decide)]
    simp only [Image.head, List.append_assoc]
    rw [slice_append_right _ _ _ _ (by rw [le_length]), le_length,
      slice_append_left _ _ _ _ (by rw [padTo_length]), slice_all _ _ (padTo_length _ _), padTo, slice_all _ _ h.serial]
  have ha : slice im.bytes 20 32 = im.asset := by
    rw [Image.slice_head _ _ _ (by decide) (by decide)]
    simp only [Image.head, List.append_assoc]
    rw [slice_append_right _ _ _ _ (by rw [le_length]; decide), le_length,
      slice_append_right _ _ _ _ (by rw [padTo_length]), padTo_length,
      slice_append_left _ _ _ _ (by rw [padTo_length]), slice_all _ _ (padTo_length _ _), padTo, slice_all _ _ h.asset]
  have hn : field im.bytes 52 1 = im.retired.length := by
    rw [field, Image.slice_head _ _ _ (by decide) (by decide)]
    simp only [Image.head, List.append_assoc]
    rw [slice_append_right _ _ _ _ (by rw [le_length]; decide), le_length,
      slice_append_right _ _ _ _ (by rw [padTo_length]; decide), padTo_length,
      slice_append_right _ _ _ _ (by rw [padTo_length]), padTo_length,
      slice_append_left _ _ _ _ (by rw [le_length]), slice_all _ _ (le_length _ _), ofLe_le]
    have := h.retired.1; omega
  have sa := readSettings_blockBytes im.storedSettings.a im.storedSlots.a (h.settings .a _ rfl)
  have sb := readSettings_blockBytes im.storedSettings.b im.storedSlots.b (h.settings .b _ rfl)
  have la := readSlots_blockBytes im.storedSettings.a im.storedSlots.a (h.slots .a)
  have lb := readSlots_blockBytes im.storedSettings.b im.storedSlots.b (h.slots .b)
  have lr : (readMany (fun x => ({ block := field x 0 2, dump := BitVec.ofNat 32 (field x 2 4) } : RetiredEntry)) 6
      im.retired.length (im.bytes.drop 56)).1 = im.retired := Image.read_retired im h
  unfold Image.ofBytes
  rw [hc, hr, hv, hn, if_pos ⟨Eq.refl _, Eq.refl _, h.retired.1⟩, hs, ha, Image.slice_a, Image.slice_b, sa, sb, la, lb, lr]

theorem readSlots_length (bs : List Byte) : (readSlots bs).length = 16 := by simp [readSlots, readMany_eq]

/-- Every image read fits its bytes. -/
theorem Image.fits_of_ofBytes {bs : List Byte} {im : Image} (h : Image.ofBytes bs = some im) : im.Fits := by
  unfold Image.ofBytes at h
  split at h
  · next hc =>
    obtain rfl := Option.some.inj h
    refine ⟨slice_length _ _ _, slice_length _ _ _, ⟨?_, fun r hr => ?_⟩, fun d x hx => ?_, fun d => ?_⟩
    · rw [readMany_eq, List.length_map, List.length_range]; exact hc.2.2
    · simp only [readMany_eq, List.mem_map] at hr
      obtain ⟨i, -, rfl⟩ := hr
      exact field_lt _ 0 2
    · subst hx
      cases d <;> exact ⟨field_lt _ 1 2, field_lt _ 3 1, field_lt _ 4 1, field_lt _ 5 1, field_lt _ 6 1, field_lt _ 7 1⟩
    · cases d <;> exact readSlots_length _
  · cases h

end Sys2Proof.Machine
end

