-- ==== Sys2Proof/Laws/Requests.lean ====
section
/-! SUPPORT. What taking up, answering and refusing a request does (R161, R163 to R166), said once. -/
namespace Sys2Proof.Machine

/-! ### Setting aside a port's frames -/

/-- Setting a port to one that differs only in its frames changes nothing apart. -/
theorem State.setPort_apart (s : State) (p : PortId) (q : Port) (h : q.aside = (s.port p).aside) :
    (s.setPort p q).apart p = s.apart p := by
  cases p with
  | service =>
    simp only [State.setPort, State.apart]
    rw [show q.aside = s.servicePort.aside from h]
  | platform d =>
    simp only [State.setPort, State.apart, Two.get_set_self, Two.set_set]
    rw [show q.aside = (s.platformPorts.get d).aside from h]

@[simp] theorem State.setPort_own (s : State) (p : PortId) (q : Port) : (s.setPort p q).port p = q := by
  cases p with
  | service => rfl
  | platform d => exact Two.get_set_self _ _ _

theorem State.setPort_self (s : State) (p : PortId) : s.setPort p (s.port p) = s := by
  cases p with
  | service => rfl
  | platform d => simp only [State.setPort, State.port, Two.set_get]

@[simp] theorem State.advancePort_apart (s : State) (p : PortId) : (s.advancePort p).apart p = s.apart p := by
  unfold State.advancePort
  split
  · rfl
  · exact s.setPort_apart p _ (Port.advance_aside _)

@[simp] theorem State.sendHold_apart (s : State) (p : PortId) (n : BitVec 16) :
    (s.sendHold p n).apart p = s.apart p := by
  rw [State.sendHold, State.advancePort_apart]
  exact s.setPort_apart p _ rfl

@[simp] theorem State.paceDeparture_apart (s : State) (p : PortId) : (s.paceDeparture p).apart p = s.apart p := by
  cases p with
  | platform d => rfl
  | service =>
    simp only [State.paceDeparture]
    split
    · rw [State.sendHold_apart]; rfl
    · rfl

@[simp] theorem State.paceArrival_apart (s : State) (p : PortId) : (s.paceArrival p).apart p = s.apart p := by
  cases p with
  | platform d => rfl
  | service =>
    simp only [State.paceArrival]
    split
    · rw [State.sendHold_apart]; rfl
    · rfl

@[simp] theorem State.complete_apart (s : State) (p : PortId) (r : Frame) : (s.complete p r).apart p = s.apart p := by
  simp only [State.complete, State.advancePort_apart, State.paceDeparture_apart]
  exact s.setPort_apart p _ rfl

@[simp] theorem State.reserve_apart (s : State) (p : PortId) : (s.reserve p).apart p = s.apart p :=
  s.setPort_apart p _ rfl

/-! ### What a port sends -/

/-- Starting frames on a port's line keeps the frames it has to send, in their order. -/
structure Port.Kept (q r : Port) : Prop where
  sending : r.sending = q.sending
  input : r.input = q.input
  processing : r.processing = q.processing
  reserved : r.reserved = q.reserved
  peerHold : r.peerHold = q.peerHold

theorem Port.Kept.refl (q : Port) : q.Kept q := ⟨rfl, rfl, rfl, rfl, rfl⟩
theorem Port.Kept.trans {q r u : Port} (h : q.Kept r) (k : r.Kept u) : q.Kept u :=
  ⟨k.sending.trans h.sending, k.input.trans h.input, k.processing.trans h.processing, k.reserved.trans h.reserved,
    k.peerHold.trans h.peerHold⟩

theorem State.advancePort_kept (s : State) (p : PortId) : (s.port p).Kept ((s.advancePort p).port p) := by
  unfold State.advancePort
  split
  · exact .refl _
  · rw [State.setPort_own]
    exact ⟨Port.advance_sending _, Port.advance_input _, Port.advance_processing _, Port.advance_reserved _,
      Port.advance_peerHold _⟩

theorem State.sendHold_kept (s : State) (p : PortId) (n : BitVec 16) : (s.port p).Kept ((s.sendHold p n).port p) := by
  refine Port.Kept.trans ?_ (State.advancePort_kept _ p)
  rw [State.setPort_own]
  exact ⟨rfl, rfl, rfl, rfl, rfl⟩

/-- A HOLD made due is on the line or waits for it. -/
theorem State.sendHold_due (s : State) (p : PortId) (n : BitVec 16) :
    ((s.sendHold p n).port p).line = some (Frame.hold n) ∨ ((s.sendHold p n).port p).outgoingHold = some n := by
  unfold State.sendHold State.advancePort
  split
  · right; rw [State.setPort_own]
  · simp only [State.setPort_own, Port.advance]
    split
    · exact .inr rfl
    · exact .inl rfl

theorem State.paceDeparture_kept (s : State) (p : PortId) : (s.port p).Kept ((s.paceDeparture p).port p) := by
  cases p with
  | platform d => exact .refl _
  | service =>
    simp only [State.paceDeparture]
    split
    · exact State.sendHold_kept { s with service := { s.service with holdOff := false } } .service 0
    · exact .refl _

theorem State.paceArrival_kept (s : State) (p : PortId) : (s.port p).Kept ((s.paceArrival p).port p) := by
  cases p with
  | platform d => exact .refl _
  | service =>
    simp only [State.paceArrival]
    split
    · exact State.sendHold_kept { s with service := { s.service with holdOff := true } } .service 0xFFFF
    · exact .refl _

/-- A completion appends the reply to the frames to send, if a place is reserved for it, and takes the request's frame
off the input queue. -/
theorem State.complete_kept (s : State) (p : PortId) (r : Frame) :
    ({ s.port p with input := (s.port p).input.tail, processing := none, reserved := 0
                     output := if (s.port p).reserved = 0 then (s.port p).output else (s.port p).output ++ [r] } :
      Port).Kept ((s.complete p r).port p) := by
  simp only [State.complete]
  refine Port.Kept.trans ?_ (State.advancePort_kept _ p)
  refine Port.Kept.trans ?_ (State.paceDeparture_kept _ p)
  rw [State.setPort_own]
  exact .refl _

/-- What notices do after it leaves the pacing of a departure as it is. -/
theorem State.PacedTo.noticed {s t u : State} (h : s.PacedTo t) (k : t.Noticed u) : s.PacedTo u := by
  have hi : u.servicePort.input = t.servicePort.input := by
    have := congrArg Port.input k.port.still
    exact this
  have ho : u.service.holdOff = t.service.holdOff := by
    have := congrArg Service.holdOff k.service
    exact this
  refine ⟨fun a b c => ?_, fun a => ?_⟩
  · have e := h.ended a b (hi ▸ c)
    exact ⟨ho.trans e.1, k.port.due _ e.2.1, fun g hg => ⟨(k.port.line g (e.2.2 g hg).1).1,
      (k.port.line g (e.2.2 g hg).1).2.trans (e.2.2 g hg).2⟩⟩
  · have e := h.stands (hi ▸ a)
    exact ⟨ho.trans e.1, fun g hg => ⟨(k.port.line g (e.2 g hg).1).1,
      (k.port.line g (e.2 g hg).1).2.trans (e.2 g hg).2⟩⟩

/-- The Service Port's own fields and its input queue are those of the state before, as is what stands on its line. -/
theorem State.PacedTo.of_noticed {s u : State} (k : s.Noticed u) : s.PacedTo u := by
  refine State.PacedTo.noticed ⟨fun _ b c => ?_, fun _ => ⟨rfl, fun _ h => ⟨h, rfl⟩⟩⟩ k
  omega

/-- A completion at the Service Port paces it by the frame that leaves the input queue (R166). -/
theorem State.complete_paced (s : State) (r : Frame) : s.PacedTo (s.complete .service r) := by
  have hl : (s.complete .service r).servicePort.input.length = s.servicePort.input.length - 1 := by
    have := congrArg List.length (s.complete_kept .service r).input
    simpa [State.port] using this
  constructor
  · intro a b c
    have h2 : s.servicePort.input.length = 2 := by omega
    unfold State.complete State.paceDeparture
    simp only [State.port, State.setPort, List.length_tail, h2, a]
    simp only [Nat.reduceSub, and_self, if_true, State.sendHold, State.advancePort, State.port, State.setPort]
    cases hs : s.servicePort.line with
    | none => by_cases hr : s.restart = .due <;> simp [hr, Port.advance, hs]
    | some g => by_cases hr : s.restart = .due <;> simp [hr, Port.advance, hs]
  · intro a
    rw [hl] at a
    have hn : ¬(s.servicePort.input.tail.length = 1 ∧ s.service.holdOff = true) := by
      rintro ⟨x, y⟩; apply a; simp only [List.length_tail] at x; exact ⟨y, by omega, by omega⟩
    unfold State.complete State.paceDeparture
    simp only [State.port, State.setPort, hn, if_false, State.advancePort]
    constructor
    · split <;> rfl
    · intro g hg
      split
      · exact ⟨hg, rfl⟩
      · rw [Port.advance_line (g := g)]
        · exact ⟨hg, rfl⟩
        · exact hg

/-! ### Requests -/

@[simp] theorem State.reserve_refusal (s : State) (p : PortId) (f : Frame) : (s.reserve p).refusal p f = s.refusal p f := by
  cases p <;> rfl

theorem State.reserve_resolve (s : State) (p : PortId) (b : Byte) : (s.reserve p).resolve p b = s.resolve p b := by
  cases p <;> rfl

@[simp] theorem State.reserve_port (s : State) (p : PortId) :
    (s.reserve p).port p = { s.port p with reserved := 1 } := by
  simp [State.reserve]

/-- The kinds of replies, and of requests: no reply is a HOLD. -/
theorem Frame.reply_not_hold (f : Frame) (dom st : Byte) (body : List Byte) (h : isRequestKind f.kind.toNat = true) :
    ((f.reply dom st body).kind != 0x7F) = true := by
  simp only [isRequestKind, decide_eq_true_eq] at h
  simp only [Frame.reply, bne_iff_ne, ne_eq]
  intro e
  have := congrArg BitVec.toNat e
  simp [BitVec.toNat_add] at this
  omega

/-- A completed request has been answered, if nothing but its own frames stands between. -/
theorem State.complete_answered (s u : State) (p : PortId) (f : Frame) (dom st : Byte) (body : List Byte)
    (hf : ((f.reply dom st body).kind != 0x7F) = true) (hu : u.port p = { s.port p with reserved := 1 }) :
    Answered s (u.complete p (f.reply dom st body)) p f dom st body := by
  have h := u.complete_kept p (f.reply dom st body)
  rw [hu] at h
  refine ⟨?_, h.input, h.processing, h.reserved⟩
  rw [h.sending]
  show ((s.port p).line.toList ++ ((s.port p).output ++ [f.reply dom st body])).filter _ = _
  rw [← List.append_assoc, List.filter_append]
  simp only [List.filter_cons, hf, if_true, List.filter_nil, Port.sending]

/-- As `complete_answered`, with notices sent before the reply. -/
theorem State.complete_answeredAmong (s u : State) (p : PortId) (f : Frame) (dom st : Byte) (body : List Byte)
    (before : List Frame) (hb : ∀ x ∈ before, x.isNotice = true)
    (hf : ((f.reply dom st body).kind != 0x7F) = true) (hs : (u.port p).sending = (s.port p).sending ++ before)
    (hi : (u.port p).input = (s.port p).input) (hr : (u.port p).reserved = 1) :
    AnsweredAmong s (u.complete p (f.reply dom st body)) p f dom st body := by
  have h := u.complete_kept p (f.reply dom st body)
  rw [hi, hr] at h
  refine ⟨⟨before, [], by simpa using hb, ?_⟩, h.input, h.processing, h.reserved⟩
  rw [h.sending]
  show ((u.port p).line.toList ++ ((u.port p).output ++ [f.reply dom st body])).filter _ = _
  rw [← List.append_assoc, List.filter_append]
  simp only [List.filter_cons, hf, if_true, List.filter_nil]
  rw [← hs]; rfl

theorem Answered.among {s t : State} {p : PortId} {f : Frame} {dom st : Byte} {body : List Byte}
    (h : Answered s t p f dom st body) : AnsweredAmong s t p f dom st body :=
  ⟨⟨[], [], by simp, by simpa using h.reply⟩, h.input, h.processing, h.reserved⟩

/-- A refused request (tests 1 to 5) is answered with the test's status. -/
theorem State.request_refused {s : State} {p : PortId} {kind : Byte} {f : Frame} {st : Byte}
    {act : State → Frame → Dom → Answer} (hn : s.nextFrame p = some f) (hk : f.kind = kind)
    (hr : s.refusal p f = some st) : s.request p kind act = (s.reserve p).refuse p f st := by
  simp only [State.request, hn, hk, if_true, State.reserve_refusal, hr]

/-- A request that passes the tests is its owning rule's answer, carried back. -/
theorem State.request_takes {s : State} {p : PortId} {kind : Byte} {f : Frame} (act : State → Frame → Dom → Answer)
    (h : s.takes p kind f) :
    s.request p kind act
      = (act (s.reserve p) f (s.resolve p f.domain)).finish p f (s.replyDomain p f) := by
  obtain ⟨hn, hk, hr⟩ := h
  have hd : (s.reserve p).replyDomain p f = s.replyDomain p f := by
    simp only [State.replyDomain, State.reserve_resolve]
  simp only [State.request, hn, hk, if_true, State.reserve_refusal, hr, State.reserve_resolve, hd]

/-- A request whose kind is not the one commanded, or that is not there, is left where it is. -/
theorem State.request_other {s : State} {p : PortId} {kind : Byte} (act : State → Frame → Dom → Answer)
    (h : ∀ f, s.nextFrame p = some f → f.kind ≠ kind) : s.request p kind act = s := by
  unfold State.request
  split
  · rfl
  · next f hf => rw [if_neg (h f hf)]

/-- The kind of a frame that passes the tests is a request kind. -/
theorem State.takes.isRequest {s : State} {p : PortId} {kind : Byte} {f : Frame} (h : s.takes p kind f) :
    isRequestKind f.kind.toNat = true := by
  cases hc : isRequestKind f.kind.toNat with
  | true => rfl
  | false =>
    have := h.2.2
    unfold State.refusal at this
    dsimp only at this
    rw [hc] at this
    exact absurd this (by simp)

theorem State.takes.reply_not_hold {s : State} {p : PortId} {kind : Byte} {f : Frame} (h : s.takes p kind f)
    (dom st : Byte) (body : List Byte) : ((f.reply dom st body).kind != 0x7F) = true :=
  f.reply_not_hold dom st body h.isRequest

/-- A request answered over a state that left the port alone: what `exec` of its command comes to. -/
theorem State.request_reply {s u : State} {p : PortId} {kind : Byte} {f : Frame} {st : Byte} {body : List Byte}
    {act : State → Frame → Dom → Answer} (h : s.takes p kind f)
    (ha : act (s.reserve p) f (s.resolve p f.domain) = .reply u st body)
    (hu : u.port p = { s.port p with reserved := 1 }) :
    ∃ t, s.request p kind act = t ∧ Answered s t p f (s.replyDomain p f) st body ∧ t.apart p = u.apart p := by
  refine ⟨_, State.request_takes act h, ?_, ?_⟩
  · rw [ha]
    exact State.complete_answered s u p f _ st body (h.reply_not_hold _ _ _) hu
  · rw [ha]
    simp [Answer.finish]

/-- As `request_reply`, for an answer that the device's own work follows. -/
theorem State.request_work {s u : State} {p : PortId} {kind : Byte} {f : Frame} {st : Byte} {body : List Byte}
    {act : State → Frame → Dom → Answer} (h : s.takes p kind f)
    (ha : act (s.reserve p) f (s.resolve p f.domain) = .work u st body)
    (hu : u.port p = { s.port p with reserved := 1 }) :
    ∃ t : State, s.request p kind act = t.settle ∧ Answered s t p f (s.replyDomain p f) st body
      ∧ t.apart p = u.apart p := by
  refine ⟨u.complete p (f.reply (s.replyDomain p f) st body), ?_, ?_, ?_⟩
  · rw [State.request_takes act h, ha]; rfl
  · exact State.complete_answered s u p f _ st body (h.reply_not_hold _ _ _) hu
  · simp

/-! ### Induction over a request -/

/-- A property of every state an answer may go on from, kept by what follows its reply. -/
def Answer.All (P : State → Prop) : Answer → Prop
  | .reply s _ _ => P s
  | .held s => P s
  | .work s _ _ => P s
  | .heldWork s => P s
  | .after s _ _ act => P s ∧ ∀ u, P u → P (act u)

/-- What every step of taking up, answering and working off a request keeps, the request keeps. -/
theorem State.request_keeps {P : State → Prop} (s : State) (p : PortId) (kind : Byte)
    (act : State → Frame → Dom → Answer) (hr : P s → P (s.reserve p)) (hc : ∀ u r, P u → P (u.complete p r))
    (hm : ∀ u d, P u → P (u.countMissed d)) (hs : ∀ u, P u → P u.settle)
    (ha : ∀ f d, s.nextFrame p = some f → P (s.reserve p) → (act (s.reserve p) f d).All P) (h : P s) :
    P (s.request p kind act) := by
  unfold State.request
  split
  · exact h
  · next f hf =>
    split
    · dsimp only
      split
      · unfold State.refuse
        dsimp only
        apply hc
        split
        · exact hm _ _ (hr h)
        · exact hr h
      · have := ha f ((s.reserve p).resolve p f.domain) hf (hr h)
        revert this
        cases act (s.reserve p) f ((s.reserve p).resolve p f.domain) <;> simp only [Answer.All, Answer.finish] <;> intro k
        · exact hc _ _ k
        · exact k
        · exact hs _ (hc _ _ k)
        · exact hs _ k
        · exact k.2 _ (hc _ _ k.1)
    · exact h

end Sys2Proof.Machine
end

