-- ==== Sys2Proof/Laws/Opened.lean ====
section
/-! SUPPORT. The opening of a dump as `Opened` says it (R4, R37, R126): the new entry, its admission record, and the
frame. -/
namespace Sys2Proof.Machine

/-- A pass over the newest dump keeps the older ones, and keeps of the new one all but what a visit writes. -/
theorem State.pass_new (s : State) (d : Dom) (old : List DumpEntry) (e : DumpEntry) (k : Nat)
    (he : s.directory.entries = old ++ [e]) (hf : ∀ x ∈ old, x.number ≠ e.number)
    (ha : s.admission d = some (Admission.opening e.number (k + 3)))
    (h3 : ∃ x0 x1 x2 rest, e.sections = x0 :: x1 :: x2 :: rest ∧ x0.kind = .latch ∧ x1.kind = .journalPre ∧ x2.kind = .journalPost) :
    (∃ e', (s.pass d).directory.entries = old ++ [e'] ∧ e' = { e with sections := e'.sections } ∧ e'.sections.map SectionRecord.shape = e.sections.map SectionRecord.shape)
    ∧ ∃ a, (s.pass d).admission d = some a ∧ a.dump = e.number ∧ a.headerShare = 1 ∧ a.manifestShare = 16 ∧ a.shares.take 3 = [2,33,9] := by
  have hd : s.dump e.number = some e := by
    rw [State.dump, he, List.find?_append, List.find?_eq_none.2]
    · simp
    · intro x hx; simpa using hf x hx
  have hp := State.pass_of ha (e := e) hd
  rw [hp]
  refine ⟨⟨{ e with sections := (s.passWalk d (Admission.opening e.number (k + 3)) e).1 }, ?_, rfl, ?_⟩, ⟨_, State.setAdmission_admission_self _ _ _, rfl, rfl, rfl, ?_⟩⟩
  · simp only [State.setAdmission, State.updDump, he, List.map_append, List.map_cons, List.map_nil, Admission.opening, if_true]
    congr 1
    conv_rhs => rw [← List.map_id old]
    apply List.map_congr_left
    intro x hx
    have := hf x hx
    simp [this]
  · exact walk_shapes _ _ _ _
  · obtain ⟨x0, x1, x2, rest, hs, h0, h1, h2⟩ := h3
    unfold State.passWalk
    rw [hs]
    simp only [Admission.opening, releaseShares, List.cons_append, List.nil_append, List.zipWith_cons_cons]
    rw [walk_cons_fixed, walk_cons_fixed, walk_cons_fixed]
    · simp [h0, h1, h2]
    · simp [SectionRecord.visited, h2]
    · simp [SectionRecord.visited, h1]
    · simp [SectionRecord.visited, h0]

/-- The checks of an opening look at the directory, the store and the admission records alone. -/
theorem State.openingFailure_congr {s t : State} (d : Dom) (h1 : t.directory = s.directory) (h2 : t.store = s.store)
    (h3 : t.admissions = s.admissions) : t.openingFailure d = s.openingFailure d := by
  cases s; cases t; simp only at h1 h2 h3; subst h1 h2 h3; rfl

/-- The sections of a new entry are the three fixed ones and the plan's snapshot. -/
theorem State.newEntry_shapes (s : State) (d : Dom) (n : Num) (t : TriggerEntry) :
    (s.newEntry d n t).sections.map SectionRecord.shape = (s.plan d).shapes := by
  simp only [State.newEntry, Plan.shapes, Plan.snapshot, List.map_append]
  congr 1
  apply List.ext_getElem <;> simp [SectionRecord.shape, PlanEntry.toSection]

/-- The new dump's entry and its admission record. -/
theorem State.openDump_facts (s : State) (d : Dom) (t : TriggerEntry) (hl : ∀ e ∈ s.directory.entries, e.number ≠ s.directory.nextNumber) :
    (∃ e', (s.openDump d t).directory.entries = s.directory.entries ++ [e'] ∧ e' = { s.newEntry d s.directory.nextNumber t with sections := e'.sections }
        ∧ e'.sections.map SectionRecord.shape = (s.plan d).shapes)
    ∧ (∃ a, (s.openDump d t).admission d = some a ∧ a.dump = s.directory.nextNumber ∧ a.headerShare = 1 ∧ a.manifestShare = 16 ∧ a.shares.take 3 = [2,33,9]) := by
  have := State.pass_new (((s.addDump d t).startDumpWork d s.directory.nextNumber t.time).setAdmission d (some (Admission.opening s.directory.nextNumber (3 + (s.plan d).snapshot.length)))) d s.directory.entries (s.newEntry d s.directory.nextNumber t) (s.plan d).snapshot.length
    (by simp [State.addDump]) (fun x hx => by simpa [State.newEntry] using hl x hx) (by simp [State.newEntry, Nat.add_comm]) ⟨_, _, _, _, rfl, rfl, rfl, rfl⟩
  rw [State.newEntry_shapes] at this
  exact this

/-- A list searched for the number of its last entry. -/
theorem find_last (l : List DumpEntry) (e : DumpEntry) (h : ∀ x ∈ l, x.number ≠ e.number) :
    (l ++ [e]).find? (fun x => x.number == e.number) = some e := by
  rw [List.find?_append, List.find?_eq_none.2]
  · simp
  · intro x hx; simpa using h x hx

/-- A re-plan of another dump keeps the newest entry. -/
theorem State.replan_entry (s : State) (d : Dom) (old : List DumpEntry) (e : DumpEntry) (he : s.directory.entries = old ++ [e])
    (h : ∀ a, s.admission d = some a → a.dump ≠ e.number) :
    ∃ old', (s.replan d).directory.entries = old' ++ [e] ∧ old'.map DumpEntry.still = old.map DumpEntry.still ∧ (s.replan d).directory.nextNumber = s.directory.nextNumber := by
  unfold State.replan
  split
  · rcases s.pass_eq d with h' | ⟨a, e2, w, ha, -, -, h'⟩
    · rw [h']; exact ⟨old, he, rfl, rfl⟩
    · rw [h']
      have hn := h a ha
      refine ⟨old.map fun x => if x.number = a.dump then { x with sections := w.1 } else x, ?_, ?_, rfl⟩
      · simp only [State.setAdmission, State.updDump, he, List.map_append, List.map_cons, List.map_nil]
        simp [Ne.symm hn]
      · rw [List.map_map]; apply List.map_congr_left; intro x _; simp only [Function.comp_apply]; split <;> rfl
  · exact ⟨old, he, rfl, rfl⟩

/-- What an opening whose checks have passed leaves. -/
theorem State.openingSucceeds_opened (s : State) (d : Dom) (c : TriggerCause) (o : Option (BitVec 32)) (hl : s.DirectoryLaw) :
    Opened s ((s.triggerStarts d c o).openingSucceeds d c o) d c o
      ∧ s.servicePort.Noticed ((s.triggerStarts d c o).openingSucceeds d c o).servicePort := by
  have hdir : (s.triggerStarts d c o).directory = s.directory := by simp
  unfold State.openingSucceeds
  dsimp only
  obtain ⟨s1, h1⟩ : ∃ s1, s1 = s.triggerStarts d c o := ⟨_, rfl⟩
  rw [← h1] at hdir ⊢
  obtain ⟨s2, h2⟩ : ∃ s2, s2 = s1.setDomain d { s1.domain d with openDump := some s1.directory.nextNumber, holdWindow := some ((s1.settings d).holdWindow * 1000), holdEnable := some (s1.settings d).holdEnable } := ⟨_, rfl⟩
  rw [← h2]
  have hd2 : s2.directory = s.directory := by rw [h2]; simpa using hdir
  obtain ⟨⟨e', hE, hee, hsh⟩, ⟨a, hA, ha1, ha2, ha3, ha4⟩⟩ := State.openDump_facts s2 d { cause := c, time := s2.partTime, code := o } (by rw [hd2]; exact fun e he => hl.next_fresh e he)
  obtain ⟨s3, h3⟩ : ∃ s3, s3 = s2.openDump d { cause := c, time := s2.partTime, code := o } := ⟨_, rfl⟩
  rw [← h3] at hE hA ⊢
  obtain ⟨s4, h4⟩ : ∃ s4, s4 = s3.setDomain d { s3.domain d with holdTimer := some (s3.partTime + ms ((s1.settings d).holdWindow * 1000)), holdLine := (s1.settings d).holdEnable, endCause := s3.causeAtOpening d } := ⟨_, rfl⟩
  rw [← h4]
  obtain ⟨s5, h5⟩ : ∃ s5, s5 = s4.noticeOpened d c s1.directory.nextNumber (s4.plan d).generation := ⟨_, rfl⟩
  rw [← h5]
  have hd5 : s5.directory = s3.directory := by rw [h5, h4]; simp
  have hnum : e'.number = s.directory.nextNumber := by rw [hee]; simp [State.newEntry, hd2]
  have hoth : ∀ a, s5.admission (otherDom d) = some a → a.dump ≠ e'.number := by
    intro a ha
    rw [hnum]
    apply hl.admission_old (otherDom d) a
    rw [← ha, h5, h4, h3, h2, h1]
    simp only [State.noticeOpened_frame, State.setDomain_admission]
    have := State.pass_admission_other (((s2.addDump d { cause := c, time := s2.partTime, code := o }).startDumpWork d s2.directory.nextNumber s2.partTime).setAdmission d
      (some (Admission.opening s2.directory.nextNumber (3 + (s2.plan d).snapshot.length)))) (otherDom d)
    rw [otherDom_otherDom] at this
    rw [← h1, ← h2]
    unfold State.openDump
    rw [this]
    simp [h2, h1]
  obtain ⟨old', hE', hst, hnn⟩ := State.replan_entry s5 (otherDom d) _ e' (by rw [hd5]; exact hE) hoth
  refine ⟨⟨?_, ?_, ?_, ?_, ?_, ?_, ?_, ?_, ?_⟩, ?_⟩
  · simp [h5, h4, h3, h2, h1, State.triggerStarts, State.causeAtOpening, ms]
  · rw [hnn, hd5, h3]
    unfold State.openDump
    rw [(State.pass_next _ d).1]
    simp [State.addDump, hd2]
  · refine ⟨old', e', hE', by rw [hst, hd2], hnum, ?_, ?_, ?_, ?_, ?_, ?_, ?_, ?_, ?_, ?_, ?_, ?_⟩
    all_goals first | (rw [hsh, h2, h1]; simp; done) | (rw [hee]; simp [State.newEntry, h2, h1, State.triggerStarts]; done) | skip
  · refine ⟨a, ?_, by rw [ha1, hd2], ha2, ha3, ha4⟩
    rw [State.replan_admission_other, h5, h4]
    simpa using hA
  · simp [h5, h4, h3, State.openDump, State.startDumpWork, State.addDump, h2, h1, State.triggerStarts, State.recordTrigger, State.appendDevice, triggerRecord]
    all_goals (cases o <;> rfl)
  · simp [h5, h4, h3, State.openDump, State.startDumpWork, State.addDump, h2, h1, State.triggerStarts]
  · simp [h5, h4, h3, State.openDump, State.startDumpWork, State.addDump, h2, h1, State.triggerStarts, State.askPages]
  · have hn := State.noticeOpened_noticed s4 d c s1.directory.nextNumber (s4.plan d).generation
    rw [← h5] at hn
    have := congrArg Service.autoDomain hn.service
    simp only [State.replan_frame]
    have e4 : s4.service.autoDomain = d := by rw [h4, h3, h2, h1]; simp [State.triggerStarts]
    exact this.trans e4
  · obtain ⟨u, hu⟩ : ∃ u, u = s5.replan (otherDom d) := ⟨_, rfl⟩
    have hdo : u.domain (otherDom d) = s.domain (otherDom d) := by
      rw [hu, h5, h4, h3, h2, h1]; simp [State.triggerStarts]
    have hj : u.journal (otherDom d) = s.journal (otherDom d) := by
      rw [hu, h5, h4, h3, h2, h1]; simp [State.triggerStarts, State.openDump, State.startDumpWork, State.addDump, State.recordTrigger, State.appendDevice]
    have hw : u.work (otherDom d) = s.work (otherDom d) := by
      rw [hu, h5, h4, h3, h2, h1]; simp [State.triggerStarts, State.openDump, State.startDumpWork, State.addDump]
    have hr : u.pending = s.pending ∧ u.freeCount = s.freeCount ∧ u.partTime = s.partTime ∧ u.startUp = s.startUp ∧ u.restart = s.restart ∧ u.powerGood = s.powerGood
       ∧ u.plans = s.plans ∧ u.channels = s.channels ∧ u.lastPicked = s.lastPicked ∧ u.links = s.links ∧ u.flash = s.flash ∧ u.config = s.config := by
      rw [hu, h5, h4, h3, h2, h1]; simp [State.triggerStarts]
    rw [← hu]
    obtain ⟨r1,r2,r3,r4,r5,r6,r7,r8,r9,r10,r11,r12⟩ := hr
    clear hu hE' hst hnn h5 h4 h3 h2 h1 hE hA hoth hd5 hd2
    cases s; cases u
    simp only [State.domain, State.journal, State.work] at *
    subst r1 r2 r3 r4 r5 r6 r7 r8 r9 r10 r11 r12
    simp only [State.mk.injEq, true_and, and_true]
    refine ⟨?_, ?_, ?_⟩ <;> apply Two.ext_get <;> intro e <;> rcases dom_eq_or d e with rfl | rfl <;> simp [*]
  · have hn := State.noticeOpened_noticed s4 d c s1.directory.nextNumber (s4.plan d).generation
    rw [← h5] at hn
    have e4 : s4.servicePort = s.servicePort := by rw [h4, h3, h2, h1]; simp
    have := hn.port
    rw [e4] at this
    simpa using this

end Sys2Proof.Machine
end

