-- ==== Sys2Proof/WellFormed.lean ====
section
/-! DEFINITION. Which commands are well formed: the two checks on operands whose type admits more than the spec does. -/
namespace Sys2Proof

/-- A granule is 64 bytes (00 section 5.1), and a whole frame's body is at most 1,056 bytes (R161); every other
operand is well formed by its type. -/
def Instr.wellFormed : Instr → Bool
  | .granuleArrival _ _ data _ => data.length == 64
  | .receiveFrame _ _ _ _ body _ => decide (body.length ≤ 1056)
  | _ => true

end Sys2Proof
end

