-- ==== Sys2Proof/Laws/PerInstr.lean ====
section
/-! SUPPORT. One lemma per command about the command as syntax: what its well-formedness asks of its operands (00 section
5.1, R161), and that a request command carries a kind of Table 9-6. -/
namespace Sys2Proof.Laws.WellFormed

/-- What a well-formed command's operands satisfy beyond their types. -/
def Operands : Instr → Prop
  | .granuleArrival _ _ data _ => data.length = 64
  | .receiveFrame _ _ _ _ body _ => body.length ≤ 1056
  | _ => True

/-- The command is well formed exactly where its operands are in range, and if it is a request its kind is one of the 31
of Table 9-6. -/
def Statement (i : Instr) : Prop :=
  (i.wellFormed = true ↔ Operands i)
    ∧ ∀ p k, Machine.requestOf i = some (p, k) → Machine.isRequestKind k.toNat = true

/-- A command whose operands are well formed by their types and which is no request. -/
theorem of_event {i : Instr} (hw : i.wellFormed = true) (ho : Operands i) (hr : Machine.requestOf i = none) : Statement i :=
  ⟨iff_of_true hw ho, fun _ _ h => by rw [hr] at h; cases h⟩

/-- A request command of a kind of Table 9-6. -/
theorem of_request {i : Instr} {p : PortId} {k : Byte} (hw : i.wellFormed = true) (ho : Operands i)
    (hr : Machine.requestOf i = some (p, k)) (hk : Machine.isRequestKind k.toNat = true) : Statement i := by
  refine ⟨iff_of_true hw ho, fun _ _ h => ?_⟩
  rw [hr] at h
  cases h
  exact hk

theorem hardReset (levels : Levels) : Statement (.hardReset levels) := of_event rfl trivial rfl
theorem configLoadComplete : Statement .configLoadComplete := of_event rfl trivial rfl
theorem startUpScanComplete : Statement .startUpScanComplete := of_event rfl trivial rfl
theorem restartTakesEffect : Statement .restartTakesEffect := of_event rfl trivial rfl
theorem fatalLine (d : Dom) (level : Bool) : Statement (.fatalLine d level) := of_event rfl trivial rfl
theorem powerGoodFall (d : Dom) : Statement (.powerGoodFall d) := of_event rfl trivial rfl
theorem powerGoodRise (d : Dom) : Statement (.powerGoodRise d) := of_event rfl trivial rfl
theorem resetRequestEdge (d : Dom) : Statement (.resetRequestEdge d) := of_event rfl trivial rfl
theorem attach : Statement .attach := of_event rfl trivial rfl
theorem detach : Statement .detach := of_event rfl trivial rfl
theorem hang (d : Dom) : Statement (.hang d) := of_event rfl trivial rfl
theorem holdTimerExpiry (d : Dom) : Statement (.holdTimerExpiry d) := of_event rfl trivial rfl
theorem linkRetryTimerExpiry (d : Dom) : Statement (.linkRetryTimerExpiry d) := of_event rfl trivial rfl
theorem trainingExpiry (d : Dom) : Statement (.trainingExpiry d) := of_event rfl trivial rfl
theorem trainingComplete (d : Dom) : Statement (.trainingComplete d) := of_event rfl trivial rfl
theorem targetRetrainRequest (d : Dom) : Statement (.targetRetrainRequest d) := of_event rfl trivial rfl
theorem targetClaim (d : Dom) (read : ReadName) : Statement (.targetClaim d read) := of_event rfl trivial rfl
theorem claimWindowExpiry (d : Dom) (read : ReadName) : Statement (.claimWindowExpiry d read) := of_event rfl trivial rfl
theorem granuleArrival (d : Dom) (read : ReadName) (data : List Byte) (parityGood : Bool) :
    Statement (.granuleArrival d read data parityGood) := by
  refine ⟨by simp [Instr.wellFormed, Operands], fun _ _ h => by cases h⟩
theorem granuleWindowExpiry (d : Dom) (window : WindowName) : Statement (.granuleWindowExpiry d window) := of_event rfl trivial rfl
theorem disconnect (d : Dom) (read : ReadName) : Statement (.disconnect d read) := of_event rfl trivial rfl
theorem targetAbort (d : Dom) (read : ReadName) : Statement (.targetAbort d read) := of_event rfl trivial rfl
theorem programComplete (pos : Fin 8) : Statement (.programComplete pos) := of_event rfl trivial rfl
theorem programFailed (pos : Fin 8) : Statement (.programFailed pos) := of_event rfl trivial rfl
theorem storeReadComplete (pos : Fin 8) (stillHeld : Bool) : Statement (.storeReadComplete pos stillHeld) := of_event rfl trivial rfl
theorem eraseComplete (pos : Fin 8) : Statement (.eraseComplete pos) := of_event rfl trivial rfl
theorem eraseFailed (pos : Fin 8) : Statement (.eraseFailed pos) := of_event rfl trivial rfl
theorem storeSaveEnd (matched : Bool) : Statement (.storeSaveEnd matched) := of_event rfl trivial rfl
theorem intakeStepComplete (d : Dom) : Statement (.intakeStepComplete d) := of_event rfl trivial rfl
theorem agingExpiry (d : Dom) (slot : Fin 16) : Statement (.agingExpiry d slot) := of_event rfl trivial rfl
theorem crashTaken (d : Dom) : Statement (.crashTaken d) := of_event rfl trivial rfl
theorem receiveFrame (p : PortId) (kind : Byte) (tag : Byte) (dm : Byte) (body : List Byte) (crc : BitVec 16) : Statement (.receiveFrame p kind tag dm body crc) := by
  refine ⟨by simp [Instr.wellFormed, Operands], fun _ _ h => by cases h⟩
theorem frameGapTimeout (p : PortId) : Statement (.frameGapTimeout p) := of_event rfl trivial rfl
theorem peerHoldExpiry (p : PortId) : Statement (.peerHoldExpiry p) := of_event rfl trivial rfl
theorem frameSent (p : PortId) : Statement (.frameSent p) := of_event rfl trivial rfl
theorem unknownKind (p : PortId) : Statement (.unknownKind p) := of_event rfl trivial rfl
theorem ident (p : PortId) : Statement (.ident p) := of_request rfl trivial rfl rfl
theorem status (p : PortId) : Statement (.status p) := of_request rfl trivial rfl rfl
theorem arm (p : PortId) : Statement (.arm p) := of_request rfl trivial rfl rfl
theorem disarm (p : PortId) : Statement (.disarm p) := of_request rfl trivial rfl rfl
theorem planAdd (p : PortId) : Statement (.planAdd p) := of_request rfl trivial rfl rfl
theorem planDelete (p : PortId) : Statement (.planDelete p) := of_request rfl trivial rfl rfl
theorem planClear (p : PortId) : Statement (.planClear p) := of_request rfl trivial rfl rfl
theorem planRead (p : PortId) : Statement (.planRead p) := of_request rfl trivial rfl rfl
theorem latchSet (p : PortId) : Statement (.latchSet p) := of_request rfl trivial rfl rfl
theorem latchRead (p : PortId) : Statement (.latchRead p) := of_request rfl trivial rfl rfl
theorem event (p : PortId) : Statement (.event p) := of_request rfl trivial rfl rfl
theorem heartbeat (p : PortId) : Statement (.heartbeat p) := of_request rfl trivial rfl rfl
theorem crash (p : PortId) : Statement (.crash p) := of_request rfl trivial rfl rfl
theorem capture (p : PortId) : Statement (.capture p) := of_request rfl trivial rfl rfl
theorem abort (p : PortId) : Statement (.abort p) := of_request rfl trivial rfl rfl
theorem releaseHold (p : PortId) : Statement (.releaseHold p) := of_request rfl trivial rfl rfl
theorem dir (p : PortId) : Statement (.dir p) := of_request rfl trivial rfl rfl
theorem manifest (p : PortId) : Statement (.manifest p) := of_request rfl trivial rfl rfl
theorem cursor (p : PortId) : Statement (.cursor p) := of_request rfl trivial rfl rfl
theorem read (p : PortId) : Statement (.read p) := of_request rfl trivial rfl rfl
theorem journalRead (p : PortId) : Statement (.journalRead p) := of_request rfl trivial rfl rfl
theorem release (p : PortId) : Statement (.release p) := of_request rfl trivial rfl rfl
theorem protect (p : PortId) : Statement (.protect p) := of_request rfl trivial rfl rfl
theorem verify (p : PortId) : Statement (.verify p) := of_request rfl trivial rfl rfl
theorem linkStatus (p : PortId) : Statement (.linkStatus p) := of_request rfl trivial rfl rfl
theorem counters (p : PortId) : Statement (.counters p) := of_request rfl trivial rfl rfl
theorem configGet (p : PortId) : Statement (.configGet p) := of_request rfl trivial rfl rfl
theorem configSet (p : PortId) : Statement (.configSet p) := of_request rfl trivial rfl rfl
theorem configSave (p : PortId) : Statement (.configSave p) := of_request rfl trivial rfl rfl
theorem configSaveEnd (matched : Bool) : Statement (.configSaveEnd matched) := of_event rfl trivial rfl
theorem view (p : PortId) : Statement (.view p) := of_request rfl trivial rfl rfl
theorem restart (p : PortId) : Statement (.restart p) := of_request rfl trivial rfl rfl
theorem resetRequestFall (d : Dom) : Statement (.resetRequestFall d) := of_event rfl trivial rfl
theorem syncPairFound (p : PortId) : Statement (.syncPairFound p) := of_event rfl trivial rfl
theorem oversize (p : PortId) : Statement (.oversize p) := of_event rfl trivial rfl

end Sys2Proof.Laws.WellFormed
end

