-- ==== Sys2Proof/Tests/Slice0.lean ====
section
/-! SUPPORT. Checks of the model on small inputs: the spec's own examples, each command's main effect, and for each
statement with hypotheses a theorem (its name begins with `met_`) that shows states and operands that meet them, at the
ends of their ranges. -/
namespace Sys2Proof.Tests
open Sys2Proof.Machine

/-! ### Small states -/

/-- Start-up over, both power-goods high, the Service Port attached, 40 erased blocks in the pool. -/
def ready : State :=
  { State.reset with
    startUp := .finished, powerGood := ⟨true, true⟩, service := { State.reset.service with attached := true }
    store := { State.reset.store with pool := List.range 40 } }

/-- As `ready`, domain A in a state with no dump open. -/
def resting (x : DomainState) : State := ready.setDomain .a { ready.domain .a with state := x }

def req (k : Byte) (body : List Byte) : Frame := { kind := k, tag := 7, domain := 0, body := body }

/-- A frame waits at a port. -/
def given (s : State) (p : PortId) (f : Frame) : State := s.setPort p { s.port p with input := [f] }

/-- The state a command leaves; every command answers one. -/
def after (c : Instr) (s : State) : State :=
  match exec c s with
  | .next t => t
  | _ => s

/-- The body of the reply a command leaves last at a port, its status first. -/
def replied (p : PortId) (c : Instr) (s : State) : Option (List Byte) :=
  ((after c s).port p).sending.getLast?.map Frame.body

def region : SectionRecord :=
  { index := 3, kind := .region, state := .active, cause := none, tag := 0x0101, base := 0x7F002F10, label := 0
    atomic := false, planned := 600, floor := 600, admitted := 600, truncated := false, written := 0, startTime := none
    linkMode := none, holes := [], holeOverflow := false, crc := none, delivered := 0 }

def dump (st : DumpState) : DumpEntry :=
  { number := 1, domain := .a, state := st, triggers := [{ cause := .fatalLine, time := 0, code := none }]
    triggerTime := 0, closeTime := none, endCause := none, planGeneration := some 0, wallTime := none
    holdWindow := 90000, holdEnable := true, modeAtOpening := .wide, history := [], historyOverflow := 0
    preDrops := none, postCounts := none, countersAtClose := none
    sections := [fixedSection 0 .latch .done 4096 none, fixedSection 1 .journalPre .done 131072 none,
      fixedSection 2 .journalPost .pending 32768 none, region]
    manifestCheck := none, isProtected := false, fetched := false }

/-- Domain A has dump 1 open, its hold line asserted and its hold timer running. -/
def opened (x : DomainState) (cause : Option EndCause) : State :=
  { ready with
    domains := ⟨{ ready.domain .a with
      state := x, triggerTime := some 0, openDump := some 1, endCause := cause, holdWindow := some 90000
      holdEnable := some true, holdLine := true, holdTimer := some 90000 }, ready.domain .b⟩
    directory := { entries := [dump .opened], nextNumber := 2, verify := none }
    admissions := ⟨some { dump := 1, headerShare := 1, manifestShare := 16, shares := [2, 33, 9, 2] }, none⟩
    store := { ready.store with records := [StoreRecord.new 1] } }

/-- A device with dump 1 closed. -/
def closed : State :=
  { ready with
    directory := { entries := [dump .closed], nextNumber := 2, verify := none }
    store := { ready.store with records := [StoreRecord.new 1] } }

/-! ### Well-formedness -/

theorem test_a_short_granule_is_ill_formed :
    Instr.wellFormed (.granuleArrival .a ⟨0, 0⟩ (List.replicate 63 0) true) = false
    ∧ Instr.wellFormed (.granuleArrival .a ⟨0, 0⟩ (List.replicate 64 0) true) = true := by decide

theorem test_a_long_body_is_ill_formed :
    Instr.wellFormed (.receiveFrame .service 1 0 0 (List.replicate 1057 0) 0) = false
    ∧ Instr.wellFormed (.receiveFrame .service 1 0 0 (List.replicate 1056 0) 0) = true := by decide +kernel

/-! ### The spec's figures -/

/-- 00 section 5.2: the check values of the two CRCs over the digits 1 to 9. -/
theorem test_crc16_check_value : crc16 ((List.range 9).map fun i => BitVec.ofNat 8 (0x31 + i)) = 0x29B1 := by decide +kernel

theorem test_crc32_check_value : crc32 ((List.range 9).map fun i => BitVec.ofNat 8 (0x31 + i)) = 0xCBF43926 := by
  decide +kernel

/-- Table 4-4: the five reads of a section of 600 bytes at 0x7F002F10. -/
theorem test_table_4_4_reads :
    ([0, 48, 240, 496, 560].map fun o => ((cutRead 0x7F002F10 600 o).length, (cutRead 0x7F002F10 600 o).isPartial))
      = [(48, true), (192, false), (256, false), (64, false), (40, true)] := by decide

/-- Table 3-7: the visits of the first pass, R × D = 32,000,000. -/
theorem test_table_3_7_visits :
    let v3 := visit 32000000 { pages := 5955, time := 89710 } { region with planned := 4096, floor := 4096, admitted := 0 }
    let v4 := visit 32000000 v3.budget { region with planned := 1048576, floor := 1048576, admitted := 0 }
    let v5 := visit 32000000 v4.budget { region with planned := 67108864, floor := 4194304, admitted := 0 }
    let v6 := visit 32000000 v5.budget { region with planned := 262144, floor := 262144, admitted := 0 }
    [v3, v4, v5, v6].map (fun v => (v.sect.admitted, v.share, v.budget.pages, v.budget.time))
      = [(4096, 2, 5953, 89709), (1048576, 257, 5696, 89705), (23326720, 5696, 0, 89632), (0, 0, 0, 89632)]
    ∧ v6.sect.cause = some .budgetSpace := by decide +kernel

/-- Table 3-8: the visits of the re-plan after a downshift, R × D = 2,000,000. -/
theorem test_table_3_8_visits :
    let v5 := visit 2000000 { pages := 20000, time := 1000 } { region with planned := 67108864, floor := 1048576 }
    let v6 := visit 2000000 v5.budget { region with planned := 8192, floor := 8192 }
    (v5.sect.admitted, v5.share, v5.budget.pages, v5.budget.time) = (19996672, 4883, 15117, 0)
    ∧ v6.sect.cause = some .budgetTime := by decide +kernel

/-! ### Hypotheses of the statements: the laws -/

theorem met_step_front : ({ ready with pending := [.ident .service, .attach] } : State).pending = .ident .service :: [.attach]
    ∧ ready.pending = [] := by decide

theorem rest_lawful (p : PinLevels) : (Domain.afterReset p).Lawful := by
  constructor <;> simp [Domain.afterReset, Domain.busy]

theorem opened_domain_law (x : DomainState) (k : Option EndCause) (h : x = .harvesting ∧ k = none ∨ x = .closing ∧ k.isSome = true
    ∨ x = .triggered) : (opened x k).DomainLaw := by
  refine ⟨fun d => ?_, fun e => absurd rfl e, fun e => absurd rfl e⟩
  cases d with
  | a =>
    rcases h with ⟨rfl, rfl⟩ | ⟨rfl, h⟩ | rfl
    · constructor <;> decide
    · cases k with
      | none => cases h
      | some k => cases k <;> constructor <;> decide
    · cases k with
      | none => constructor <;> decide
      | some k => cases k <;> constructor <;> decide
  | b => exact rest_lawful _

theorem opened_directory_law (x : DomainState) (k : Option EndCause) : (opened x k).DirectoryLaw := by
  refine ⟨by simp [opened], by simp [opened], ?_, ?_, ?_, ?_⟩
  · intro e he
    obtain rfl := List.mem_singleton.1 he
    show (1 : Num) < 2
    decide
  · intro d n h
    cases d with
    | a =>
      have : n = 1 := by cases h; rfl
      exact ⟨dump .opened, List.mem_singleton.2 rfl, by rw [this]; rfl, rfl, rfl⟩
    | b => cases h
  · intro d
    cases d <;> rfl
  · intro e he _
    obtain rfl := List.mem_singleton.1 he
    rfl

theorem ready_directory_law (x : DomainState) : (resting x).DirectoryLaw := by
  refine ⟨Nat.zero_le _, List.Pairwise.nil, fun e h => (List.not_mem_nil h).elim, ?_, ?_, fun e h => (List.not_mem_nil h).elim⟩
  · intro d n h
    cases d <;> cases h
  · intro d
    cases d <;> rfl

/-- A state of each law that a step leaves: `opened` with a command in front. -/
def moving (c : Instr) : State := { opened .harvesting none with pending := [c] }

theorem met_domain_and_directory_laws :
    (moving (.fatalLine .a true)).DomainLaw ∧ (moving (.fatalLine .a true)).DirectoryLaw
    ∧ ((moving (.fatalLine .a true)).pending.head? = some .startUpScanComplete →
        (moving (.fatalLine .a true)).flash.highest < 0xFFFFFFFF)
    ∧ ∃ t : State, step (moving (.fatalLine .a true)) = .next t :=
  ⟨⟨(opened_domain_law .harvesting none (.inl ⟨rfl, rfl⟩)).1, fun e => absurd rfl e, fun e => absurd rfl e⟩,
    ⟨(opened_directory_law .harvesting none).1, (opened_directory_law .harvesting none).2,
      (opened_directory_law .harvesting none).3, (opened_directory_law .harvesting none).4,
      (opened_directory_law .harvesting none).5, (opened_directory_law .harvesting none).6⟩,
    (fun h => by cases h), _, rfl⟩

/-- The clause about the scan, at an array whose highest dump number is the greatest the device gives. -/
theorem met_directory_law_at_the_scan :
    let s : State := { moving .startUpScanComplete with
      flash := [(0, .programmed { dump := 0xFFFFFFFE, kind := .data, index := 0, seq := 1 } [])] }
    s.pending.head? = some .startUpScanComplete ∧ s.flash.highest < 0xFFFFFFFF := by decide

theorem met_plan_and_settings_laws :
    (moving (.planAdd .service)).PlanLaw ∧ (moving (.planAdd .service)).SettingsLaw
    ∧ ∃ t : State, step (moving (.planAdd .service)) = .next t := by
  refine ⟨fun d => ?_, fun d => ?_, _, rfl⟩
  · cases d <;> exact ⟨by decide, (fun x h => (List.not_mem_nil h).elim), List.nodup_nil⟩
  · cases d <;> constructor <;> decide

theorem ready_journal_law : ready.JournalLaw := by
  intro d
  have h : ∀ i : Fin 16, Slot.unassigned.Lawful := fun _ => ⟨fun _ => ⟨rfl, rfl, rfl, rfl⟩, (fun r h => by cases h)⟩
  cases d <;> refine ⟨by decide, by decide, by decide, by decide, by decide, fun i => ?_⟩ <;>
    · have hi : (Vector.replicate 16 Slot.unassigned)[i] = Slot.unassigned := Vector.getElem_replicate ..
      show ((Vector.replicate 16 Slot.unassigned)[i]).Lawful
      rw [hi]
      exact h i

theorem met_journal_law : ({ ready with pending := [.fatalLine .a true] } : State).JournalLaw
    ∧ ∃ t : State, step { ready with pending := [.fatalLine .a true] } = .next t :=
  ⟨ready_journal_law, _, rfl⟩

/-- An outstanding read of channel 2. -/
def apart (n : Nat) : LinkRead :=
  { number := n, channel := 2, address := 0x7F003000, length := 256, granules := 4, mask := none, locked := false, issueTime := 0
    claimed := true, received := [], mismatch := false }

/-- Link A is UP with two such reads, just above the page that channel 1 holds the lock over. -/
def locked : State :=
  { ready with
    pending := [.powerGoodFall .a]
    links := ⟨{ Link.afterReset with
      state := .up, lockHolder := some { channel := 1, base := 0x7F002000, length := 4096 }
      positions := #v[some (apart 7), some (apart 8)], issued := 9 }, Link.afterReset⟩ }

theorem met_link_law : locked.LinkLaw ∧ ∃ t : State, step locked = .next t := by
  refine ⟨fun d => ?_, _, rfl⟩
  cases d with
  | a =>
    refine ⟨by decide, by decide, by decide, by decide, by decide, fun x hx i r hr => ?_, fun i r hr => ?_⟩
    · obtain rfl := Option.some.inj hx
      have : i = 0 ∨ i = 1 := by omega
      rcases this with rfl | rfl <;>
        · obtain rfl := Option.some.inj hr
          exact .inr (by decide)
    · have two : ∀ k : Fin 2, k = 0 ∨ k = 1 := by decide
      rcases two i with rfl | rfl <;> obtain rfl := Option.some.inj hr <;> refine ⟨by decide, fun k q hq e => ?_⟩ <;>
        rcases two k with rfl | rfl <;> obtain rfl := Option.some.inj hq <;> first | rfl | exact absurd e (by decide)
  | b =>
    have none : ∀ i : Fin 2, (locked.link .b).positions[i] = none := by decide +kernel
    exact ⟨by decide, by decide, by decide, by decide, by decide, (fun x hx => by cases hx),
      fun i r hr => by rw [none i] at hr; cases hr⟩

theorem met_port_law : ({ ready with pending := [.attach] } : State).PortLaw
    ∧ ∃ t : State, step { ready with pending := [.attach] } = .next t := by
  refine ⟨fun p => ?_, _, rfl⟩
  rcases p with _ | d
  · exact ⟨by decide, by decide, by decide⟩
  · cases d <;> exact ⟨by decide, by decide, by decide⟩

/-- A relocation wait of dump 1, and an empty reserve. -/
theorem met_store_law :
    let s : State := { moving (.holdTimerExpiry .a) with
      store := { ready.store with pool := [], waits := [{ dump := 1, atTaking := false, counted := 100 }] } }
    s.StoreLaw ∧ ∃ t : State, step s = .next t :=
  ⟨⟨by decide, by decide, by decide, by decide, by decide, by decide, by decide⟩, _, rfl⟩

/-- `opened` with a record of dump 1 and a spare or none. -/
def recorded (r : StoreRecord) (spares : List Nat) (waits : List RelocationWait) : State :=
  { opened .harvesting none with store := { ready.store with
      records := [r], spares := spares, waits := waits, blocks := [(2, { state := .opened, owner := some 1, nextPage := 1 })] } }

theorem covered_of (st : Store) (h : st.waits.all (fun w => match st.record w.dump with
      | some r => decide (w.counted + (if w.atTaking then r.debt else 0) ≤ 128)
      | none => true) = true) : st.WaitsCovered := by
  intro w hw r hr
  have h := List.all_eq_true.1 h w hw
  rw [hr] at h
  exact of_decide_eq_true h

/-- A claim of one block; a debt of one block, settled with a spare or by a wait; a page that failed on its block's first
page; a wait with 28 pages owed and 100 counted; and an opening. -/
theorem met_claims :
    (∀ s ∈ [recorded (StoreRecord.new 1) [] [], recorded { StoreRecord.new 1 with debt := 128 } [60] [],
        recorded { StoreRecord.new 1 with debt := 128 } [] [],
        recorded { StoreRecord.new 1 with openBlock := some 2, remainder := 127 } [] [],
        recorded { StoreRecord.new 1 with debt := 28 } [] [{ dump := 1, atTaking := true, counted := 100 }], resting .armed],
      s.ClaimLaw ∧ s.store.WaitsCovered)
    ∧ ((recorded (StoreRecord.new 1) [] []).store.place 1 = .pool 0 ∧ (recorded (StoreRecord.new 1) [] []).claim .a = 128
      ∧ (recorded (StoreRecord.new 1) [] []).share .a 3 = 2 ∧ 2 ≤ 1 + ({ region with written := 600 }.written + 4095) / 4096
      ∧ (recorded { StoreRecord.new 1 with debt := 128 } [60] []).store.place 1 = .spare 60
      ∧ (recorded { StoreRecord.new 1 with debt := 128 } [] []).store.place 1 = .wait
      ∧ ((recorded { StoreRecord.new 1 with openBlock := some 2 } [] []).store.block (256 / 128)).nextPage = 1
      ∧ (recorded (StoreRecord.new 1) [] []).admission .b = none ∧ (resting .armed).openingFailure .a = none) := by
  refine ⟨fun s hs => ?_, by decide +kernel⟩
  simp only [List.mem_cons, List.not_mem_nil, or_false] at hs
  rcases hs with rfl | rfl | rfl | rfl | rfl | rfl <;> exact ⟨(by decide +kernel : _ ≤ _), covered_of _ (by decide +kernel)⟩

theorem met_array_canonical :
    let s : State := { moving (.programComplete 0) with flash := [(5, .unreadable), (200, .unreadable)] }
    s.flash.wf = true ∧ ∃ t : State, step s = .next t := ⟨by decide, _, rfl⟩

theorem met_detached_law : ({ State.reset with pending := [.attach] } : State).DetachedLaw
    ∧ State.reset.service.attached = false ∧ ∃ t : State, step { State.reset with pending := [.attach] } = .next t :=
  ⟨⟨fun _ => ⟨rfl, rfl, rfl, rfl, rfl⟩, fun _ => ⟨by decide, fun _ => rfl⟩, fun _ => ⟨rfl, rfl⟩⟩, rfl, _, rfl⟩

/-! ### Requests -/

theorem takes_of {s : State} {p : PortId} {k : Byte} {f : Frame}
    (h : (s.nextFrame p == some f && f.kind == k && s.refusal p f == none) = true) : s.takes p k f := by
  simp only [Bool.and_eq_true, beq_iff_eq] at h
  exact ⟨h.1.1, h.1.2, h.2⟩

/-- The device takes a request of a kind on a port, with an oldest frame of that body. -/
abbrev Taken (s : State) (p : PortId) (k : Byte) (body : List Byte) : Prop :=
  (given s p (req k body)).takes p k (req k body)

/-- Each answer of the tests at kinds on both sides of its bounds, during start-up (`true`) or after it: the kinds that a
port bars and the ones beside them, bodies a byte too short and too long, the domain bytes 0, 1, 2, 0xFE and 0xFF. -/
theorem met_refused_requests :
    ([(false, PortId.platform .a, 0x0E, 0, [], some 0x18), (false, .platform .b, 0x1F, 0, [], some 0x18),
      (false, .platform .a, 0x0D, 0, [1, 2, 3, 4], none), (false, .service, 0x0B, 0, [], some 0x18),
      (false, .service, 0x0D, 0, [], some 0x18), (false, .service, 0x0A, 0, [], none), (false, .service, 0x0E, 0, [], none),
      (false, .platform .a, 0x05, 0, [], some 0x12), (false, .platform .a, 0x0D, 0, [1, 2, 3, 4, 5], some 0x12),
      (false, .platform .a, 0x0B, 0, [1, 1, 0, 1, 0], some 0x12), (false, .platform .a, 0x0B, 0, [1, 1, 0, 1, 0, 0], none),
      (false, .service, 0x1C, 0, [9, 0, 0], some 0x12), (false, .service, 0x1C, 0, [11, 0, 0], none),
      (false, .service, 0x03, 2, [], some 0x12), (false, .service, 0x10, 0xFE, [], some 0x12), (false, .service, 0x03, 0xFF, [], none),
      (false, .service, 0x11, 2, [], none), (false, .service, 0x1C, 2, [8, 0, 0], some 0x12), (false, .service, 0x1C, 2, [11, 0, 0], none),
      (false, .platform .b, 0x03, 0, [], some 0x18), (false, .platform .b, 0x03, 1, [], none),
      (true, .service, 0x01, 0, [], none), (true, .platform .a, 0x0B, 0, [1, 1, 0, 0, 0], none), (true, .service, 0x02, 0, [], some 0x10),
      (true, .service, 0x1F, 0, [], some 0x10), (true, .platform .b, 0x0D, 1, [1, 2, 3, 4], some 0x10),
      (true, .platform .b, 0x0D, 0, [1, 2, 3, 4], some 0x18)].all fun (starting, p, k, x, body, st) =>
        let f : Frame := { req k body with domain := x }
        let s := given (if starting then State.reset else ready) p f
        s.nextFrame p == some f && s.refusal p f == st) = true
    ∧ ([0x00, 0x20, 0x7E].all fun k => (given ready .service (req k [])).nextFrame .service == some (req k [])) = true := by
  decide +kernel

theorem met_nothing_to_do :
    (∀ f, ready.nextFrame .service = some f → f.kind ≠ 0x01) ∧ requestOf (.ident .service) = some (.service, 0x01)
    ∧ (given ready .service (req 0x1F [])).nextFrame .service = some (req 0x1F [])
    ∧ (∀ d, (ready.domain d).holdTimer = none ∧ (ready.domain d).heartbeatTimer = none ∧ (ready.link d).retryTimer = none
        ∧ (ready.link d).state = .down ∧ (ready.link d).positions[(1 : Fin 2)] = none ∧ ready.powerGood.get d = true
        ∧ State.reset.powerGood.get d = false ∧ (ready.journal d).intake = [] ∧ (ready.domain d).resetRequestLevel = false
        ∧ (ready.journal d).slots[(15 : Fin 16)].aging = none ∧ (ready.domain d).busy = false)
    ∧ ((ready.setDomain .a { ready.domain .a with resetRequestLevel := true }).domain .a).resetRequestLevel = true
    ∧ ready.service.attached = true ∧ State.reset.service.attached = false
    ∧ ready.store.inFlight[(7 : Fin 8)] = none ∧ ready.config.save = none ∧ (ready.port .service).line = none
    ∧ (ready.port .service).peerHold = none ∧ (ready.port .service).receiver = .hunting
    ∧ ((ready.setPort .service { Port.afterReset with receiver := .receiving [] }).port .service).receiver ≠ .hunting
    ∧ (ready.port (.platform .a)).processing = none ∧ ready.startUp = .finished ∧ ready.restart = .none :=
  ⟨(fun f h => by cases h), rfl, rfl, (fun d => by cases d <;> decide), rfl, rfl, rfl, by decide, rfl, rfl, rfl, rfl, by decide,
    rfl, rfl, rfl⟩

theorem met_reports : Taken ready .service 0x01 [] ∧ Taken ready (.platform .b) 0x02 [] ∧ Taken ready .service 0x1A []
    ∧ Taken ready .service 0x1B [] :=
  ⟨takes_of (by decide), takes_of (by decide), takes_of (by decide), takes_of (by decide)⟩

/-- Start indexes 47 and 48. -/
theorem met_plan_read : Taken ready .service 0x08 [47] ∧ Taken ready (.platform .a) 0x08 [48]
    ∧ field [47] 0 1 = 47 ∧ field [48] 0 1 = 48 := ⟨takes_of (by decide), takes_of (by decide), by decide, by decide⟩

/-- Starts at and above the next sequence 1, and counts 0, 1, 16 and 17. -/
theorem met_journal_read : Taken ready .service 0x15 [1, 0, 0, 0, 0] ∧ Taken ready .service 0x15 [2, 0, 0, 0, 1]
    ∧ Taken ready .service 0x15 [0, 0, 0, 0, 16] ∧ Taken ready .service 0x15 [0, 0, 0, 0, 17]
    ∧ (ready.journal .a).bound = 1 ∧ ready.JournalLaw :=
  ⟨takes_of (by decide), takes_of (by decide), takes_of (by decide), takes_of (by decide), by decide, ready_journal_law⟩

/-- Sections 3, the last, and 4; the forms 0, 1 and 2; and no dump. -/
theorem met_dir_and_manifest : Taken closed .service 0x11 [] ∧ Taken closed .service 0x12 [1, 0, 0, 0, 0, 3]
    ∧ Taken closed .service 0x12 [1, 0, 0, 0, 1, 3] ∧ Taken closed .service 0x12 [1, 0, 0, 0, 1, 4]
    ∧ Taken closed .service 0x12 [1, 0, 0, 0, 2, 0] ∧ Taken closed .service 0x12 [2, 0, 0, 0, 0, 0]
    ∧ closed.dump 1 = some (dump .closed) ∧ closed.dump 2 = none ∧ (dump .closed).sections.length - 1 = 3 :=
  ⟨takes_of (by decide), takes_of (by decide), takes_of (by decide), takes_of (by decide), takes_of (by decide),
    takes_of (by decide), rfl, rfl, rfl⟩

theorem met_arm_disarm_heartbeat :
    Taken (resting .disarmed) .service 0x03 [] ∧ Taken (resting .settled) .service 0x03 [] ∧ Taken (resting .armed) .service 0x03 []
    ∧ Taken (opened .closing (some .aborted)) .service 0x03 [] ∧ Taken (resting .armed) .service 0x04 []
    ∧ Taken (resting .settled) .service 0x04 [] ∧ Taken (resting .disarmed) .service 0x04 []
    ∧ Taken (resting .armed) (.platform .a) 0x0C [] ∧ Taken (resting .settled) (.platform .a) 0x0C [0, 0, 0, 0, 0, 0, 0, 1]
    ∧ Taken (resting .disarmed) (.platform .a) 0x0C [] :=
  ⟨takes_of (by decide), takes_of (by decide), takes_of (by decide), takes_of (by decide), takes_of (by decide),
    takes_of (by decide), takes_of (by decide), takes_of (by decide), takes_of (by decide), takes_of (by decide)⟩

/-! ### Triggers and harvest ends -/

theorem met_line_and_timer_triggers :
    (resting .armed).DirectoryLaw ∧ ((resting .armed).domain .a).state = .armed ∧ (resting .armed).openingFailure .a = none
    ∧ ((resting .armed).domain .a).fatalLevel = false
    ∧ ∃ s : State, s.DirectoryLaw ∧ (s.domain .a).state = .armed ∧ s.openingFailure .a = none
      ∧ (s.domain .a).heartbeatTimer = some 30000 := by
  refine ⟨ready_directory_law _, rfl, by decide +kernel, rfl,
    (resting .armed).setDomain .a { (resting .armed).domain .a with heartbeatTimer := some 30000 }, ?_, rfl,
    by decide +kernel, rfl⟩
  have h := ready_directory_law .armed
  exact ⟨h.1, h.2, h.3, (fun d n e => by cases d <;> cases e), (fun d => by cases d <;> rfl),
    (fun e h => (List.not_mem_nil h).elim)⟩

/-- Domain A is ARMED with an expiry of its heartbeat timer, and the pool is empty. -/
def spaceless : State :=
  { (resting .armed).setDomain .a { (resting .armed).domain .a with heartbeatTimer := some 30000 } with
    store := { ready.store with pool := [] } }

theorem met_request_triggers :
    (resting .armed).DirectoryLaw ∧ (given (resting .armed) .service (req 0x0E [])).openingFailure .a = none
    ∧ Taken (resting .armed) .service 0x0E [] ∧ Taken (resting .settled) .service 0x0E []
    ∧ Taken (resting .armed) (.platform .a) 0x0D [1, 2, 3, 4] ∧ ((resting .armed).journal .a).intake = []
    ∧ (∃ s : State, s.takes (.platform .a) 0x0D (req 0x0D [1, 2, 3, 4]) ∧ (s.journal .a).intake ≠ [])
    ∧ (∃ s : State, s.takes (.platform .a) 0x0D (req 0x0D [1, 2, 3, 4]) ∧ (s.journal .a).intake ≠ []
      ∧ s.openingFailure .a = some .noSpace)
    ∧ (∃ s : State, (s.port (.platform .a)).processing = some (.crash 5)
      ∧ (s.port (.platform .a)).input = [req 0x0D [5, 0, 0, 0]] ∧ (s.port (.platform .a)).reserved = 1
      ∧ (s.journal .a).intake = [] ∧ (s.domain .a).state = .armed ∧ s.openingFailure .a = none) := by
  refine ⟨ready_directory_law _, by decide +kernel, takes_of (by decide), takes_of (by decide), takes_of (by decide), rfl,
    ⟨given ((resting .armed).setJournal .a { (resting .armed).journal .a with
        intake := [triggerRecord .manual none 0 0], intakeStep := true }) (.platform .a) (req 0x0D [1, 2, 3, 4]),
      takes_of (by decide), by decide⟩,
    ⟨given (spaceless.setJournal .a { spaceless.journal .a with
        intake := [triggerRecord .manual none 0 0], intakeStep := true }) (.platform .a) (req 0x0D [1, 2, 3, 4]),
      takes_of (by decide), by decide, by decide +kernel⟩,
    ⟨(resting .armed).setPort (.platform .a) { Port.afterReset with
        processing := some (.crash 5), input := [req 0x0D [5, 0, 0, 0]], reserved := 1 },
      rfl, rfl, rfl, rfl, rfl, by decide +kernel⟩⟩

/-- A CRASH with code 5 held at platform port A. -/
def holding (s : State) : State := s.setPort (.platform .a) { Port.afterReset with
  processing := some (.crash 5), input := [req 0x0D [5, 0, 0, 0]], reserved := 1 }

/-- DISARMED, CLOSING and SETTLED; 7 and 8 triggers held; a failed opening by each cause; a refused CAPTURE; and a CRASH in
each state, at once and held at its port. -/
theorem met_triggers_that_open_nothing :
    ((resting .disarmed).domain .a).fatalLevel = false ∧ ((resting .settled).domain .a).state = .settled
    ∧ ((opened .closing (some .aborted)).domain .a).state = .closing
    ∧ ([7, 8].all fun n =>
        let s : State := { opened .harvesting none with
          directory := { entries := [{ dump .opened with
            triggers := List.replicate n { cause := .fatalLine, time := 0, code := none } }], nextNumber := 2, verify := none } }
        (s.openEntry .a).map (fun e => e.triggers.length) == some n) = true
    ∧ spaceless.openingFailure .a = some .noSpace ∧ (spaceless.domain .a).state = .armed
    ∧ (spaceless.domain .a).heartbeatTimer = some 30000
    ∧ Taken (resting .disarmed) .service 0x0E [] ∧ Taken (opened .triggered none) .service 0x0E []
    ∧ Taken spaceless .service 0x0E []
    ∧ (∀ s ∈ [resting .disarmed, resting .settled, opened .closing (some .aborted), opened .triggered none, opened .harvesting none,
        spaceless], Taken s (.platform .a) 0x0D [1, 2, 3, 4] ∧ (s.journal .a).intake = []
        ∧ (holding s).domain .a = s.domain .a ∧ (holding s).openingFailure .a = s.openingFailure .a
        ∧ ((holding s).journal .a).intake = [] ∧ ((holding s).port (.platform .a)).processing = some (.crash 5)
        ∧ ((holding s).port (.platform .a)).reserved = 1
        ∧ ((holding s).port (.platform .a)).input.head? = some (req 0x0D [5, 0, 0, 0])) := by
  refine ⟨rfl, rfl, rfl, by decide, by decide +kernel, rfl, rfl, takes_of (by decide), takes_of (by decide), takes_of (by decide),
    fun s hs => ?_⟩
  simp only [List.mem_cons, List.not_mem_nil, or_false] at hs
  rcases hs with rfl | rfl | rfl | rfl | rfl | rfl <;>
    exact ⟨takes_of (by decide), rfl, rfl, rfl, rfl, rfl, rfl, rfl⟩

theorem met_harvest_ends :
    (opened .harvesting none).DirectoryLaw ∧ ((opened .harvesting none).domain .a).holdTimer = some 90000
    ∧ ((opened .harvesting none).domain .a).openDump = some 1 ∧ ((opened .triggered none).domain .a).state = .triggered
    ∧ (opened .harvesting none).powerGood.get .a = true
    ∧ (∃ s : State, s.DirectoryLaw ∧ (s.link .a).state = .training ∧ (s.link .a).trainingExpiry = some 5)
    ∧ Taken (opened .harvesting none) .service 0x0F [] ∧ Taken (opened .triggered none) .service 0x0F []
    ∧ Taken (opened .closing (some .complete)) .service 0x0F [] ∧ Taken (resting .armed) .service 0x0F []
    ∧ Taken (opened .harvesting none) .service 0x10 [] ∧ Taken (opened .closing (some .complete)) .service 0x10 []
    ∧ Taken (resting .settled) .service 0x10 [] := by
  have h := opened_directory_law .harvesting none
  exact ⟨h, rfl, rfl, rfl, rfl,
    ⟨(opened .harvesting none).setLink .a { Link.afterReset with state := .training, trainingExpiry := some 5 },
      ⟨h.1, h.2, h.3, (fun d n e => h.4 d n e), (fun d => h.5 d), (fun e he hs => h.6 e he hs)⟩, rfl, rfl⟩,
    takes_of (by decide), takes_of (by decide), takes_of (by decide), takes_of (by decide), takes_of (by decide),
    takes_of (by decide), takes_of (by decide)⟩

/-! ### Plans, journals and slots -/

/-- A PLAN ADD body. -/
def addBody (tag base length priority : Nat) (floor : Option Nat) (atomic : Bool) : List Byte :=
  le 2 tag ++ le 8 base ++ le 8 length ++ le 1 priority ++ le 8 (floor.getD 0)
    ++ le 1 ((if atomic then 1 else 0) + (if floor.isSome then 2 else 0)) ++ le 1 0

/-- Plans of 47 and 48 entries. -/
def planned (n : Nat) : State :=
  ready.setPlan .a { generation := 9, entries := (List.range n).map fun i =>
    { tag := BitVec.ofNat 16 (i + 1), base := 0, length := 64, priority := 1, floor := 64, atomic := false, label := 0 } }

/-- The longest length, the last byte of the address space and priority 7 against one more; held and free tags; 47 and
48 entries. -/
theorem met_plan_add :
    Taken (planned 47) .service 0x05 (addBody 100 0 (2 ^ 36) 7 (some 1) false)
    ∧ Taken (planned 47) .service 0x05 (addBody 100 (2 ^ 48 - 1) 1 8 none true)
    ∧ Taken (planned 48) .service 0x05 (addBody 100 0 4096 0 (some 4096) true)
    ∧ Taken (planned 48) .service 0x05 (addBody 48 0 64 0 none false)
    ∧ Taken (planned 48) .service 0x05 (addBody 100 0 (2 ^ 36 + 1) 0 none false)
    ∧ (addFields (addBody 100 (2 ^ 48 - 1) 2 8 none true)).outOfRange = true
    ∧ (addFields (addBody 100 (2 ^ 48 - 1) 1 8 none true)).outOfRange = false
    ∧ (addFields (addBody 100 0 (2 ^ 36) 7 (some 1) false)).outOfRange = false
    ∧ (addFields (addBody 100 1 4096 0 none true)).outOfRange = true :=
  ⟨takes_of (by decide +kernel), takes_of (by decide +kernel), takes_of (by decide +kernel), takes_of (by decide +kernel),
    takes_of (by decide +kernel), by decide +kernel, by decide +kernel, by decide +kernel, by decide +kernel⟩

theorem met_plan_delete_and_clear :
    Taken (planned 48) .service 0x06 [48, 0] ∧ Taken (planned 48) .service 0x06 [0, 0] ∧ Taken ready (.platform .a) 0x07 []
    ∧ Taken (planned 48) .service 0x07 []
    ∧ (∃ before y, ((planned 48).plan .a).entries = before ++ [y] ∧ y.tag = 48 ∧ ∀ z ∈ before, z.tag ≠ 48)
    ∧ (∀ y ∈ ((planned 48).plan .a).entries, y.tag ≠ 0) :=
  ⟨takes_of (by decide +kernel), takes_of (by decide +kernel), takes_of (by decide), takes_of (by decide +kernel),
    ⟨((planned 48).plan .a).entries.dropLast, _, rfl, rfl, by decide +kernel⟩, by decide +kernel⟩

/-- Origin 14 and 15, classes 0, 1, 254 and 255, severity 3 and 4, length 48; 22, 23, 31 and 32 records waiting. -/
theorem met_event :
    Taken ready (.platform .a) 0x0B [14, 1, 3, 0, 0] ∧ Taken ready (.platform .a) 0x0B [15, 1, 0, 0, 0]
    ∧ Taken ready (.platform .a) 0x0B [0, 0, 0, 0, 0] ∧ Taken ready (.platform .a) 0x0B [0, 255, 0, 0, 0]
    ∧ Taken ready (.platform .a) 0x0B [0, 254, 4, 0, 0]
    ∧ Taken ready (.platform .a) 0x0B ([0, 254, 0, 48] ++ List.replicate 49 0)
    ∧ Taken ready (.platform .a) 0x0B ([0, 254, 0, 49] ++ List.replicate 50 0)
    ∧ ([22, 23, 31, 32].all fun n =>
        let s := given (ready.setJournal .a { ready.journal .a with
          intake := List.replicate n (triggerRecord .manual none 0 0), intakeStep := true }) (.platform .a) (req 0x0B [14, 1, 3, 0, 0])
        (s.journal .a).intake.length == n && s.nextFrame (.platform .a) == some (req 0x0B [14, 1, 3, 0, 0])) = true :=
  ⟨takes_of (by decide), takes_of (by decide), takes_of (by decide), takes_of (by decide), takes_of (by decide),
    takes_of (by decide +kernel), takes_of (by decide +kernel), by decide +kernel⟩

def filled (n k : Nat) (q : Option Num) : Journal :=
  { Journal.afterReset with
    ring := (List.range n).map fun i => { triggerRecord .manual none 0 0 with sequence := BitVec.ofNat 32 (i + 1) }
    intake := List.replicate k (triggerRecord .manual none 0 0), intakeStep := true, nextSequence := q }

/-- A pre-trigger copy whose window starts at sequence 1. -/
def copying (count : Nat) : Copy :=
  { kind := .pre, dump := 1, first := 1, count := count, copied := 0, headerPassed := false, drops := 0
    crc := 0xFFFFFFFF, mark := 1, postEnd := 0, postLost := 0, postOverflow := 0, began := 0 }

/-- 4,095 and 4,096 records held; the last sequence; 9 records waiting, so that 8 stay, and 1.  A copy in flight over a
ring of 4,095 records; copies in flight over a full ring, of 0 records, and of 1 with that one copied, which need none;
and one of 1 that needs the oldest. -/
theorem met_intake_step :
    ([filled 4095 9 (some 4096), filled 4096 1 (some 4097), filled 0 2 (some 0xFFFFFFFF), filled 1 9 none].all fun j =>
      (j.ring.length == 4095 || j.ring.length == 4096 || j.ring.length ≤ 1) && j.intakeStep && !j.intake.isEmpty
        && j.copier == none && !j.oldestNeeded) = true
    ∧ ([({ filled 4095 9 (some 4096) with copier := some (copying 1) }, true),
        ({ filled 4096 9 (some 4097) with copier := some (copying 0) }, false),
        ({ filled 4096 9 (some 4097) with copier := some { copying 1 with copied := 1 } }, false),
        ({ filled 4096 9 (some 4097) with copier := some (copying 1) }, true)].all fun x =>
      x.1.intakeStep && !x.1.intake.isEmpty && x.1.nextSequence.isSome && x.1.copier.isSome
        && x.1.oldestNeeded == x.2) = true := by
  constructor <;> decide +kernel

/-- An exhausted journal, and copies of 1 and of 2,048 records that still need the oldest one. -/
theorem met_dropped_records :
    (filled 3 0 none).nextSequence = none
    ∧ ∀ n ∈ [1, 2048], ∃ (j : Journal) (c : Copy) (o : EventRecord), 4096 ≤ j.ring.length ∧ j.copier = some c
      ∧ j.ring.head? = some o ∧ c.count = n ∧ c.first.toNat + c.copied ≤ o.sequence.toNat
      ∧ o.sequence.toNat < c.first.toNat + c.count := by
  have hl : 4096 ≤ (filled 4096 0 (some 4097)).ring.length := by decide +kernel
  have hh : (filled 4096 0 (some 4097)).ring.head? = some { triggerRecord .manual none 0 0 with sequence := 1 } := by
    decide +kernel
  generalize filled 4096 0 (some 4097) = j at hl hh
  refine ⟨rfl, fun n hn => ⟨{ j with copier := some (copying n) }, copying n, _, hl, rfl, hh, rfl, Nat.le_refl 1, ?_⟩⟩
  simp only [List.mem_cons, List.not_mem_nil, or_false] at hn
  rcases hn with rfl | rfl <;> decide

/-- Slots 15 and 16, classes 254 and 255, and a running aging expiry. -/
theorem met_latch_slots :
    Taken ready .service 0x09 [15, 254, 1] ∧ Taken ready .service 0x09 [16, 1, 0] ∧ Taken ready .service 0x09 [0, 255, 0]
    ∧ Taken ready .service 0x0A []
    ∧ ({ Journal.afterReset with slots := Journal.afterReset.slots.set 15 { Slot.unassigned with
        slotClass := 1, record := some (triggerRecord .manual none 0 0), aging := some 60001 } } : Journal).slots[(15 : Fin 16)].aging
      = some 60001 :=
  ⟨takes_of (by decide), takes_of (by decide), takes_of (by decide), takes_of (by decide), by decide⟩

/-! ### Links, channels and sections -/

/-- A read of channel 0 on link A, claimed or not, with granules received. -/
def linkRead (claimed : Bool) (received : Nat) (mismatch : Bool) : LinkRead :=
  { number := 5, channel := 0, address := 0x7F003000, length := 256, granules := 4, mask := none, locked := false, issueTime := 0
    claimed := claimed, received := List.replicate received (List.replicate 64 1), mismatch := mismatch }

/-- Link A is UP with that read at position 0. -/
def reading (r : LinkRead) (downshifts : Byte) (mode : Mode) : State :=
  ready.setLink .a { Link.afterReset with
    state := .up, mode := mode, positions := Vector.replicate 2 (some r), issued := 6, downshifts := downshifts }

theorem met_trainings :
    (∃ s : State, (s.link .a).state = .training) ∧ (ready.link .a).state = .down ∧ ready.powerGood.get .a = true
    ∧ (∃ s : State, (s.link .a).retryTimer = some 100 ∧ (s.link .a).state = .down ∧ s.powerGood.get .a = true)
    ∧ (∃ s : State, (s.link .a).retryTimer = some 100 ∧ s.powerGood.get .a = false)
    ∧ State.reset.powerGood.get .a = false ∧ ((reading (linkRead true 0 false) 0 .wide).link .a).state = .up :=
  ⟨⟨ready.setLink .a { Link.afterReset with state := .training }, rfl⟩, rfl, rfl,
    ⟨ready.setLink .a { Link.afterReset with retryTimer := some 100 }, rfl, rfl, rfl⟩,
    ⟨State.reset.setLink .a { Link.afterReset with retryTimer := some 100 }, rfl, rfl⟩, rfl, rfl⟩

/-- Unclaimed and claimed reads; 2 granules received, so that one more is not the last, and 3; the downshift count one
below the last that the threshold lets pass; and SINGLE mode. -/
theorem met_outstanding_reads :
    ((reading (linkRead false 0 false) 0 .wide).link .a).positions[(0 : Fin 2)] = some (linkRead false 0 false)
    ∧ ((reading (linkRead true 2 false) 0 .wide).link .a).positions[(1 : Fin 2)] = some (linkRead true 2 false)
    ∧ (linkRead true 2 false).received.length + 1 < (linkRead true 2 false).granules
    ∧ (linkRead true 3 false).granules ≤ (linkRead true 3 false).received.length + 1
    ∧ (linkRead true 3 false).received ≠ [] ∧ (linkRead true 0 false).received = []
    ∧ (satByte 2).toNat < (ready.settings .a).threshold ∧ (ready.settings .a).threshold = (satByte 3).toNat
    ∧ ((reading (linkRead true 3 true) 9 .single).link .a).mode = .single
    ∧ (linkRead true 1 true).received ≠ [] ∧ (linkRead true 1 true).mismatch = true
    ∧ (linkRead true 2 false).number = 5 ∧ 1 ≠ (linkRead true 2 false).received.length :=
  ⟨rfl, rfl, by decide, by decide, by decide, rfl, by decide, by decide, rfl, by decide, rfl, rfl, by decide⟩

/-- The downshift count at the threshold and at 255, in WIDE and NARROW mode; a last granule after an earlier mismatch and
without one, and a disconnect after one; each read in both positions and in one. -/
theorem met_downshift : (ready.settings .a).threshold ≤ (satByte 3).toNat ∧ (ready.settings .a).threshold ≤ (satByte 255).toNat
    ∧ Mode.wide.narrower = some .narrow ∧ Mode.narrow.narrower = some .single
    ∧ (linkRead true 3 true).mismatch = true ∧ (linkRead true 3 false).granules ≤ (linkRead true 3 false).received.length + 1
    ∧ (linkRead true 1 true).received ≠ [] ∧ (linkRead true 1 true).mismatch = true
    ∧ (∀ i : Fin 2, i ≠ 0 → (((reading (linkRead true 3 true) 3 .wide).setLink .a { Link.afterReset with
        positions := #v[some (linkRead true 3 true), none] }).link .a).positions[i] = none) := by decide

/-- Channel 0 FETCHING section 3 of dump 1 with its first read outstanding, at an attempt count and failure run. -/
def fetching (attempts run : Nat) : State :=
  (opened .harvesting none).setChannel 0 { Channel.idle with
    state := .fetching, job := some { dump := 1, index := 3, domain := .a, base := 0x7F002F10, admitted := 600, atomic := false }
    retryLimit := 3, fetchPos := 48, failureRun := run
    hand := [{ offset := 0, length := 48, isPartial := true, attempts := attempts, outstanding := true }] }

/-- As `fetching`, of a section of so many admitted bytes. -/
def fetchingOf (admitted attempts run : Nat) : State :=
  (fetching attempts run).setChannel 0 { (fetching attempts run).channel 0 with
    job := some { dump := 1, index := 3, domain := .a, base := 0x7F002F10, admitted := admitted, atomic := false } }

/-- Attempts 1 and 2 of a retry limit of 3; failure runs 0, 14 and 15; the read the section's last and not; each state that
has a read in hand; and bytes of 1, 47 and 48. -/
theorem met_outcomes : (∀ x ∈ [(1, 0), (2, 14), (2, 15)], ∀ n ∈ [48, 49, 600], ∀ st ∈ [ChannelState.fetching, .stalled, .ending],
    let s := (fetchingOf n x.1 x.2).setChannel 0 { (fetchingOf n x.1 x.2).channel 0 with state := st }
    let ch := s.channel 0
    ch.state = st ∧ ch.job.isSome = true ∧ s.sect 1 3 = some region
    ∧ ch.handled = 0 ∧ ch.above = [] ∧ ch.holesAbove = [] ∧ ch.handled + 48 ≤ n ∧ ch.failureRun < 16
    ∧ ch.hand.map (fun h => (h.outstanding, h.offset, h.length)) = [(true, 0, 48)]
    ∧ (ch.hand.map HandRead.attempts = [1] ∧ 2 < ch.retryLimit ∨ ch.retryLimit ≤ x.1 + 1))
    ∧ ([1, 47, 48].map fun n => (List.replicate n (7 : Byte)).length) = [1, 47, 48] := by
  decide +kernel

/-- Channel 0 ENDING section 3 with so many bytes handled, pages given and pages passed. -/
def ending (why : Ending) (handled given passed : Nat) : State :=
  (opened .harvesting none).setChannel 0 { (fetching 1 0).channel 0 with
    state := .ending, ending := some why, hand := [], handled := handled, given := given, passed := passed }

/-- Nothing written, a page's bytes exactly and one more, with no page, one and two to pass. -/
theorem met_section_ends : ∀ why ∈ [Ending.full, .short .unreachable], ∀ x ∈ [(0, 0, 0), (0, 2, 0), (4096, 1, 0), (4097, 2, 1), (4097, 2, 0)],
    let s := ending why x.1 x.2.1 x.2.2
    (s.channel 0).state = .ending ∧ (s.channel 0).job.isSome = true ∧ (s.channel 0).ending = some why ∧ (s.channel 0).hand = []
    ∧ s.sect 1 3 = some region ∧ region.kind = .region ∧ (s.channel 0).handled ≤ 4096 * (s.channel 0).given
    ∧ (s.admission .a).map (fun a => (a.dump, decide (3 < a.shares.length))) = some (1, true) := by decide +kernel

/-- R74, R76: a section that ends short passes the page of its last written byte, takes its state and cause, and keeps the share
of its written pages; its notice is sent. -/
theorem test_section_end :
    let t := ((ending (.short .unreachable) 4097 3 1).finishStep 0).getD ready
    t.store.programs = [.page (dataKey 1 3 2)] ∧ t.share .a 3 = 3
    ∧ (t.sect 1 3).map (fun x => (x.state, x.cause, x.written)) = some (.partly, some .unreachable, 4097)
    ∧ (t.port .service).sending.map (fun f => (f.kind, f.body.take 9)) = [(0xC1, [1, 0, 0, 0, 3, 1, 1, 4, 3])] := by decide +kernel

/-- R72: the 16th hole in a row ends the section UNREACHABLE, and R66 the one that handles its last byte ends it DONE (log 15). -/
theorem test_section_ends_at_the_run :
    (((fetchingOf 600 2 15).deliver 0 0x7F002F10 .stall).channel 0).ending = some (.short .unreachable)
    ∧ (((fetchingOf 48 2 15).deliver 0 0x7F002F10 .stall).channel 0).ending = some .full := by decide +kernel

/-- `fetching` with its read outstanding on link A, which is UP. -/
def fetched : State :=
  { (fetching 1 0).setLink .a { Link.afterReset with
      state := .up, mode := .wide
      issued := 6
      positions := #v[some { number := 5, channel := 0, address := 0x7F002F10, length := 48, granules := 1, mask := none, locked := false
                             issueTime := 0, claimed := false, received := [], mismatch := false }, none] } with
    pending := [.targetClaim .a ⟨0, 5⟩] }

theorem lawful_sections : ∀ x ∈ (dump .opened).sections, x.Lawful := by
  intro x hx
  simp only [dump, List.mem_cons, List.not_mem_nil, or_false] at hx
  rcases hx with rfl | rfl | rfl | rfl <;>
    exact ⟨by decide, by decide, by decide, by decide, by decide, List.Pairwise.nil, (fun _ h => (List.not_mem_nil h).elim), by decide⟩

theorem fetched_section_law : fetched.SectionLaw := by
  have idle : ∀ c : Fin 4, c ≠ 0 → (fetched.channel c).job = none := by decide +kernel
  have job : ∀ c j, (fetched.channel c).job = some j → c = 0
      ∧ j = { dump := 1, index := 3, domain := .a, base := 0x7F002F10, admitted := 600, atomic := false } := by
    intro c j h
    by_cases hc : c = 0
    · subst hc
      exact ⟨rfl, (Option.some.inj h).symm⟩
    · rw [idle c hc] at h
      cases h
  refine ⟨?_, ?_, by decide +kernel, ?_, ?_, ?_, ?_, ?_, ?_, fun h => absurd rfl h⟩
  · intro e he
    obtain rfl := List.mem_singleton.1 he
    exact lawful_sections
  · intro e he _
    obtain rfl := List.mem_singleton.1 he
    refine ⟨rfl, fun i x h => ?_⟩
    match i, h with
    | 0, h => obtain rfl := Option.some.inj h; rfl
    | 1, h => obtain rfl := Option.some.inj h; rfl
    | 2, h => obtain rfl := Option.some.inj h; rfl
    | 3, h => obtain rfl := Option.some.inj h; rfl
    | i + 4, h => cases h
  · intro c j h
    obtain ⟨rfl, rfl⟩ := job c j h
    refine ⟨by decide, fun x hx => ?_, by decide, ?_, List.pairwise_singleton ..,
      fun _ h => (List.not_mem_nil h).elim, List.Pairwise.nil, fun _ _ _ h => (List.not_mem_nil h).elim,
      fun _ h => (List.not_mem_nil h).elim, List.Pairwise.nil⟩
    · obtain rfl := Option.some.inj hx
      decide
    · intro r hr
      obtain rfl := List.mem_singleton.1 hr
      decide
  · intro c e j k h h' _ _
    rw [(job c j h).1, (job e k h').1]
  · intro d i r h
    cases d with
    | a =>
      have : i = 0 ∨ i = 1 := by omega
      rcases this with rfl | rfl
      · obtain rfl := Option.some.inj h
        exact ⟨by decide, _, _, rfl, rfl, List.mem_singleton.2 rfl, rfl, by decide, rfl⟩
      · cases h
    | b =>
      rw [(by decide +kernel : ∀ i : Fin 2, (fetched.link .b).positions[i] = none) i] at h
      cases h
  · intro d r q h h'
    cases d <;> cases h'
  · intro d c h
    cases d <;> cases h
  · intro r hr
    cases hr

theorem met_section_law : fetched.DomainLaw ∧ fetched.DirectoryLaw ∧ fetched.SectionLaw
    ∧ fetched.pending.head? ≠ some .startUpScanComplete ∧ ∃ t : State, step fetched = .next t :=
  ⟨⟨(opened_domain_law .harvesting none (.inl ⟨rfl, rfl⟩)).1, fun e => absurd rfl e, fun e => absurd rfl e⟩,
    ⟨(opened_directory_law .harvesting none).1, (opened_directory_law .harvesting none).2,
      (opened_directory_law .harvesting none).3, (opened_directory_law .harvesting none).4,
      (opened_directory_law .harvesting none).5, (opened_directory_law .harvesting none).6⟩,
    fetched_section_law, by decide, _, rfl⟩

/-- The clause about the scan, which finds a header page of dump 5 and no section of it. -/
theorem met_section_law_at_the_scan :
    let s : State := { State.reset with
      startUp := .scan, pending := [.startUpScanComplete], flash := [(256, .programmed (dumpHeaderKey 5) [])] }
    ∃ t : State, step s = .next t ∧ t.directory.entries.length = 1
      ∧ ∀ e ∈ t.directory.entries, ∀ x ∈ e.sections, x.Lawful := by
  refine ⟨_, rfl, by decide +kernel, fun e he x hx => ?_⟩
  rw [(by decide +kernel : ∀ e ∈ State.directory _ |>.entries, e.sections = []) e he] at hx
  exact (List.not_mem_nil hx).elim

theorem met_cut_reads : (599 < 600) ∧ (0 < 1) := by decide

def holes (n : Nat) : List Hole := (List.range n).map fun i => { offset := 128 * i, length := 64, cause := .stall }

/-- Lists of 0, 31 and 32 holes; a hole that joins the last one and one that does not. -/
theorem met_hole_lists : ∀ n ∈ [0, 31, 32],
    (holes n).length ≤ 32 ∧ (holes n).Pairwise (fun x y => x.offset + x.length ≤ y.offset) ∧ (∀ x ∈ holes n, 1 ≤ x.length)
    ∧ (∀ x ∈ holes n, x.offset + x.length ≤ 4032) := by
  intro n hn
  simp only [List.mem_cons, List.not_mem_nil, or_false] at hn
  rcases hn with rfl | rfl | rfl <;> decide +kernel

theorem met_snapshots : ∀ x ∈ ((planned 48).plan .a).entries, x.priority ≤ 7 := by decide +kernel

theorem met_visits : 0 < 2000000 ∧ 1 ≤ region.floor ∧ region.floor ≤ region.planned := by decide

/-! ### The store -/

def dataKey3 : PageKey := { dump := 1, kind := .data, index := 3, seq := 1 }

/-- `s` with an operation in flight at position 7. -/
def busy (s : State) (op : StoreOp) : State :=
  { s with store := { s.store with inFlight := s.store.inFlight.set 7 (some op) } }

/-- A data page; a manifest page of a dump its domain is CLOSING, with another page missing, and of a dump no domain is
CLOSING; and a mark. -/
theorem met_completed_programs :
    (busy (opened .harvesting none) (.program (.page dataKey3) 300)).store.inFlight[(7 : Fin 8)] = some (.program (.page dataKey3) 300)
    ∧ dataKey3.kind ≠ .dumpHeader ∧ dataKey3.kind ≠ .manifest
    ∧ (∀ x ∈ [DomainState.closing, .harvesting],
      let s := busy (opened x (some .complete)) (.program (.page (manifestKey 1 0)) 300)
      s.store.inFlight[(7 : Fin 8)] = some (.program (.page (manifestKey 1 0)) 300) ∧ (manifestKey 1 0).kind = .manifest
      ∧ (s.domain .a).state = x ∧ s.dump 1 = some (dump .opened) ∧ (s.domain .a).openDump = some 1
      ∧ ∃ q < 16, manifestKey 1 q ≠ manifestKey 1 0 ∧ s.store.record 1 = some (StoreRecord.new 1)
        ∧ ∀ b, (manifestKey 1 q, b) ∉ (StoreRecord.new 1).pageMap)
    ∧ (busy ready (.program (.mark 3 17) 400)).store.inFlight[(7 : Fin 8)] = some (.program (.mark 3 17) 400) := by
  refine ⟨rfl, by decide, by decide, fun x _ => ⟨rfl, rfl, rfl, rfl, rfl, 15, by decide, by decide, rfl, fun b h => ?_⟩, rfl⟩
  exact absurd h (List.not_mem_nil)

/-- R132: a manifest page before the last leaves the domain CLOSING. -/
theorem test_manifest_page :
    let t := after (.programComplete 7) (busy (opened .closing (some .complete)) (.program (.page (manifestKey 1 0)) 300))
    (t.domain .a).state = .closing ∧ (t.store.record 1).map StoreRecord.pageMap = some [(manifestKey 1 0, 300)] := by decide +kernel

/-- R149: while a re-plan leaves the claims slack, the end of a complete harvest leaves the pool as it is; the close that
follows refills the reserve. -/
theorem test_refill_where_a_claim_falls :
    ((opened .harvesting none).enterClosing .a .complete).store.spares = []
    ∧ ((opened .closing (some .complete)).dumpClosed .a 1).store.spares = [0, 1] := by decide +kernel

/-- A header page in flight for a TRIGGERED domain with each of no end cause, ABORTED and COMPLETE, and for a CLOSING one;
the harvested test failing and met. -/
theorem met_header_pages : (∀ x ∈ [(DomainState.triggered, none), (.triggered, some EndCause.aborted), (.triggered, some .complete),
      (.closing, some .aborted)],
    let s := busy (opened x.1 x.2) (.program (.page (dumpHeaderKey 1)) 256)
    s.store.inFlight[(7 : Fin 8)] = some (.program (.page (dumpHeaderKey 1)) 256) ∧ (dumpHeaderKey 1).kind = .dumpHeader
    ∧ s.dump 1 = some (dump .opened) ∧ (s.domain .a).openDump = some 1 ∧ (opened x.1 x.2).DirectoryLaw)
    ∧ (¬∀ x ∈ (dump .opened).sections, (x.kind = .region → x.state ≠ .pending ∧ x.state ≠ .active)
        ∧ (x.kind = .journalPre → x.state = .done))
    ∧ ∀ x ∈ ((dump .opened).sections.set 3 { region with state := .done }), (x.kind = .region → x.state ≠ .pending ∧ x.state ≠ .active)
        ∧ (x.kind = .journalPre → x.state = .done) := by
  refine ⟨fun x hx => ?_, by decide, by decide⟩
  simp only [List.mem_cons, List.not_mem_nil, or_false] at hx
  rcases hx with rfl | rfl | rfl | rfl <;> exact ⟨rfl, rfl, rfl, rfl, opened_directory_law _ _⟩

/-- The last manifest page in flight, the other 15 in the page map. -/
def closing : State :=
  let s := busy (opened .closing (some .complete)) (.program (.page (manifestKey 1 15)) 300)
  { s with store := { s.store with records := [{ StoreRecord.new 1 with
      pageMap := (List.range 15).map fun q => (manifestKey 1 q, 280 + q) }] } }

/-- With a claim of one block and with none; the dump's open block there and not. -/
theorem met_last_manifest_page :
    closing.store.inFlight[(7 : Fin 8)] = some (.program (.page (manifestKey 1 15)) 300)
    ∧ (manifestKey 1 15).kind = .manifest ∧ closing.dump 1 = some (dump .opened)
    ∧ (closing.domain .a).state = .closing ∧ (closing.domain .a).openDump = some 1
    ∧ (∃ r, closing.store.record 1 = some r ∧ r.openBlock = none
      ∧ ∀ q < 16, manifestKey 1 q = manifestKey 1 15 ∨ ∃ b, (manifestKey 1 q, b) ∈ r.pageMap)
    ∧ closing.claim .a = 128
    ∧ (∃ s : State, s.claim .a = 0 ∧ (s.store.record 1).bind StoreRecord.openBlock = some 2 ∧ s.domain .a = closing.domain .a
      ∧ (s.store.record 1).map StoreRecord.pageMap = (closing.store.record 1).map StoreRecord.pageMap) := by
  refine ⟨rfl, rfl, rfl, rfl, rfl, ⟨_, rfl, rfl, fun q hq => ?_⟩, by decide +kernel,
    { closing with store := closing.store.updRecord 1 fun r => { r with openBlock := some 2, remainder := 100 } }, by decide +kernel,
      rfl, rfl, rfl⟩
  by_cases h : q = 15
  · exact .inl (by rw [h])
  · exact .inr ⟨280 + q, List.mem_map.2 ⟨q, List.mem_range.2 (by omega), rfl⟩⟩

theorem met_closing_store_law : closing.StoreLaw :=
  ⟨by decide +kernel, by decide +kernel, by decide +kernel, by decide, by decide, by decide, by decide⟩

/-- Dump 1 has a page in flight in block 2, which is in no list; so many blocks are retired. -/
def failing (n : Nat) (r : StoreRecord) (spares : List Nat) (blocks : List (Nat × Block)) (op : StoreOp) : State :=
  busy { opened .harvesting none with store := { ready.store with
    records := [r], pool := [10, 11, 12], spares := spares, blocks := blocks
    retired := (List.range n).map fun i => { block := 100 + i, dump := 0 } } } op

/-- The retired list one below its bound and at it; a spare and none; the dump's open block, with and without a page left for a mark,
and a block of its own that is FULL and one that is not. -/
theorem met_failed_programs : ∀ n ∈ [31, 32], ∀ spares ∈ [[60], []], ∀ r ∈ [{ StoreRecord.new 1 with openBlock := some 2, blocks := [2] },
      { StoreRecord.new 1 with openBlock := some 3, blocks := [2, 3] }], ∀ b ∈ [(BlockState.full, 128), (.opened, 127)],
    let s := failing n r spares [(2, { state := b.1, owner := some 1, nextPage := b.2 })] (.program (.page dataKey3) 300)
    s.StoreLaw ∧ s.store.inFlight[(7 : Fin 8)] = some (.program (.page dataKey3) 300) ∧ s.store.record 1 = some r
    ∧ 2 ∉ s.store.pool ∧ 2 ∉ s.store.spares ∧ 60 ∉ s.store.pool ∧ s.store.isWaiting 1 = false ∧ s.store.retired.length = n := by
  intro n hn spares hs r hr b hb
  simp only [List.mem_cons, List.not_mem_nil, or_false] at hn hs hr hb
  rcases hn with rfl | rfl <;> rcases hs with rfl | rfl <;> rcases hr with rfl | rfl <;> rcases hb with rfl | rfl <;>
    exact ⟨⟨by decide +kernel, by decide +kernel, by decide +kernel, by decide, by decide, by decide, by decide⟩, rfl, rfl, by decide,
      by decide, by decide, rfl, rfl⟩

theorem met_erases_and_failed_marks : ∀ op ∈ [StoreOp.erase 5 false, .erase 5 true, .program (.mark 5 17) 657], ∀ n ∈ [31, 32],
    (failing n (StoreRecord.new 1) [60] [] op).store.inFlight[(7 : Fin 8)] = some op
    ∧ 5 ∉ (failing n (StoreRecord.new 1) [60] [] op).store.pool ∧ (failing n (StoreRecord.new 1) [60] [] op).StoreLaw := by
  intro op hop n hn
  simp only [List.mem_cons, List.not_mem_nil, or_false] at hop hn
  rcases hop with rfl | rfl | rfl <;> rcases hn with rfl | rfl <;>
    exact ⟨rfl, by decide, by decide +kernel, by decide +kernel, by decide +kernel, by decide, by decide, by decide, by decide⟩

/-! ### The directory's requests -/

/-- Offset 600, the admitted length, and 601; index 3, the last, and 4; and no dump. -/
theorem met_cursor : Taken closed .service 0x13 ([1, 0, 0, 0, 3] ++ le 8 600) ∧ Taken closed .service 0x13 ([1, 0, 0, 0, 3] ++ le 8 601)
    ∧ Taken closed .service 0x13 ([1, 0, 0, 0, 4] ++ le 8 0) ∧ Taken closed .service 0x13 ([2, 0, 0, 0, 0] ++ le 8 0)
    ∧ (dump .closed).sections[3]? = some region ∧ (dump .closed).sections.length = 4 :=
  ⟨takes_of (by decide +kernel), takes_of (by decide +kernel), takes_of (by decide +kernel), takes_of (by decide +kernel),
    rfl, rfl⟩

/-- The cursor open on section 3, all of it written and its page in the page map. -/
def cursorAt (offset : Nat) : State :=
  { closed with
    directory := { entries := [{ dump .closed with sections := (dump .closed).sections.set 3 { region with
      state := .done, written := 600 } }], nextNumber := 2, verify := none }
    store := { ready.store with records := [{ StoreRecord.new 1 with pageMap := [(dataKey3, 300)] }] }
    flash := [(300, .programmed dataKey3 [1, 2, 3])]
    service := { ready.service with cursor := some { dump := 1, index := 3, offset := offset } } }

/-- The cursor closed, one byte before the end, and at the end; counts 0, 1, 1,024 and 1,025. -/
theorem met_read : Taken closed .service 0x14 [1, 0] ∧ closed.service.cursor = none
    ∧ Taken (cursorAt 599) .service 0x14 [0, 0] ∧ Taken (cursorAt 600) .service 0x14 [0, 4] ∧ Taken (cursorAt 0) .service 0x14 [1, 4]
    ∧ (cursorAt 599).service.cursor = some { dump := 1, index := 3, offset := 599 }
    ∧ ((cursorAt 599).sect 1 3).map (fun x => (cursorAt 599).readable 1 x) = some 600 :=
  ⟨takes_of (by decide), rfl, takes_of (by decide), takes_of (by decide), takes_of (by decide), rfl, by decide +kernel⟩

/-- A READ of section 3 waits for the bytes from `offset` up to `stop`, with these pages read; page `seq` is in flight. -/
def awaiting (offset stop : Nat) (pages : List PageRead) (seq : Nat) : State :=
  { busy (cursorAt offset) (.read { reader := .cursor, key := dataKey 1 3 seq } 300) with servicePort := { Port.afterReset with
      input := [req 0x14 [0, 4]], processing := some (.read 1 3 offset stop 1024 false pages), reserved := 1 } }

/-- A read nobody waits for; a READ of one byte and of a page's last byte; and a READ of the bytes on both sides of a page's
end, at its first page and its second, in both orders. -/
theorem met_store_reads :
    (busy (cursorAt 0) (.read { reader := .nobody, key := dataKey3 } 300)).store.inFlight[(7 : Fin 8)]
      = some (.read { reader := .nobody, key := dataKey3 } 300)
    ∧ ∀ x ∈ [(0, 1, [], 1), (4095, 4096, [], 1), (4095, 4097, [], 1), (4095, 4097, [], 2),
        (4095, 4097, [{ seq := 1, data := some [1] }], 2), (4095, 4097, [{ seq := 2, data := none }], 1)],
      let s := awaiting x.1 x.2.1 x.2.2.1 x.2.2.2
      s.store.inFlight[(7 : Fin 8)] = some (.read { reader := .cursor, key := dataKey 1 3 x.2.2.2 } 300)
      ∧ s.servicePort.processing = some (.read 1 3 x.1 x.2.1 1024 false x.2.2.1)
      ∧ s.servicePort.input.head? = some (req 0x14 [0, 4]) ∧ s.servicePort.reserved = 1 ∧ x.1 < x.2.1
      ∧ (x.1 / 4096 = (x.2.1 - 1) / 4096 ∨ x.1 / 4096 + 1 = (x.2.1 - 1) / 4096)
      ∧ s.flash.page 300 = some (.programmed dataKey3 [1, 2, 3]) := by
  refine ⟨rfl, fun x hx => ?_⟩
  simp only [List.mem_cons, List.not_mem_nil, or_false] at hx
  rcases hx with rfl | rfl | rfl | rfl | rfl | rfl <;> exact ⟨rfl, rfl, rfl, rfl, by decide, by decide, rfl⟩

def dumpWith (f : DumpEntry → DumpEntry) (v : Option Verify) : State :=
  { closed with directory := { closed.directory with entries := [f (dump .closed)], verify := v } }

/-- No dump, an open one, a protected one, one under verify, one not fetched, a forced release and a fetched one. -/
theorem met_release : Taken closed .service 0x16 [2, 0, 0, 0, 0] ∧ Taken (opened .triggered none) .service 0x16 [1, 0, 0, 0, 1]
    ∧ Taken (dumpWith (fun e => { e with isProtected := true }) none) .service 0x16 [1, 0, 0, 0, 1]
    ∧ Taken (dumpWith id (some { dump := 1, target := .manifest, pagesRead := 0, crc := 0, left := 0, unreadable := false }))
        .service 0x16 [1, 0, 0, 0, 1]
    ∧ Taken closed .service 0x16 [1, 0, 0, 0, 0] ∧ Taken closed .service 0x16 [1, 0, 0, 0, 1]
    ∧ Taken (dumpWith (fun e => { e with fetched := true }) none) .service 0x16 [1, 0, 0, 0, 0] ∧ closed.directory.verify = none :=
  ⟨takes_of (by decide), takes_of (by decide), takes_of (by decide), takes_of (by decide), takes_of (by decide),
    takes_of (by decide), takes_of (by decide), rfl⟩

/-- The blocks of a dump in each state they can be in at its release, its header page in a FULL block or in a RETIRED one. -/
theorem met_released_blocks : ∀ h ∈ [4, 5],
    let r : StoreRecord := { StoreRecord.new 1 with
      blocks := [4, 5, 6, 7], pageMap := [(dataKey3, 900), (dumpHeaderKey 1, 128 * h), (dumpHeaderKey 1, 700)] }
    let s : State := { closed with store := { ready.store with
      records := [r], retired := [{ block := 5, dump := 1 }]
      blocks := [(4, { state := .full, owner := some 1, nextPage := 128 }), (5, { state := .retired, owner := some 1, nextPage := 9 }),
        (6, { state := .withheld, owner := some 1, nextPage := 128 }), (7, { state := .full, owner := some 1, nextPage := 128 })] } }
    Taken s .service 0x16 [1, 0, 0, 0, 1] ∧ s.dump 1 = some (dump .closed) ∧ s.directory.verify = none ∧ s.store.record 1 = some r
    ∧ r.blocks.Nodup ∧ r.pageMap = [(dataKey3, 900)] ++ (dumpHeaderKey 1, 128 * h) :: [(dumpHeaderKey 1, 700)]
    ∧ dataKey3.kind ≠ .dumpHeader ∧ h = 128 * h / 128 := by
  intro h hh
  simp only [List.mem_cons, List.not_mem_nil, or_false] at hh
  rcases hh with rfl | rfl <;> exact ⟨takes_of (by decide), rfl, rfl, rfl, by decide, rfl, by decide, by decide⟩

theorem met_protect : Taken closed .service 0x17 [1, 0, 0, 0, 1] ∧ Taken (opened .triggered none) .service 0x17 [1, 0, 0, 0, 0]
    ∧ Taken closed .service 0x17 [2, 0, 0, 0, 1] ∧ (req 0x17 []).kind = 0x17 :=
  ⟨takes_of (by decide), takes_of (by decide), takes_of (by decide), rfl⟩

/-- Section 3 of closed dump 1 has a check and so many bytes written, its first page or none in the page map. -/
def checked (written : Nat) (mapped : List (PageKey × Nat)) (v : Option Verify) : State :=
  { dumpWith (fun e => { e with
      sections := e.sections.set 3 { region with state := .done, written := written, crc := some 5 }, manifestCheck := some 6 }) v with
    store := { ready.store with records := [{ StoreRecord.new 1 with pageMap := mapped }] } }

/-- Selectors 3, 4 and 0xFF; a verify in progress; a dump that is OPEN, a LOST and a SKIPPED section; a section of 0 bytes and of
1 byte, and the manifest, with the first page in the page map and not. -/
theorem met_verify : Taken closed .service 0x18 [2, 0, 0, 0, 0] ∧ Taken closed .service 0x18 [1, 0, 0, 0, 4]
    ∧ Taken closed .service 0x18 [1, 0, 0, 0, 0xFF] ∧ Taken closed .service 0x18 [1, 0, 0, 0, 3]
    ∧ Taken (dumpWith id (some { dump := 1, target := .manifest, pagesRead := 0, crc := 0, left := 0, unreadable := false }))
        .service 0x18 [1, 0, 0, 0, 3]
    ∧ Taken (opened .triggered none) .service 0x18 [1, 0, 0, 0, 0xFF]
    ∧ (∀ st ∈ [SectionState.lost, .skipped], Taken (dumpWith (fun e => { e with
        sections := e.sections.set 3 { region with state := st } }) none) .service 0x18 [1, 0, 0, 0, 3])
    ∧ (∀ x ∈ [(0, []), (1, []), (1, [(dataKey3, 300), (manifestKey 1 0, 301)])],
      Taken (checked x.1 x.2 none) .service 0x18 [1, 0, 0, 0, 3] ∧ Taken (checked x.1 x.2 none) .service 0x18 [1, 0, 0, 0, 0xFF]
      ∧ (checked x.1 x.2 none).directory.verify = none ∧ (given (checked x.1 x.2 none) .service (req 0x18 [])).servicePort.reserved = 0
      ∧ ((checked x.1 x.2 none).store.locate (dataKey 1 3 1) = if x.2 = [] then none else some 300)
      ∧ ((checked x.1 x.2 none).store.locate (manifestKey 1 0) = if x.2 = [] then none else some 301)) := by
  refine ⟨takes_of (by decide), takes_of (by decide), takes_of (by decide), takes_of (by decide), takes_of (by decide),
    takes_of (by decide), fun st hst => ?_, fun x hx => ?_⟩
  · simp only [List.mem_cons, List.not_mem_nil, or_false] at hst
    rcases hst with rfl | rfl <;> exact takes_of (by decide)
  · simp only [List.mem_cons, List.not_mem_nil, or_false] at hx
    rcases hx with rfl | rfl | rfl <;>
      exact ⟨takes_of (by decide), takes_of (by decide), rfl, rfl, by decide +kernel, by decide +kernel⟩

/-- A verify's page in flight: the first of two of a section of 4,097 bytes and the second; the first manifest page, the 15th and
the last, and one whose next page the page map does not hold. -/
theorem met_verify_pages : ∀ x ∈ [(VerifyTarget.data 3, 0, dataKey 1 3 2), (.data 3, 1, dataKey 1 3 3), (.manifest, 0, manifestKey 1 1),
      (.manifest, 14, manifestKey 1 15), (.manifest, 15, manifestKey 1 16), (.manifest, 5, manifestKey 1 6)],
    let v : Verify := { dump := 1, target := x.1, pagesRead := x.2.1, crc := 0xFFFFFFFF, left := 4097, unreadable := false }
    let s := busy (checked 4097 [(dataKey 1 3 2, 300), (manifestKey 1 1, 301), (manifestKey 1 15, 302)] (some v))
      (.read { reader := .verify, key := dataKey3 } 400)
    s.store.inFlight[(7 : Fin 8)] = some (.read { reader := .verify, key := dataKey3 } 400) ∧ s.directory.verify = some v
    ∧ (s.dump 1).map (fun e => (e.state, e.manifestCheck, (e.sections[3]?).map fun y => (y.crc, y.written)))
      = some (.closed, some 6, some (some 5, 4097))
    ∧ ((s.store.locate x.2.2).isSome = true ∨ (x.1 = .manifest ∧ x.2.1 + 1 < 16 ∧ s.store.locate x.2.2 = none)
      ∨ (match x.1 with
        | .manifest => 16
        | .data _ => (4097 + 4095) / 4096) ≤ x.2.1 + 1) := by
  intro x hx
  simp only [List.mem_cons, List.not_mem_nil, or_false] at hx
  rcases hx with rfl | rfl | rfl | rfl | rfl | rfl <;> exact ⟨rfl, rfl, by decide +kernel, by decide +kernel⟩

/-! ### Views, settings, lines and resets -/

/-- Views 2, 3, 0xFE and 0xFF, and both values of the clear flag. -/
theorem met_link_status_and_view : Taken ready .service 0x19 [0] ∧ Taken ready .service 0x19 [1] ∧ Taken ready .service 0x1E [2]
    ∧ Taken ready .service 0x1E [3] ∧ Taken ready .service 0x1E [0xFE] ∧ Taken ready .service 0x1E [0xFF] :=
  ⟨takes_of (by decide), takes_of (by decide), takes_of (by decide), takes_of (by decide), takes_of (by decide), takes_of (by decide)⟩

def saving (kind : SaveKind) : State :=
  { ready with config := { ready.config with save := some { kind := kind, image := Image.default } } }

/-- Items 0, 1, 8, 9, 10 and 11; hold windows 0, 1, 600 and 601; and a save in flight. -/
theorem met_config_set : Taken ready .service 0x1C [0, 0, 0] ∧ Taken ready .service 0x1C [1, 0, 0] ∧ Taken ready .service 0x1C [8, 1, 0]
    ∧ Taken ready .service 0x1C (9 :: List.replicate 16 0x41) ∧ Taken ready .service 0x1C (10 :: List.replicate 32 0x41)
    ∧ Taken ready .service 0x1C [11, 0, 0] ∧ Taken ready .service 0x1C [2, 0, 0] ∧ Taken ready .service 0x1C [2, 1, 0]
    ∧ Taken ready .service 0x1C (2 :: le 2 600) ∧ Taken ready .service 0x1C (2 :: le 2 601) ∧ Taken (saving .config) .service 0x1C [1, 0, 0]
    ∧ ready.config.save = none :=
  ⟨takes_of (by decide), takes_of (by decide), takes_of (by decide), takes_of (by decide +kernel), takes_of (by decide +kernel),
    takes_of (by decide), takes_of (by decide), takes_of (by decide), takes_of (by decide), takes_of (by decide), takes_of (by decide), rfl⟩

theorem met_saves : Taken ready .service 0x1D [] ∧ Taken (saving .store) .service 0x1D [] ∧ ready.config.savePending = false
    ∧ (saving .config).config.save = some { kind := .config, image := Image.default }
    ∧ (saving .store).config.save = some { kind := .store, image := Image.default }
    ∧ ∃ s : State, s.config.save = some { kind := .config, image := Image.default } ∧ s.servicePort.processing = some .configSave
      ∧ s.servicePort.input = [req 0x1D []] ∧ s.servicePort.reserved = 1 ∧ (req 0x1D []).kind = 0x1D :=
  ⟨takes_of (by decide), takes_of (by decide), rfl, rfl, rfl,
    ⟨{ saving .config with servicePort := { Port.afterReset with
        processing := some .configSave, input := [req 0x1D []], reserved := 1 } }, rfl, rfl, rfl, rfl, rfl⟩⟩

/-- The defaults image, and one with an on/off byte of 2 and a hold window of 65,535. -/
theorem met_image_fits : Image.default.Fits ∧ ({ Image.default with
    storedSettings := ⟨{ Image.default.storedSettings.a with holdEnable := 2, holdWindow := 65535 }, Image.default.storedSettings.b⟩ } : Image).Fits :=
  ⟨⟨by decide, by decide, by decide, fun d x h => by subst h; cases d <;> decide, fun d => by cases d <;> decide⟩,
    ⟨by decide, by decide, by decide, fun d x h => by subst h; cases d <;> decide, fun d => by cases d <;> decide⟩⟩

theorem met_attach_and_reset_lines :
    ready.service.attached = true ∧ State.reset.service.attached = false ∧ State.reset.DetachedLaw ∧ State.reset.PortLaw
    ∧ (ready.domain .a).resetRequestLevel = false
    ∧ ((ready.setDomain .a { ready.domain .a with resetRequestLevel := true }).domain .a).resetRequestLevel = true
    ∧ ready.restart ≠ .replyWaiting
    ∧ ∃ (s : State) (f : Frame), s.service.attached = true ∧ s.restart = .replyWaiting ∧ s.servicePort.line = some f
      ∧ f.kind = 0x9F ∧ f.body = [0]
      ∧ ∃ t : State, t.service.attached = true ∧ t.restart = .replyWaiting ∧ t.servicePort.line = some (req 0x81 [])
        ∧ ∀ g, t.servicePort.line = some g → ¬(g.kind = 0x9F ∧ g.body = [0]) := by
  refine ⟨rfl, rfl, ⟨fun _ => ⟨rfl, rfl, rfl, rfl, rfl⟩, fun _ => ⟨by decide, fun _ => rfl⟩, fun _ => ⟨rfl, rfl⟩⟩, fun p => ?_, rfl, rfl,
    by decide, ⟨{ ready with restart := .replyWaiting, servicePort := { Port.afterReset with line := some ((req 0x1F []).reply 0xFF 0 []) } },
      _, rfl, rfl, rfl, rfl, rfl,
      { ready with restart := .replyWaiting, servicePort := { Port.afterReset with line := some (req 0x81 []) } }, rfl, rfl, rfl,
      fun g h => by obtain rfl := Option.some.inj h; decide⟩⟩
  rcases p with _ | d
  · exact ⟨by decide, by decide, by decide⟩
  · cases d <;> exact ⟨by decide, by decide, by decide⟩

/-- Bodies of 1,056 and 1,057 bytes; a good and a bad check; kinds 0x7E, 0x7F and 0x80; HOLD of 0, 1 and 0xFFFF; 2, 3 and 4
frames waiting; and a receiver in a frame. -/
theorem met_lines_receive :
    (List.replicate 1056 (0 : Byte)).length ≤ 1056 ∧ 1056 < (List.replicate 1057 (0 : Byte)).length
    ∧ crc16 (le 2 0 ++ [0x7E, 7, 0] ++ []) ≠ 0 ∧ (0x7E : Byte).toNat < 0x7F ∧ 0x80 ≤ (0x80 : Byte).toNat
    ∧ field [0, 0] 0 2 = 0 ∧ field [1, 0] 0 2 ≠ 0 ∧ field [0xFF, 0xFF] 0 2 ≠ 0 ∧ ready.service.attached = true
    ∧ State.reset.service.attached = false ∧ (ready.port .service).receiver = .hunting
    ∧ (∀ n ∈ [2, 3, 4], ((ready.setPort .service { ready.port .service with
        input := List.replicate n (req 2 []) }).port .service).input.length = n)
    ∧ ready.service.holdOff = false
    ∧ ∃ s : State, (s.port .service).receiver = .receiving [] :=
  ⟨by decide +kernel, by decide +kernel, by decide +kernel, by decide, by decide, by decide, by decide, by decide, rfl, rfl, rfl,
    (fun n _ => by rw [show ((ready.setPort .service { ready.port .service with
      input := List.replicate n (req 2 []) }).port .service).input = List.replicate n (req 2 []) from rfl, List.length_replicate]), rfl,
    ⟨ready.setPort .service { ready.port .service with receiver := .receiving [] }, rfl⟩⟩

/-- A STATUS taken up with 2 frames in the queue, behind a frame on the line, ends the pacing hold; with 3 frames, or with no
hold-off sent, it stands; and a request at a platform port leaves the HOLD that waits there. -/
theorem met_paced :
    ([(2, true, true), (3, true, false), (2, false, false)].all fun (n, sent, ends) =>
      let s : State := { ready with
        service := { ready.service with holdOff := sent }
        servicePort := { Port.afterReset with
          line := some (req 0x82 []), outgoingHold := some 0xFFFF, input := List.replicate n (req 2 []) } }
      match exec (.unknownKind .service) s, exec (.status .service) s with
      | .next u, .next t => u == s && t.servicePort.input.length == n - 1 && t.service.holdOff == (sent && !ends)
          && t.servicePort.line == some (req 0x82 []) && t.servicePort.outgoingHold == some (if ends then 0 else 0xFFFF)
      | _, _ => false) = true
    ∧ ∃ s : State, s.takes (.platform .a) 0x02 (req 2 []) ∧ (s.port (.platform .a)).line = some (req 0x82 [])
      ∧ (s.port (.platform .a)).outgoingHold = some 0xFFFF := by
  refine ⟨by decide +kernel, given (ready.setPort (.platform .a) { Port.afterReset with
    line := some (req 0x82 []), outgoingHold := some 0xFFFF }) (.platform .a) (req 2 []), takes_of (by decide), rfl, rfl⟩

theorem met_lines_send :
    ∃ s : State, (s.port .service).peerHold = some 5 ∧ s.restart ≠ .due ∧ (s.port .service).line = some (Frame.hold 0)
      ∧ (s.port .service).outgoingHold = some 9 ∧ (s.port .service).output = [req 0x81 [0]]
      ∧ ∃ t : State, t.restart = .replyWaiting ∧ (t.port .service).line = some ((req 0x1F []).reply 0xFF 0 [])
        ∧ (t.port .service).peerHold = none ∧ (t.port .service).outgoingHold = none
      ∧ ∃ u : State, (u.port .service).peerHold = some 5 ∧ (u.port .service).line = none ∧ (u.port .service).outgoingHold = none
        ∧ (u.port .service).output = [req 0x81 [0]] ∧ u.restart ≠ .due :=
  ⟨ready.setPort .service { Port.afterReset with
      peerHold := some 5, line := some (Frame.hold 0), outgoingHold := some 9, output := [req 0x81 [0]] },
    rfl, by decide, rfl, rfl, rfl,
    ⟨{ ready with restart := .replyWaiting, servicePort := { Port.afterReset with line := some ((req 0x1F []).reply 0xFF 0 []) } },
      rfl, rfl, rfl, rfl,
      ⟨ready.setPort .service { Port.afterReset with peerHold := some 5, output := [req 0x81 [0]] }, rfl, rfl, rfl, rfl, by decide⟩⟩⟩

theorem met_reset_and_start_up : State.reset.startUp = .load ∧ ({ State.reset with startUp := .scan } : State).startUp = .scan
    ∧ ready.startUp ≠ .load ∧ ready.startUp ≠ .scan ∧ State.reset.config.save = none
    ∧ (busy ready (.program (.page dataKey3) 300)).store.inFlight[(7 : Fin 8)] = some (.program (.page dataKey3) 300)
    ∧ (busy ready (.program (.page dataKey3) 300)).store.inFlight[(0 : Fin 8)] = none
    ∧ (busy ready (.erase 2 false)).store.inFlight[(7 : Fin 8)] = some (.erase (300 / 128) false)
    ∧ Flash.wf [(256, .programmed (dumpHeaderKey 5) []), (384, .unreadable)] = true :=
  ⟨rfl, rfl, by decide, by decide, rfl, rfl, by decide, rfl, by decide⟩

theorem met_restart : Taken ready .service 0x1F [] ∧ Taken (opened .triggered none) .service 0x1F [] ∧ Taken (saving .store) .service 0x1F []
    ∧ ready.restart ≠ .due ∧ ({ ready with restart := .due } : State).restart = .due ∧ (ready.domain .a).busy = false
    ∧ (ready.domain .b).busy = false ∧ ready.servicePort.line = none ∧ (ready.port (.platform .a)).line = some (Frame.hold 0)
    ∧ ((ready.setPort (.platform .a) Port.afterReset).port (.platform .a)).line = none
    ∧ ∃ s : State, s.restart = .due ∧ s.servicePort.line = some (req 0xC0 []) ∧ s.service.holdOff = true
      ∧ (s.domain .a).busy = false ∧ (s.domain .b).busy = false ∧ s.service.attached = true :=
  ⟨takes_of (by decide), takes_of (by decide), takes_of (by decide), by decide, rfl, rfl, rfl, rfl, by decide, rfl,
    { ready with
      restart := .due, service := { ready.service with holdOff := true }
      servicePort := { Port.afterReset with line := some (req 0xC0 []) } }, rfl, rfl, rfl, rfl, rfl, rfl⟩

/-! ### The commands, one step each -/

/-- Table 2-3, steps 1, 4 and 6: OK, OK_ADJUSTED with priority 7, and RANGE with the generation as it was. -/
theorem test_table_2_3_adds :
    replied (.platform .a) (.planAdd (.platform .a)) (given ready (.platform .a) (req 0x05 (addBody 0x0101 0x7F000000 4096 0 none true)))
      = some [0x00, 0, 0, 1, 0]
    ∧ replied (.platform .a) (.planAdd (.platform .a)) (given ready (.platform .a) (req 0x05 (addBody 0x0301 0x7F200000 262144 9 none false)))
      = some [0x01, 0, 7, 1, 0]
    ∧ replied (.platform .a) (.planAdd (.platform .a)) (given ready (.platform .a) (req 0x05 (addBody 0x0401 0x7F300800 4096 0 none true)))
      = some [0x12 + 1, 0, 0] := by decide +kernel

/-- R32: the entry after the one deleted moves down, and the reply carries the index and the new generation. -/
theorem test_plan_delete :
    replied .service (.planDelete .service) (given (planned 3) .service (req 0x06 [2, 0])) = some [0x00, 1, 10, 0]
    ∧ ((after (.planDelete .service) (given (planned 3) .service (req 0x06 [2, 0]))).plan .a).entries.map PlanEntry.tag = [1, 3] := by
  decide +kernel

/-- R33: an empty plan is cleared too. -/
theorem test_plan_clear :
    replied .service (.planClear .service) (given ready .service (req 0x07 [])) = some [0x00, 0, 1, 0] := by decide +kernel

/-- R34: an entry is 32 bytes in the reply. -/
theorem test_plan_read :
    (replied .service (.planRead .service) (given (planned 2) .service (req 0x08 [0]))).map List.length = some (1 + 3 + 64) := by
  decide +kernel

/-- R20, R9: ARM starts the heartbeat timer at 30 s, the default. -/
theorem test_arm :
    let t := after (.arm .service) (given (resting .disarmed) .service (req 0x03 []))
    (t.domain .a).state = .armed ∧ (t.domain .a).heartbeatTimer = some 30000 ∧ (t.link .a).widen = true := by decide +kernel

theorem test_disarm :
    let t := after (.disarm .service) (given (resting .armed) .service (req 0x04 []))
    (t.domain .a).state = .disarmed ∧ (t.domain .a).heartbeatTimer = none := by decide +kernel

/-- Table 1-8, 1,150,000: a HEARTBEAT with a wall time arms a SETTLED domain with auto-arm on. -/
theorem test_heartbeat :
    let t := after (.heartbeat (.platform .a)) (given { resting .settled with partTime := 1150000 } (.platform .a) (req 0x0C [9, 0, 0, 0, 0, 0, 0, 0]))
    (t.domain .a).state = .armed ∧ (t.domain .a).heartbeats = 1 ∧ (t.domain .a).heartbeatTimer = some 1180000
    ∧ (t.domain .a).wallTime = some { wall := 9, arrival := 1150000 } := by decide +kernel

/-- R23 and Table 1-8: a rising fatal line is missed in DISARMED and late in SETTLED. -/
theorem test_fatal_line :
    ((after (.fatalLine .a true) (resting .disarmed)).domain .a).missed = 1
    ∧ ((after (.fatalLine .a true) (resting .settled)).domain .a).late = 1 := by decide +kernel

/-- Table 1-8: a reset request under the hold is counted. -/
theorem test_reset_request :
    ((after (.resetRequestEdge .a) (opened .harvesting none)).domain .a).heldResets = 1
    ∧ ((after (.resetRequestEdge .a) (resting .armed)).domain .a).heldResets = 0
    ∧ ((after (.resetRequestFall .a) (resting .armed)).domain .a).resetRequestLevel = false := by decide +kernel

/-- R104, R105: a record of the wrong sum joins the intake queue check-bad. -/
theorem test_event :
    replied (.platform .a) (.event (.platform .a)) (given ready (.platform .a) (req 0x0B [1, 5, 2, 0, 0])) = some [0x00, 1]
    ∧ replied (.platform .a) (.event (.platform .a)) (given ready (.platform .a) (req 0x0B [1, 5, 2, 0, 0xF8])) = some [0x00, 0] := by
  decide +kernel

/-- R108: the record takes the next sequence. -/
theorem test_intake_step :
    let t := after (.intakeStepComplete .a) (ready.setJournal .a (filled 0 1 (some 7)))
    (t.journal .a).ring.map EventRecord.sequence = [7] ∧ (t.journal .a).nextSequence = some 8 ∧ (t.journal .a).intake = [] := by
  decide +kernel

/-- R117: LATCH READ's body is 16 slots of 64 bytes. -/
theorem test_latch :
    (replied .service (.latchRead .service) (given ready .service (req 0x0A []))).map List.length = some 1025
    ∧ ((after (.latchSet .service) (given ready .service (req 0x09 [4, 0x31, 1]))).journal .a).slots[(4 : Fin 16)].slotClass = 0x31 := by
  decide +kernel

/-- R80, R81: a rise of power-good starts a training of 5 ms; its expiry leaves a retry after 100 ms. -/
theorem test_trainings :
    ((after (.powerGoodRise .a) { State.reset with partTime := 10 }).link .a).trainingExpiry = some 15
    ∧ ((after (.trainingExpiry .a) (after (.powerGoodRise .a) { State.reset with partTime := 10 })).link .a).retryTimer = some 115
    ∧ ((after (.trainingComplete .a) (after (.powerGoodRise .a) State.reset)).link .a).state = .up := by decide +kernel

/-- R85 to R88: the outcomes of an outstanding read are counted. -/
theorem test_read_outcomes :
    ((after (.claimWindowExpiry .a ⟨0, 5⟩) (reading (linkRead false 0 false) 0 .wide)).link .a).counters.noClaims = 1
    ∧ ((after (.granuleWindowExpiry .a ⟨⟨1, 5⟩, 1⟩) (reading (linkRead true 1 false) 0 .wide)).link .a).counters.stalls = 1
    ∧ ((after (.disconnect .a ⟨0, 5⟩) (reading (linkRead true 1 false) 0 .wide)).link .a).counters.disconnects = 1
    ∧ ((after (.targetAbort .a ⟨0, 5⟩) (reading (linkRead true 1 false) 0 .wide)).link .a).abortSeen = true := by decide +kernel

/-- R86, R87: an event of a read that has ended (number 4), and a granule window that a granule has ended (begun after none),
change nothing, though another read holds the position (log 57). -/
theorem test_ended_reads :
    let s := reading (linkRead true 1 false) 0 .wide
    after (.targetClaim .a ⟨0, 4⟩) s = s ∧ after (.targetAbort .a ⟨0, 4⟩) s = s ∧ after (.granuleWindowExpiry .a ⟨⟨0, 5⟩, 0⟩) s = s := by
  decide +kernel

/-- R150: a block whose erase power loss cuts is not wholly erased, for every value of the free choice. -/
theorem test_cut_erase (seed : Nat) : ∃ a, a / 128 = 2
    ∧ (Flash.cut [] seed (some (.erase 2 false))).page a = some .unreadable := Flash.cutErase_spoils [] 2 seed

/-- R96: the fourth PARITY outcome takes a WIDE link to NARROW. -/
theorem test_downshift :
    ((after (.granuleArrival .a ⟨0, 5⟩ (List.replicate 64 0) false) (reading (linkRead true 3 false) 3 .wide)).link .a).mode = .narrow
    ∧ ((after (.granuleArrival .a ⟨0, 5⟩ (List.replicate 64 0) false) (reading (linkRead true 3 false) 2 .wide)).link .a).mode = .wide := by
  decide +kernel

/-- R84: a retrain at the target's request frees the positions and is counted. -/
theorem test_retrain :
    let t := after (.targetRetrainRequest .a) (reading (linkRead true 3 false) 0 .narrow)
    (t.link .a).state = .training ∧ (t.link .a).mode = .narrow ∧ (t.link .a).counters.retrains = 1
    ∧ (t.link .a).positions[(0 : Fin 2)] = none := by decide +kernel

/-- R149: an erased block joins the tail of the pool, and the reserve takes its two spares from the head. -/
theorem test_erase :
    ((after (.eraseComplete 7) (busy ready (.erase 100 false))).store.pool.getLast?) = some 100
    ∧ (after (.eraseFailed 7) (busy ready (.erase 100 false))).store.retired = [{ block := 100, dump := 0 }] := by decide +kernel

/-- R139: an unforced RELEASE of an unfetched dump is refused with STATE; R140: PROTECT answers OK. -/
theorem test_release_and_protect :
    replied .service (.release .service) (given closed .service (req 0x16 [1, 0, 0, 0, 0])) = some [0x15]
    ∧ replied .service (.protect .service) (given closed .service (req 0x17 [1, 0, 0, 0, 1])) = some [0x00] := by decide +kernel

/-- R171, R172: CURSOR answers with the written and readable lengths, READ with the bytes of its page. -/
theorem test_cursor_and_read :
    replied .service (.cursor .service) (given (cursorAt 0) .service (req 0x13 ([1, 0, 0, 0, 3] ++ le 8 5)))
      = some ([0x00, 3] ++ le 8 600 ++ le 8 600)
    ∧ replied .service (.storeReadComplete 7 true) ({ busy (cursorAt 0) (.read { reader := .cursor, key := dataKey3 } 300) with
        servicePort := { Port.afterReset with
          input := [req 0x14 [2, 0]], processing := some (.read 1 3 0 2 2 false []), reserved := 1 } })
      = some ([0x00, 1, 0, 0, 0, 3] ++ le 8 0 ++ [2, 0, 0, 1, 2]) := by decide +kernel

/-- R178 and Table 10-2: a hold window of 1,000 s is stored as 600 and answered OK_ADJUSTED. -/
theorem test_config_set :
    replied .service (.configSet .service) (given ready .service (req 0x1C (2 :: le 2 1000))) = some ([0x01, 2] ++ le 2 600) := by
  decide +kernel

/-- R169: the view named 2 is domain B. -/
theorem test_view : replied .service (.view .service) (given ready .service (req 0x1E [2])) = some [0x00, 2, 1] := by
  decide +kernel

/-- R161, R162: a frame with a wrong check is counted and dropped, one with the right check joins the input queue. -/
theorem test_receive_frame :
    ((after (.receiveFrame .service 2 7 0 [] 0) ready).port .service).crcErrors = 1
    ∧ ((after (.receiveFrame .service 2 7 0 [] (crc16 [0, 0, 2, 7, 0])) ready).port .service).input = [req 2 []] := by decide +kernel

/-- R164: when the frame on the line has been sent, the oldest queued one starts. -/
theorem test_frame_sent :
    let t := after (.frameSent .service) (ready.setPort .service { Port.afterReset with
      line := some (Frame.hold 0), output := [req 0x81 [0], req 0x82 [0]] })
    (t.port .service).line = some (req 0x81 [0]) ∧ (t.port .service).output = [req 0x82 [0]] := by decide +kernel

/-- R168: the attach line's rise sends an IDENT notice under tag 0; its fall sets the view to AUTO. -/
theorem test_attach :
    ((after .attach State.reset).port .service).line.map (fun f => (f.kind, f.tag)) = some (0xC6, 0)
    ∧ (after .detach { ready with service := { ready.service with view := .manual .b } }).service.view = .auto := by decide +kernel

/-- R23, R79: a hard reset with power-good high starts the trainings. -/
theorem test_hard_reset :
    let t := after (.hardReset ⟨⟨true, true, false⟩, ⟨false, false, false⟩, false⟩) ready
    (t.link .a).state = .training ∧ (t.link .b).state = .down ∧ (t.domain .a).fatalLevel = true ∧ t.startUp = .load := by decide +kernel

/-- R179: CONFIG SAVE begins a save; its end with a mismatch answers 1 and sets config-fault. -/
theorem test_config_save :
    (after (.configSave .service) (given ready .service (req 0x1D []))).config.save.isSome = true
    ∧ replied .service (.configSaveEnd true) (after (.configSave .service) (given ready .service (req 0x1D []))) = some [0x00, 0] := by
  decide +kernel

/-- R163 test 6 of RESTART: STATE while a dump is in progress, BUSY during a save. -/
theorem test_restart :
    replied .service (.restart .service) (given (opened .triggered none) .service (req 0x1F [])) = some [0x15]
    ∧ replied .service (.restart .service) (given (saving .store) .service (req 0x1F [])) = some [0x10] := by decide +kernel

/-- R163: an unknown kind is answered with kind + 0x80 and UNKNOWN_KIND. -/
theorem test_unknown_kind :
    ((after (.unknownKind .service) (given ready .service (req 0x40 []))).port .service).sending.map (fun f => (f.kind, f.body))
      = [(0xC0, [0x11])] := by decide +kernel

/-- R112: a start above the next sequence is answered RANGE, with the oldest and the next sequence. -/
theorem test_journal_read_above_the_next :
    replied .service (.journalRead .service) (given (ready.setJournal .a (filled 2 0 (some 3))) .service (req 0x15 [4, 0, 0, 0, 1]))
      = some [0x13, 1, 0, 0, 0, 3, 0, 0, 0, 0, 0] := by decide +kernel

/-- Table 9-3: the notice of a verify follows its ACCEPTED reply. -/
theorem test_verify_notice_follows_the_reply :
    ((after (.verify .service) (given (checked 0 [] none) .service (req 0x18 [1, 0, 0, 0, 3]))).port .service).sending.map
      (fun f => (f.kind, f.body.take 6)) = [(0x98, [0x02]), (0xC5, [1, 0, 0, 0, 3, 1])] := by decide +kernel

/-- R175, R176: an on/off byte of 2 is on, and the image keeps it as it was read. -/
theorem test_stored_image_keeps_its_bytes :
    ((readSettings (2 :: le 2 90 ++ List.replicate 13 0)).holdEnable, (readSettings (2 :: le 2 90)).running.holdEnable) = (2, true)
    ∧ (blockBytes (readSettings (2 :: le 2 90)) [{ slotClass := 7, keepBad := 3 }]).take 18
      = 2 :: le 2 90 ++ List.replicate 13 0 ++ [7, 3] := by decide +kernel

/-- R164, R160: over a restart the frame on a line is sent whole, and the HOLD(0) that is owed follows it. -/
theorem test_restart_keeps_the_line :
    let q : Port := { Port.afterReset with line := some (req 0x81 [0]), output := [req 0x82 [0]] }
    (q.restarted true).line = some (req 0x81 [0]) ∧ (q.restarted true).output = [] ∧ (q.restarted true).outgoingHold = some 0 := by
  decide

end Sys2Proof.Tests
end

