-- ==== Sys2Proof/Proofs/DomainLaw.lean ====
section
/-! SUPPORT. The domain law (R2, R23, Table 1-3): what each command does to a domain record, and that every step keeps the
law. -/
namespace Sys2Proof.Machine

/-! ### Domain records -/

/-- A domain record but for its wall time, input levels and counters, of which its law does not speak. -/
def Domain.uncounted (x : Domain) : Domain :=
  { x with
    wallTime := none, fatalLevel := false, resetRequestLevel := false, missed := 0, late := 0, overflow := 0
    heldResets := 0, heartbeats := 0 }

theorem Domain.Lawful.of_uncounted {x y : Domain} (h : x.Lawful) (e : y.uncounted = x.uncounted) : y.Lawful := by
  have hu : x.uncounted.Lawful :=
    ⟨h.openDump, h.triggerTime, h.holdWindow, h.holdEnable, h.resting, h.harvesting, h.closing, h.heartbeat⟩
  rw [← e] at hu
  exact ⟨hu.openDump, hu.triggerTime, hu.holdWindow, hu.holdEnable, hu.resting, hu.harvesting, hu.closing, hu.heartbeat⟩

theorem Domain.busy_eq_false_iff (x : Domain) :
    x.busy = false ↔ x.state = .disarmed ∨ x.state = .armed ∨ x.state = .settled := by
  unfold Domain.busy
  cases x.state <;> decide

theorem Domain.busy_eq_true_iff (x : Domain) :
    x.busy = true ↔ x.state = .triggered ∨ x.state = .harvesting ∨ x.state = .closing := by
  unfold Domain.busy
  cases x.state <;> decide

/-- A domain with no dump open may rest in another such state, its heartbeat timer running in ARMED alone. -/
theorem Domain.Lawful.rest {x : Domain} (h : x.Lawful) (hb : x.busy = false) (st : DomainState) (timer : Option Time)
    (hst : st = .armed ∨ (st = .disarmed ∨ st = .settled) ∧ timer = none) :
    Domain.Lawful { x with state := st, heartbeatTimer := timer } := by
  have hb' : Domain.busy { x with state := st, heartbeatTimer := timer } = false := by
    rw [Domain.busy_eq_false_iff]
    rcases hst with rfl | ⟨rfl | rfl, -⟩ <;> simp
  refine ⟨?_, ?_, ?_, ?_, fun _ => h.resting hb, ?_, ?_, ?_⟩
  · rw [hb']; exact h.openDump.trans hb
  · rw [hb']; exact h.triggerTime.trans hb
  · rw [hb']; exact h.holdWindow.trans hb
  · rw [hb']; exact h.holdEnable.trans hb
  · rintro rfl; simp at hst
  · rintro rfl; simp at hst
  · intro ht
    rcases hst with rfl | ⟨-, rfl⟩
    · rfl
    · cases ht

theorem Domain.Lawful.heartbeat_stopped {x : Domain} (h : x.Lawful) (hs : x.state ≠ .armed) :
    x.heartbeatTimer = none := by
  cases ht : x.heartbeatTimer with
  | none => rfl
  | some t => exact absurd (h.heartbeat (by simp [ht])) hs

/-- A domain with a dump open keeps its law as it goes on to another state of a dump, with the end cause of that state. -/
theorem Domain.Lawful.goOn {x : Domain} (h : x.Lawful) (hb : x.busy = true) (st : DomainState) (cause : Option EndCause)
    (hst : st = .triggered ∨ st = .harvesting ∧ cause = none ∨ st = .closing ∧ cause.isSome = true) :
    Domain.Lawful { x with state := st, endCause := cause } := by
  have hb' : Domain.busy { x with state := st, endCause := cause } = true := by
    rw [Domain.busy_eq_true_iff]
    rcases hst with rfl | ⟨rfl, -⟩ | ⟨rfl, -⟩ <;> simp
  have ht : x.heartbeatTimer = none := by
    apply h.heartbeat_stopped
    intro e
    simp [Domain.busy, e] at hb
  refine ⟨?_, ?_, ?_, ?_, fun e => ?_, ?_, ?_, fun e => ?_⟩
  · rw [hb']; exact h.openDump.trans hb
  · rw [hb']; exact h.triggerTime.trans hb
  · rw [hb']; exact h.holdWindow.trans hb
  · rw [hb']; exact h.holdEnable.trans hb
  · rw [hb'] at e; cases e
  · rintro rfl; simpa using hst
  · rintro rfl; simpa using hst
  · rw [ht] at e; cases e

/-- The hold line released and the hold timer stopped, in any state. -/
theorem Domain.Lawful.unhold {x : Domain} (h : x.Lawful) (timer : Option Time) (ht : timer = x.holdTimer ∨ timer = none) :
    Domain.Lawful { x with holdLine := false, holdTimer := timer } := by
  refine ⟨h.openDump, h.triggerTime, h.holdWindow, h.holdEnable, fun e => ?_, h.harvesting, h.closing, h.heartbeat⟩
  obtain ⟨hc, -, hk⟩ := h.resting e
  exact ⟨hc, rfl, by rcases ht with rfl | rfl <;> first | exact hk | rfl⟩

theorem Domain.Lawful.stopHoldTimer {x : Domain} (h : x.Lawful) : Domain.Lawful { x with holdTimer := none } :=
  ⟨h.openDump, h.triggerTime, h.holdWindow, h.holdEnable, fun e => ⟨(h.resting e).1, (h.resting e).2.1, rfl⟩, h.harvesting,
    h.closing, h.heartbeat⟩

theorem Domain.Lawful.stopHeartbeat {x : Domain} (h : x.Lawful) : Domain.Lawful { x with heartbeatTimer := none } :=
  ⟨h.openDump, h.triggerTime, h.holdWindow, h.holdEnable, h.resting, h.harvesting, h.closing, fun e => by cases e⟩

/-- A domain whose dump is closed, or was not opened: SETTLED, with no field of a dump. -/
theorem Domain.settled_lawful (x : Domain) (hl : x.holdLine = false) (ht : x.holdTimer = none)
    (hb : x.heartbeatTimer = none) : Domain.Lawful { x.withoutDump with state := .settled } :=
  ⟨rfl, rfl, rfl, rfl, fun _ => ⟨rfl, hl, ht⟩, nofun, nofun, fun e => by
    rw [show Domain.heartbeatTimer { x.withoutDump with state := .settled } = none from hb] at e; cases e⟩

/-- The end of a complete harvest keeps the law (R12). -/
theorem Domain.Lawful.mayComplete {x y : Domain} (h : x.Lawful) (k : x.mayComplete y) : y.Lawful := by
  rcases k with rfl | ⟨hs, rfl⟩
  · exact h
  · exact h.goOn (by simp [Domain.busy, hs]) _ _ (by simp)

theorem Domain.mayComplete_disarmed {x y : Domain} (k : x.mayComplete y) (h : x.state = .disarmed) :
    y.state = .disarmed := by
  rcases k with rfl | ⟨hs, -⟩
  · exact h
  · rw [h] at hs; cases hs

/-- Leaving `triggered` and `harvesting` by a harvest end keeps the law (R13 to R16). -/
theorem Domain.Lawful.ended {x : Domain} (h : x.Lawful) (cause : EndCause) : (x.ended cause).Lawful := by
  unfold Domain.ended
  split
  · next hs => simpa only [← hs] using h.goOn (by simp [Domain.busy, hs]) .triggered _ (.inl rfl)
  · next hs => exact h.goOn (by simp [Domain.busy, hs]) _ _ (by simp)
  · exact h

theorem Domain.ended_disarmed {x : Domain} (cause : EndCause) (h : x.state = .disarmed) :
    (x.ended cause).state = .disarmed := by simp [Domain.ended, h]

/-! ### The law of the device -/

/-- The law is kept where every domain record keeps its law, and DISARMED while start-up lasts. -/
theorem State.DomainLaw.of_domains {s t : State} (h : s.DomainLaw) (hu : t.startUp = s.startUp)
    (hr : t.restart ≠ .none → s.restart ≠ .none) (hd : ∀ d, (t.domain d).Lawful)
    (hs : ∀ d, (s.domain d).state = .disarmed → s.startUp ≠ .finished → (t.domain d).state = .disarmed) : t.DomainLaw :=
  ⟨hd, fun e d => hs d (h.starting (hu ▸ e) d) (hu ▸ e), fun e => hu.trans (h.restarting (hr e))⟩

/-- What leaves the domain records, the phase of start-up and that of a restart leaves the law. -/
theorem State.DomainLaw.of_eq {s t : State} (h : s.DomainLaw) (hd : t.domains = s.domains) (hu : t.startUp = s.startUp)
    (hr : t.restart = s.restart) : t.DomainLaw := by
  have e : ∀ d, t.domain d = s.domain d := fun d => congrArg (fun x => Two.get x d) hd
  exact h.of_domains hu (by rw [hr]; exact id) (fun d => e d ▸ h.domains d) (fun d k _ => by rw [e, k])

/-- The law where one domain record changes. -/
theorem State.DomainLaw.change {s t : State} (h : s.DomainLaw) (d : Dom) (hd : (t.domain d).Lawful)
    (ho : t.domain (otherDom d) = s.domain (otherDom d))
    (hs : (s.domain d).state = .disarmed → s.startUp ≠ .finished → (t.domain d).state = .disarmed)
    (hu : t.startUp = s.startUp) (hr : t.restart = s.restart) : t.DomainLaw := by
  refine h.of_domains hu (by rw [hr]; exact id) (fun e => ?_) (fun e => ?_)
  · rcases dom_eq_or d e with rfl | rfl
    · exact hd
    · rw [ho]; exact h.domains _
  · rcases dom_eq_or d e with rfl | rfl
    · exact hs
    · rw [ho]; exact fun k _ => k

theorem State.DomainLaw.setDomain {s : State} (h : s.DomainLaw) (d : Dom) (x : Domain) (hx : x.Lawful)
    (hs : (s.domain d).state = .disarmed → s.startUp ≠ .finished → x.state = .disarmed) : (s.setDomain d x).DomainLaw :=
  h.change d (by simpa using hx) (by simp) (by simpa using hs) rfl rfl

theorem State.DomainLaw.finished {s : State} (h : s.DomainLaw) {d : Dom} (hd : (s.domain d).state ≠ .disarmed) :
    s.startUp = .finished := by
  by_contra hc
  exact hd (h.starting hc d)

theorem State.DomainLaw.settle {s : State} (h : s.DomainLaw) : s.settle.DomainLaw :=
  h.of_domains (by simp) (by simp) (fun d => (h.domains d).mayComplete (s.settle_domain d))
    (fun d k _ => Domain.mayComplete_disarmed (s.settle_domain d) k)

theorem State.DomainLaw.worked {s : State} (h : s.DomainLaw) (x : Disposition) : (s.worked x).DomainLaw := by
  unfold State.worked
  split
  · exact h.settle
  · exact h

/-- A change of a domain's counters, levels and wall time. -/
theorem State.DomainLaw.count {s : State} (h : s.DomainLaw) (d : Dom) (x : Domain)
    (e : x.uncounted = (s.domain d).uncounted) : (s.setDomain d x).DomainLaw :=
  h.setDomain d x ((h.domains d).of_uncounted e) fun k _ => (congrArg Domain.state e).trans k

theorem State.DomainLaw.countMissed {s : State} (h : s.DomainLaw) (d : Dom) : (s.countMissed d).DomainLaw :=
  h.count d _ rfl

theorem State.DomainLaw.countLate {s : State} (h : s.DomainLaw) (d : Dom) : (s.countLate d).DomainLaw :=
  h.count d _ rfl

/-! ### The shared operations of the domain controller -/

@[simp] theorem State.enterArmed_domain_self (s : State) (d : Dom) :
    (s.enterArmed d).domain d = { s.domain d with state := .armed, heartbeatTimer := s.heartbeatExpiry d } := by
  simp only [State.enterArmed, State.startHeartbeat, State.setLink_domain, State.setDomain_domain_self,
    State.setDomain_setDomain]
  rfl

@[simp] theorem State.enterArmed_domain_other (s : State) (d : Dom) :
    (s.enterArmed d).domain (otherDom d) = s.domain (otherDom d) := by
  simp [State.enterArmed, State.startHeartbeat]

/-- Entry into ARMED after start-up. -/
theorem State.DomainLaw.enterArmed {s : State} (h : s.DomainLaw) (d : Dom) (hb : (s.domain d).busy = false)
    (hu : s.startUp = .finished) : (s.enterArmed d).DomainLaw :=
  h.change d (by rw [State.enterArmed_domain_self]; exact (h.domains d).rest hb _ _ (.inl rfl)) (by simp)
    (fun _ k => absurd hu k) (by simp) (by simp)

theorem State.DomainLaw.armAtEnd {s : State} (h : s.DomainLaw) (d : Dom) (hb : (s.domain d).busy = false)
    (hu : s.startUp = .finished) : (s.armAtEnd d).DomainLaw := by
  unfold State.armAtEnd
  split
  · exact h.enterArmed d hb hu
  · exact h

theorem State.DomainLaw.startHeartbeat {s : State} (h : s.DomainLaw) (d : Dom) (ha : (s.domain d).state = .armed) :
    (s.startHeartbeat d).DomainLaw := by
  have hx := (h.domains d).rest (by simp [Domain.busy, ha]) .armed (s.heartbeatExpiry d) (.inl rfl)
  rw [← ha] at hx
  exact h.setDomain d _ hx fun k _ => k

/-- A release of the hold line leaves it released, and nothing else of the record changed (R18). -/
@[simp] theorem State.releaseLine_domain_self (s : State) (d : Dom) (r : ReleaseReason) :
    (s.releaseLine d r).domain d = { s.domain d with holdLine := false } := by
  unfold State.releaseLine
  dsimp only
  split
  · simp
  · next hl =>
    rw [← (Bool.not_eq_true _).mp hl]

@[simp] theorem State.releaseLine_domain_other (s : State) (d : Dom) (r : ReleaseReason) :
    (s.releaseLine d r).domain (otherDom d) = s.domain (otherDom d) := by
  unfold State.releaseLine
  dsimp only
  split <;> simp

theorem State.DomainLaw.releaseLine {s : State} (h : s.DomainLaw) (d : Dom) (r : ReleaseReason) :
    (s.releaseLine d r).DomainLaw :=
  h.change d (by rw [State.releaseLine_domain_self]; exact (h.domains d).unhold _ (.inl rfl)) (by simp) (by simp; exact fun k _ => k)
    (by simp) (by simp)

/-- A harvest end on the domain record (R13 to R16). -/
@[simp] theorem State.endHarvest_domain_self (s : State) (d : Dom) (k : EndCause) :
    (s.endHarvest d k).domain d = (s.domain d).ended k := by
  unfold State.endHarvest Domain.ended
  dsimp only
  cases (s.domain d).state <;> simp

@[simp] theorem State.endHarvest_domain_other (s : State) (d : Dom) (k : EndCause) :
    (s.endHarvest d k).domain (otherDom d) = s.domain (otherDom d) := by
  unfold State.endHarvest
  dsimp only
  cases (s.domain d).state <;> simp

theorem State.DomainLaw.endHarvest {s : State} (h : s.DomainLaw) (d : Dom) (k : EndCause) :
    (s.endHarvest d k).DomainLaw :=
  h.change d (by rw [State.endHarvest_domain_self]; exact (h.domains d).ended k) (by simp)
    (fun e _ => by rw [State.endHarvest_domain_self]; exact Domain.ended_disarmed k e) (by simp) (by simp)

theorem State.DomainLaw.enterClosing {s : State} (h : s.DomainLaw) (d : Dom) (k : EndCause)
    (hb : (s.domain d).busy = true) : (s.enterClosing d k).DomainLaw :=
  h.change d (by rw [State.enterClosing_domain]; exact (h.domains d).goOn hb _ _ (by simp)) (by simp)
    (fun e => by simp [Domain.busy, e] at hb) (by simp) (by simp)

theorem State.DomainLaw.completionTest {s : State} (h : s.DomainLaw) (d : Dom) : (s.completionTest d).DomainLaw :=
  h.of_domains (by simp) (by simp) (fun e => (h.domains e).mayComplete (s.completionTest_domain d e))
    (fun e k _ => Domain.mayComplete_disarmed (s.completionTest_domain d e) k)

/-- The header page's program takes the domain out of TRIGGERED (R11). -/
theorem State.DomainLaw.headerProgrammed {s : State} (h : s.DomainLaw) (d : Dom) : (s.headerProgrammed d).DomainLaw := by
  unfold State.headerProgrammed
  dsimp only
  split
  · next hs hc =>
    have hx := (h.domains d).goOn (by simp [Domain.busy, hs]) .harvesting none (by simp)
    rw [← hc] at hx
    exact (h.setDomain d _ hx fun k => by rw [k] at hs; cases hs).completionTest d
  · next hs _ => exact h.enterClosing d _ (by simp [Domain.busy, hs])
  · exact h

/-- The CLOSED report of a domain in CLOSING settles it (R17). -/
theorem State.DomainLaw.closedReport {s : State} (h : s.DomainLaw) (d : Dom) (hc : (s.domain d).state = .closing) :
    (s.closedReport d).DomainLaw := by
  have ht : (s.domain d).heartbeatTimer = none := (h.domains d).heartbeat_stopped (by rw [hc]; decide)
  have hx := Domain.settled_lawful { s.domain d with holdLine := false, holdTimer := none } rfl rfl ht
  unfold State.closedReport
  dsimp only
  refine (h.releaseLine d .closed).setDomain d _ ?_ ?_
  · rw [State.releaseLine_domain_self]; exact hx
  · rw [State.releaseLine_domain_self]
    intro (e : (s.domain d).state = .disarmed)
    rw [hc] at e; cases e

/-- The last manifest page closes the dump of a domain in CLOSING (R132). -/
theorem State.DomainLaw.dumpClosed {s : State} (h : s.DomainLaw) (d : Dom) (n : Num) : (s.dumpClosed d n).DomainLaw := by
  unfold State.dumpClosed
  dsimp only
  split
  · exact h
  · next e he =>
    have hc : (s.domain d).state = .closing := by
      by_contra hn
      simp [State.closing, hn] at he
    generalize hu : State.noticeDumpClosed _ d n _ _ _ = u
    have hul : u.DomainLaw := by rw [← hu]; exact h.of_eq (by simp) (by simp) (by simp)
    have huc : (u.domain d).state = .closing := by rw [← hu]; simpa using hc
    exact (hul.closedReport d huc).of_eq (by simp) (by simp) (by simp)

theorem State.DomainLaw.afterProgram {s : State} (h : s.DomainLaw) (k : PageKey) : (s.afterProgram k).DomainLaw := by
  unfold State.afterProgram
  split
  · exact h.headerProgrammed _
  · split
    · exact h.dumpClosed _ _
    · exact h
  · exact h

/-! ### Triggers -/

theorem State.triggerStarts_domain_self (s : State) (d : Dom) (c : TriggerCause) (o : Option (BitVec 32)) :
    (s.triggerStarts d c o).domain d
      = { s.domain d with state := .triggered, heartbeatTimer := none, triggerTime := some s.partTime } := by
  simp [State.triggerStarts]

@[simp] theorem State.triggerStarts_domain_other (s : State) (d : Dom) (c : TriggerCause) (o : Option (BitVec 32)) :
    (s.triggerStarts d c o).domain (otherDom d) = s.domain (otherDom d) := by
  simp [State.triggerStarts]

theorem State.openingFails_domain_self (s : State) (d : Dom) (c : TriggerCause) (w : FailureCause) :
    (s.openingFails d c w).domain d = { (s.domain d).withoutDump with state := .settled } := by
  simp [State.openingFails]

@[simp] theorem State.openingFails_domain_other (s : State) (d : Dom) (c : TriggerCause) (w : FailureCause) :
    (s.openingFails d c w).domain (otherDom d) = s.domain (otherDom d) := by
  simp [State.openingFails]

theorem State.openingSucceeds_domain_self (s : State) (d : Dom) (c : TriggerCause) (o : Option (BitVec 32)) :
    (s.openingSucceeds d c o).domain d = { s.domain d with
      openDump := some s.directory.nextNumber, holdWindow := some ((s.settings d).holdWindow * 1000)
      holdEnable := some (s.settings d).holdEnable, holdLine := (s.settings d).holdEnable
      holdTimer := some (s.partTime + ms ((s.settings d).holdWindow * 1000)), endCause := s.causeAtOpening d } := by
  simp [State.openingSucceeds, State.causeAtOpening]

@[simp] theorem State.openingSucceeds_domain_other (s : State) (d : Dom) (c : TriggerCause) (o : Option (BitVec 32)) :
    (s.openingSucceeds d c o).domain (otherDom d) = s.domain (otherDom d) := by
  simp [State.openingSucceeds]

/-- The record of a domain whose dump has just been opened (R4). -/
theorem Domain.opened_lawful (x : Domain) (t : Time) (n : Num) (w : Nat) (e : Bool) (line : Bool) (timer : Option Time)
    (cause : Option EndCause) :
    Domain.Lawful { x with
      state := .triggered, heartbeatTimer := none, triggerTime := some t, openDump := some n, holdWindow := some w
      holdEnable := some e, holdLine := line, holdTimer := timer, endCause := cause } :=
  ⟨rfl, rfl, rfl, rfl, nofun, nofun, nofun, nofun⟩

/-- A trigger that starts a dump, in a domain with none open (R4, R5). -/
theorem State.DomainLaw.startDump {s : State} (h : s.DomainLaw) (d : Dom) (c : TriggerCause) (o : Option (BitVec 32))
    (hb : (s.domain d).busy = false) (hd : (s.domain d).state ≠ .disarmed) : (s.startDump d c o).1.DomainLaw := by
  obtain ⟨-, hl, ht⟩ := (h.domains d).resting hb
  unfold State.startDump
  dsimp only
  split
  · refine h.change d ?_ (by simp) (fun k => absurd k hd) (by simp) (by simp)
    rw [State.openingFails_domain_self, State.triggerStarts_domain_self]
    exact Domain.settled_lawful _ hl ht rfl
  · refine h.change d ?_ (by simp) (fun k => absurd k hd) (by simp) (by simp)
    rw [State.openingSucceeds_domain_self, State.triggerStarts_domain_self]
    exact Domain.opened_lawful _ _ _ _ _ _ _ _

theorem State.DomainLaw.appendTrigger {s : State} (h : s.DomainLaw) (d : Dom) (c : TriggerCause) (o : Option (BitVec 32)) :
    (s.appendTrigger d c o).1.DomainLaw := by
  unfold State.appendTrigger
  split
  · split
    · exact h.of_eq (by simp) (by simp) (by simp)
    · exact h.count d _ rfl
  · exact h.count d _ rfl

theorem State.DomainLaw.takeTrigger {s : State} (h : s.DomainLaw) (d : Dom) (c : TriggerCause) (o : Option (BitVec 32)) :
    (s.takeTrigger d c o).1.DomainLaw := by
  unfold State.takeTrigger
  split
  · next hs => exact h.startDump d c o (by simp [Domain.busy, hs]) (by simp [hs])
  · next hs =>
    split
    · exact h.startDump d c o (by simp [Domain.busy, hs]) (by simp [hs])
    · exact h.countLate d
  · exact h.appendTrigger d c o
  · exact h.appendTrigger d c o
  · exact h.countLate d
  · exact h.countMissed d

/-! ### Requests -/

/-- What a completion and the device's own work keep, the finished answer keeps. -/
theorem Answer.All.finish {P : State → Prop} {x : Answer} (h : x.All P) (hc : ∀ u p r, P u → P (State.complete u p r))
    (hs : ∀ u : State, P u → P u.settle) (p : PortId) (f : Frame) (dom : Byte) : P (x.finish p f dom) := by
  cases x with
  | reply s st body => exact hc _ _ _ h
  | held s => exact h
  | work s st body => exact hs _ (hc _ _ _ h)
  | heldWork s => exact hs _ h
  | after s st body act => exact h.2 _ (hc _ _ _ h.1)

/-- A request command leaves the state, refuses a frame at the tests, or takes one up by its owning rule. -/
theorem State.request_cases (s : State) (p : PortId) (kind : Byte) (act : State → Frame → Dom → Answer) :
    s.request p kind act = s
    ∨ (∃ f st, f.kind = kind ∧ s.refusal p f = some st ∧ s.request p kind act = (s.reserve p).refuse p f st)
    ∨ ∃ f, s.takes p kind f ∧ s.request p kind act
        = (act (s.reserve p) f (s.resolve p f.domain)).finish p f (s.replyDomain p f) := by
  cases hn : s.nextFrame p with
  | none => exact .inl (State.request_other act (by simp [hn]))
  | some f =>
    by_cases hk : f.kind = kind
    · cases hr : s.refusal p f with
      | some st => exact .inr (.inl ⟨f, st, hk, hr, State.request_refused hn hk hr⟩)
      | none => exact .inr (.inr ⟨f, ⟨hn, hk, hr⟩, State.request_takes act ⟨hn, hk, hr⟩⟩)
    · exact .inl (State.request_other act (by simpa [hn] using hk))

/-- During start-up the tests turn away every request but IDENT and EVENT (R163 test 5). -/
theorem State.takes.finished {s : State} {p : PortId} {kind : Byte} {f : Frame} (h : s.takes p kind f)
    (hi : kind ≠ 0x01) (he : kind ≠ 0x0B) : s.startUp = .finished := by
  obtain ⟨-, rfl, hr⟩ := h
  by_contra hs
  have hi' : f.kind.toNat ≠ 1 := fun e => hi (BitVec.eq_of_toNat_eq e)
  have he' : f.kind.toNat ≠ 0x0B := fun e => he (BitVec.eq_of_toNat_eq e)
  unfold State.refusal at hr
  dsimp only at hr
  rw [if_pos (⟨hs, hi', he'⟩ : _ ∧ _ ∧ _)] at hr
  (repeat' split at hr) <;> cases hr

theorem State.DomainLaw.complete {s : State} (h : s.DomainLaw) (p : PortId) (r : Frame) : (s.complete p r).DomainLaw :=
  h.of_eq (by simp) (by simp) (by simp)

theorem State.DomainLaw.reserve {s : State} (h : s.DomainLaw) (p : PortId) : (s.reserve p).DomainLaw :=
  h.of_eq (by simp) (by simp) (by simp)

/-- A request keeps the law where its owning rule's answer, to a frame it takes, does. -/
theorem State.DomainLaw.request {s : State} (h : s.DomainLaw) (p : PortId) (kind : Byte)
    (act : State → Frame → Dom → Answer)
    (ha : ∀ u f d, u.DomainLaw → (kind ≠ 0x01 → kind ≠ 0x0B → u.startUp = .finished) → (act u f d).All State.DomainLaw) :
    (s.request p kind act).DomainLaw := by
  rcases s.request_cases p kind act with e | ⟨f, st, -, -, e⟩ | ⟨f, hf, e⟩ <;> rw [e]
  · exact h
  · unfold State.refuse
    dsimp only
    split
    · exact ((h.reserve p).countMissed _).complete p _
    · exact (h.reserve p).complete p _
  · exact (ha _ f _ (h.reserve p) fun hi he => by simpa using hf.finished hi he).finish
      (fun _ p r k => k.complete p r) (fun _ k => k.settle) p f _

/-- ARM arms a domain with no dump open (R20). -/
theorem armAct_domainLaw {s : State} (h : s.DomainLaw) (hu : s.startUp = .finished) (f : Frame) (d : Dom) :
    (armAct s f d).All State.DomainLaw := by
  unfold armAct
  split
  · next hs => exact h.enterArmed d (by simp [Domain.busy, hs]) hu
  · next hs => exact h.enterArmed d (by simp [Domain.busy, hs]) hu
  all_goals exact h

/-- DISARM disarms a domain with no dump open (R21). -/
theorem disarmAct_domainLaw {s : State} (h : s.DomainLaw) (f : Frame) (d : Dom) :
    (disarmAct s f d).All State.DomainLaw := by
  have hd (hb : (s.domain d).busy = false) :=
    h.setDomain d _ ((h.domains d).rest hb .disarmed none (.inr ⟨.inl rfl, rfl⟩)) fun _ _ => rfl
  unfold disarmAct
  split
  · next hs => exact hd (by simp [Domain.busy, hs])
  · next hs => exact hd (by simp [Domain.busy, hs])
  all_goals exact h

/-- HEARTBEAT counts, and restarts or starts the timer of a domain that is or becomes ARMED (R10). -/
theorem heartbeatAct_domainLaw {s : State} (h : s.DomainLaw) (hu : s.startUp = .finished) (f : Frame) (d : Dom) :
    (heartbeatAct s f d).All State.DomainLaw := by
  unfold heartbeatAct
  dsimp only
  have hx := h.count d ((s.domain d).heartbeat f.body s.partTime) rfl
  have hxu : (s.setDomain d ((s.domain d).heartbeat f.body s.partTime)).startUp = .finished := hu
  generalize s.setDomain d ((s.domain d).heartbeat f.body s.partTime) = u at hx hxu ⊢
  split
  · next hs => exact hx.startHeartbeat d hs
  · next hs =>
    split
    · exact hx.enterArmed d (by simp [Domain.busy, hs]) hxu
    · exact hx
  all_goals exact hx

theorem Answer.trigger_all {P : State → Prop} {r : State × Disposition} (h : P r.1) : (Answer.trigger r).All P := by
  unfold Answer.trigger
  split <;> exact h

theorem crashAct_domainLaw {s : State} (h : s.DomainLaw) (f : Frame) (d : Dom) :
    (crashAct s f d).All State.DomainLaw := by
  unfold crashAct
  dsimp only
  split
  · exact Answer.trigger_all (h.takeTrigger d _ _)
  · exact h.of_eq (by simp) (by simp) (by simp)

theorem captureAct_domainLaw {s : State} (h : s.DomainLaw) (f : Frame) (d : Dom) :
    (captureAct s f d).All State.DomainLaw := by
  unfold captureAct
  split
  · exact Answer.trigger_all (h.takeTrigger d _ _)
  · exact Answer.trigger_all (h.takeTrigger d _ _)
  · exact h.countMissed d
  all_goals exact h

theorem abortAct_domainLaw {s : State} (h : s.DomainLaw) (f : Frame) (d : Dom) :
    (abortAct s f d).All State.DomainLaw := by
  unfold abortAct
  split
  · exact h.endHarvest d _
  · exact h.endHarvest d _
  all_goals exact h

theorem releaseHoldAct_domainLaw {s : State} (h : s.DomainLaw) (f : Frame) (d : Dom) :
    (releaseHoldAct s f d).All State.DomainLaw := by
  unfold releaseHoldAct
  split
  · exact (h.releaseLine d _).endHarvest d _
  · exact (h.releaseLine d _).endHarvest d _
  · exact h.releaseLine d _
  all_goals exact h

/-- RESTART is accepted after start-up alone (R163 test 5). -/
theorem restartAct_domainLaw {s : State} (h : s.DomainLaw) (hu : s.startUp = .finished) (f : Frame) (d : Dom) :
    (restartAct s f d).All State.DomainLaw := by
  unfold restartAct
  split
  · exact h
  · split
    · exact h
    · exact ⟨h.domains, h.starting, fun _ => hu⟩

/-- VERIFY goes on after its reply (R141). -/
theorem verifyAct_domainLaw {s : State} (h : s.DomainLaw) (f : Frame) (d : Dom) :
    (verifyAct s f d).All State.DomainLaw := by
  unfold verifyAct
  dsimp only
  split
  · exact h
  · split
    · exact h
    · split
      · exact h
      · split
        · exact ⟨h, fun u k => k.of_eq (by simp) (by simp) (by simp)⟩
        · split
          · exact ⟨h, fun u k => k.of_eq (by simp) (by simp) (by simp)⟩
          · exact ⟨h, fun u k => (k.of_eq (by simp) (by simp) (by simp) : (u.verifyNext _).DomainLaw).settle⟩

/-- The owning rules of the requests that leave every domain record alone. -/
theorem planAddAct_domainLaw {s : State} (h : s.DomainLaw) (f : Frame) (d : Dom) :
    (planAddAct s f d).All State.DomainLaw := by
  unfold planAddAct
  dsimp only
  (repeat' split) <;> exact h.of_eq (by simp) (by simp) (by simp)

theorem planDeleteAct_domainLaw {s : State} (h : s.DomainLaw) (f : Frame) (d : Dom) :
    (planDeleteAct s f d).All State.DomainLaw := by
  unfold planDeleteAct
  dsimp only
  (repeat' split) <;> exact h.of_eq (by simp) (by simp) (by simp)

theorem planReadAct_domainLaw {s : State} (h : s.DomainLaw) (f : Frame) (d : Dom) :
    (planReadAct s f d).All State.DomainLaw := by
  unfold planReadAct
  dsimp only
  split <;> exact h

theorem eventAct_domainLaw {s : State} (h : s.DomainLaw) (f : Frame) (d : Dom) :
    (eventAct s f d).All State.DomainLaw := by
  unfold eventAct
  dsimp only
  (repeat' split) <;> exact h.of_eq (by simp) (by simp) (by simp)

theorem latchSetAct_domainLaw {s : State} (h : s.DomainLaw) (f : Frame) (d : Dom) :
    (latchSetAct s f d).All State.DomainLaw := by
  unfold latchSetAct
  dsimp only
  (repeat' split) <;> exact h.of_eq (by simp) (by simp) (by simp)

theorem journalReadAct_domainLaw {s : State} (h : s.DomainLaw) (f : Frame) (d : Dom) :
    (journalReadAct s f d).All State.DomainLaw := by
  unfold journalReadAct
  dsimp only
  (repeat' split) <;> exact h

theorem manifestAct_domainLaw {s : State} (h : s.DomainLaw) (f : Frame) (d : Dom) :
    (manifestAct s f d).All State.DomainLaw := by
  unfold manifestAct
  dsimp only
  (repeat' split) <;> exact h

theorem cursorAct_domainLaw {s : State} (h : s.DomainLaw) (f : Frame) (d : Dom) :
    (cursorAct s f d).All State.DomainLaw := by
  unfold cursorAct
  dsimp only
  (repeat' split) <;> exact h.of_eq (by simp) (by simp) (by simp)

theorem readAct_domainLaw {s : State} (h : s.DomainLaw) (f : Frame) (d : Dom) :
    (readAct s f d).All State.DomainLaw := by
  unfold readAct
  dsimp only
  (repeat' split) <;> exact h.of_eq (by simp) (by simp) (by simp)

theorem releaseAct_domainLaw {s : State} (h : s.DomainLaw) (f : Frame) (d : Dom) :
    (releaseAct s f d).All State.DomainLaw := by
  unfold releaseAct
  dsimp only
  (repeat' split) <;> exact h.of_eq (by simp) (by simp) (by simp)

theorem protectAct_domainLaw {s : State} (h : s.DomainLaw) (f : Frame) (d : Dom) :
    (protectAct s f d).All State.DomainLaw := by
  unfold protectAct
  dsimp only
  split <;> exact h.of_eq (by simp) (by simp) (by simp)

theorem configSetAct_domainLaw {s : State} (h : s.DomainLaw) (f : Frame) (d : Dom) :
    (configSetAct s f d).All State.DomainLaw := by
  unfold configSetAct
  dsimp only
  (repeat' split) <;> exact h.of_eq (by simp) (by simp) (by simp)

theorem configSaveAct_domainLaw {s : State} (h : s.DomainLaw) (f : Frame) (d : Dom) :
    (configSaveAct s f d).All State.DomainLaw := by
  unfold configSaveAct
  split <;> exact h.of_eq (by simp) (by simp) (by simp)

theorem viewAct_domainLaw {s : State} (h : s.DomainLaw) (f : Frame) (d : Dom) :
    (viewAct s f d).All State.DomainLaw := by
  unfold viewAct
  split <;> exact h.of_eq (by simp) (by simp) (by simp)

/-! ### Pins and timers -/

theorem State.DomainLaw.reach {s : State} (h : s.DomainLaw) (t : Time) : (s.reach t).DomainLaw :=
  h.of_eq (by simp) (by simp) (by simp)

theorem State.DomainLaw.fatalLine {s : State} (h : s.DomainLaw) (d : Dom) (level : Bool) :
    (s.fatalLine d level).DomainLaw := by
  have hx := h.count d { s.domain d with fatalLevel := level } rfl
  unfold State.fatalLine
  dsimp only
  split
  · exact (hx.takeTrigger d _ _).worked _
  · exact hx

theorem State.DomainLaw.domainPowerFall {s : State} (h : s.DomainLaw) (d : Dom) : (s.domainPowerFall d).DomainLaw := by
  unfold State.domainPowerFall
  split
  · exact h.endHarvest d _
  · exact h.endHarvest d _
  · exact h.setDomain d _ (h.domains d).stopHeartbeat fun k _ => k
  all_goals exact h

theorem State.DomainLaw.powerFall {s : State} (h : s.DomainLaw) (d : Dom) : (s.powerFall d).DomainLaw := by
  unfold State.powerFall
  dsimp only
  split
  · have hp : State.DomainLaw { s with powerGood := s.powerGood.set d false } := h.of_eq rfl rfl rfl
    exact ((hp.domainPowerFall d).of_eq (by simp) (by simp) (by simp) : State.DomainLaw (State.linkDown _ d none)).settle
  · exact h

theorem State.DomainLaw.powerRise {s : State} (h : s.DomainLaw) (d : Dom) : (s.powerRise d).DomainLaw := by
  unfold State.powerRise
  dsimp only
  split
  · exact h
  · have hp : State.DomainLaw { s with powerGood := s.powerGood.set d true } := h.of_eq rfl rfl rfl
    generalize ({ s with powerGood := s.powerGood.set d true } : State) = u at hp ⊢
    have hq : State.DomainLaw (if (u.domain d).state = .armed then u.startHeartbeat d else u) := by
      split
      · next ha => exact hp.startHeartbeat d ha
      · exact hp
    generalize (if (u.domain d).state = .armed then u.startHeartbeat d else u) = v at hq ⊢
    split
    · exact hq.of_eq (by simp) (by simp) (by simp)
    · exact hq

theorem State.DomainLaw.resetRequestRise {s : State} (h : s.DomainLaw) (d : Dom) : (s.resetRequestRise d).DomainLaw := by
  unfold State.resetRequestRise
  dsimp only
  split
  · exact h
  · exact h.count d _ rfl

theorem State.DomainLaw.hang {s : State} (h : s.DomainLaw) (d : Dom) : (s.hang d).DomainLaw := by
  unfold State.hang
  split
  · next t _ =>
    exact (((h.reach t).setDomain d _ ((h.reach t).domains d).stopHeartbeat fun k _ => k).takeTrigger d _ _).worked _
  · exact h

theorem State.DomainLaw.holdExpiry {s : State} (h : s.DomainLaw) (d : Dom) : (s.holdExpiry d).DomainLaw := by
  unfold State.holdExpiry
  split
  · next t _ =>
    have hx := (h.reach t).setDomain d _ ((h.reach t).domains d).stopHoldTimer fun k _ => k
    exact ((hx.releaseLine d _).endHarvest d _).settle
  · exact h

theorem State.DomainLaw.attachFall {s : State} (h : s.DomainLaw) : s.attachFall.DomainLaw := by
  unfold State.attachFall
  dsimp only
  split
  · refine h.of_domains (by simp) (fun k e => k ?_) (by simpa using h.domains)
      (by simpa using fun d k _ => k)
    simp [State.restartAfterDetach, e]
  · exact h

/-! ### Links, journals, the store and saves -/

theorem State.DomainLaw.trainingDone {s : State} (h : s.DomainLaw) (d : Dom) : (s.trainingDone d).DomainLaw := by
  unfold State.trainingDone
  dsimp only
  split
  · exact (h.of_eq rfl rfl rfl : State.DomainLaw (State.setLink _ d _)).settle
  · exact h

theorem State.DomainLaw.trainingFailed {s : State} (h : s.DomainLaw) (d : Dom) : (s.trainingFailed d).DomainLaw := by
  unfold State.trainingFailed
  dsimp only
  split
  · exact (State.DomainLaw.endHarvest (h.of_eq (by simp) (by simp) (by simp)) d _).settle
  · exact h

theorem State.DomainLaw.retryExpiry {s : State} (h : s.DomainLaw) (d : Dom) : (s.retryExpiry d).DomainLaw := by
  unfold State.retryExpiry
  dsimp only
  (repeat' split) <;> exact h.of_eq (by simp) (by simp) (by simp)

theorem State.DomainLaw.retrainAsked {s : State} (h : s.DomainLaw) (d : Dom) : (s.retrainAsked d).DomainLaw := by
  unfold State.retrainAsked
  dsimp only
  split
  · exact (h.of_eq (by simp) (by simp) (by simp) : State.DomainLaw (State.retrain _ d _)).settle
  · exact h

theorem State.DomainLaw.endRead {s : State} (h : s.DomainLaw) (d : Dom) (i : Fin 2) (r : LinkRead) (o : ReadOutcome) :
    (s.endRead d i r o).DomainLaw :=
  h.of_eq (by simp) (by simp) (by simp)

theorem State.DomainLaw.claimRead {s : State} (h : s.DomainLaw) (d : Dom) (r : ReadName) : (s.claimRead d r).DomainLaw := by
  unfold State.claimRead
  split
  · exact h.of_eq rfl rfl rfl
  · exact h

theorem State.DomainLaw.claimExpiry {s : State} (h : s.DomainLaw) (d : Dom) (r : ReadName) :
    (s.claimExpiry d r).DomainLaw := by
  unfold State.claimExpiry
  (repeat' split) <;> first | exact h | exact (h.endRead _ _ _ _).settle

theorem State.DomainLaw.granule {s : State} (h : s.DomainLaw) (d : Dom) (r : ReadName) (bs : List Byte) (good : Bool) :
    (s.granule d r bs good).DomainLaw := by
  unfold State.granule
  dsimp only
  split
  · split
    · split
      · exact (h.endRead _ _ _ _).settle
      · exact h.of_eq rfl rfl rfl
    · exact h
  · exact h

theorem State.DomainLaw.granuleExpiry {s : State} (h : s.DomainLaw) (d : Dom) (w : WindowName) :
    (s.granuleExpiry d w).DomainLaw := by
  unfold State.granuleExpiry
  (repeat' split) <;> first | exact h | exact (h.endRead _ _ _ _).settle

theorem State.DomainLaw.disconnectRead {s : State} (h : s.DomainLaw) (d : Dom) (r : ReadName) :
    (s.disconnectRead d r).DomainLaw := by
  unfold State.disconnectRead
  split
  · exact (h.endRead _ _ _ _).settle
  · exact h

theorem State.DomainLaw.abortRead {s : State} (h : s.DomainLaw) (d : Dom) (r : ReadName) :
    (s.abortRead d r).DomainLaw := by
  unfold State.abortRead
  split
  · exact (h.endRead _ _ _ _).settle
  · exact h

theorem State.DomainLaw.programDone {s : State} (h : s.DomainLaw) (i : Fin 8) : (s.programDone i).DomainLaw := by
  unfold State.programDone
  dsimp only
  split
  · exact (State.DomainLaw.afterProgram (h.of_eq (by simp) (by simp) (by simp)) _).settle
  · exact (h.of_eq rfl rfl rfl : State.DomainLaw { s.land i with flash := _ }).settle
  · exact h

theorem State.DomainLaw.programFails {s : State} (h : s.DomainLaw) (i : Fin 8) : (s.programFails i).DomainLaw := by
  unfold State.programFails
  split
  · exact (h.of_eq (by simp) (by simp) (by simp) : State.DomainLaw (State.programFailure _ _ _)).settle
  · exact h

theorem State.DomainLaw.readDone {s : State} (h : s.DomainLaw) (i : Fin 8) (held : Bool) : (s.readDone i held).DomainLaw := by
  unfold State.readDone
  dsimp only
  split
  · next r a _ =>
    have hl : State.DomainLaw
        (if held then s.land i else { s.land i with flash := (s.land i).flash.put a .unreadable }) := by
      split <;> exact h.of_eq rfl rfl rfl
    split
    · exact (hl.of_eq (by simp) (by simp) (by simp) : State.DomainLaw (State.cursorPage _ _)).settle
    · exact (hl.of_eq (by simp) (by simp) (by simp) : State.DomainLaw (State.verifyPage _ _)).settle
    · exact hl.settle
  · exact h

theorem State.DomainLaw.eraseEnds {s : State} (h : s.DomainLaw) (i : Fin 8) : (s.eraseEnds i).DomainLaw := by
  unfold State.eraseEnds
  split
  · exact (h.of_eq (by simp) (by simp) (by simp) : State.DomainLaw (State.eraseDone _ _ _)).settle
  · exact h

theorem State.DomainLaw.eraseFails {s : State} (h : s.DomainLaw) (i : Fin 8) : (s.eraseFails i).DomainLaw := by
  unfold State.eraseFails
  split
  · exact (h.of_eq (by simp) (by simp) (by simp) : State.DomainLaw (State.eraseFailure _ _)).settle
  · exact h

theorem State.DomainLaw.configSaveEnd {s : State} (h : s.DomainLaw) (ok : Bool) : (s.configSaveEnd ok).DomainLaw := by
  unfold State.configSaveEnd
  dsimp only
  split
  · split
    · exact (h.of_eq (by simp) (by simp) (by simp) : State.DomainLaw (State.startPendingSave _)).settle
    · exact h
  · exact h

theorem State.DomainLaw.storeSaveEnd {s : State} (h : s.DomainLaw) (ok : Bool) : (s.storeSaveEnd ok).DomainLaw := by
  unfold State.storeSaveEnd
  split
  · split
    · exact (h.of_eq (by simp) (by simp) (by simp) : State.DomainLaw (State.startPendingSave _)).settle
    · exact h
  · exact h

theorem State.DomainLaw.intakeDone {s : State} (h : s.DomainLaw) (d : Dom) : (s.intakeDone d).DomainLaw := by
  unfold State.intakeDone
  dsimp only
  split
  · exact h.of_eq (by simp) (by simp) (by simp)
  · exact h

theorem State.DomainLaw.agingTaken {s : State} (h : s.DomainLaw) (d : Dom) (i : Fin 16) : (s.agingTaken d i).DomainLaw := by
  unfold State.agingTaken
  dsimp only
  split
  · exact h.of_eq (by simp) (by simp) (by simp)
  · exact h

theorem State.DomainLaw.crashTaken {s : State} (h : s.DomainLaw) (d : Dom) : (s.crashTaken d).DomainLaw := by
  unfold State.crashTaken
  dsimp only
  split
  · split
    · exact ((h.takeTrigger d _ _).complete _ _).worked _
    · exact h
  · exact h

/-! ### Lines -/

theorem State.DomainLaw.receive {s : State} (h : s.DomainLaw) (p : PortId) (f : Frame) (crc : BitVec 16) :
    (s.receive p f crc).DomainLaw := by
  unfold State.receive
  dsimp only
  (repeat' split) <;> exact h.of_eq (by simp) (by simp) (by simp)

theorem State.DomainLaw.syncFound {s : State} (h : s.DomainLaw) (p : PortId) : (s.syncFound p).DomainLaw := by
  unfold State.syncFound
  split <;> exact h.of_eq (by simp) (by simp) (by simp)

theorem State.DomainLaw.frameGap {s : State} (h : s.DomainLaw) (p : PortId) : (s.frameGap p).DomainLaw := by
  unfold State.frameGap
  dsimp only
  split <;> exact h.of_eq (by simp) (by simp) (by simp)

theorem State.DomainLaw.oversizeLength {s : State} (h : s.DomainLaw) (p : PortId) : (s.oversizeLength p).DomainLaw := by
  unfold State.oversizeLength
  dsimp only
  split <;> exact h.of_eq (by simp) (by simp) (by simp)

theorem State.DomainLaw.peerHoldEnds {s : State} (h : s.DomainLaw) (p : PortId) : (s.peerHoldEnds p).DomainLaw := by
  unfold State.peerHoldEnds
  dsimp only
  split
  · exact h.of_eq (by simp) (by simp) (by simp)
  · exact h

/-- A RESTART reply that has left the line makes due a restart that was on its way. -/
theorem State.DomainLaw.frameSent {s : State} (h : s.DomainLaw) (p : PortId) : (s.frameSent p).DomainLaw := by
  unfold State.frameSent
  dsimp only
  split
  · split
    · next hd =>
      refine h.of_domains (by simp) (fun _ => by simp [hd.2.1]) (by simpa using h.domains) (by simp; tauto)
    · exact h.of_eq (by simp) (by simp) (by simp)
  · exact h

theorem State.DomainLaw.refuseUnknown {s : State} (h : s.DomainLaw) (p : PortId) : (s.refuseUnknown p).DomainLaw := by
  unfold State.refuseUnknown
  split
  · exact h
  · split
    · exact h
    · unfold State.refuse
      dsimp only
      rw [if_neg (by simp [stUnknownKind, stBusy])]
      exact (h.reserve p).complete p _

/-! ### Resets and start-up -/

theorem Domain.afterReset_lawful (x : PinLevels) : (Domain.afterReset x).Lawful :=
  ⟨rfl, rfl, rfl, rfl, fun _ => ⟨rfl, rfl, rfl⟩, nofun, nofun, nofun⟩

theorem State.reset_domainLaw : State.reset.DomainLaw :=
  ⟨fun d => by cases d <;> exact Domain.afterReset_lawful _, fun _ d => by cases d <;> rfl, fun k => absurd rfl k⟩

theorem State.hardReset_domainLaw (s : State) (lv : Levels) : (s.hardReset lv).DomainLaw := by
  unfold State.hardReset
  dsimp only
  refine State.reset_domainLaw.of_domains ?_ ?_ (fun d => ?_) (fun d _ _ => ?_)
  · split <;> simp
  · split <;> simp
  · split <;> cases d <;> simp [Two.get] <;> exact Domain.afterReset_lawful _
  · split <;> cases d <;> simp [Two.get] <;> rfl

theorem State.DomainLaw.loadDone {s : State} (h : s.DomainLaw) : s.loadDone.DomainLaw := by
  unfold State.loadDone
  dsimp only
  split
  · next hl => 
    refine ⟨by simpa using h.domains, fun _ d => ?_, fun k => ?_⟩
    · simpa using h.starting (by rw [hl]; decide) d
    · have := h.restarting (by simpa using k)
      rw [hl] at this; cases this
  · exact h

@[simp] theorem State.armAtEnd_domain_other (s : State) (d : Dom) :
    (s.armAtEnd d).domain (otherDom d) = s.domain (otherDom d) := by
  unfold State.armAtEnd
  split <;> simp

/-- Start-up ends with both domains DISARMED, and arms those that arm by themselves (R23). -/
theorem State.DomainLaw.scanDone {s : State} (h : s.DomainLaw) : s.scanDone.DomainLaw := by
  unfold State.scanDone
  dsimp only
  split
  · next hl =>
    generalize hu : ({ State.refill _ with startUp := .finished, directory := _ } : State) = u
    have hd : ∀ d, u.domain d = s.domain d := by rw [← hu]; simp
    have hf : u.startUp = .finished := by rw [← hu]
    have hb : ∀ d, (u.domain d).busy = false := fun d => by
      rw [hd, Domain.busy_eq_false_iff]
      exact .inl (h.starting (by rw [hl]; decide) d)
    have hul : u.DomainLaw := ⟨fun d => hd d ▸ h.domains d, fun e => absurd hf e, fun _ => hf⟩
    exact ((hul.armAtEnd .a (hb .a) hf).armAtEnd .b
      (by rw [show Dom.b = otherDom .a from rfl, State.armAtEnd_domain_other]; exact hb .b) (by simpa using hf)).settle
  · exact h

/-- A domain at a restart with no dump open (R24). -/
theorem State.DomainLaw.domainRestart {s : State} (h : s.DomainLaw) (d : Dom) (hb : (s.domain d).busy = false)
    (hu : s.startUp = .finished) : (s.domainRestart d).DomainLaw := by
  have hx := ((h.domains d).rest hb .disarmed none (.inr ⟨.inl rfl, rfl⟩)).of_uncounted (y := { s.domain d with
    state := .disarmed, heartbeatTimer := none, missed := 0, late := 0, overflow := 0, heldResets := 0
    heartbeats := 0 }) rfl
  unfold State.domainRestart
  dsimp only
  refine State.DomainLaw.armAtEnd (h.setDomain d _ hx fun _ _ => rfl) d ?_ hu
  rw [State.setDomain_domain_self]
  rfl

@[simp] theorem State.domainRestart_domain_other (s : State) (d : Dom) :
    (s.domainRestart d).domain (otherDom d) = s.domain (otherDom d) := by
  simp [State.domainRestart]

/-- A restart takes effect with no dump open (R181). -/
theorem State.DomainLaw.restartDone {s : State} (h : s.DomainLaw) : s.restartDone.DomainLaw := by
  unfold State.restartDone
  dsimp only
  split
  · next hl =>
    obtain ⟨hr, ha, hb⟩ := hl
    have hf : s.startUp = .finished := h.restarting (by rw [hr]; decide)
    generalize hu : State.applySlots _ _ = u
    have hd : ∀ d, u.domain d = s.domain d := by
      rw [← hu]; simp [State.blocksRestart, State.reloaded]
    have huf : u.startUp = .finished := by rw [← hu]; simpa [State.blocksRestart, State.reloaded] using hf
    have hul : u.DomainLaw := ⟨fun d => hd d ▸ h.domains d, fun e => absurd huf e, fun _ => huf⟩
    have hv := (hul.domainRestart .a (by rw [hd]; exact ha) huf).domainRestart .b
      (by rw [show Dom.b = otherDom .a from rfl, State.domainRestart_domain_other, hd]; exact hb) (by simpa using huf)
    exact (hv.of_eq (by simp) (by simp) (by simp) : State.DomainLaw (State.noticeIdent _)).settle
  · exact h

/-- Every command keeps the domain law. -/
theorem exec_keeps_domainLaw (c : Instr) {s t : State} (h : s.DomainLaw) (e : exec c s = .next t) : t.DomainLaw := by
  cases c <;> cases e
  case hardReset lv => exact s.hardReset_domainLaw lv
  case configLoadComplete => exact h.loadDone
  case startUpScanComplete => exact h.scanDone
  case restartTakesEffect => exact h.restartDone
  case fatalLine d level => exact h.fatalLine d level
  case powerGoodFall d => exact h.powerFall d
  case powerGoodRise d => exact h.powerRise d
  case resetRequestEdge d => exact h.resetRequestRise d
  case resetRequestFall d => exact h.count d _ rfl
  case attach => unfold State.attachRise; split <;> exact h.of_eq (by simp) (by simp) (by simp)
  case detach => exact h.attachFall
  case hang d => exact h.hang d
  case holdTimerExpiry d => exact h.holdExpiry d
  case linkRetryTimerExpiry d => exact h.retryExpiry d
  case trainingExpiry d => exact h.trainingFailed d
  case trainingComplete d => exact h.trainingDone d
  case targetRetrainRequest d => exact h.retrainAsked d
  case targetClaim d r => exact h.claimRead d r
  case claimWindowExpiry d r => exact h.claimExpiry d r
  case granuleArrival d r bs good => exact h.granule d r bs good
  case granuleWindowExpiry d w => exact h.granuleExpiry d w
  case disconnect d r => exact h.disconnectRead d r
  case targetAbort d r => exact h.abortRead d r
  case programComplete i => exact h.programDone i
  case programFailed i => exact h.programFails i
  case storeReadComplete i held => exact h.readDone i held
  case eraseComplete i => exact h.eraseEnds i
  case eraseFailed i => exact h.eraseFails i
  case storeSaveEnd ok => exact h.storeSaveEnd ok
  case configSaveEnd ok => exact h.configSaveEnd ok
  case intakeStepComplete d => exact h.intakeDone d
  case agingExpiry d i => exact h.agingTaken d i
  case crashTaken d => exact h.crashTaken d
  case receiveFrame p k g d bs crc => exact h.receive p _ crc
  case syncPairFound p => exact h.syncFound p
  case frameGapTimeout p => exact h.frameGap p
  case oversize p => exact h.oversizeLength p
  case peerHoldExpiry p => exact h.peerHoldEnds p
  case frameSent p => exact h.frameSent p
  case unknownKind p => exact h.refuseUnknown p
  case ident p => exact h.request p _ _ fun u f d hu _ => hu
  case status p => exact h.request p _ _ fun u f d hu _ => hu
  case counters p => exact h.request p _ _ fun u f d hu _ => hu
  case configGet p => exact h.request p _ _ fun u f d hu _ => hu
  case dir p => exact h.request p _ _ fun u f d hu _ => hu
  case linkStatus p => exact h.request p _ _ fun u f d hu _ => hu.of_eq rfl rfl rfl
  case latchRead p => exact h.request p _ _ fun u f d hu _ => hu.of_eq rfl rfl rfl
  case planClear p => exact h.request p _ _ fun u f d hu _ => hu.of_eq rfl rfl rfl
  case planAdd p => exact h.request p _ _ fun u f d hu _ => planAddAct_domainLaw hu f d
  case planDelete p => exact h.request p _ _ fun u f d hu _ => planDeleteAct_domainLaw hu f d
  case planRead p => exact h.request p _ _ fun u f d hu _ => planReadAct_domainLaw hu f d
  case arm p => exact h.request p _ _ fun u f d hu k => armAct_domainLaw hu (k (by decide) (by decide)) f d
  case disarm p => exact h.request p _ _ fun u f d hu _ => disarmAct_domainLaw hu f d
  case heartbeat p =>
    exact h.request p _ _ fun u f d hu k => heartbeatAct_domainLaw hu (k (by decide) (by decide)) f d
  case latchSet p => exact h.request p _ _ fun u f d hu _ => latchSetAct_domainLaw hu f d
  case event p => exact h.request p _ _ fun u f d hu _ => eventAct_domainLaw hu f d
  case crash p => exact h.request p _ _ fun u f d hu _ => crashAct_domainLaw hu f d
  case capture p => exact h.request p _ _ fun u f d hu _ => captureAct_domainLaw hu f d
  case abort p => exact h.request p _ _ fun u f d hu _ => abortAct_domainLaw hu f d
  case releaseHold p => exact h.request p _ _ fun u f d hu _ => releaseHoldAct_domainLaw hu f d
  case manifest p => exact h.request p _ _ fun u f d hu _ => manifestAct_domainLaw hu f d
  case cursor p => exact h.request p _ _ fun u f d hu _ => cursorAct_domainLaw hu f d
  case read p => exact h.request p _ _ fun u f d hu _ => readAct_domainLaw hu f d
  case journalRead p => exact h.request p _ _ fun u f d hu _ => journalReadAct_domainLaw hu f d
  case release p => exact h.request p _ _ fun u f d hu _ => releaseAct_domainLaw hu f d
  case protect p => exact h.request p _ _ fun u f d hu _ => protectAct_domainLaw hu f d
  case verify p => exact h.request p _ _ fun u f d hu _ => verifyAct_domainLaw hu f d
  case configSet p => exact h.request p _ _ fun u f d hu _ => configSetAct_domainLaw hu f d
  case configSave p => exact h.request p _ _ fun u f d hu _ => configSaveAct_domainLaw hu f d
  case view p => exact h.request p _ _ fun u f d hu _ => viewAct_domainLaw hu f d
  case restart p =>
    exact h.request p _ _ fun u f d hu k => restartAct_domainLaw hu (k (by decide) (by decide)) f d

/-- Settles O4: an idle millisecond leaves the domains, and every command keeps the law. -/
theorem stepsKeepTheDomainLaw : Obligations.StepsKeepTheDomainLaw := by
  unfold Obligations.StepsKeepTheDomainLaw
  intro s t h e
  unfold step at e
  split at e
  · cases e; exact h.of_eq rfl rfl rfl
  · next c rest _ => exact exec_keeps_domainLaw c (h.of_eq rfl rfl rfl : (s.withPending rest).DomainLaw) e

end Sys2Proof.Machine
end

