-- ==== Sys2Proof/Proofs/OwnWork.lean ====
section
/-! SUPPORT. What the device's own work leaves as it was (95; log 4), put together. -/
namespace Sys2Proof.Machine

/-- The frame of the device's own work as one equation. -/
theorem State.settle_eq (s : State) :
    s.settle = { s with
      domains := s.settle.domains, admissions := s.settle.admissions, works := s.settle.works
      channels := s.settle.channels, lastPicked := s.settle.lastPicked, staging := s.settle.staging
      links := s.settle.links, journals := s.settle.journals, directory := s.settle.directory, store := s.settle.store
      servicePort := s.settle.servicePort, service := s.settle.service } := by
  obtain ⟨h1, h2, h3, h4, h5, h6, h7, -, h9, h10, h11, -⟩ := s.settle_frame
  generalize s.settle = t at *
  cases s; cases t
  simp only at h1 h2 h3 h4 h5 h6 h7 h9 h10 h11
  subst h1 h2 h3 h4 h5 h6 h7 h9 h10 h11
  rfl

/-- Settles O15, from the frame of `settle` and what it leaves of each part. -/
theorem ownWorkLeavesTheRest : Obligations.OwnWorkLeavesTheRest := by
  unfold Obligations.OwnWorkLeavesTheRest
  intro s
  exact ⟨s.settle, rfl, s.settle_eq, s.settle_domain, s.settle_journalStill, s.settle_linkStill, s.settle_dirStill,
    s.settle_within.1, s.settle_noticed.port.still, s.settle_noticed.service⟩

end Sys2Proof.Machine
end

