-- ==== Sys2Proof/Proofs/Reports.lean ====
section
/-! SUPPORT. The reports: bodies of a fixed length, and requests that answer and change nothing (R22, R173, R174, R177). -/
namespace Sys2Proof.Machine

/-! ### Lengths -/

theorem State.identBody_length (s : State) : s.identBody.length = 70 := by
  simp [State.identBody, partName, le_length, padTo_length]

theorem State.statusBytes_length (s : State) (d : Dom) : (s.statusBytes d).length = 29 := by
  simp [State.statusBytes, le_length]

theorem Port.counterBytes_length (q : Port) : q.counterBytes.length = 10 := by
  simp [Port.counterBytes, le_length]

theorem State.domainCounterBytes_length (s : State) (d : Dom) : (s.domainCounterBytes d).length = 16 := by
  simp [State.domainCounterBytes, DomainCounters.bytes, le_length]

theorem Store.figureBytes_length (st : Store) : st.figureBytes.length = 13 := by
  simp [Store.figureBytes, le_length]

theorem settingsBytes_length (x : Settings) (slots : List SlotProgram) : (settingsBytes x slots).length = 48 :=
  blockBytes_length _ _

theorem retiredBytes_length (l : List RetiredEntry) : (retiredBytes l).length = 192 := padTo_length _ _

/-! ### Answers -/

/-- A request of a kind that names no domain is answered with domain byte 0xFF (R161). -/
theorem State.takes.replyDomain_none {s : State} {p : PortId} {kind : Byte} {f : Frame} (h : s.takes p kind f)
    (hn : namesDomain kind.toNat f.body = false) : s.replyDomain p f = 0xFF := by
  obtain ⟨-, rfl, -⟩ := h
  simp [State.replyDomain, hn]

/-- A request of a kind that names a domain is answered with the byte of the domain it resolves to (R161). -/
theorem State.takes.replyDomain_named {s : State} {p : PortId} {kind : Byte} {f : Frame} (h : s.takes p kind f)
    (hn : namesDomain kind.toNat f.body = true) : s.replyDomain p f = domByte (s.resolve p f.domain) := by
  obtain ⟨-, rfl, -⟩ := h
  simp [State.replyDomain, hn]

/-- A request whose owning rule answers with a body and leaves the state. -/
theorem State.request_report {s : State} {p : PortId} {kind : Byte} {f : Frame} {body : List Byte}
    {act : State → Frame → Dom → Answer} (h : s.takes p kind f) (hn : namesDomain kind.toNat f.body = false)
    (ha : act (s.reserve p) f (s.resolve p f.domain) = .ok (s.reserve p) body) :
    ∃ t, s.request p kind act = t ∧ Answered s t p f 0xFF 0x00 body ∧ t.apart p = s.apart p := by
  obtain ⟨t, ht, hans, hap⟩ := State.request_reply h ha (s.reserve_port p)
  rw [h.replyDomain_none hn] at hans
  exact ⟨t, ht, hans, by rw [hap, State.reserve_apart]⟩

/-- Settles O18: each report's answer is its body, of the lengths above, over the state it finds. -/
theorem reportsAnswerAndChangeNothing : Obligations.ReportsAnswerAndChangeNothing := by
  unfold Obligations.ReportsAnswerAndChangeNothing
  intro s p f
  refine ⟨fun h => ⟨s.identBody_length, ?_⟩, fun h => ⟨?_, ?_⟩, fun h => ?_, fun h => ?_⟩
  · obtain ⟨t, ht, hans⟩ := State.request_report (body := s.identBody) (act := identAct) h rfl (by cases p <;> rfl)
    exact ⟨t, congrArg _ ht, hans⟩
  · simp [State.statusBytes_length]
  · obtain ⟨t, ht, hans⟩ := State.request_report (body := s.statusBytes .a ++ s.statusBytes .b) (act := statusAct) h rfl
      (by cases p <;> rfl)
    exact ⟨t, congrArg _ ht, hans⟩
  · obtain ⟨t, ht, hans⟩ := State.request_report (act := countersAct) (body := _) h rfl rfl
    refine ⟨_, t, congrArg _ ht, ?_, ?_, hans⟩
    · simp [le_length, Port.counterBytes_length, State.domainCounterBytes_length, Store.figureBytes_length]
    · rcases p with _ | (_ | _) <;> rfl
  · obtain ⟨t, ht, hans⟩ := State.request_report (act := configGetAct) (body := _) h rfl rfl
    refine ⟨_, t, congrArg _ ht, ?_, ?_, hans⟩
    · simp [le_length, padTo_length, retiredBytes_length, State.domainBlock, settingsBytes_length]
    · cases p <;> rfl

end Sys2Proof.Machine
end

