-- ==== Sys2Proof/Proofs/ResetLaws.lean ====
section
/-! SUPPORT. The reset state keeps every law (R23, R79, R120, R143, R160, R168, R176, R180): each part as a hard reset
leaves it is lawful. -/
namespace Sys2Proof.Machine

/-! ### The parts after a hard reset -/

theorem Slot.unassigned_lawful : Slot.unassigned.Lawful := ⟨fun _ => ⟨rfl, rfl, rfl, rfl⟩, nofun⟩

theorem Journal.afterReset_lawful : Journal.afterReset.Lawful := by
  refine ⟨by decide, by decide, by decide, by decide, by decide, fun i => ?_⟩
  rw [show Journal.afterReset.slots[i] = Slot.unassigned from Vector.getElem_replicate ..]
  exact Slot.unassigned_lawful

theorem Link.afterReset_positions (i : Fin 2) : Link.afterReset.positions[i] = none := Vector.getElem_replicate ..

theorem Link.afterReset_lawful (power : Bool) : Link.afterReset.Lawful power :=
  ⟨fun _ => Link.afterReset_positions, rfl, nofun, fun _ => rfl, fun _ => rfl, nofun,
    fun i r h => by rw [Link.afterReset_positions] at h; cases h⟩

theorem Port.afterReset_lawful (line : Option Frame) : Port.Lawful { Port.afterReset with line := line } :=
  ⟨Nat.zero_le _, Nat.zero_le _, Nat.zero_le _⟩

theorem Settings.default_lawful : Settings.default.Lawful := by constructor <;> decide

/-! ### The laws of the device -/

theorem State.reset_channel (c : Fin 4) : State.reset.channel c = Channel.idle := Vector.getElem_replicate ..

theorem State.reset_link (d : Dom) : State.reset.link d = Link.afterReset := by cases d <;> rfl

theorem State.reset_journal (d : Dom) : State.reset.journal d = Journal.afterReset := by cases d <;> rfl

theorem State.reset_domain (d : Dom) : State.reset.domain d = Domain.afterReset PinLevels.low := by cases d <;> rfl

theorem State.reset_planLaw : State.reset.PlanLaw := by
  intro d
  cases d <;> exact ⟨Nat.zero_le _, fun _ h => (List.not_mem_nil h).elim, List.nodup_nil⟩

theorem State.reset_portLaw : State.reset.PortLaw := by
  rintro (_ | _ | _) <;> exact Port.afterReset_lawful _

theorem State.reset_settingsLaw : State.reset.SettingsLaw := by
  intro d
  cases d <;> exact Settings.default_lawful

theorem Staging.claimedBy_empty (c : Fin 4) : Staging.claimedBy { pages := [], requests := [] } c = 0 := rfl

theorem State.reset_storeLaw : State.reset.StoreLaw :=
  ⟨Nat.zero_le _, fun c => (Staging.claimedBy_empty c).trans_le (Nat.zero_le _), fun c _ => Staging.claimedBy_empty c,
    Nat.zero_le _, Nat.zero_le _, .inl rfl, List.nodup_nil⟩

theorem State.reset_directoryLaw : State.reset.DirectoryLaw := by
  refine ⟨Nat.zero_le _, List.Pairwise.nil, fun _ h => (List.not_mem_nil h).elim, fun d n h => ?_, fun d => ?_,
    fun _ h => (List.not_mem_nil h).elim⟩
  · rw [State.reset_domain] at h; cases h
  · cases d <;> rfl

theorem State.reset_detachedLaw : State.reset.DetachedLaw :=
  ⟨fun _ => ⟨rfl, rfl, rfl, rfl, rfl⟩, fun _ => ⟨Nat.zero_le _, fun _ => rfl⟩, fun _ => ⟨rfl, rfl⟩⟩

/-- No entry, no section held and no read outstanding: the section law speaks of nothing yet. -/
theorem State.reset_sectionLaw : State.reset.SectionLaw where
  sections _ h := (List.not_mem_nil h).elim
  fixed _ h := (List.not_mem_nil h).elim
  idle c _ := by rw [State.reset_channel]; rfl
  channels c j h := by rw [State.reset_channel] at h; cases h
  distinct c e j k h := by rw [State.reset_channel] at h; cases h
  reads d i r h := by rw [State.reset_link, Link.afterReset_positions] at h; cases h
  readsApart d r q h := by rw [State.reset_link, Link.afterReset_positions] at h; cases h
  copies d c h := by rw [State.reset_journal] at h; cases h
  latches _ h := (List.not_mem_nil h).elim
  starting _ := ⟨fun c => by rw [State.reset_channel]; rfl, fun d => by rw [State.reset_journal]; rfl, rfl⟩

/-- Settles O3, law by law. -/
theorem resetKeepsEveryLaw : Obligations.ResetKeepsEveryLaw := by
  unfold Obligations.ResetKeepsEveryLaw
  refine ⟨State.reset_domainLaw, State.reset_planLaw, fun d => ?_, fun d => ?_, State.reset_portLaw, State.reset_settingsLaw,
    State.reset_storeLaw, State.reset_directoryLaw, State.reset_detachedLaw, State.reset_sectionLaw, Nat.zero_le _,
    (fun _ h => (List.not_mem_nil h).elim), State.reset_flash_wf⟩
  · rw [State.reset_journal]; exact Journal.afterReset_lawful
  · rw [State.reset_link]; exact Link.afterReset_lawful _

end Sys2Proof.Machine
end

