-- ==== Sys2Proof/Proofs/Arming.lean ====
section
/-! SUPPORT. ARM, DISARM and HEARTBEAT (R9, R10, R20, R21): each answer over the state with its reply place reserved is the
answer over the state itself. -/
namespace Sys2Proof.Machine

/-! ### Requests over a reserved place -/

theorem State.reserve_setDomain (s : State) (p : PortId) (d : Dom) (x : Domain) :
    (s.reserve p).setDomain d x = (s.setDomain d x).reserve p := by cases p <;> rfl

theorem State.reserve_startHeartbeat (s : State) (p : PortId) (d : Dom) :
    (s.reserve p).startHeartbeat d = (s.startHeartbeat d).reserve p := by cases p <;> rfl

theorem State.reserve_enterArmed (s : State) (p : PortId) (d : Dom) :
    (s.reserve p).enterArmed d = (s.enterArmed d).reserve p := by cases p <;> rfl

/-- A request answered over a state that its rule reaches with the port left alone, but for the reserved place. -/
theorem State.request_answered {s u : State} {p : PortId} {kind : Byte} {f : Frame} {st : Byte} {body : List Byte}
    {d : Dom} {act : State → Frame → Dom → Answer} (h : s.takes p kind f) (hd : d = s.resolve p f.domain)
    (hn : namesDomain kind.toNat f.body = true) (ha : act (s.reserve p) f d = .reply (u.reserve p) st body)
    (hu : u.port p = s.port p) :
    Answered s (s.request p kind act) p f (domByte d) st body ∧ (s.request p kind act).apart p = u.apart p := by
  subst hd
  obtain ⟨t, rfl, hans, hap⟩ := State.request_reply h ha (by rw [State.reserve_port, hu])
  rw [h.replyDomain_named hn] at hans
  exact ⟨hans, by rw [hap, State.reserve_apart]⟩

/-! ### The owning rules, by the state of the domain -/

theorem armAct_rest (s : State) (p : PortId) (f : Frame) (d : Dom)
    (h : (s.domain d).state = .disarmed ∨ (s.domain d).state = .settled) :
    armAct (s.reserve p) f d = .reply ((s.enterArmed d).reserve p) 0x00 [] := by
  rw [← State.reserve_enterArmed]
  rcases h with h | h <;> simp [armAct, h, Answer.ok, stOk]

theorem armAct_armed (s : State) (p : PortId) (f : Frame) (d : Dom) (h : (s.domain d).state = .armed) :
    armAct (s.reserve p) f d = .reply (s.reserve p) 0x00 [] := by simp [armAct, h, Answer.ok, stOk]

theorem armAct_busy (s : State) (p : PortId) (f : Frame) (d : Dom) (h : (s.domain d).busy = true) :
    armAct (s.reserve p) f d = .reply (s.reserve p) 0x15 [] := by
  rcases (Domain.busy_eq_true_iff _).1 h with h | h | h <;> simp [armAct, h, Answer.refused, stState]

theorem disarmAct_armed (s : State) (p : PortId) (f : Frame) (d : Dom)
    (h : (s.domain d).state = .armed ∨ (s.domain d).state = .settled) :
    disarmAct (s.reserve p) f d
      = .reply ((s.setDomain d { s.domain d with state := .disarmed, heartbeatTimer := none }).reserve p) 0x00 [] := by
  rw [← State.reserve_setDomain]
  rcases h with h | h <;> simp [disarmAct, h, Answer.ok, stOk]

theorem disarmAct_refused (s : State) (p : PortId) (f : Frame) (d : Dom)
    (h : (s.domain d).state = .disarmed ∨ (s.domain d).busy = true) :
    disarmAct (s.reserve p) f d = .reply (s.reserve p) 0x15 [] := by
  rw [Domain.busy_eq_true_iff] at h
  rcases h with h | h | h | h <;> simp [disarmAct, h, Answer.refused, stState]

/-- A heartbeat counted, with its wall time kept: what HEARTBEAT does in every state (R10). -/
def State.heartbeatCounted (s : State) (f : Frame) (d : Dom) : State :=
  s.setDomain d ((s.domain d).heartbeat f.body s.partTime)

theorem State.reserve_heartbeatCounted (s : State) (p : PortId) (f : Frame) (d : Dom) :
    (s.reserve p).heartbeatCounted f d = (s.heartbeatCounted f d).reserve p := by cases p <;> rfl

theorem State.heartbeatCounted_domain (s : State) (f : Frame) (d : Dom) :
    (s.heartbeatCounted f d).domain d = (s.domain d).heartbeat f.body s.partTime := State.setDomain_domain_self ..

theorem heartbeatAct_armed (s : State) (p : PortId) (f : Frame) (d : Dom) (h : (s.domain d).state = .armed) :
    heartbeatAct (s.reserve p) f d = .reply (((s.heartbeatCounted f d).startHeartbeat d).reserve p) 0x00 [] := by
  rw [← State.reserve_startHeartbeat, ← State.reserve_heartbeatCounted]
  simp [heartbeatAct, Domain.heartbeat, h, Answer.ok, stOk, State.heartbeatCounted]

theorem heartbeatAct_arms (s : State) (p : PortId) (f : Frame) (d : Dom) (h : (s.domain d).state = .settled)
    (ha : (s.settings d).autoArm = true) (hp : s.powerGood.get d = true) :
    heartbeatAct (s.reserve p) f d = .reply (((s.heartbeatCounted f d).enterArmed d).reserve p) 0x00 [] := by
  rw [← State.reserve_enterArmed, ← State.reserve_heartbeatCounted]
  simp [heartbeatAct, Domain.heartbeat, h, ha, hp, Answer.ok, stOk, State.heartbeatCounted]

theorem heartbeatAct_counts (s : State) (p : PortId) (f : Frame) (d : Dom) (h : (s.domain d).state ≠ .armed)
    (ha : (s.domain d).state = .settled → (s.settings d).autoArm = false ∨ s.powerGood.get d = false) :
    heartbeatAct (s.reserve p) f d = .reply ((s.heartbeatCounted f d).reserve p) 0x00 [] := by
  rw [← State.reserve_heartbeatCounted]
  cases hs : (s.domain d).state
  case armed => exact absurd hs h
  case settled => rcases ha hs with e | e <;> simp [heartbeatAct, Domain.heartbeat, hs, e, Answer.ok, stOk, State.heartbeatCounted]
  all_goals simp [heartbeatAct, Domain.heartbeat, hs, Answer.ok, stOk, State.heartbeatCounted]

theorem State.enterArmed_eq (s : State) (d : Dom) :
    s.enterArmed d = (s.setDomain d { s.domain d with state := .armed, heartbeatTimer := s.heartbeatExpiry d }).setLink d
      { s.link d with widen := true } := by
  simp only [State.enterArmed, State.startHeartbeat, State.setDomain_domain_self, State.setDomain_setDomain]
  rfl

/-- HEARTBEAT in every state (R10). -/
theorem State.request_heartbeat {s : State} {p : PortId} {f : Frame} {d : Dom} (h : s.takes p 0x0C f)
    (hd : d = s.resolve p f.domain) :
    Answered s (s.request p 0x0C heartbeatAct) p f (domByte d) 0x00 [] ∧
      ((s.domain d).state = .armed →
        (s.request p 0x0C heartbeatAct).apart p = ((s.heartbeatCounted f d).startHeartbeat d).apart p) ∧
      ((s.domain d).state = .settled → (s.settings d).autoArm = true → s.powerGood.get d = true →
        (s.request p 0x0C heartbeatAct).apart p = ((s.heartbeatCounted f d).enterArmed d).apart p) ∧
      ((s.domain d).state ≠ .armed → ((s.domain d).state = .settled → (s.settings d).autoArm = false
          ∨ s.powerGood.get d = false) →
        (s.request p 0x0C heartbeatAct).apart p = (s.heartbeatCounted f d).apart p) := by
  by_cases hs : (s.domain d).state = .armed
  · obtain ⟨hans, hap⟩ := State.request_answered h hd rfl (heartbeatAct_armed s p f d hs)
      (by simp [State.heartbeatCounted])
    exact ⟨hans, fun _ => hap, fun k => absurd (hs.symm.trans k) (by decide), fun k => absurd hs k⟩
  · by_cases ha : (s.domain d).state = .settled ∧ (s.settings d).autoArm = true ∧ s.powerGood.get d = true
    · obtain ⟨hset, hauto, hpower⟩ := ha
      obtain ⟨hans, hap⟩ := State.request_answered h hd rfl (heartbeatAct_arms s p f d hset hauto hpower)
        (by simp [State.heartbeatCounted])
      exact ⟨hans, fun k => absurd k hs, fun _ _ _ => hap, fun _ k => by simp [hauto, hpower, hset] at k⟩
    · have hc : (s.domain d).state = .settled → (s.settings d).autoArm = false ∨ s.powerGood.get d = false := by
        simp only [← Bool.not_eq_true]
        tauto
      obtain ⟨hans, hap⟩ := State.request_answered h hd rfl (heartbeatAct_counts s p f d hs hc)
        (by simp [State.heartbeatCounted])
      exact ⟨hans, fun k => absurd k hs, fun k ka kp => absurd ⟨k, ka, kp⟩ ha, fun _ _ => hap⟩

/-- Settles O22: each command by the states its rule tells apart. -/
theorem armDisarmAndHeartbeat : Obligations.ArmDisarmAndHeartbeat := by
  unfold Obligations.ArmDisarmAndHeartbeat
  rintro s p f d x timer hd rfl rfl
  refine ⟨fun h => ⟨_, rfl, fun hs => ?_, fun hs => ?_, fun hs => ?_⟩, fun h => ⟨_, rfl, fun hs => ?_, fun hs => ?_⟩,
    fun h => ?_⟩
  · have := State.request_answered h hd rfl (armAct_rest s p f d hs) (by simp)
    rwa [State.enterArmed_eq] at this
  · exact State.request_answered h hd rfl (armAct_armed s p f d hs) rfl
  · exact State.request_answered h hd rfl (armAct_busy s p f d hs) rfl
  · exact State.request_answered h hd rfl (disarmAct_armed s p f d hs) (by simp)
  · exact State.request_answered h hd rfl (disarmAct_refused s p f d hs) rfl
  · have := State.request_heartbeat h hd
    rw [State.enterArmed_eq, State.startHeartbeat, State.heartbeatCounted_domain, State.heartbeatCounted,
      State.setDomain_setDomain, State.setDomain_setDomain] at this
    exact ⟨_, rfl, this⟩

end Sys2Proof.Machine
end

