-- ==== Sys2Proof/Proofs/HarvestEnds.lean ====
section
/-! SUPPORT. The events and requests that end a harvest (R13 to R16): what `endHarvest` leaves of the domain, the sections
and the links, and what the commands around it add. -/
namespace Sys2Proof.Machine

/-! ### States compared part by part -/

theorem State.eq_iff {s t : State} : s = t ↔
    (s.pending = t.pending ∧ s.freeCount = t.freeCount ∧ s.partTime = t.partTime ∧ s.startUp = t.startUp
      ∧ s.restart = t.restart ∧ s.powerGood = t.powerGood ∧ s.domains = t.domains ∧ s.plans = t.plans
      ∧ s.admissions = t.admissions ∧ s.works = t.works ∧ s.channels = t.channels ∧ s.lastPicked = t.lastPicked
      ∧ s.staging = t.staging ∧ s.links = t.links ∧ s.journals = t.journals ∧ s.directory = t.directory
      ∧ s.store = t.store ∧ s.flash = t.flash ∧ s.servicePort = t.servicePort ∧ s.platformPorts = t.platformPorts
      ∧ s.service = t.service ∧ s.config = t.config) := by
  cases s; cases t; simp only [State.mk.injEq]

/-- A pair changed for one domain alone. -/
theorem Two.eq_set_iff {α : Type} {t u : Two α} (d : Dom) :
    u = t.set d (u.get d) ↔ u.get (otherDom d) = t.get (otherDom d) := by
  constructor
  · intro h
    rw [h, Two.get_set_other]
  · intro h
    apply Two.ext_get
    intro e
    rcases dom_eq_or d e with rfl | rfl
    · rw [Two.get_set_self]
    · rw [Two.get_set_other, h]

theorem State.journals_eq_set {s u : State} {d : Dom} (h : u.journal (otherDom d) = s.journal (otherDom d)) :
    u.journals = s.journals.set d (u.journal d) := (Two.eq_set_iff d).2 h

theorem State.domains_eq_set {s u : State} {d : Dom} (h : u.domain (otherDom d) = s.domain (otherDom d)) :
    u.domains = s.domains.set d (u.domain d) := (Two.eq_set_iff d).2 h

/-! ### The hold line -/

/-- The journal after a release of the hold line (R18). -/
theorem State.releaseLine_journal (s : State) (d : Dom) (r : ReleaseReason) :
    (s.releaseLine d r).journal d = if (s.domain d).holdLine then
      (s.journal d).append (holdReleaseRecord s d r) else s.journal d := by
  unfold State.releaseLine
  dsimp only
  split
  · simp [State.recordHoldRelease, State.appendDevice, holdReleaseRecord]
  · rfl

@[simp] theorem State.releaseLine_journal_other (s : State) (d : Dom) (r : ReleaseReason) :
    (s.releaseLine d r).journal (otherDom d) = s.journal (otherDom d) := by
  unfold State.releaseLine
  dsimp only
  split <;> simp [State.recordHoldRelease, State.appendDevice]

theorem State.releaseLine_journals (s : State) (d : Dom) (r : ReleaseReason) :
    (s.releaseLine d r).journals = s.journals.set d ((s.releaseLine d r).journal d) :=
  State.journals_eq_set (s.releaseLine_journal_other d r)

theorem State.releaseLine_domains (s : State) (d : Dom) (r : ReleaseReason) :
    (s.releaseLine d r).domains = s.domains.set d { s.domain d with holdLine := false } := by
  rw [State.domains_eq_set (s.releaseLine_domain_other d r), State.releaseLine_domain_self]

/-! ### The sections at a harvest end -/

/-- A dump's entry and the channels after its harvest end (R76, R77, R129). -/
structure State.HarvestOver (u : State) (n : Num) (k : EndCause) : Prop where
  entry : ∀ e, u.dump n = some e → e.endCause = some k ∧ ∀ x ∈ e.sections, x.kind = .region → x.state ≠ .pending
  channels : ∀ c, (u.channel c).endsWith n = false

theorem State.HarvestOver.of_eq {u v : State} {n : Num} {k : EndCause} (h : u.HarvestOver n k)
    (hd : v.dump n = u.dump n) (hc : ∀ c, v.channel c = u.channel c) : v.HarvestOver n k :=
  ⟨by rw [hd]; exact h.entry, fun c => by rw [hc]; exact h.channels c⟩

theorem Channel.endsWith_eq_false_iff (ch : Channel) (n : Num) :
    ch.endsWith n = false ↔ ∀ j, ch.job = some j → j.dump = n → ch.state = .ending ∨ ch.state = .idle := by
  unfold Channel.endsWith
  cases ch.job <;> simp
  tauto

theorem State.endHarvest_harvesting {s : State} {d : Dom} (k : EndCause) (h : (s.domain d).state = .harvesting) :
    s.endHarvest d k = s.enterClosing d k := by
  simp [State.endHarvest, h]

/-- The device with the parts that a harvest end works on taken from another state. -/
def State.withHarvest (s u : State) : State :=
  { s with
    domains := u.domains, admissions := u.admissions, channels := u.channels, staging := u.staging, links := u.links
    directory := u.directory, store := u.store }

/-- The frame of a harvest end as one equation. -/
theorem State.endHarvest_eq (s : State) (d : Dom) (k : EndCause) :
    s.endHarvest d k = s.withHarvest (s.endHarvest d k) := by
  rw [State.eq_iff]
  simp [State.withHarvest]

theorem State.withHarvest_complete (s u : State) (p : PortId) (r : Frame) :
    s.withHarvest (u.complete p r) = s.withHarvest u := by
  simp [State.withHarvest]

theorem State.reserve_withHarvest_apart (s u : State) (p : PortId) :
    ((s.reserve p).withHarvest u).apart p = (s.withHarvest u).apart p := by
  cases p with
  | service => rfl
  | platform e => cases e <;> rfl

/-- A state after `endHarvest`, over a state that finds the domain and the other admission record as `s` has them, and
after steps that keep what a harvest end leaves. -/
theorem State.endHarvest_sectionsEnded {s t u : State} {d : Dom} {k : EndCause} (hl : s.DirectoryLaw)
    (hs : (t.domain d).state = (s.domain d).state) (ho : (t.domain d).openDump = (s.domain d).openDump)
    (ha : t.admission (otherDom d) = s.admission (otherDom d)) (hk : k ≠ .complete)
    (hu : ∀ n, (t.endHarvest d k).HarvestOver n k → u.HarvestOver n k) : SectionsEnded s u d k := by
  intro hh n hn
  obtain ⟨c, hc⟩ : ∃ c, k.toSection = some c := by cases k <;> simp_all [EndCause.toSection]
  obtain ⟨he, hj⟩ := State.enterClosing_ended t d k c hc n (ho.trans hn)
    (fun a h => hl.admission_other d n hn a (ha ▸ h))
  have hv : u.HarvestOver n k := hu n (by
    rw [State.endHarvest_harvesting k (hs.trans hh)]
    exact ⟨he, hj⟩)
  exact ⟨hv.entry, fun c => (Channel.endsWith_eq_false_iff _ n).1 (hv.channels c)⟩

/-! ### Requests answered over a state reached, and the notices around a reply -/

/-- A request whose owning rule's answer the device's own work follows. -/
theorem State.request_worked {s u : State} {p : PortId} {kind : Byte} {f : Frame} {st : Byte} {body : List Byte}
    {d : Dom} {act : State → Frame → Dom → Answer} (h : s.takes p kind f) (hd : d = s.resolve p f.domain)
    (hn : namesDomain kind.toNat f.body = true) (ha : act (s.reserve p) f d = .work u st body) :
    s.request p kind act = (u.complete p (f.reply (domByte d) st body)).settle := by
  subst hd
  rw [State.request_takes act h, h.replyDomain_named hn, ha]
  rfl

theorem State.request_replied {s u : State} {p : PortId} {kind : Byte} {f : Frame} {st : Byte} {body : List Byte}
    {d : Dom} {act : State → Frame → Dom → Answer} (h : s.takes p kind f) (hd : d = s.resolve p f.domain)
    (hn : namesDomain kind.toNat f.body = true) (ha : act (s.reserve p) f d = .reply u st body) :
    s.request p kind act = u.complete p (f.reply (domByte d) st body) := by
  subst hd
  rw [State.request_takes act h, h.replyDomain_named hn, ha]
  rfl

/-- A reply completed over a state that notices alone separate from the one that finds the reply's place reserved. -/
theorem State.complete_noticed {s v u : State} {p : PortId} {f : Frame} {dom st : Byte} {body : List Byte}
    (hf : ((f.reply dom st body).kind != 0x7F) = true) (hv : v.port p = { s.port p with reserved := 1 })
    (hn : v.servicePort.Noticed u.servicePort) (hp : u.platformPorts = v.platformPorts) :
    AnsweredAmong s (u.complete p (f.reply dom st body)) p f dom st body := by
  cases p with
  | platform e =>
    refine (State.complete_answered s u _ f dom st body hf ?_).among
    rw [← hv, State.port, State.port, hp]
  | service =>
    obtain ⟨before, hb, hs⟩ := hn.sending
    have hv' : v.servicePort = { s.servicePort with reserved := 1 } := hv
    have hst := hn.still
    rw [hv'] at hs hst
    have hi := congrArg (fun q : Port => q.input) hst
    have hr := congrArg (fun q : Port => q.reserved) hst
    exact State.complete_answeredAmong s u _ f dom st body before hb hf hs hi hr

/-! ### ABORT and RELEASE HOLD (R14, R15) -/

theorem abortAct_open {s : State} {d : Dom} (f : Frame)
    (h : (s.domain d).state = .triggered ∨ (s.domain d).state = .harvesting) :
    abortAct s f d = .work (s.endHarvest d .aborted) 0x00 [] := by
  rcases h with h | h <;> simp [abortAct, h, Answer.okWork, stOk]

theorem abortAct_refused {s : State} {d : Dom} (f : Frame) (h : (s.domain d).state ≠ .triggered)
    (k : (s.domain d).state ≠ .harvesting) : abortAct s f d = .reply s 0x15 [] := by
  unfold abortAct
  cases hs : (s.domain d).state <;> simp_all [Answer.refused, stState]

theorem releaseHoldAct_open {s : State} {d : Dom} (f : Frame)
    (h : (s.domain d).state = .triggered ∨ (s.domain d).state = .harvesting) :
    releaseHoldAct s f d = .work ((s.releaseLine d .released).endHarvest d .holdReleased) 0x00 [] := by
  rcases h with h | h <;> simp [releaseHoldAct, h, Answer.okWork, stOk]

theorem releaseHoldAct_closing {s : State} {d : Dom} (f : Frame) (h : (s.domain d).state = .closing) :
    releaseHoldAct s f d = .reply (s.releaseLine d .released) 0x00 [] := by
  simp [releaseHoldAct, h, Answer.ok, stOk]

theorem releaseHoldAct_refused {s : State} {d : Dom} (f : Frame) (h : (s.domain d).busy = false) :
    releaseHoldAct s f d = .reply s 0x15 [] := by
  unfold releaseHoldAct
  cases hs : (s.domain d).state <;> simp_all [Answer.refused, stState, Domain.busy]

/-- A domain record ended with its hold line dropped, in either order. -/
theorem Domain.ended_unhold (x : Domain) (k : EndCause) :
    ({ x with holdLine := false } : Domain).ended k = { x.ended k with holdLine := false } := by
  cases hs : x.state <;> simp [Domain.ended, hs]

/-- Settles O28: each answer over the state with the reply place reserved. -/
theorem abortAndReleaseHoldEndTheHarvest : Obligations.AbortAndReleaseHoldEndTheHarvest := by
  unfold Obligations.AbortAndReleaseHoldEndTheHarvest
  intro s p f d hl hd
  refine ⟨fun h => ⟨fun hs => ?_, fun ht hh => ?_⟩, fun h => ⟨fun hs => ?_, fun hs => ?_, fun hs => ?_⟩⟩
  · have hs' : ((s.reserve p).domain d).state = .triggered ∨ ((s.reserve p).domain d).state = .harvesting := by
      simpa using hs
    refine ⟨_, congrArg Host.Outcome.next (State.request_worked h hd rfl (abortAct_open f hs')),
      State.complete_answered s _ p f _ _ _ (h.reply_not_hold _ _ _) (by simp), by simp, by simp,
      State.endHarvest_sectionsEnded (t := s.reserve p) hl (by simp) (by simp) (by simp) (by decide)
        (fun n k => k.of_eq (by simp) (by simp)), ?_⟩
    calc (((s.reserve p).endHarvest d .aborted).complete p (f.reply (domByte d) 0x00 [])).apart p
        = ((s.reserve p).withHarvest ((s.reserve p).endHarvest d .aborted)).apart p := by
          rw [State.complete_apart, ← State.endHarvest_eq]
      _ = (s.withHarvest ((s.reserve p).endHarvest d .aborted)).apart p := State.reserve_withHarvest_apart ..
      _ = (s.withHarvest (((s.reserve p).endHarvest d .aborted).complete p (f.reply (domByte d) 0x00 []))).apart p := by
          rw [State.withHarvest_complete]
  · have := State.request_answered h hd rfl (abortAct_refused (s := s.reserve p) f (by simpa using ht) (by simpa using hh)) rfl
    exact ⟨_, rfl, this⟩
  · have hs' : ((s.reserve p).domain d).state = .triggered ∨ ((s.reserve p).domain d).state = .harvesting := by
      simpa using hs
    refine ⟨_, congrArg Host.Outcome.next (State.request_worked h hd rfl (releaseHoldAct_open f hs')),
      State.complete_noticed (h.reply_not_hold _ _ _) (s.reserve_port p)
        (((s.reserve p).releaseLine_noticed d .released).right (by simp) (by simp)).port (by simp),
      by simp [Domain.ended_unhold], by simp, by simp [State.releaseLine_journal, holdReleaseRecord],
      State.endHarvest_sectionsEnded (t := (s.reserve p).releaseLine d .released) hl (by simp) (by simp) (by simp)
        (by decide) (fun n k => k.of_eq (by simp) (by simp)), ?_⟩
    rw [State.eq_iff]
    simp [State.releaseLine_journals]
  · refine ⟨_, congrArg Host.Outcome.next (State.request_replied h hd rfl (releaseHoldAct_closing f (by simpa using hs))),
      State.complete_noticed (h.reply_not_hold _ _ _) (s.reserve_port p)
        ((s.reserve p).releaseLine_noticed d .released).port (by simp),
      by simp, by simp [State.releaseLine_journal, holdReleaseRecord], ?_⟩
    rw [State.eq_iff]
    simp [State.releaseLine_journals, State.releaseLine_domains]
  · have := State.request_answered h hd rfl (releaseHoldAct_refused (s := s.reserve p) f (by simpa using hs)) rfl
    exact ⟨_, rfl, this⟩

/-! ### The hold timer (R13) -/

theorem State.holdExpiry_running {s : State} {d : Dom} {x : Time} (h : (s.domain d).holdTimer = some x) :
    s.holdExpiry d = ((((s.reach x).setDomain d { s.domain d with holdTimer := none }).releaseLine d .expired).endHarvest
      d .holdExpired).settle := by
  simp [State.holdExpiry, h]

/-- A domain record ended with its hold timer stopped, in either order. -/
theorem Domain.ended_untimed (x : Domain) (k : EndCause) :
    ({ x with holdTimer := none } : Domain).ended k = { x.ended k with holdTimer := none } := by
  cases hs : x.state <;> simp [Domain.ended, hs]

/-- Settles O26: the line is released and the harvest ended at the expiry's part time. -/
theorem holdTimerExpiryEndsTheHarvest : Obligations.HoldTimerExpiryEndsTheHarvest := by
  unfold Obligations.HoldTimerExpiryEndsTheHarvest
  intro s d x hl hx
  refine ⟨_, congrArg Host.Outcome.next (State.holdExpiry_running hx), by simp, ?_, by simp, ?_,
    State.endHarvest_sectionsEnded
      (t := ((s.reach x).setDomain d { s.domain d with holdTimer := none }).releaseLine d .expired) hl (by simp)
      (by simp) (by simp) (by decide) (fun _ => id), ?_⟩
  · rw [State.endHarvest_domain_self, State.releaseLine_domain_self, State.setDomain_domain_self,
      Domain.ended_unhold, Domain.ended_untimed]
  · simp [State.releaseLine_journal, holdReleaseRecord]
  · rw [State.eq_iff]
    simp [State.releaseLine_journals]

/-! ### Links at a harvest end -/

/-- A link but for its lock requests. -/
def Link.unlocked (l : Link) : Link := { l with designate := none, lockQueue := [] }

theorem State.setLink_unlocked (s : State) (d e : Dom) (l : Link) (h : l.unlocked = (s.link d).unlocked) :
    ((s.setLink d l).link e).unlocked = (s.link e).unlocked := by
  rw [State.setLink_link]
  split
  · next k => rw [k, h]
  · rfl

@[simp] theorem State.channelShort_unlocked (s : State) (c : Fin 4) (k : SectionCause) (e : Dom) :
    ((s.channelShort c k).link e).unlocked = (s.link e).unlocked := by
  unfold State.channelShort
  dsimp only
  split
  · rw [State.setLink_unlocked]
    · simp
    · rfl
  · simp

theorem channelsShort_unlocked (n : Num) (k : SectionCause) (l : List (Fin 4)) (s : State) (e : Dom) :
    ((l.foldl (fun t c => if (t.channel c).endsWith n then t.channelShort c k else t) s).link e).unlocked
      = (s.link e).unlocked := by
  induction l generalizing s with
  | nil => rfl
  | cons c l ih =>
    rw [List.foldl_cons, ih]
    split <;> simp

@[simp] theorem State.endSections_unlocked (s : State) (d : Dom) (n : Num) (k : SectionCause) (e : Dom) :
    ((s.endSections d n k).link e).unlocked = (s.link e).unlocked := by
  unfold State.endSections
  dsimp only
  rw [channelsShort_unlocked]
  split <;> simp

@[simp] theorem State.enterClosing_unlocked (s : State) (d : Dom) (k : EndCause) (e : Dom) :
    ((s.enterClosing d k).link e).unlocked = (s.link e).unlocked := by
  unfold State.enterClosing
  dsimp only
  split
  · simp
  · split <;> simp

/-- A harvest end withdraws lock requests, and leaves the links otherwise (R76, R95). -/
@[simp] theorem State.endHarvest_unlocked (s : State) (d : Dom) (k : EndCause) (e : Dom) :
    ((s.endHarvest d k).link e).unlocked = (s.link e).unlocked := by
  unfold State.endHarvest
  dsimp only
  split <;> simp

/-! ### The end of every outstanding read (R83) -/

theorem Channel.endsWith_of_ending {ch : Channel} (n : Num) (h : ch.state = .ending) : ch.endsWith n = false :=
  (ch.endsWith_eq_false_iff n).2 fun _ _ _ => .inl h

theorem State.HarvestOver.setChannel {u : State} {n : Num} {k : EndCause} (h : u.HarvestOver n k) (c : Fin 4)
    (x : Channel) (hx : x.endsWith n = false) : (u.setChannel c x).HarvestOver n k :=
  ⟨by simpa using h.entry, fun e => by
    rw [State.setChannel_channel]
    split
    · exact hx
    · exact h.channels e⟩

theorem State.HarvestOver.channelShort {u : State} {n : Num} {k : EndCause} (h : u.HarvestOver n k) (c : Fin 4)
    (w : SectionCause) : (u.channelShort c w).HarvestOver n k :=
  ⟨by simpa using h.entry, fun e => by
    by_cases hc : e = c
    · exact Channel.endsWith_of_ending n (by rw [hc, State.channelShort_channel_self])
    · rw [State.channelShort_channel_other u c e w hc]
      exact h.channels e⟩

/-- A LINK_DOWN outcome: the read leaves its channel's hand (R71, R83). -/
theorem State.deliver_linkDown (s : State) (c : Fin 4) (a : Nat) : s.deliver c a .linkDown = s ∨
    ∃ o, s.deliver c a .linkDown = s.setChannel c ((s.channel c).dropRead o)
      ∨ ∃ j, s.deliver c a .linkDown = (s.setChannel c ((s.channel c).dropRead o)).afterOutcome c j := by
  unfold State.deliver
  dsimp only
  split
  · exact .inl rfl
  · next j _ =>
    split
    · exact .inl rfl
    · next r _ =>
      split
      · exact .inr ⟨r.offset, .inl rfl⟩
      · exact .inr ⟨r.offset, .inr ⟨j, rfl⟩⟩

theorem State.HarvestOver.afterOutcome {u : State} {n : Num} {k : EndCause} (h : u.HarvestOver n k) (c : Fin 4)
    (j : Job) : (u.afterOutcome c j).HarvestOver n k := by
  unfold State.afterOutcome
  dsimp only
  split
  · exact h.setChannel c _ (Channel.endsWith_of_ending n rfl)
  · split
    · exact h.channelShort c _
    · exact h

theorem State.HarvestOver.deliver {u : State} {n : Num} {k : EndCause} (h : u.HarvestOver n k) (c : Fin 4)
    (a : Nat) : (u.deliver c a .linkDown).HarvestOver n k := by
  have hd (o : Nat) : (u.setChannel c ((u.channel c).dropRead o)).HarvestOver n k := h.setChannel c _ (h.channels c)
  rcases u.deliver_linkDown c a with e | ⟨o, e | ⟨j, e⟩⟩ <;> rw [e]
  · exact h
  · exact hd o
  · exact (hd o).afterOutcome c j

@[simp] theorem State.deliver_linkDown_unlocked (s : State) (c : Fin 4) (a : Nat) (e : Dom) :
    ((s.deliver c a .linkDown).link e).unlocked = (s.link e).unlocked := by
  rcases s.deliver_linkDown c a with h | ⟨o, h | ⟨j, h⟩⟩ <;> rw [h]
  · simp
  · unfold State.afterOutcome
    dsimp only
    split
    · simp
    · split <;> simp

theorem State.HarvestOver.dropOutstanding {u : State} {n : Num} {k : EndCause} (h : u.HarvestOver n k) (d : Dom)
    (i : Fin 2) : (u.dropOutstanding d .linkDown i).HarvestOver n k := by
  unfold State.dropOutstanding
  dsimp only
  split
  · exact State.HarvestOver.deliver (h.of_eq (by simp) (by simp)) _ _
  · exact h

theorem State.HarvestOver.dropAll {u : State} {n : Num} {k : EndCause} (h : u.HarvestOver n k) (d : Dom) :
    (u.dropAll d .linkDown).HarvestOver n k := (h.dropOutstanding d 0).dropOutstanding d 1

/-- A position freed: the link is left otherwise, but for lock requests. -/
theorem State.dropOutstanding_unlocked (s : State) (d : Dom) (i : Fin 2) :
    ((s.dropOutstanding d .linkDown i).link d).unlocked
      = { (s.link d).unlocked with positions := (s.link d).positions.set i none } := by
  unfold State.dropOutstanding
  dsimp only
  split
  · rw [State.deliver_linkDown_unlocked, State.setLink_link_self]
    rfl
  · next h =>
    rw [← h]
    simp [Link.unlocked]

/-- Every position of the link freed. -/
theorem State.dropAll_unlocked (s : State) (d : Dom) :
    ((s.dropAll d .linkDown).link d).unlocked
      = { (s.link d).unlocked with positions := Vector.replicate 2 none } := by
  have h0 := s.dropOutstanding_unlocked d 0
  have hp : ((s.dropOutstanding d .linkDown 0).link d).positions = (s.link d).positions.set 0 none :=
    congrArg (fun l : Link => l.positions) h0
  have h1 := (s.dropOutstanding d .linkDown 0).dropOutstanding_unlocked d 1
  have hv : ((s.link d).positions.set 0 none).set 1 none = Vector.replicate 2 none := by
    ext i hi : 1
    have : i = 0 ∨ i = 1 := by omega
    rcases this with rfl | rfl <;> simp
  rw [h0, hp] at h1
  rw [← hv]
  exact h1

/-! ### The mode, and the link DOWN (R82, R83) -/

theorem DumpEntry.reportMode_kept (e : DumpEntry) (m : Mode) (t : Time) :
    (e.reportMode m t).number = e.number ∧ (e.reportMode m t).endCause = e.endCause
      ∧ (e.reportMode m t).sections = e.sections := by
  unfold DumpEntry.reportMode
  split
  · simp
  · split <;> simp

theorem State.HarvestOver.updDump {u : State} {n : Num} {k : EndCause} (h : u.HarvestOver n k) (m : Num)
    (g : DumpEntry → DumpEntry)
    (hg : ∀ e, (g e).number = e.number ∧ (g e).endCause = e.endCause ∧ (g e).sections = e.sections) :
    (u.updDump m g).HarvestOver n k := by
  refine ⟨fun e he => ?_, h.channels⟩
  rw [State.updDump_dump _ _ _ _ fun e => (hg e).1] at he
  obtain ⟨x, hx, rfl⟩ := Option.map_eq_some_iff.1 he
  split
  · obtain ⟨-, hc, hs⟩ := hg x
    rw [hc, hs]
    exact h.entry x hx
  · exact h.entry x hx

theorem State.HarvestOver.setMode {u : State} {n : Num} {k : EndCause} (h : u.HarvestOver n k) (d : Dom) (m : Mode) :
    (u.setMode d m).HarvestOver n k := by
  unfold State.setMode
  dsimp only
  split
  · exact h
  · split
    · exact State.HarvestOver.updDump (h.of_eq (by simp) (by simp)) _ _ fun e => e.reportMode_kept m _
    · exact h.of_eq (by simp) (by simp)

theorem State.HarvestOver.linkDown {u : State} {n : Num} {k : EndCause} (h : u.HarvestOver n k) (d : Dom)
    (r : Option Time) : (u.linkDown d r).HarvestOver n k := by
  unfold State.linkDown
  exact (h.setMode d .wide).of_eq (by simp) (by simp)

theorem State.setMode_link (s : State) (d : Dom) (m : Mode) :
    (s.setMode d m).link d = { s.link d with
      mode := m, downshifts := if (s.link d).mode = m then (s.link d).downshifts else 0 } := by
  unfold State.setMode
  dsimp only
  split
  · next h => simp [← h]
  · split <;> simp

theorem State.linkDown_link (s : State) (d : Dom) (r : Option Time) :
    (s.linkDown d r).link d = { s.link d with
      mode := .wide, downshifts := if (s.link d).mode = .wide then (s.link d).downshifts else 0
      state := .down, trainingExpiry := none, retryTimer := r, stayedUp := false } := by
  simp [State.linkDown, State.setMode_link]

/-! ### A fall of power-good and a failed training (R16, R82, R83) -/

/-- What a fall of power-good does on the domain controller, in every state. -/
theorem State.domainPowerFall_eq (s : State) (d : Dom) :
    s.domainPowerFall d = if (s.domain d).state = .armed then
      s.setDomain d { s.domain d with heartbeatTimer := none } else s.endHarvest d .powerLost := by
  unfold State.domainPowerFall State.endHarvest
  cases hs : (s.domain d).state <;> simp [hs]

theorem State.powerFall_high {s : State} {d : Dom} (h : s.powerGood.get d = true) :
    s.powerFall d = (((({ s with powerGood := s.powerGood.set d false } : State).domainPowerFall d).dropAll d
      .linkDown).linkDown d none).settle := by
  simp [State.powerFall, h]

theorem State.trainingFailed_running {s : State} {d : Dom} {x : Time} (h : (s.link d).state = .training)
    (hx : (s.link d).trainingExpiry = some x) :
    s.trainingFailed d = (((((s.reach x).linkDown d (some ((s.reach x).partTime + 100))).noticeLink d 2 (s.link d).mode
      .wide).endHarvest d .linkLost)).settle := by
  simp [State.trainingFailed, h, hx, ms, Config.retryMs]

/-- The domain after a fall of power-good. -/
theorem State.domainPowerFall_domain (s : State) (d : Dom) : (s.domainPowerFall d).domain d =
    if (s.domain d).state = .armed then { s.domain d with heartbeatTimer := none }
      else (s.domain d).ended .powerLost := by
  rw [State.domainPowerFall_eq]
  split <;> simp

@[simp] theorem State.domainPowerFall_domain_other (s : State) (d : Dom) :
    (s.domainPowerFall d).domain (otherDom d) = s.domain (otherDom d) := by
  rw [State.domainPowerFall_eq]
  split <;> simp

@[simp] theorem State.domainPowerFall_unlocked (s : State) (d e : Dom) :
    ((s.domainPowerFall d).link e).unlocked = (s.link e).unlocked := by
  rw [State.domainPowerFall_eq]
  split <;> simp

theorem State.dropAll_positions (s : State) (d : Dom) :
    ((s.dropAll d .linkDown).link d).positions = Vector.replicate 2 none :=
  congrArg (fun l : Link => l.positions) (s.dropAll_unlocked d)

theorem State.dropAll_counters (s : State) (d : Dom) :
    ((s.dropAll d .linkDown).link d).counters = (s.link d).counters := by
  have h := congrArg (fun l : Link => l.counters) (s.dropAll_unlocked d)
  exact h

theorem State.domainPowerFall_counters (s : State) (d e : Dom) :
    ((s.domainPowerFall d).link e).counters = (s.link e).counters := by
  have h := congrArg (fun l : Link => l.counters) (s.domainPowerFall_unlocked d e)
  exact h

/-- A harvest end leaves a link's state, mode, timers and counters. -/
theorem State.endHarvest_link (s : State) (d e : Dom) (k : EndCause) :
    (s.endHarvest d k).link e = { s.link e with
      designate := ((s.endHarvest d k).link e).designate, lockQueue := ((s.endHarvest d k).link e).lockQueue } := by
  have h := s.endHarvest_unlocked d k e
  generalize (s.endHarvest d k).link e = l at *
  cases l
  simp only [Link.unlocked, Link.mk.injEq] at h ⊢
  simp [h]

/-- Settles O27: the harvest end, with the link brought DOWN after it or before it. -/
theorem powerAndLinkLossEndTheHarvest : Obligations.PowerAndLinkLossEndTheHarvest := by
  unfold Obligations.PowerAndLinkLossEndTheHarvest
  intro s d hl
  refine ⟨fun h => ?_, fun x ht hx => ?_⟩
  · refine ⟨_, congrArg Host.Outcome.next (State.powerFall_high h), by simp, ?_, by simp, ?_⟩
    · simp only [State.linkDown_frame, State.dropAll_frame]
      exact State.domainPowerFall_domain _ d
    · rw [State.linkDown_link, State.dropAll_positions, State.dropAll_counters, State.domainPowerFall_counters]
      refine ⟨rfl, rfl, rfl, rfl, rfl, by simp, rfl, ?_, ?_⟩
      · intro hh
        refine State.endHarvest_sectionsEnded (t := { s with powerGood := s.powerGood.set d false }) hl rfl rfl rfl
          (by decide) (fun n k => ?_) hh
        rw [State.domainPowerFall_eq, if_neg (by simp [hh])]
        exact (k.dropAll d).linkDown d none
      · rw [State.eq_iff]
        simp
  · refine ⟨_, congrArg Host.Outcome.next (State.trainingFailed_running ht hx), by simp, ?_⟩
    rw [State.endHarvest_link]
    simp only [State.noticeLink_frame, State.linkDown_link]
    refine ⟨trivial, trivial, trivial, by simp, trivial, by simp, by simp, by simp,
      State.endHarvest_sectionsEnded (t := State.noticeLink _ d 2 (s.link d).mode .wide) hl (by simp) (by simp) (by simp)
        (by decide) (fun _ => id), ?_⟩
    rw [State.eq_iff]
    simp

end Sys2Proof.Machine
end

