-- ==== Sys2Proof/Proofs/Triggers.lean ====
section
/-! SUPPORT. Triggers (R3 to R9): what taking one leaves in each state of the domain, whatever brings it, and what a
request that brings one adds. -/
namespace Sys2Proof.Machine

/-! ### Taking a trigger, by the state of the domain -/

theorem State.startDump_fails {s : State} {d : Dom} {why : FailureCause} (c : TriggerCause) (o : Option (BitVec 32))
    (h : s.openingFailure d = some why) :
    s.startDump d c o = ((s.triggerStarts d c o).openingFails d c why, .openFailed why) := by
  have h' : (s.triggerStarts d c o).openingFailure d = some why :=
    (State.openingFailure_congr d (by simp) (by simp) (by simp)).trans h
  simp [State.startDump, h']

theorem State.startDump_succeeds {s : State} {d : Dom} (c : TriggerCause) (o : Option (BitVec 32))
    (h : s.openingFailure d = none) :
    s.startDump d c o = ((s.triggerStarts d c o).openingSucceeds d c o, .opened s.directory.nextNumber) := by
  have h' : (s.triggerStarts d c o).openingFailure d = none :=
    (State.openingFailure_congr d (by simp) (by simp) (by simp)).trans h
  simp [State.startDump, h']

/-- Where a trigger starts a dump (R4, R8): in ARMED, and a MANUAL one in SETTLED too. -/
def Domain.starts (x : Domain) (c : TriggerCause) : Prop := x.state = .armed ∨ x.state = .settled ∧ c = .manual

/-- Where a trigger comes late (R6). -/
def Domain.lateFor (x : Domain) (c : TriggerCause) : Prop := x.state = .closing ∨ x.state = .settled ∧ c ≠ .manual

theorem State.takeTrigger_starts {s : State} {d : Dom} {c : TriggerCause} (o : Option (BitVec 32))
    (h : (s.domain d).starts c) : s.takeTrigger d c o = s.startDump d c o := by
  rcases h with h | ⟨h, hc⟩
  · simp [State.takeTrigger, h]
  · simp [State.takeTrigger, h, hc]

theorem State.takeTrigger_late {s : State} {d : Dom} {c : TriggerCause} (o : Option (BitVec 32))
    (h : (s.domain d).lateFor c) : s.takeTrigger d c o = (s.countLate d, .late) := by
  rcases h with h | ⟨h, hc⟩
  · simp [State.takeTrigger, h]
  · simp [State.takeTrigger, h, hc]

theorem State.takeTrigger_missed {s : State} {d : Dom} (c : TriggerCause) (o : Option (BitVec 32))
    (h : (s.domain d).state = .disarmed) : s.takeTrigger d c o = (s.countMissed d, .missed) := by
  simp [State.takeTrigger, h]

theorem State.takeTrigger_appends {s : State} {d : Dom} (c : TriggerCause) (o : Option (BitVec 32))
    (h : (s.domain d).state = .triggered ∨ (s.domain d).state = .harvesting) :
    s.takeTrigger d c o = s.appendTrigger d c o := by
  rcases h with h | h <;> simp [State.takeTrigger, h]

/-- A trigger appended to a dump's list, with its TRIGGER record (R6). -/
def State.triggerAppended (s : State) (d : Dom) (c : TriggerCause) (o : Option (BitVec 32)) (n : Num) : State :=
  (s.updDump n fun y => { y with triggers := y.triggers ++ [{ cause := c, time := s.partTime, code := o }] }).setJournal
    d ((s.journal d).append (triggerRecord c o n s.partTime))

/-- A trigger counted as overflow (R6). -/
def State.countOverflow (s : State) (d : Dom) : State :=
  s.setDomain d { s.domain d with overflow := (s.domain d).overflow.inc }

theorem State.recordTrigger_eq (s : State) (d : Dom) (c : TriggerCause) (o : Option (BitVec 32)) (n : Num) :
    s.recordTrigger d c o n = s.setJournal d ((s.journal d).append (triggerRecord c o n s.partTime)) := by
  cases o <;> rfl

theorem State.appendTrigger_appended {s : State} {d : Dom} {e : DumpEntry} (c : TriggerCause) (o : Option (BitVec 32))
    (he : s.openEntry d = some e) (hn : e.triggers.length < 8) :
    s.appendTrigger d c o = (s.triggerAppended d c o e.number, .appended) := by
  have hn' : e.triggers.length < Config.triggerMax := hn
  simp only [State.appendTrigger, he, if_pos hn', State.recordTrigger_eq]
  rfl

theorem State.appendTrigger_overflowed {s : State} {d : Dom} {e : DumpEntry} (c : TriggerCause)
    (o : Option (BitVec 32)) (he : s.openEntry d = some e) (hn : 8 ≤ e.triggers.length) :
    s.appendTrigger d c o = (s.countOverflow d, .overflowed) := by
  have hn' : ¬ e.triggers.length < Config.triggerMax := Nat.not_lt.2 hn
  simp only [State.appendTrigger, he, if_neg hn']
  rfl

/-! ### Openings, over states that differ where an opening does not look -/

theorem State.DirectoryLaw.of_eq {s t : State} (h : s.DirectoryLaw) (hd : t.directory = s.directory)
    (ha : t.admissions = s.admissions) (ho : ∀ e, (t.domain e).openDump = (s.domain e).openDump) : t.DirectoryLaw := by
  have ha' (e : Dom) : t.admission e = s.admission e := congrArg (Two.get · e) ha
  refine ⟨?_, ?_, ?_, ?_, ?_, ?_⟩
  · rw [hd]; exact h.count
  · rw [hd]; exact h.rising
  · rw [hd]; exact h.next
  · intro e n hn; rw [hd]; exact h.openHeld e n (ho e ▸ hn)
  · intro e; rw [ha', ho]; exact h.admitted e
  · intro e he hs; rw [ho]; exact h.openOnly e (hd ▸ he) hs

/-- The device with its ports and the Service Port's own fields replaced. -/
def State.withPorts (s : State) (q : Port) (r : Two Port) (x : Service) : State :=
  { s with servicePort := q, platformPorts := r, service := x }

theorem State.reserve_eq (s : State) (p : PortId) :
    s.reserve p = s.withPorts (s.reserve p).servicePort (s.reserve p).platformPorts s.service := by
  cases p <;> rfl

theorem State.complete_eq (s : State) (p : PortId) (r : Frame) :
    s.complete p r = s.withPorts (s.complete p r).servicePort (s.complete p r).platformPorts (s.complete p r).service := by
  rw [State.eq_iff]
  simp [State.withPorts]

theorem State.advancePort_service (s : State) (p : PortId) : (s.advancePort p).service = s.service := by
  unfold State.advancePort
  split
  · rfl
  · cases p <;> rfl

theorem State.paceDeparture_autoDomain (s : State) (p : PortId) :
    (s.paceDeparture p).service.autoDomain = s.service.autoDomain := by
  cases p with
  | service =>
    simp only [State.paceDeparture]
    split
    · rw [State.sendHold, State.advancePort_service]
      rfl
    · rfl
  | platform d => rfl

theorem State.complete_autoDomain (s : State) (p : PortId) (r : Frame) :
    (s.complete p r).service.autoDomain = s.service.autoDomain := by
  rw [State.complete, State.advancePort_service, State.paceDeparture_autoDomain]
  cases p <;> rfl

theorem Opened.of_withPorts {s u : State} {q : Port} {r : Two Port} {x : Service} {d : Dom} {c : TriggerCause}
    {o : Option (BitVec 32)} (h : Opened (s.withPorts q r x) u d c o) : Opened s u d c o :=
  ⟨h.domain, h.number, h.entry, h.admission, h.journal, h.store, h.staging, h.autoDomain, h.frame⟩

theorem Opened.withPorts {s u : State} {q : Port} {r : Two Port} {x : Service} {d : Dom} {c : TriggerCause}
    {o : Option (BitVec 32)} (h : Opened s u d c o) (hx : x.autoDomain = d) : Opened s (u.withPorts q r x) d c o :=
  ⟨h.domain, h.number, h.entry, h.admission, h.journal, h.store, h.staging, hx,
    congrArg (fun v : State => v.withPorts q r x) h.frame⟩

theorem Opened.reserve {s u : State} {p : PortId} {d : Dom} {c : TriggerCause} {o : Option (BitVec 32)}
    (h : Opened (s.reserve p) u d c o) : Opened s u d c o := by
  rw [State.reserve_eq] at h
  exact h.of_withPorts

theorem Opened.complete {s u : State} {d : Dom} {c : TriggerCause} {o : Option (BitVec 32)} (h : Opened s u d c o)
    (p : PortId) (r : Frame) : Opened s (u.complete p r) d c o := by
  rw [State.complete_eq]
  exact h.withPorts ((u.complete_autoDomain p r).trans h.autoDomain)

theorem OpeningFailed.of_withPorts {s u : State} {q : Port} {r : Two Port} {x : Service} {d : Dom} {c : TriggerCause}
    {o : Option (BitVec 32)} {w : FailureCause} (h : OpeningFailed (s.withPorts q r x) u d c o w) :
    OpeningFailed s u d c o w := ⟨h.domain, h.journal, h.view, h.frame⟩

theorem OpeningFailed.withPorts {s u : State} {q : Port} {r : Two Port} {x : Service} {d : Dom} {c : TriggerCause}
    {o : Option (BitVec 32)} {w : FailureCause} (h : OpeningFailed s u d c o w) (hx : x.autoDomain = d) :
    OpeningFailed s (u.withPorts q r x) d c o w :=
  ⟨h.domain, h.journal, hx, congrArg (fun v : State => v.withPorts q r x) h.frame⟩

theorem OpeningFailed.reserve {s u : State} {p : PortId} {d : Dom} {c : TriggerCause} {o : Option (BitVec 32)}
    {w : FailureCause} (h : OpeningFailed (s.reserve p) u d c o w) : OpeningFailed s u d c o w := by
  rw [State.reserve_eq] at h
  exact h.of_withPorts

theorem OpeningFailed.complete {s u : State} {d : Dom} {c : TriggerCause} {o : Option (BitVec 32)} {w : FailureCause}
    (h : OpeningFailed s u d c o w) (p : PortId) (r : Frame) : OpeningFailed s (u.complete p r) d c o w := by
  rw [State.complete_eq]
  exact h.withPorts ((u.complete_autoDomain p r).trans h.view)

/-- A trigger stops the heartbeat timer itself. -/
theorem Opened.of_unbeaten {s u : State} {d : Dom} {c : TriggerCause} {o : Option (BitVec 32)}
    (h : Opened (s.setDomain d { s.domain d with heartbeatTimer := none }) u d c o) : Opened s u d c o := by
  refine ⟨h.domain.trans (by rw [State.setDomain_domain_self]; rfl), h.number, by simpa using h.entry, h.admission, by simpa using h.journal, h.store,
    h.staging, h.autoDomain, ?_⟩
  refine h.frame.trans ?_
  rw [State.eq_iff]
  simp [State.setDomain]

theorem OpeningFailed.of_unbeaten {s u : State} {d : Dom} {c : TriggerCause} {o : Option (BitVec 32)}
    {w : FailureCause} (h : OpeningFailed (s.setDomain d { s.domain d with heartbeatTimer := none }) u d c o w) :
    OpeningFailed s u d c o w := by
  refine ⟨by simpa using h.domain, by simpa using h.journal, h.view, ?_⟩
  refine h.frame.trans ?_
  rw [State.eq_iff]
  simp [State.setDomain]

/-! ### An opening that fails -/

/-- To the ports an opening that fails does no more than send its notice (R5). -/
theorem State.openingFails_noticed (s : State) (d : Dom) (c : TriggerCause) (w : FailureCause) :
    s.Noticed (s.openingFails d c w) :=
  State.Noticed.left (State.noticeOpenFailed_noticed _ d c w) (by simp) (by simp)

theorem State.openingFails_autoDomain (s : State) (d : Dom) (c : TriggerCause) (w : FailureCause) :
    (s.openingFails d c w).service.autoDomain = s.service.autoDomain := by
  have h := congrArg (fun x : Service => x.autoDomain) (s.openingFails_noticed d c w).service
  exact h

theorem State.openingFails_failed (s : State) (d : Dom) (c : TriggerCause) (o : Option (BitVec 32)) (w : FailureCause) :
    OpeningFailed s ((s.triggerStarts d c o).openingFails d c w) d c o w := by
  refine ⟨?_, ?_, ?_, ?_⟩
  · rw [State.openingFails_domain_self, State.triggerStarts_domain_self]
    rfl
  · simp [State.openingFails, State.triggerStarts, State.recordTrigger_eq, State.recordDumpFailed, State.appendDevice]
  · rw [State.openingFails_autoDomain]
    rfl
  · have hd := State.domains_eq_set (s := s) (u := (s.triggerStarts d c o).openingFails d c w) (d := d) (by simp)
    have hj := State.journals_eq_set (s := s) (u := (s.triggerStarts d c o).openingFails d c w) (d := d)
      (by simp [State.openingFails, State.triggerStarts, State.recordTrigger_eq, State.recordDumpFailed,
        State.appendDevice])
    rw [State.eq_iff]
    simp [← hd, ← hj]

/-! ### A trigger that starts a dump -/

theorem State.takeTrigger_opens {s : State} {d : Dom} {c : TriggerCause} (o : Option (BitVec 32))
    (h : (s.domain d).starts c) (hf : s.openingFailure d = none) :
    s.takeTrigger d c o = ((s.triggerStarts d c o).openingSucceeds d c o, .opened s.directory.nextNumber) :=
  (State.takeTrigger_starts o h).trans (State.startDump_succeeds c o hf)

theorem State.takeTrigger_fails {s : State} {d : Dom} {c : TriggerCause} {why : FailureCause} (o : Option (BitVec 32))
    (h : (s.domain d).starts c) (hf : s.openingFailure d = some why) :
    s.takeTrigger d c o = ((s.triggerStarts d c o).openingFails d c why, .openFailed why) :=
  (State.takeTrigger_starts o h).trans (State.startDump_fails c o hf)

/-! ### The fatal line and the heartbeat timer (R3, R9) -/

/-- The device as a rising fatal line finds it: the new level is kept (R3). -/
def State.fatalRisen (s : State) (d : Dom) : State := s.setDomain d { s.domain d with fatalLevel := true }

/-- The device as an expired heartbeat timer leaves it: the timer is stopped (R9). -/
def State.unbeaten (s : State) (d : Dom) : State := s.setDomain d { s.domain d with heartbeatTimer := none }

/-- A trigger taken, with the device's own work if it opened a dump. -/
def State.triggered (s : State) (d : Dom) (c : TriggerCause) (o : Option (BitVec 32)) : State :=
  (s.takeTrigger d c o).1.worked (s.takeTrigger d c o).2

theorem State.triggered_opens {s : State} {d : Dom} {c : TriggerCause} (o : Option (BitVec 32))
    (h : (s.domain d).starts c) (hf : s.openingFailure d = none) :
    s.triggered d c o = ((s.triggerStarts d c o).openingSucceeds d c o).settle := by
  rw [State.triggered, State.takeTrigger_opens o h hf]
  rfl

/-- A trigger that opens nothing is all that happens. -/
theorem State.triggered_still {s t : State} {d : Dom} {c : TriggerCause} {o : Option (BitVec 32)} {x : Disposition}
    (h : s.takeTrigger d c o = (t, x)) (hx : x.isOpened = false) : s.triggered d c o = t := by
  simp [State.triggered, h, State.worked, hx]

theorem State.fatalLine_rises {s : State} {d : Dom} (h : (s.domain d).fatalLevel = false) :
    s.fatalLine d true = (s.fatalRisen d).triggered d .fatalLine none := by
  simp [State.fatalLine, h, State.fatalRisen, State.triggered]

theorem State.hang_expires {s : State} {d : Dom} {x : Time} (h : (s.domain d).heartbeatTimer = some x) :
    s.hang d = ((s.reach x).unbeaten d).triggered d .hang none := by
  simp [State.hang, h, State.unbeaten, State.triggered]

/-- Settles O23: the line's level and the timer are set before the trigger is taken. -/
theorem lineAndTimerTriggersOpenADump : Obligations.LineAndTimerTriggersOpenADump := by
  unfold Obligations.LineAndTimerTriggersOpenADump
  intro s d hl ha hf
  refine ⟨fun h => ?_, fun x hx => ?_⟩
  · have hs : ((s.fatalRisen d).domain d).starts .fatalLine := .inl (by simpa [State.fatalRisen] using ha)
    have hd : (s.fatalRisen d).DirectoryLaw := hl.of_eq rfl rfl fun e => by
      rcases dom_eq_or d e with rfl | rfl <;> simp [State.fatalRisen]
    exact ⟨_, congrArg Host.Outcome.next ((State.fatalLine_rises h).trans (State.triggered_opens none hs hf)),
      ((s.fatalRisen d).openingSucceeds_opened d .fatalLine none hd).1⟩
  · have hs : (((s.reach x).unbeaten d).domain d).starts .hang := .inl (by simpa [State.unbeaten] using ha)
    have hd : ((s.reach x).unbeaten d).DirectoryLaw := hl.of_eq (by simp [State.unbeaten]) (by simp [State.unbeaten])
      fun e => by rcases dom_eq_or d e with rfl | rfl <;> simp [State.unbeaten]
    have hf' : ((s.reach x).unbeaten d).openingFailure d = none :=
      (State.openingFailure_congr d (by simp [State.unbeaten]) (by simp [State.unbeaten])
        (by simp [State.unbeaten])).trans hf
    exact ⟨_, congrArg Host.Outcome.next ((State.hang_expires hx).trans (State.triggered_opens none hs hf')),
      (((s.reach x).unbeaten d).openingSucceeds_opened d .hang none hd).1.of_unbeaten⟩

/-! ### Requests that bring a trigger (R7, R8) -/

/-- A request's trigger taken over the state with the reply place reserved, and answered with its disposition. -/
def State.triggerAnswered (s : State) (p : PortId) (f : Frame) (d : Dom) (c : TriggerCause) (o : Option (BitVec 32)) :
    State :=
  let r := (s.reserve p).takeTrigger d c o
  (r.1.complete p (f.reply (domByte d) 0x00 r.2.bytes)).worked r.2

theorem Answer.trigger_finish (r : State × Disposition) (p : PortId) (f : Frame) (dom : Byte) :
    (Answer.trigger r).finish p f dom = (r.1.complete p (f.reply dom 0x00 r.2.bytes)).worked r.2 := by
  cases hx : r.2.isOpened <;> simp [Answer.trigger, hx, State.worked, Answer.finish, Answer.ok, Answer.okWork, stOk]

theorem State.request_crash {s : State} {d : Dom} {f : Frame} (h : s.takes (.platform d) 0x0D f)
    (hi : (s.journal d).intake = []) : s.request (.platform d) 0x0D crashAct
      = s.triggerAnswered (.platform d) f d .crashNotice (some (BitVec.ofNat 32 (field f.body 0 4))) := by
  rw [State.request_takes _ h, h.replyDomain_named rfl]
  show (crashAct (s.reserve (.platform d)) f d).finish _ _ _ = _
  rw [crashAct, if_pos (by simpa using hi), Answer.trigger_finish]
  rfl

theorem State.request_crash_held {s : State} {d : Dom} {f : Frame} (h : s.takes (.platform d) 0x0D f)
    (hi : (s.journal d).intake ≠ []) : s.request (.platform d) 0x0D crashAct
      = s.setPort (.platform d) { s.port (.platform d) with
        reserved := 1, processing := some (.crash (BitVec.ofNat 32 (field f.body 0 4))) } := by
  rw [State.request_takes _ h]
  show (crashAct (s.reserve (.platform d)) f d).finish _ _ _ = _
  rw [crashAct, if_neg (by simpa using hi), State.reserve_port]
  simp [Answer.finish, State.reserve, State.setPort]

/-- A place reserved twice is reserved once. -/
theorem State.reserve_reserved {s : State} {p : PortId} (h : (s.port p).reserved = 1) : s.reserve p = s := by
  rw [State.reserve, ← h]
  exact s.setPort_self p

theorem State.crashTaken_eq {s : State} {d : Dom} {f : Frame} {code : BitVec 32}
    (hp : (s.port (.platform d)).processing = some (.crash code)) (hf : (s.port (.platform d)).input.head? = some f)
    (hr : (s.port (.platform d)).reserved = 1) (hi : (s.journal d).intake = []) :
    s.crashTaken d = s.triggerAnswered (.platform d) f d .crashNotice (some code) := by
  obtain ⟨rest, hq⟩ := List.head?_eq_some_iff.1 hf
  simp only [State.crashTaken, hp, hq, hi, if_true, State.triggerAnswered, State.reserve_reserved hr]
  rfl

theorem State.request_capture {s : State} {d : Dom} {f : Frame} (h : s.takes .service 0x0E f)
    (hd : d = s.resolve .service f.domain) (hs : (s.domain d).state = .armed ∨ (s.domain d).state = .settled) :
    s.request .service 0x0E captureAct = s.triggerAnswered .service f d .manual none := by
  subst hd
  rw [State.request_takes _ h, h.replyDomain_named rfl]
  have ha : captureAct (s.reserve .service) f (s.resolve .service f.domain)
      = Answer.trigger ((s.reserve .service).takeTrigger (s.resolve .service f.domain) .manual none) := by
    rcases hs with hs | hs <;> simp [captureAct, hs]
  rw [ha, Answer.trigger_finish]
  rfl

/-- A request's trigger that opens a dump. -/
theorem State.triggerAnswered_opens {s : State} {p : PortId} {f : Frame} {d : Dom} {c : TriggerCause}
    {o : Option (BitVec 32)} (hl : s.DirectoryLaw) (hs : (s.domain d).starts c) (hf : s.openingFailure d = none)
    (hk : isRequestKind f.kind.toNat = true) :
    ∃ u : State, s.triggerAnswered p f d c o = u.settle ∧ Opened s u d c o
      ∧ AnsweredAmong s u p f (domByte d) 0x00 (1 :: le 4 s.directory.nextNumber.toNat) := by
  have hs' : ((s.reserve p).domain d).starts c := by simpa using hs
  have hf' : (s.reserve p).openingFailure d = none :=
    (State.openingFailure_congr d (by simp) (by simp) (by simp)).trans hf
  have hl' : (s.reserve p).DirectoryLaw := hl.of_eq (by simp) (by simp) (by simp)
  have ht := State.takeTrigger_opens o hs' hf'
  obtain ⟨ho, hn⟩ := (s.reserve p).openingSucceeds_opened d c o hl'
  refine ⟨((((s.reserve p).triggerStarts d c o).openingSucceeds d c o)).complete p
    (f.reply (domByte d) 0x00 (1 :: le 4 s.directory.nextNumber.toNat)), ?_, ho.reserve.complete _ _,
    State.complete_noticed (f.reply_not_hold _ _ _ hk) (s.reserve_port p) hn (by simp)⟩
  rw [State.triggerAnswered, ht]
  simp only [State.reserve_frame]
  rfl

/-- A request's trigger whose opening fails. -/
theorem State.triggerAnswered_fails {s : State} {p : PortId} {f : Frame} {d : Dom} {c : TriggerCause}
    {o : Option (BitVec 32)} {why : FailureCause} (hs : (s.domain d).starts c) (hf : s.openingFailure d = some why) :
    s.triggerAnswered p f d c o = (((s.reserve p).triggerStarts d c o).openingFails d c why).complete p
        (f.reply (domByte d) 0x00 (2 :: le 1 why.code))
      ∧ OpeningFailed s (s.triggerAnswered p f d c o) d c o why := by
  have hs' : ((s.reserve p).domain d).starts c := by simpa using hs
  have hf' : (s.reserve p).openingFailure d = some why :=
    (State.openingFailure_congr d (by simp) (by simp) (by simp)).trans hf
  have he : s.triggerAnswered p f d c o = (((s.reserve p).triggerStarts d c o).openingFails d c why).complete p
        (f.reply (domByte d) 0x00 (2 :: le 1 why.code)) := by
    rw [State.triggerAnswered, State.takeTrigger_fails o hs' hf']
    rfl
  exact ⟨he, he ▸ ((s.reserve p).openingFails_failed d c o why).reserve.complete _ _⟩

/-- A request's trigger that opens nothing and leaves the port alone. -/
theorem State.triggerAnswered_still {s v : State} {p : PortId} {f : Frame} {d : Dom} {c : TriggerCause}
    {o : Option (BitVec 32)} {x : Disposition} (ht : (s.reserve p).takeTrigger d c o = (v.reserve p, x))
    (hx : x.isOpened = false) (hv : v.port p = s.port p) (hk : isRequestKind f.kind.toNat = true) :
    Answered s (s.triggerAnswered p f d c o) p f (domByte d) 0x00 x.bytes
      ∧ (s.triggerAnswered p f d c o).apart p = v.apart p := by
  have he : s.triggerAnswered p f d c o = (v.reserve p).complete p (f.reply (domByte d) 0x00 x.bytes) := by
    rw [State.triggerAnswered, ht]
    simp [State.worked, hx]
  rw [he]
  exact ⟨State.complete_answered s _ p f _ _ _ (f.reply_not_hold _ _ _ hk) (by rw [State.reserve_port, hv]), by simp⟩

/-- Settles O24: the three requests' triggers answered alike, and the CRASH that waits. -/
theorem requestTriggersOpenADump : Obligations.RequestTriggersOpenADump := by
  unfold Obligations.RequestTriggersOpenADump
  refine ⟨fun s d f hl hf => ⟨fun h hd hs => ?_, fun h hs hi => ?_, fun code rest hp hq hr hk hi hs => ?_⟩,
    fun s d f h hi => congrArg Host.Outcome.next (State.request_crash_held h hi)⟩
  · obtain ⟨u, hu, ho, ha⟩ := State.triggerAnswered_opens (p := .service) (f := f) (c := .manual) (o := none) hl
      (hs.imp_right fun k => ⟨k, rfl⟩) hf h.isRequest
    exact ⟨u, congrArg Host.Outcome.next ((State.request_capture h hd hs).trans hu), ho, ha⟩
  · obtain ⟨u, hu, ho, ha⟩ := State.triggerAnswered_opens (p := .platform d) (f := f) (c := .crashNotice)
      (o := some (BitVec.ofNat 32 (field f.body 0 4))) hl (.inl hs) hf h.isRequest
    exact ⟨u, congrArg Host.Outcome.next ((State.request_crash h hi).trans hu), ho, ha⟩
  · obtain ⟨u, hu, ho, ha⟩ := State.triggerAnswered_opens (p := .platform d) (f := f) (c := .crashNotice)
      (o := some code) hl (.inl hs) hf (by rw [hk]; rfl)
    exact ⟨u, congrArg Host.Outcome.next ((State.crashTaken_eq hp (by rw [hq]; rfl) hr hi).trans hu), ho, ha⟩

/-! ### Triggers that open nothing, over a reserved place -/

theorem State.reserve_countLate (s : State) (p : PortId) (d : Dom) :
    (s.reserve p).countLate d = (s.countLate d).reserve p := by cases p <;> rfl

theorem State.reserve_countMissed (s : State) (p : PortId) (d : Dom) :
    (s.reserve p).countMissed d = (s.countMissed d).reserve p := by cases p <;> rfl

theorem State.reserve_countOverflow (s : State) (p : PortId) (d : Dom) :
    (s.reserve p).countOverflow d = (s.countOverflow d).reserve p := by cases p <;> rfl

theorem State.reserve_triggerAppended (s : State) (p : PortId) (d : Dom) (c : TriggerCause) (o : Option (BitVec 32))
    (n : Num) : (s.reserve p).triggerAppended d c o n = (s.triggerAppended d c o n).reserve p := by cases p <;> rfl

theorem State.reserve_openEntry (s : State) (p : PortId) (d : Dom) :
    (s.reserve p).openEntry d = s.openEntry d := by cases p <;> rfl

theorem State.takeTrigger_appended {s : State} {d : Dom} {e : DumpEntry} (c : TriggerCause) (o : Option (BitVec 32))
    (h : (s.domain d).state = .triggered ∨ (s.domain d).state = .harvesting) (he : s.openEntry d = some e)
    (hn : e.triggers.length < 8) : s.takeTrigger d c o = (s.triggerAppended d c o e.number, .appended) :=
  (State.takeTrigger_appends c o h).trans (State.appendTrigger_appended c o he hn)

theorem State.takeTrigger_overflowed {s : State} {d : Dom} {e : DumpEntry} (c : TriggerCause) (o : Option (BitVec 32))
    (h : (s.domain d).state = .triggered ∨ (s.domain d).state = .harvesting) (he : s.openEntry d = some e)
    (hn : 8 ≤ e.triggers.length) : s.takeTrigger d c o = (s.countOverflow d, .overflowed) :=
  (State.takeTrigger_appends c o h).trans (State.appendTrigger_overflowed c o he hn)

/-- What a CRASH comes to once its intake queue is empty, at once or after a wait (R105). -/
theorem State.crash_run {s : State} {d : Dom} {f : Frame} {code : BitVec 32}
    {run : Host.Outcome State Fault Refusal}
    (h : (s.takes (.platform d) 0x0D f ∧ code = BitVec.ofNat 32 (field f.body 0 4)
        ∧ run = exec (.crash (.platform d)) s)
      ∨ ((s.port (.platform d)).processing = some (.crash code) ∧ (s.port (.platform d)).input.head? = some f
        ∧ (s.port (.platform d)).reserved = 1 ∧ f.kind = 0x0D ∧ run = exec (.crashTaken d) s))
    (hi : (s.journal d).intake = []) : isRequestKind f.kind.toNat = true
      ∧ run = .next (s.triggerAnswered (.platform d) f d .crashNotice (some code)) := by
  rcases h with ⟨h, rfl, rfl⟩ | ⟨hp, hf, hr, hk, rfl⟩
  · exact ⟨h.isRequest, congrArg Host.Outcome.next (State.request_crash h hi)⟩
  · exact ⟨by rw [hk]; rfl, congrArg Host.Outcome.next (State.crashTaken_eq hp hf hr hi)⟩

theorem captureAct_missed {s : State} {d : Dom} (f : Frame) (h : (s.domain d).state = .disarmed) :
    captureAct s f d = .reply (s.countMissed d) 0x15 [] := by
  simp [captureAct, h, Answer.refused, stState]

theorem captureAct_busy {s : State} {d : Dom} (f : Frame) (h : (s.domain d).busy = true) :
    captureAct s f d = .reply s 0x15 [] := by
  rcases (Domain.busy_eq_true_iff _).1 h with h | h | h <;> simp [captureAct, h, Answer.refused, stState]

/-! ### Each trigger that opens nothing -/

/-- A rising fatal line that opens no dump. -/
theorem State.fatalLine_opensNothing {s : State} {d : Dom} (h : (s.domain d).fatalLevel = false) :
    ((s.domain d).state = .disarmed → s.fatalLine d true = (s.fatalRisen d).countMissed d) ∧
    ((s.domain d).state = .closing ∨ (s.domain d).state = .settled →
      s.fatalLine d true = (s.fatalRisen d).countLate d) ∧
    ((s.domain d).state = .triggered ∨ (s.domain d).state = .harvesting → ∀ e, s.openEntry d = some e →
      (e.triggers.length < 8 → s.fatalLine d true = (s.fatalRisen d).triggerAppended d .fatalLine none e.number) ∧
      (8 ≤ e.triggers.length → s.fatalLine d true = (s.fatalRisen d).countOverflow d)) ∧
    ((s.domain d).state = .armed → ∀ why, s.openingFailure d = some why →
      s.fatalLine d true = ((s.fatalRisen d).triggerStarts d .fatalLine none).openingFails d .fatalLine why) := by
  have hst : ((s.fatalRisen d).domain d).state = (s.domain d).state := by simp [State.fatalRisen]
  have hoe : (s.fatalRisen d).openEntry d = s.openEntry d := by simp [State.openEntry, State.fatalRisen]
  rw [State.fatalLine_rises h, ← hst, ← hoe]
  refine ⟨fun hs => ?_, fun hs => ?_, fun hs e he => ⟨fun hn => ?_, fun hn => ?_⟩, fun hs why hf => ?_⟩
  · exact State.triggered_still (State.takeTrigger_missed _ _ hs) rfl
  · exact State.triggered_still (State.takeTrigger_late _ (hs.imp_right fun k => ⟨k, by decide⟩)) rfl
  · exact State.triggered_still (State.takeTrigger_appended _ _ hs he hn) rfl
  · exact State.triggered_still (State.takeTrigger_overflowed _ _ hs he hn) rfl
  · exact State.triggered_still (State.takeTrigger_fails _ (.inl hs) hf) rfl

/-- A CRASH that opens no dump, once its intake queue is empty. -/
theorem State.crash_opensNothing {s : State} {d : Dom} {f : Frame} (code : BitVec 32)
    (hk : isRequestKind f.kind.toNat = true) {t : State}
    (ht : t = s.triggerAnswered (.platform d) f d .crashNotice (some code)) :
    ((s.domain d).state = .disarmed → Answered s t (.platform d) f (domByte d) 0x00 [6]
      ∧ t.apart (.platform d) = (s.countMissed d).apart (.platform d)) ∧
    ((s.domain d).state = .closing ∨ (s.domain d).state = .settled →
      Answered s t (.platform d) f (domByte d) 0x00 [5]
        ∧ t.apart (.platform d) = (s.countLate d).apart (.platform d)) ∧
    ((s.domain d).state = .triggered ∨ (s.domain d).state = .harvesting → ∀ e, s.openEntry d = some e →
      (e.triggers.length < 8 → Answered s t (.platform d) f (domByte d) 0x00 [3]
        ∧ t.apart (.platform d)
          = (s.triggerAppended d .crashNotice (some code) e.number).apart (.platform d)) ∧
      (8 ≤ e.triggers.length → Answered s t (.platform d) f (domByte d) 0x00 [4]
        ∧ t.apart (.platform d) = (s.countOverflow d).apart (.platform d))) ∧
    ((s.domain d).state = .armed → ∀ why, s.openingFailure d = some why →
      Answered s t (.platform d) f (domByte d) 0x00 (2 :: le 1 why.code)
        ∧ OpeningFailed s t d .crashNotice (some code) why) := by
  subst ht
  have hst : ((s.reserve (.platform d)).domain d).state = (s.domain d).state := by simp
  refine ⟨fun hs => ?_, fun hs => ?_, fun hs e he => ?_, fun hs why hf => ?_⟩
  · have ht := State.takeTrigger_missed .crashNotice (some code) (hst.trans hs)
    rw [State.reserve_countMissed] at ht
    exact State.triggerAnswered_still ht rfl rfl hk
  · rw [← hst] at hs
    have ht := State.takeTrigger_late (c := .crashNotice) (some code) (hs.imp_right fun k => ⟨k, by decide⟩)
    rw [State.reserve_countLate] at ht
    exact State.triggerAnswered_still ht rfl rfl hk
  · rw [← hst] at hs
    rw [← State.reserve_openEntry s (.platform d) d] at he
    refine ⟨fun hn => ?_, fun hn => ?_⟩
    · have ht := State.takeTrigger_appended .crashNotice (some code) hs he hn
      rw [State.reserve_triggerAppended] at ht
      exact State.triggerAnswered_still ht rfl rfl hk
    · have ht := State.takeTrigger_overflowed .crashNotice (some code) hs he hn
      rw [State.reserve_countOverflow] at ht
      exact State.triggerAnswered_still ht rfl rfl hk
  · obtain ⟨he, ho⟩ := State.triggerAnswered_fails (p := .platform d) (f := f) (c := .crashNotice) (o := some code)
      (.inl hs) hf
    refine ⟨?_, ho⟩
    rw [he]
    exact State.complete_answered s _ _ f _ _ _ (f.reply_not_hold _ _ _ hk)
      (by simp [State.reserve_port])

theorem State.complete_service_platformPorts (s : State) (r : Frame) :
    (s.complete .service r).platformPorts = s.platformPorts := by
  have h := congrArg (fun t : State => t.platformPorts) (s.complete_apart .service r)
  exact h

/-- A CAPTURE whose opening fails. -/
theorem State.capture_fails {s : State} {d : Dom} {f : Frame} {why : FailureCause} (h : s.takes .service 0x0E f)
    (hd : d = s.resolve .service f.domain) (hs : (s.domain d).state = .armed ∨ (s.domain d).state = .settled)
    (hf : s.openingFailure d = some why) :
    (s.request .service 0x0E captureAct).platformPorts = s.platformPorts
      ∧ AnsweredAmong s (s.request .service 0x0E captureAct) .service f (domByte d) 0x00 (2 :: le 1 why.code)
      ∧ OpeningFailed s (s.request .service 0x0E captureAct) d .manual none why := by
  obtain ⟨he, ho⟩ := State.triggerAnswered_fails (p := .service) (f := f) (c := .manual) (o := none)
    (hs.imp_right fun k => ⟨k, rfl⟩) hf
  rw [State.request_capture h hd hs]
  refine ⟨?_, ?_, ho⟩
  · rw [he, State.complete_service_platformPorts]
    simp [State.reserve, State.setPort]
  · rw [he]
    refine State.complete_noticed (f.reply_not_hold _ _ _ h.isRequest) (s.reserve_port .service) ?_ (by simp)
    exact (State.openingFails_noticed ((s.reserve .service).triggerStarts d .manual none) d .manual why).port

/-- Settles O25, from the parts above. -/
theorem triggersThatOpenNothing : Obligations.TriggersThatOpenNothing := by
  unfold Obligations.TriggersThatOpenNothing
  rintro s d x rfl
  refine ⟨fun h => ?_, ?_, fun expiry why hx hs hf => ?_, fun f code run hrun hi => ?_,
    fun f h hd => ⟨fun hs why hf => ?_, fun hs => ?_⟩⟩
  · obtain ⟨hm, hl, hap, hfail⟩ := State.fatalLine_opensNothing h
    refine ⟨fun hs => ?_, fun hs => ?_, fun hs e he => ⟨fun hn => ?_, fun hn => ?_⟩, fun hs why hf => ?_⟩
    · refine congrArg Host.Outcome.next ((hm hs).trans ?_)
      simp [State.countMissed, State.fatalRisen]
    · refine congrArg Host.Outcome.next ((hl hs).trans ?_)
      simp [State.countLate, State.fatalRisen]
    · refine congrArg Host.Outcome.next (((hap hs e he).1 hn).trans ?_)
      simp [State.triggerAppended, State.fatalRisen]
    · refine congrArg Host.Outcome.next (((hap hs e he).2 hn).trans ?_)
      simp [State.countOverflow, State.fatalRisen]
    · exact ⟨_, congrArg Host.Outcome.next (hfail hs why hf), by simp [State.fatalRisen],
        (s.fatalRisen d).openingFails_failed d .fatalLine none why⟩
  · refine congrArg Host.Outcome.next ?_
    simp [State.fatalLine]
  · have hf' : ((s.reach expiry).unbeaten d).openingFailure d = some why :=
      (State.openingFailure_congr d (by simp [State.unbeaten]) (by simp [State.unbeaten])
        (by simp [State.unbeaten])).trans hf
    have ht := State.triggered_still (State.takeTrigger_fails (c := .hang) none
      (.inl (by simpa [State.unbeaten] using hs)) hf') rfl
    exact ⟨_, congrArg Host.Outcome.next ((State.hang_expires hx).trans ht), by simp [State.unbeaten],
      (((s.reach expiry).unbeaten d).openingFails_failed d .hang none why).of_unbeaten⟩
  · obtain ⟨hk, rfl⟩ := State.crash_run hrun hi
    obtain ⟨hm, hl, hap, hfail⟩ := State.crash_opensNothing (s := s) (d := d) code hk rfl
    exact ⟨fun hs => ⟨_, rfl, hm hs⟩, fun hs => ⟨_, rfl, hl hs⟩,
      fun hs e he => ⟨fun hn => ⟨_, rfl, (hap hs e he).1 hn⟩, fun hn => ⟨_, rfl, (hap hs e he).2 hn⟩⟩,
      fun hs why hf => ⟨_, rfl, hfail hs why hf⟩⟩
  · exact ⟨_, rfl, State.capture_fails h hd hs hf⟩
  · by_cases hm : (s.domain d).state = .disarmed
    · rw [if_pos hm]
      refine ⟨_, rfl, State.request_answered h hd rfl ?_ rfl⟩
      rw [captureAct_missed f (by simpa using hm), State.reserve_countMissed]
      rfl
    · rw [if_neg hm]
      exact ⟨_, rfl, State.request_answered h hd rfl (captureAct_busy f (by simpa using hs.resolve_right hm)) rfl⟩

end Sys2Proof.Machine
end

