-- ==== Sys2Proof/Proofs/RegionPlans.lean ====
section
/-! SUPPORT. The region plans (R25 to R37): what an addition, a deletion and a clear make of a plan, their requests and PLAN
READ, and the harvest order. -/
namespace Sys2Proof.Machine

/-! ### The field test and the tags -/

/-- The field test of R29 as its cases. -/
theorem AddFields.outOfRange_iff (x : AddFields) : x.outOfRange = true ↔
    x.tag = 0 ∨ x.length = 0 ∨ 2 ^ 36 < x.length ∨ 2 ^ 48 < x.base + x.length
      ∨ (∃ fl, x.floor = some fl ∧ (fl = 0 ∨ x.length < fl))
      ∨ (x.atomic = true ∧ (4096 < x.length ∨ x.base / 4096 ≠ (x.base + x.length - 1) / 4096
          ∨ ∃ fl, x.floor = some fl ∧ fl ≠ x.length)) := by
  unfold AddFields.outOfRange
  cases x.floor <;> simp [or_assoc]

theorem Plan.has_iff (q : Plan) (tag : BitVec 16) : q.has tag = true ↔ ∃ y ∈ q.entries, y.tag = tag := by
  simp [Plan.has]

/-- The index of an entry that stands behind entries of other tags. -/
theorem Plan.indexOf_split {q : Plan} {tag : BitVec 16} {before after : List PlanEntry} {y : PlanEntry}
    (hq : q.entries = before ++ y :: after) (hy : y.tag = tag) (hb : ∀ z ∈ before, z.tag ≠ tag) :
    q.indexOf tag = before.length := by
  have hn : before.findIdx (fun x => x.tag == tag) = before.length :=
    List.findIdx_eq_length.2 fun z hz => by simpa using hb z hz
  rw [Plan.indexOf, hq, List.findIdx_append, hn, if_neg (Nat.lt_irrefl _), List.findIdx_cons, hy]
  simp

/-- A deletion takes out the entry and moves those behind it down. -/
theorem Plan.delete_split {q : Plan} {tag : BitVec 16} {before after : List PlanEntry} {y : PlanEntry}
    (hq : q.entries = before ++ y :: after) (hy : y.tag = tag) (hb : ∀ z ∈ before, z.tag ≠ tag) :
    q.delete tag = { entries := before ++ after, generation := q.generation + 1 } := by
  rw [Plan.delete, Plan.indexOf_split hq hy hb, hq, List.eraseIdx_append_of_length_le (Nat.le_refl _)]
  simp

/-! ### The requests -/

theorem State.reserve_setPlan (s : State) (p : PortId) (d : Dom) (q : Plan) :
    (s.reserve p).setPlan d q = (s.setPlan d q).reserve p := by cases p <;> rfl

theorem planAddAct_outOfRange {s : State} {f : Frame} (p : PortId) (d : Dom)
    (hb : (addFields f.body).outOfRange = true) :
    planAddAct (s.reserve p) f d = .reply (s.reserve p) 0x13 (le 2 (s.plan d).generation.toNat) := by
  simp [planAddAct, hb, stRange]

theorem planAddAct_duplicate {s : State} {f : Frame} {d : Dom} (p : PortId)
    (hb : (addFields f.body).outOfRange = false) (ht : (s.plan d).has (addFields f.body).tag = true) :
    planAddAct (s.reserve p) f d = .reply (s.reserve p) 0x17 (le 2 (s.plan d).generation.toNat) := by
  simp [planAddAct, hb, ht, stDuplicate]

theorem planAddAct_full {s : State} {f : Frame} {d : Dom} (p : PortId)
    (hb : (addFields f.body).outOfRange = false) (ht : (s.plan d).has (addFields f.body).tag = false)
    (hn : 48 ≤ (s.plan d).entries.length) :
    planAddAct (s.reserve p) f d = .reply (s.reserve p) 0x16 (le 2 (s.plan d).generation.toNat) := by
  simp [planAddAct, hb, ht, Config.planMax, hn, stFull]

theorem planAddAct_stores {s : State} {f : Frame} {d : Dom} (p : PortId)
    (hb : (addFields f.body).outOfRange = false) (ht : (s.plan d).has (addFields f.body).tag = false)
    (hn : (s.plan d).entries.length < 48) :
    planAddAct (s.reserve p) f d
      = .reply ((s.setPlan d ((s.plan d).add (addFields f.body).entry)).reserve p)
          (if 7 < (addFields f.body).priority then 0x01 else 0x00)
          (le 1 (s.plan d).entries.length ++ le 1 (min (addFields f.body).priority 7)
            ++ le 2 ((s.plan d).generation + 1).toNat) := by
  rw [← State.reserve_setPlan]
  simp [planAddAct, hb, ht, Config.planMax, hn, Plan.add, AddFields.entry, stOkIf, stOkAdjusted, stOk]

/-- Settles O29: the tests of R29 in their order, and the entry R30 settles. -/
theorem planAddStoresTheEntry : Obligations.PlanAddStoresTheEntry := by
  unfold Obligations.PlanAddStoresTheEntry
  rintro s p f d q x bad h hd rfl rfl hbad
  rw [← AddFields.outOfRange_iff] at hbad
  simp only [hbad, ← Plan.has_iff, Bool.not_eq_true]
  refine ⟨_, rfl, fun hb => ?_, fun hb ht => ?_, fun hb ht hn => ?_, fun hb ht hn => ?_⟩
  · exact State.request_answered h hd rfl (planAddAct_outOfRange p d hb) rfl
  · exact State.request_answered h hd rfl (planAddAct_duplicate p hb ht) rfl
  · exact State.request_answered h hd rfl (planAddAct_full p hb ht hn) rfl
  · exact State.request_answered h hd rfl (planAddAct_stores p hb ht hn) (State.setPlan_port ..)

theorem planDeleteAct_notFound {s : State} {f : Frame} {d : Dom} (p : PortId)
    (h : (s.plan d).has (BitVec.ofNat 16 (field f.body 0 2)) = false) :
    planDeleteAct (s.reserve p) f d = .reply (s.reserve p) 0x14 (le 2 (s.plan d).generation.toNat) := by
  simp [planDeleteAct, h, stNotFound]

theorem planDeleteAct_deletes {s : State} {f : Frame} {d : Dom} {tag : BitVec 16} (p : PortId)
    (ht : tag = BitVec.ofNat 16 (field f.body 0 2)) (h : (s.plan d).has tag = true) :
    planDeleteAct (s.reserve p) f d
      = .reply ((s.setPlan d ((s.plan d).delete tag)).reserve p) 0x00
          (le 1 ((s.plan d).indexOf tag) ++ le 2 ((s.plan d).generation + 1).toNat) := by
  subst ht
  rw [← State.reserve_setPlan]
  simp [planDeleteAct, h, Plan.delete, Answer.ok, stOk]

/-- Settles O30: the entry with the tag is the one that stands behind entries of other tags. -/
theorem planDeleteRemovesTheEntry : Obligations.PlanDeleteRemovesTheEntry := by
  unfold Obligations.PlanDeleteRemovesTheEntry
  rintro s p f d q tag h hd rfl ht
  refine ⟨_, rfl, fun hn => ?_, fun before y after hq hy hb => ?_⟩
  · have hf : (s.plan d).has tag = false := by
      simpa [← Bool.not_eq_true, Plan.has_iff] using hn
    exact State.request_answered h hd rfl (planDeleteAct_notFound p (ht ▸ hf)) rfl
  · have hf : (s.plan d).has tag = true := (Plan.has_iff _ _).2 ⟨y, by simp [hq], hy⟩
    have ha := planDeleteAct_deletes p ht hf
    rw [Plan.indexOf_split hq hy hb, Plan.delete_split hq hy hb] at ha
    exact State.request_answered h hd rfl ha (State.setPlan_port ..)

/-- A frame that passes the tests has a body of its kind's size (R163 test 3, Table 9-6). -/
theorem State.takes.body_fits {s : State} {p : PortId} {kind : Byte} {f : Frame} (h : s.takes p kind f) :
    bodyFits kind.toNat f.body = true := by
  obtain ⟨-, rfl, hr⟩ := h
  by_contra hb
  unfold State.refusal at hr
  dsimp only at hr
  rw [if_pos ((Bool.not_eq_true _).mp hb)] at hr
  (repeat' split at hr) <;> cases hr

theorem planClearAct_clears (s : State) (p : PortId) (f : Frame) (d : Dom) :
    planClearAct (s.reserve p) f d
      = .reply ((s.setPlan d { entries := [], generation := (s.plan d).generation + 1 }).reserve p) 0x00
          (le 1 (s.plan d).entries.length ++ le 2 ((s.plan d).generation + 1).toNat) := by
  rw [← State.reserve_setPlan]
  simp [planClearAct, Plan.clear, Answer.ok, stOk]

/-- Settles O31: PLAN CLEAR has no test of its own. -/
theorem planClearEmptiesThePlan : Obligations.PlanClearEmptiesThePlan := by
  unfold Obligations.PlanClearEmptiesThePlan
  intro s p f d h hd
  obtain ⟨hans, hap⟩ := State.request_answered h hd rfl (planClearAct_clears s p f d) (State.setPlan_port ..)
  exact ⟨by simpa [bodyFits] using h.body_fits, Plan.Lawful.count, _, rfl, hap, hans⟩

theorem PlanEntry.bytes_length (x : PlanEntry) (i : Nat) : (x.bytes i).length = 32 := padTo_length _ _

/-- PLAN READ as one answer for both ranges of the start index. -/
theorem planReadAct_eq (s : State) (p : PortId) (f : Frame) (d : Dom) :
    planReadAct (s.reserve p) f d
      = .reply (s.reserve p) (if 48 ≤ field f.body 0 1 then 0x13 else 0x00)
          (le 1 (s.plan d).entries.length ++ le 2 (s.plan d).generation.toNat ++
            (if 48 ≤ field f.body 0 1 then [] else (s.plan d).readFrom (field f.body 0 1))) := by
  by_cases hs : 48 ≤ field f.body 0 1 <;> simp [planReadAct, Config.planMax, hs, Answer.ok, stOk, stRange]

/-- Settles O19: the answer of PLAN READ over the state it finds. -/
theorem planReadReturnsTheEntries : Obligations.PlanReadReturnsTheEntries := by
  unfold Obligations.PlanReadReturnsTheEntries
  intro s p f d h hd
  obtain ⟨hans, hap⟩ := State.request_answered h hd rfl (planReadAct_eq s p f d) rfl
  exact ⟨PlanEntry.bytes_length, _, rfl, hap, hans⟩

/-! ### The harvest order -/

/-- Of lists chosen by number, one alone not empty, the concatenation is that one. -/
theorem flatMap_range_single {α : Type} (n k : Nat) (l : List α) :
    ((List.range n).flatMap fun j => if j = k then l else []) = if k < n then l else [] := by
  induction n with
  | zero => simp
  | succ n ih =>
    rw [List.range_succ, List.flatMap_append, ih, List.flatMap_singleton]
    by_cases hk : k = n
    · simp [hk]
    · simp [Ne.symm hk, show k < n + 1 ↔ k < n by omega]

/-- The entries of one priority stand in the harvest order as in the plan. -/
theorem Plan.harvestOrder_filter {q : Plan} (h : ∀ x ∈ q.entries, x.priority ≤ 7) (k : Nat) :
    (q.harvestOrder.filter fun x => x.priority == k) = q.entries.filter fun x => x.priority == k := by
  have hj (j : Nat) : ((q.entries.filter fun x => x.priority == j).filter fun x => x.priority == k)
      = if j = k then q.entries.filter fun x => x.priority == k else [] := by
    by_cases e : j = k
    · simp [e]
    · simp only [if_neg e, List.filter_filter, List.filter_eq_nil_iff, Bool.and_eq_true, beq_iff_eq]
      rintro x - ⟨hk, hj⟩
      exact e (hj.symm.trans hk)
  rw [Plan.harvestOrder, List.filter_flatMap]
  simp only [hj, flatMap_range_single]
  split
  · rfl
  · next hk =>
    refine (List.filter_eq_nil_iff.2 fun x hx => ?_).symm
    have := h x hx
    simp only [beq_iff_eq]
    omega

/-- The harvest order rises by priority. -/
theorem Plan.harvestOrder_sorted (q : Plan) : q.harvestOrder.Pairwise fun x y => x.priority ≤ y.priority := by
  have hk {k : Nat} {x : PlanEntry} (hx : x ∈ q.entries.filter fun x => x.priority == k) : x.priority = k := by
    simpa using (List.mem_filter.1 hx).2
  refine List.pairwise_flatMap.2 ⟨fun k _ => List.pairwise_iff_getElem.2 fun i j hi hj _ => ?_,
    List.pairwise_lt_range.imp fun hlt x hx y hy => ?_⟩
  · rw [hk (List.getElem_mem hi), hk (List.getElem_mem hj)]
  · rw [hk hx, hk hy]
    exact hlt.le

/-- An entry is as often in a list as among the list's entries of its priority. -/
theorem PlanEntry.count_samePriority (x : PlanEntry) (l : List PlanEntry) :
    (l.filter fun y => y.priority == x.priority).count x = l.count x :=
  List.count_filter (beq_self_eq_true x.priority)

/-- Settles O42: the harvest order holds of each priority what the plan holds of it, and so every entry as often. -/
theorem snapshotsFollowTheHarvestOrder : Obligations.SnapshotsFollowTheHarvestOrder := by
  unfold Obligations.SnapshotsFollowTheHarvestOrder
  intro q h
  refine ⟨List.perm_iff_count.2 fun x => ?_, q.harvestOrder_sorted, Plan.harvestOrder_filter h⟩
  rw [← x.count_samePriority, Plan.harvestOrder_filter h, x.count_samePriority]

end Sys2Proof.Machine
end

