-- ==== Sys2Proof/Proofs/PlanAndSettingsLaw.lean ====
section
/-! SUPPORT. The plan law and the settings' ranges (R25, R26, R29, R30, R176, R178, Table 10-2): which commands write a plan or
a setting, that each writes a lawful one, and that every step keeps both laws. -/
namespace Sys2Proof.Machine

/-! ### Plans -/

/-- What passes the field test is stored as a lawful entry (R29, R30). -/
theorem AddFields.entry_lawful {x : AddFields} (h : x.outOfRange = false) : x.entry.Lawful := by
  rw [← Bool.not_eq_true, AddFields.outOfRange_iff] at h
  simp only [not_or, not_lt] at h
  obtain ⟨htag, hlen, hmax, hrange, hfloor, hatomic⟩ := h
  have hf : 1 ≤ x.floor.getD x.length ∧ x.floor.getD x.length ≤ x.length := by
    cases e : x.floor with
    | none => simp only [Option.getD_none]; omega
    | some fl =>
      have : ¬(fl = 0 ∨ x.length < fl) := fun k => hfloor ⟨fl, e, k⟩
      simp only [Option.getD_some]; omega
  refine ⟨htag, ⟨Nat.pos_of_ne_zero hlen, hmax⟩, hrange, Nat.min_le_right _ _, hf, fun ha => ?_⟩
  have hn := not_and.1 hatomic ha
  simp only [not_or, not_lt, not_not] at hn
  obtain ⟨hsize, hpage, hwhole⟩ := hn
  refine ⟨?_, hsize, hpage⟩
  show x.floor.getD x.length = x.length
  cases e : x.floor with
  | none => rfl
  | some fl => exact not_not.1 fun k => hwhole ⟨fl, e, k⟩

theorem Plan.empty_lawful (g : BitVec 16) : Plan.Lawful { entries := [], generation := g } :=
  ⟨Nat.zero_le _, fun _ h => (List.not_mem_nil h).elim, List.nodup_nil⟩

/-- An entry added under a tag that is not held, below the maximum (R29 to R31). -/
theorem Plan.Lawful.add {q : Plan} (h : q.Lawful) {x : PlanEntry} (hx : x.Lawful) (ht : q.has x.tag = false)
    (hn : q.entries.length < 48) : (q.add x).Lawful := by
  have ht' : ∀ y ∈ q.entries, y.tag ≠ x.tag := by simpa [← Bool.not_eq_true, Plan.has_iff] using ht
  refine ⟨by simpa [Plan.add] using hn, fun y hy => ?_, ?_⟩
  · rcases List.mem_append.1 hy with hy | hy
    · exact h.entries y hy
    · exact List.mem_singleton.1 hy ▸ hx
  · show ((q.entries ++ [x]).map PlanEntry.tag).Nodup
    rw [List.map_append, List.nodup_append]
    refine ⟨h.tags, List.nodup_singleton _, fun a ha b hb => ?_⟩
    obtain ⟨y, hy, rfl⟩ := List.mem_map.1 ha
    rw [List.mem_singleton.1 hb]
    exact ht' y hy

/-- Whatever a deletion leaves of a lawful plan is lawful (R32). -/
theorem Plan.Lawful.delete {q : Plan} (h : q.Lawful) (tag : BitVec 16) : (q.delete tag).Lawful := by
  have hs : (q.delete tag).entries.Sublist q.entries := List.eraseIdx_sublist _ _
  exact ⟨hs.length_le.trans h.count, fun x hx => h.entries x (hs.subset hx), (hs.map _).nodup h.tags⟩

/-! ### Settings -/

theorem clamp_bounds {lo hi : Nat} (h : lo ≤ hi) (n : Nat) : lo ≤ clamp lo hi n ∧ clamp lo hi n ≤ hi := by
  unfold clamp
  omega

/-- Clamped settings are in their ranges, whatever they were (R176). -/
theorem Settings.clamped_lawful (x : Settings) : x.clamped.Lawful where
  holdWindow := clamp_bounds (by decide) _
  heartbeatTimeout := (clamp_bounds (by decide) _).2
  freshness := clamp_bounds (by decide) _
  derate := clamp_bounds (by decide) _
  retry := clamp_bounds (by decide) _
  threshold := clamp_bounds (by decide) _

/-- A setting written is clamped to its range, and the others stand (R178). -/
theorem Settings.Lawful.write {x : Settings} (h : x.Lawful) (item v : Nat) : (x.write item v).1.Lawful := by
  unfold Settings.write
  dsimp only
  split
  · exact { h with }
  · exact { h with holdWindow := clamp_bounds (by decide) _ }
  · exact { h with heartbeatTimeout := (clamp_bounds (by decide) _).2 }
  · exact { h with freshness := clamp_bounds (by decide) _ }
  · exact { h with derate := clamp_bounds (by decide) _ }
  · exact { h with retry := clamp_bounds (by decide) _ }
  · exact { h with threshold := clamp_bounds (by decide) _ }
  · exact { h with }

/-- The settings a load takes are clamped (R176). -/
theorem Configuration.loaded_lawful (c : Configuration) (im : Option Image) (d : Dom) :
    ((c.loaded im).settings.get d).Lawful := by
  cases d <;> exact Settings.clamped_lawful _

/-! ### Saves and failures of the store leave the settings -/

@[simp] theorem State.startStoreSave_settings (s : State) (e : Dom) : s.startStoreSave.settings e = s.settings e := by
  unfold State.startStoreSave
  split <;> rfl

@[simp] theorem State.startPendingSave_settings (s : State) (e : Dom) : s.startPendingSave.settings e = s.settings e := by
  unfold State.startPendingSave
  split <;> simp

@[simp] theorem State.saveEnded_settings (s : State) (v : Save) (ok : Bool) (e : Dom) :
    (s.saveEnded v ok).settings e = s.settings e := by
  unfold State.saveEnded
  split <;> simp

@[simp] theorem State.retire_settings (s : State) (b : Nat) (n : Num) (e : Dom) :
    (s.retire b n).settings e = s.settings e := by
  unfold State.retire
  dsimp only
  split <;> simp

@[simp] theorem State.relocateOpen_settings (s : State) (k : PageKey) (b : Nat) (e : Dom) :
    (s.relocateOpen k b).settings e = s.settings e := by
  unfold State.relocateOpen
  dsimp only
  split <;> simp

@[simp] theorem State.relocateOther_settings (s : State) (k : PageKey) (b : Nat) (e : Dom) :
    (s.relocateOther k b).settings e = s.settings e := by
  unfold State.relocateOther
  dsimp only
  split <;> simp

@[simp] theorem State.programFailure_settings (s : State) (x : ProgramItem) (a : Nat) (e : Dom) :
    (s.programFailure x a).settings e = s.settings e := by
  unfold State.programFailure
  dsimp only
  split
  · rfl
  · split <;> simp

@[simp] theorem State.eraseFailure_settings (s : State) (b : Nat) (e : Dom) :
    (s.eraseFailure b).settings e = s.settings e := by
  simp [State.eraseFailure]

@[simp] theorem State.releaseBlocks_settings (s : State) (n : Num) (e : Dom) :
    (s.releaseBlocks n).settings e = s.settings e := by
  unfold State.releaseBlocks
  dsimp only
  (repeat' split) <;> simp

@[simp] theorem State.releaseDump_settings (s : State) (n : Num) (e : Dom) :
    (s.releaseDump n).settings e = s.settings e := by
  simp [State.releaseDump]

/-! ### What most commands leave -/

/-- The region plans and the settings of both domains. -/
def State.setup (s : State) : (Dom → Plan) × (Dom → Settings) := (s.plan, s.settings)

theorem State.setup_eq_iff {s t : State} :
    t.setup = s.setup ↔ (∀ d, t.plan d = s.plan d) ∧ ∀ d, t.settings d = s.settings d := by
  simp [State.setup, funext_iff]

@[simp] theorem State.settle_setup (s : State) : s.settle.setup = s.setup := State.setup_eq_iff.2 (by simp)

@[simp] theorem State.reach_setup (s : State) (t : Time) : (s.reach t).setup = s.setup := State.setup_eq_iff.2 (by simp)

@[simp] theorem State.takeTrigger_setup (s : State) (d : Dom) (c : TriggerCause) (o : Option (BitVec 32)) :
    (s.takeTrigger d c o).1.setup = s.setup := State.setup_eq_iff.2 (by simp)

theorem State.fatalLine_setup (s : State) (d : Dom) (level : Bool) : (s.fatalLine d level).setup = s.setup := by
  unfold State.fatalLine
  dsimp only
  split <;> simp [State.setup_eq_iff]

theorem State.powerFall_setup (s : State) (d : Dom) : (s.powerFall d).setup = s.setup := by
  unfold State.powerFall
  dsimp only
  split <;> simp [State.setup_eq_iff]

theorem State.powerRise_setup (s : State) (d : Dom) : (s.powerRise d).setup = s.setup := by
  unfold State.powerRise
  dsimp only
  (repeat' split) <;> simp [State.setup_eq_iff]

theorem State.resetRequestRise_setup (s : State) (d : Dom) : (s.resetRequestRise d).setup = s.setup := by
  unfold State.resetRequestRise
  dsimp only
  split <;> simp [State.setup_eq_iff]

theorem State.attachRise_setup (s : State) : s.attachRise.setup = s.setup := by
  unfold State.attachRise
  split <;> simp [State.setup_eq_iff]

theorem State.attachFall_setup (s : State) : s.attachFall.setup = s.setup := by
  unfold State.attachFall
  dsimp only
  split <;> simp [State.setup_eq_iff]

theorem State.hang_setup (s : State) (d : Dom) : (s.hang d).setup = s.setup := by
  unfold State.hang
  dsimp only
  split <;> simp [State.setup_eq_iff]

theorem State.holdExpiry_setup (s : State) (d : Dom) : (s.holdExpiry d).setup = s.setup := by
  unfold State.holdExpiry
  dsimp only
  split <;> simp [State.setup_eq_iff]

theorem State.retryExpiry_setup (s : State) (d : Dom) : (s.retryExpiry d).setup = s.setup := by
  unfold State.retryExpiry
  dsimp only
  (repeat' split) <;> simp [State.setup_eq_iff]

theorem State.trainingDone_setup (s : State) (d : Dom) : (s.trainingDone d).setup = s.setup := by
  unfold State.trainingDone
  dsimp only
  split <;> simp [State.setup_eq_iff]

theorem State.trainingFailed_setup (s : State) (d : Dom) : (s.trainingFailed d).setup = s.setup := by
  unfold State.trainingFailed
  dsimp only
  split <;> simp [State.setup_eq_iff]

theorem State.retrainAsked_setup (s : State) (d : Dom) : (s.retrainAsked d).setup = s.setup := by
  unfold State.retrainAsked
  dsimp only
  split <;> simp [State.setup_eq_iff]

theorem State.endRead_setup (s : State) (d : Dom) (i : Fin 2) (r : LinkRead) (o : ReadOutcome) :
    (s.endRead d i r o).setup = s.setup := State.setup_eq_iff.2 (by simp)

theorem State.claimRead_setup (s : State) (d : Dom) (r : ReadName) : (s.claimRead d r).setup = s.setup := by
  unfold State.claimRead
  split <;> rfl

theorem State.claimExpiry_setup (s : State) (d : Dom) (r : ReadName) : (s.claimExpiry d r).setup = s.setup := by
  unfold State.claimExpiry
  (repeat' split) <;> simp [State.endRead_setup]

theorem State.granule_setup (s : State) (d : Dom) (r : ReadName) (bs : List Byte) (good : Bool) :
    (s.granule d r bs good).setup = s.setup := by
  unfold State.granule
  dsimp only
  split
  · split
    · split
      · simp [State.endRead_setup]
      · rfl
    · rfl
  · rfl

theorem State.granuleExpiry_setup (s : State) (d : Dom) (w : WindowName) : (s.granuleExpiry d w).setup = s.setup := by
  unfold State.granuleExpiry
  (repeat' split) <;> simp [State.endRead_setup]

theorem State.disconnectRead_setup (s : State) (d : Dom) (r : ReadName) : (s.disconnectRead d r).setup = s.setup := by
  unfold State.disconnectRead
  split <;> simp [State.endRead_setup]

theorem State.abortRead_setup (s : State) (d : Dom) (r : ReadName) : (s.abortRead d r).setup = s.setup := by
  unfold State.abortRead
  split <;> simp [State.endRead_setup]

theorem State.programDone_setup (s : State) (i : Fin 8) : (s.programDone i).setup = s.setup := by
  unfold State.programDone
  dsimp only
  split <;> simp [State.setup_eq_iff]

theorem State.programFails_setup (s : State) (i : Fin 8) : (s.programFails i).setup = s.setup := by
  unfold State.programFails
  split <;> simp [State.setup_eq_iff]

theorem State.readDone_setup (s : State) (i : Fin 8) (held : Bool) : (s.readDone i held).setup = s.setup := by
  unfold State.readDone
  dsimp only
  cases held <;> (repeat' split) <;> simp [State.setup_eq_iff]

theorem State.eraseEnds_setup (s : State) (i : Fin 8) : (s.eraseEnds i).setup = s.setup := by
  unfold State.eraseEnds
  split <;> simp [State.setup_eq_iff]

theorem State.eraseFails_setup (s : State) (i : Fin 8) : (s.eraseFails i).setup = s.setup := by
  unfold State.eraseFails
  split <;> simp [State.setup_eq_iff]

theorem State.storeSaveEnd_setup (s : State) (ok : Bool) : (s.storeSaveEnd ok).setup = s.setup := by
  unfold State.storeSaveEnd
  (repeat' split) <;> simp [State.setup_eq_iff]

theorem State.configSaveEnd_setup (s : State) (ok : Bool) : (s.configSaveEnd ok).setup = s.setup := by
  unfold State.configSaveEnd
  dsimp only
  (repeat' split) <;> simp [State.setup_eq_iff]

theorem State.intakeDone_setup (s : State) (d : Dom) : (s.intakeDone d).setup = s.setup := by
  unfold State.intakeDone
  dsimp only
  split <;> simp [State.setup_eq_iff]

theorem State.agingTaken_setup (s : State) (d : Dom) (i : Fin 16) : (s.agingTaken d i).setup = s.setup := by
  unfold State.agingTaken
  dsimp only
  split <;> simp [State.setup_eq_iff]

theorem State.crashTaken_setup (s : State) (d : Dom) : (s.crashTaken d).setup = s.setup := by
  unfold State.crashTaken
  dsimp only
  (repeat' split) <;> simp [State.setup_eq_iff]

theorem State.receive_setup (s : State) (p : PortId) (f : Frame) (crc : BitVec 16) :
    (s.receive p f crc).setup = s.setup := by
  unfold State.receive
  dsimp only
  (repeat' split) <;> simp [State.setup_eq_iff]

theorem State.syncFound_setup (s : State) (p : PortId) : (s.syncFound p).setup = s.setup := by
  unfold State.syncFound
  split <;> simp [State.setup_eq_iff]

theorem State.frameGap_setup (s : State) (p : PortId) : (s.frameGap p).setup = s.setup := by
  unfold State.frameGap
  dsimp only
  split <;> simp [State.setup_eq_iff]

theorem State.oversizeLength_setup (s : State) (p : PortId) : (s.oversizeLength p).setup = s.setup := by
  unfold State.oversizeLength
  dsimp only
  split <;> simp [State.setup_eq_iff]

theorem State.peerHoldEnds_setup (s : State) (p : PortId) : (s.peerHoldEnds p).setup = s.setup := by
  unfold State.peerHoldEnds
  dsimp only
  split <;> simp [State.setup_eq_iff]

theorem State.frameSent_setup (s : State) (p : PortId) : (s.frameSent p).setup = s.setup := by
  unfold State.frameSent
  dsimp only
  (repeat' split) <;> simp [State.setup_eq_iff]

theorem State.refuseUnknown_setup (s : State) (p : PortId) : (s.refuseUnknown p).setup = s.setup := by
  unfold State.refuseUnknown
  (repeat' split) <;> simp [State.setup_eq_iff]

theorem State.scanDone_setup (s : State) : s.scanDone.setup = s.setup := by
  unfold State.scanDone
  dsimp only
  split <;> simp [State.setup_eq_iff]

/-! ### What most requests leave -/

theorem State.complete_setup (s : State) (p : PortId) (r : Frame) : (s.complete p r).setup = s.setup :=
  State.setup_eq_iff.2 (by simp)

theorem State.countMissed_setup (s : State) (d : Dom) : (s.countMissed d).setup = s.setup :=
  State.setup_eq_iff.2 (by simp)

theorem State.reserve_setup (s : State) (p : PortId) : (s.reserve p).setup = s.setup := State.setup_eq_iff.2 (by simp)

/-- An owning rule that writes neither a plan nor a setting. -/
def LeavesSetup (act : State → Frame → Dom → Answer) : Prop :=
  ∀ s f d, (act s f d).All fun t => t.setup = s.setup

theorem LeavesSetup.request {act : State → Frame → Dom → Answer} (h : LeavesSetup act) (s : State) (p : PortId)
    (kind : Byte) : (s.request p kind act).setup = s.setup :=
  State.request_keeps (P := fun t => t.setup = s.setup) s p kind act (s.reserve_setup p).trans
    (fun u r k => (u.complete_setup p r).trans k) (fun u d k => (u.countMissed_setup d).trans k)
    (fun u k => u.settle_setup.trans k) (fun f d _ k => k ▸ h (s.reserve p) f d) rfl

@[simp] theorem Answer.all_reply (P : State → Prop) (s : State) (st : Byte) (bs : List Byte) :
    (Answer.reply s st bs).All P ↔ P s := Iff.rfl
@[simp] theorem Answer.all_held (P : State → Prop) (s : State) : (Answer.held s).All P ↔ P s := Iff.rfl
@[simp] theorem Answer.all_heldWork (P : State → Prop) (s : State) : (Answer.heldWork s).All P ↔ P s := Iff.rfl
@[simp] theorem Answer.all_ok (P : State → Prop) (s : State) (bs : List Byte) : (Answer.ok s bs).All P ↔ P s := Iff.rfl
@[simp] theorem Answer.all_okWork (P : State → Prop) (s : State) (bs : List Byte) :
    (Answer.okWork s bs).All P ↔ P s := Iff.rfl
@[simp] theorem Answer.all_refused (P : State → Prop) (s : State) (st : Byte) :
    (Answer.refused s st).All P ↔ P s := Iff.rfl
@[simp] theorem Answer.all_after (P : State → Prop) (s : State) (st : Byte) (bs : List Byte) (act : State → State) :
    (Answer.after s st bs act).All P ↔ P s ∧ ∀ u, P u → P (act u) := Iff.rfl

theorem armAct_setup : LeavesSetup armAct := fun s f d => by
  unfold armAct
  split <;> simp [State.setup_eq_iff]

theorem disarmAct_setup : LeavesSetup disarmAct := fun s f d => by
  unfold disarmAct
  split <;> simp [State.setup_eq_iff]

theorem heartbeatAct_setup : LeavesSetup heartbeatAct := fun s f d => by
  unfold heartbeatAct
  dsimp only
  (repeat' split) <;> simp [State.setup_eq_iff]

theorem crashAct_setup : LeavesSetup crashAct := fun s f d => by
  unfold crashAct
  dsimp only
  split
  · exact Answer.trigger_all (s.takeTrigger_setup d _ _)
  · simp [State.setup_eq_iff]

theorem captureAct_setup : LeavesSetup captureAct := fun s f d => by
  unfold captureAct
  split
  · exact Answer.trigger_all (s.takeTrigger_setup d _ _)
  · exact Answer.trigger_all (s.takeTrigger_setup d _ _)
  · exact s.countMissed_setup d
  all_goals rfl

theorem abortAct_setup : LeavesSetup abortAct := fun s f d => by
  unfold abortAct
  split <;> simp [State.setup_eq_iff]

theorem releaseHoldAct_setup : LeavesSetup releaseHoldAct := fun s f d => by
  unfold releaseHoldAct
  split <;> simp [State.setup_eq_iff]

theorem planReadAct_setup : LeavesSetup planReadAct := fun s f d => by
  unfold planReadAct
  dsimp only
  split <;> rfl

theorem eventAct_setup : LeavesSetup eventAct := fun s f d => by
  unfold eventAct
  dsimp only
  (repeat' split) <;> simp [State.setup_eq_iff]

theorem latchSetAct_setup : LeavesSetup latchSetAct := fun s f d => by
  unfold latchSetAct
  dsimp only
  (repeat' split) <;> simp [State.setup_eq_iff]

theorem journalReadAct_setup : LeavesSetup journalReadAct := fun s f d => by
  unfold journalReadAct
  dsimp only
  (repeat' split) <;> rfl

theorem manifestAct_setup : LeavesSetup manifestAct := fun s f d => by
  unfold manifestAct
  dsimp only
  (repeat' split) <;> rfl

theorem cursorAct_setup : LeavesSetup cursorAct := fun s f d => by
  unfold cursorAct
  dsimp only
  (repeat' split) <;> simp [State.setup_eq_iff]

theorem readAct_setup : LeavesSetup readAct := fun s f d => by
  unfold readAct
  dsimp only
  (repeat' split) <;> simp [State.setup_eq_iff]

theorem releaseAct_setup : LeavesSetup releaseAct := fun s f d => by
  unfold releaseAct
  dsimp only
  (repeat' split) <;> simp [State.setup_eq_iff]

theorem protectAct_setup : LeavesSetup protectAct := fun s f d => by
  unfold protectAct
  dsimp only
  split <;> simp [State.setup_eq_iff]

/-- VERIFY goes on after its reply (R141). -/
theorem verifyAct_setup : LeavesSetup verifyAct := fun s f d => by
  unfold verifyAct
  dsimp only
  (repeat' split) <;> simp +contextual [State.setup_eq_iff]

theorem configSaveAct_setup : LeavesSetup configSaveAct := fun s f d => by
  unfold configSaveAct
  split <;> rfl

theorem viewAct_setup : LeavesSetup viewAct := fun s f d => by
  unfold viewAct
  split <;> rfl

theorem restartAct_setup : LeavesSetup restartAct := fun s f d => by
  unfold restartAct
  (repeat' split) <;> rfl

/-! ### The commands that write a plan or a setting -/

/-- The plan law and the settings law go on from one state to another. -/
structure State.KeepsPlansAndSettings (s t : State) : Prop where
  plans : s.PlanLaw → t.PlanLaw
  settings : s.SettingsLaw → t.SettingsLaw

theorem State.KeepsPlansAndSettings.of_setup {s t : State} (h : t.setup = s.setup) : s.KeepsPlansAndSettings t := by
  obtain ⟨hp, hs⟩ := State.setup_eq_iff.1 h
  exact ⟨fun k d => hp d ▸ k d, fun k d => hs d ▸ k d⟩

theorem State.KeepsPlansAndSettings.trans {s t u : State} (h : s.KeepsPlansAndSettings t)
    (k : t.KeepsPlansAndSettings u) : s.KeepsPlansAndSettings u :=
  ⟨fun x => k.plans (h.plans x), fun x => k.settings (h.settings x)⟩

/-- A plan written, lawful if the one before it was. -/
theorem State.KeepsPlansAndSettings.setPlan {s : State} {d : Dom} {q : Plan} (h : (s.plan d).Lawful → q.Lawful) :
    s.KeepsPlansAndSettings (s.setPlan d q) := by
  refine ⟨fun k e => ?_, fun k e => by simpa using k e⟩
  rw [State.setPlan_plan]
  split
  · exact h (k d)
  · exact k e

/-- A request keeps the laws where its owning rule's answer does. -/
theorem State.KeepsPlansAndSettings.request {act : State → Frame → Dom → Answer} (s : State) (p : PortId) (kind : Byte)
    (ha : ∀ u f d, (act u f d).All u.KeepsPlansAndSettings) : s.KeepsPlansAndSettings (s.request p kind act) := by
  rcases s.request_cases p kind act with e | ⟨f, st, -, -, e⟩ | ⟨f, -, e⟩ <;> rw [e]
  · exact .of_setup rfl
  · exact .of_setup (State.setup_eq_iff.2 (by simp))
  · exact (State.KeepsPlansAndSettings.of_setup (s.reserve_setup p)).trans <|
      (ha _ f _).finish (fun u p r k => k.trans (.of_setup (u.complete_setup p r)))
        (fun u k => k.trans (.of_setup u.settle_setup)) p f _

theorem planAddAct_keeps (s : State) (f : Frame) (d : Dom) : (planAddAct s f d).All s.KeepsPlansAndSettings := by
  unfold planAddAct
  dsimp only
  split
  · exact .of_setup rfl
  · split
    · exact .of_setup rfl
    · split
      · exact .of_setup rfl
      · next hb ht hn =>
        exact .setPlan fun k => k.add (AddFields.entry_lawful ((Bool.not_eq_true _).mp hb)) ((Bool.not_eq_true _).mp ht)
          (Nat.lt_of_not_le hn)

theorem planDeleteAct_keeps (s : State) (f : Frame) (d : Dom) : (planDeleteAct s f d).All s.KeepsPlansAndSettings := by
  unfold planDeleteAct
  dsimp only
  split
  · exact .setPlan fun k => k.delete _
  · exact .of_setup rfl

theorem planClearAct_keeps (s : State) (f : Frame) (d : Dom) : (planClearAct s f d).All s.KeepsPlansAndSettings :=
  .setPlan fun _ => Plan.empty_lawful _

/-- Only the items 1 to 8 of CONFIG SET write a setting (R178). -/
theorem configSetAct_keeps (s : State) (f : Frame) (d : Dom) : (configSetAct s f d).All s.KeepsPlansAndSettings := by
  unfold configSetAct
  dsimp only
  split
  · exact .of_setup rfl
  · split
    · exact .of_setup rfl
    · split
      · exact .of_setup rfl
      · split
        · exact .of_setup rfl
        · refine ⟨fun k => k, fun k e => ?_⟩
          rw [State.mk_settings, Two.get_set]
          split
          · exact (k d).write _ _
          · exact k e

/-- A hard reset leaves the plans and the settings of the reset state (R180). -/
theorem State.hardReset_setup (s : State) (lv : Levels) : (s.hardReset lv).setup = State.reset.setup := by
  have hc (c : Configuration) (seed : Nat) (d : Dom) : (c.afterReset seed).settings.get d = State.reset.settings d := rfl
  unfold State.hardReset
  dsimp only
  split <;> simp [State.setup_eq_iff, hc]

theorem State.hardReset_keeps (s : State) (lv : Levels) : s.KeepsPlansAndSettings (s.hardReset lv) :=
  have h := State.KeepsPlansAndSettings.of_setup (s.hardReset_setup lv)
  ⟨fun _ => h.plans State.reset_planLaw, fun _ => h.settings State.reset_settingsLaw⟩

/-- The load takes clamped settings and leaves the plans (R176). -/
theorem State.loadDone_keeps (s : State) : s.KeepsPlansAndSettings s.loadDone := by
  unfold State.loadDone
  dsimp only
  split
  · exact ⟨fun k d => by simpa using k d, fun _ d => Configuration.loaded_lawful _ _ d⟩
  · exact .of_setup rfl

/-- A restart reloads the settings and leaves the plans (R181). -/
theorem State.restartDone_keeps (s : State) : s.KeepsPlansAndSettings s.restartDone := by
  unfold State.restartDone
  dsimp only
  split
  · have hr : s.KeepsPlansAndSettings s.reloaded := 
      ⟨fun k => k, fun _ => s.config.loaded_lawful s.config.memory.image⟩
    exact hr.trans (.of_setup (State.setup_eq_iff.2 (by simp [State.blocksRestart])))
  · exact .of_setup rfl

/-! ### Every command -/

/-- Every command keeps the plan law and the settings law. -/
theorem exec_keepsPlansAndSettings (c : Instr) {s t : State} (e : exec c s = .next t) : s.KeepsPlansAndSettings t := by
  cases c <;> cases e
  case hardReset lv => exact s.hardReset_keeps lv
  case configLoadComplete => exact s.loadDone_keeps
  case restartTakesEffect => exact s.restartDone_keeps
  case planAdd p => exact .request s p _ planAddAct_keeps
  case planDelete p => exact .request s p _ planDeleteAct_keeps
  case planClear p => exact .request s p _ planClearAct_keeps
  case configSet p => exact .request s p _ configSetAct_keeps
  all_goals apply State.KeepsPlansAndSettings.of_setup
  case startUpScanComplete => exact s.scanDone_setup
  case fatalLine d level => exact s.fatalLine_setup d level
  case powerGoodFall d => exact s.powerFall_setup d
  case powerGoodRise d => exact s.powerRise_setup d
  case resetRequestEdge d => exact s.resetRequestRise_setup d
  case resetRequestFall d => rfl
  case attach => exact s.attachRise_setup
  case detach => exact s.attachFall_setup
  case hang d => exact s.hang_setup d
  case holdTimerExpiry d => exact s.holdExpiry_setup d
  case linkRetryTimerExpiry d => exact s.retryExpiry_setup d
  case trainingExpiry d => exact s.trainingFailed_setup d
  case trainingComplete d => exact s.trainingDone_setup d
  case targetRetrainRequest d => exact s.retrainAsked_setup d
  case targetClaim d r => exact s.claimRead_setup d r
  case claimWindowExpiry d r => exact s.claimExpiry_setup d r
  case granuleArrival d r bs good => exact s.granule_setup d r bs good
  case granuleWindowExpiry d w => exact s.granuleExpiry_setup d w
  case disconnect d r => exact s.disconnectRead_setup d r
  case targetAbort d r => exact s.abortRead_setup d r
  case programComplete i => exact s.programDone_setup i
  case programFailed i => exact s.programFails_setup i
  case storeReadComplete i held => exact s.readDone_setup i held
  case eraseComplete i => exact s.eraseEnds_setup i
  case eraseFailed i => exact s.eraseFails_setup i
  case storeSaveEnd ok => exact s.storeSaveEnd_setup ok
  case configSaveEnd ok => exact s.configSaveEnd_setup ok
  case intakeStepComplete d => exact s.intakeDone_setup d
  case agingExpiry d i => exact s.agingTaken_setup d i
  case crashTaken d => exact s.crashTaken_setup d
  case receiveFrame p k g d bs crc => exact s.receive_setup p _ crc
  case syncPairFound p => exact s.syncFound_setup p
  case frameGapTimeout p => exact s.frameGap_setup p
  case oversize p => exact s.oversizeLength_setup p
  case peerHoldExpiry p => exact s.peerHoldEnds_setup p
  case frameSent p => exact s.frameSent_setup p
  case unknownKind p => exact s.refuseUnknown_setup p
  case arm p => exact armAct_setup.request s p _
  case disarm p => exact disarmAct_setup.request s p _
  case heartbeat p => exact heartbeatAct_setup.request s p _
  case crash p => exact crashAct_setup.request s p _
  case capture p => exact captureAct_setup.request s p _
  case abort p => exact abortAct_setup.request s p _
  case releaseHold p => exact releaseHoldAct_setup.request s p _
  case planRead p => exact planReadAct_setup.request s p _
  case event p => exact eventAct_setup.request s p _
  case latchSet p => exact latchSetAct_setup.request s p _
  case journalRead p => exact journalReadAct_setup.request s p _
  case manifest p => exact manifestAct_setup.request s p _
  case cursor p => exact cursorAct_setup.request s p _
  case read p => exact readAct_setup.request s p _
  case release p => exact releaseAct_setup.request s p _
  case protect p => exact protectAct_setup.request s p _
  case verify p => exact verifyAct_setup.request s p _
  case configSave p => exact configSaveAct_setup.request s p _
  case view p => exact viewAct_setup.request s p _
  case restart p => exact restartAct_setup.request s p _
  case ident p => exact LeavesSetup.request (act := identAct) (fun _ _ _ => rfl) s p _
  case status p => exact LeavesSetup.request (act := statusAct) (fun _ _ _ => rfl) s p _
  case counters p => exact LeavesSetup.request (act := countersAct) (fun _ _ _ => rfl) s p _
  case configGet p => exact LeavesSetup.request (act := configGetAct) (fun _ _ _ => rfl) s p _
  case dir p => exact LeavesSetup.request (act := dirAct) (fun _ _ _ => rfl) s p _
  case linkStatus p => exact LeavesSetup.request (act := linkStatusAct) (fun _ _ _ => rfl) s p _
  case latchRead p => exact LeavesSetup.request (act := latchReadAct) (fun _ _ _ => rfl) s p _

/-- Settles O5: an idle millisecond leaves the plans and the settings, and every command keeps their laws. -/
theorem stepsKeepPlansAndSettingsLawful : Obligations.StepsKeepPlansAndSettingsLawful := by
  unfold Obligations.StepsKeepPlansAndSettingsLawful
  intro s t e
  unfold step at e
  have h : s.KeepsPlansAndSettings t := by
    split at e
    · cases e; exact .of_setup rfl
    · next c rest _ =>
      have hw : s.KeepsPlansAndSettings (s.withPending rest) := .of_setup rfl
      exact hw.trans (exec_keepsPlansAndSettings c e)
  exact ⟨h.plans, h.settings⟩

end Sys2Proof.Machine
end

