-- ==== Sys2Proof/Proofs/Visits.lean ====
section
/-! SUPPORT. One visit of a walk against its budget (R43, R50 to R52): the costs, the candidate length, and O43. -/
namespace Sys2Proof.Machine

theorem pageCost_eq (len : Nat) : pageCost len = 1 + (len + 4095) / 4096 :=
  congrArg (fun n => 1 + n / 4096) (Nat.add_sub_assoc (by decide) len)

theorem timeCost_eq (rd len : Nat) : timeCost rd len = (len * 100 + rd - 1) / rd := rfl

/-- A time cost fits the budget exactly where the bytes do at the rate (R43). -/
theorem timeCost_le_iff {rd : Nat} (h : 0 < rd) (len time : Nat) : timeCost rd len ≤ time ↔ len * 100 ≤ time * rd := by
  rw [timeCost_eq, Nat.div_le_iff_le_mul_add_pred h, Nat.add_sub_assoc h, Nat.add_le_add_iff_right, Nat.mul_comm rd]

/-- The page cost of whole pages is their number and the section's header page (R43). -/
theorem pageCost_pages (k : Nat) : pageCost (k * 4096) = 1 + k := by
  rw [pageCost_eq, Nat.add_comm (k * 4096), Nat.add_mul_div_right _ _ (by decide)]
  exact congrArg (1 + ·) (Nat.zero_add k)

/-- The candidate length of a truncated admission is a number of whole pages, the least of the three that R51 names. -/
theorem truncatedLength_eq (rd : Nat) (b : Budget) (planned : Nat) :
    truncatedLength rd b planned = min (planned / 4096) (min (b.pages - 1) (b.time * rd / 100 / 4096)) * 4096 := by
  rw [← Nat.mul_min_mul_right, ← Nat.mul_min_mul_right]
  rfl

/-- A number of whole pages is within the candidate length where it is within each of the three. -/
theorem le_truncatedLength_iff {rd : Nat} {b : Budget} {planned k : Nat} :
    k * 4096 ≤ truncatedLength rd b planned ↔
      k * 4096 ≤ planned ∧ k ≤ b.pages - 1 ∧ k * 4096 * 100 ≤ b.time * rd := by
  rw [truncatedLength_eq, Nat.mul_le_mul_right_iff (by decide), le_min_iff, le_min_iff, Nat.le_div_iff_mul_le (by decide),
    Nat.le_div_iff_mul_le (by decide), Nat.le_div_iff_mul_le (by decide)]

/-- Whole pages of a length that fit the budget are at most the candidate length (R51). -/
theorem le_truncatedLength {rd : Nat} {b : Budget} {planned k : Nat} (hp : k * 4096 ≤ planned) (hb : 1 + k ≤ b.pages)
    (ht : k * 4096 * 100 ≤ b.time * rd) : k * 4096 ≤ truncatedLength rd b planned :=
  le_truncatedLength_iff.2 ⟨hp, Nat.le_sub_of_add_le' hb, ht⟩

/-- A candidate length other than 0 leaves a page for its header (R43, R51). -/
theorem truncatedLength_page {rd : Nat} {b : Budget} {planned : Nat} (hl : 0 < truncatedLength rd b planned) :
    pageCost (truncatedLength rd b planned) ≤ b.pages := by
  obtain ⟨k, hk⟩ : ∃ k, truncatedLength rd b planned = k * 4096 := ⟨_, truncatedLength_eq rd b planned⟩
  obtain ⟨-, hb, -⟩ := le_truncatedLength_iff.1 hk.ge
  have hk0 : 0 < k := Nat.pos_of_mul_pos_right (hk ▸ hl)
  rw [hk, pageCost_pages]
  exact Nat.add_le_of_le_sub' (Nat.one_le_iff_ne_zero.2 fun h0 => absurd hb (by rw [h0]; exact Nat.not_le.2 hk0)) hb

/-- A candidate length other than 0 is within the planned length and fits the budget (R51). -/
theorem truncatedLength_fits {rd : Nat} (h : 0 < rd) {b : Budget} {planned : Nat} (hl : 0 < truncatedLength rd b planned) :
    truncatedLength rd b planned ≤ planned ∧ truncatedLength rd b planned % 4096 = 0
      ∧ pageCost (truncatedLength rd b planned) ≤ b.pages ∧ timeCost rd (truncatedLength rd b planned) ≤ b.time := by
  have hpage := truncatedLength_page hl
  obtain ⟨k, hk⟩ : ∃ k, truncatedLength rd b planned = k * 4096 := ⟨_, truncatedLength_eq rd b planned⟩
  obtain ⟨hp, -, ht⟩ := le_truncatedLength_iff.1 hk.ge
  rw [hk] at hpage ⊢
  exact ⟨hp, Nat.mul_mod_left _ _, hpage, (timeCost_le_iff h _ _).2 ht⟩

/-! ### The three arms of a visit (R50 to R52) -/

/-- What a visit that skips its section leaves (R52). -/
noncomputable def skippedVisit (b : Budget) (x : SectionRecord) : Visit :=
  { sect := { x with state := .skipped, admitted := 0, truncated := false
                     cause := some (if b.pages < pageCost x.planned then .budgetSpace else .budgetTime) }
    share := 0, budget := b }

theorem visit_whole {rd : Nat} {b : Budget} {x : SectionRecord}
    (hw : pageCost x.planned ≤ b.pages ∧ timeCost rd x.planned ≤ b.time) :
    visit rd b x = admitLength rd b x x.planned false := if_pos hw

theorem visit_truncated {rd : Nat} {b : Budget} {x : SectionRecord}
    (hw : ¬(pageCost x.planned ≤ b.pages ∧ timeCost rd x.planned ≤ b.time))
    (ht : x.floor < x.planned ∧ x.floor ≤ truncatedLength rd b x.planned ∧ 0 < truncatedLength rd b x.planned) :
    visit rd b x = admitLength rd b x (truncatedLength rd b x.planned) true := (if_neg hw).trans (if_pos ht)

theorem visit_skipped {rd : Nat} {b : Budget} {x : SectionRecord}
    (hw : ¬(pageCost x.planned ≤ b.pages ∧ timeCost rd x.planned ≤ b.time))
    (ht : ¬(x.floor < x.planned ∧ x.floor ≤ truncatedLength rd b x.planned ∧ 0 < truncatedLength rd b x.planned)) :
    visit rd b x = skippedVisit b x := (if_neg hw).trans (if_neg ht)

/-- Where a section is skipped no admission of whole pages fits (R51, R52). -/
theorem nothing_fits {rd : Nat} (hrd : 0 < rd) {b : Budget} {x : SectionRecord}
    (hw : ¬(pageCost x.planned ≤ b.pages ∧ timeCost rd x.planned ≤ b.time))
    (ht : ¬(x.floor < x.planned ∧ x.floor ≤ truncatedLength rd b x.planned ∧ 0 < truncatedLength rd b x.planned))
    {n : Nat} (hn : 0 < n) (hmod : n % 4096 = 0) (hfn : x.floor ≤ n) (hnp : n ≤ x.planned) :
    ¬(1 + n / 4096 ≤ b.pages ∧ n * 100 ≤ b.time * rd) := by
  rintro ⟨hpages, htime⟩
  obtain ⟨k, rfl⟩ : ∃ k, n = k * 4096 := ⟨_, (Nat.div_mul_cancel (Nat.dvd_of_mod_eq_zero hmod)).symm⟩
  rw [Nat.mul_div_cancel _ (by decide)] at hpages
  have hk : k * 4096 ≤ truncatedLength rd b x.planned := le_truncatedLength hnp hpages htime
  rcases Nat.lt_or_ge x.floor x.planned with hlt | hge
  · exact ht ⟨hlt, hfn.trans hk, hn.trans_le hk⟩
  · have he : k * 4096 = x.planned := le_antisymm hnp (hge.trans hfn)
    exact hw ⟨he ▸ (pageCost_pages k).le.trans hpages, he ▸ (timeCost_le_iff hrd _ _).2 htime⟩

/-- Settles O43: the three arms of a visit in turn.  A whole admission fits by its test, a truncated one by
`truncatedLength_fits`, and after a skip no admission of whole pages fits by `nothing_fits`. -/
theorem visitsStayWithinTheBudget : Obligations.VisitsStayWithinTheBudget := by
  intro rd b x hrd hf hfp v
  have hcost := pageCost_eq x.planned
  by_cases hw : pageCost x.planned ≤ b.pages ∧ timeCost rd x.planned ≤ b.time
  · have hv : v = _ := visit_whole hw
    clear_value v
    subst hv
    exact ⟨fun _ => rfl, fun _ => ⟨rfl, hfp, le_rfl, hcost, hw.1, hw.2, rfl, rfl, (fun h => by cases h), fun _ => rfl⟩,
      fun hn => absurd rfl hn⟩
  · by_cases ht : x.floor < x.planned ∧ x.floor ≤ truncatedLength rd b x.planned ∧ 0 < truncatedLength rd b x.planned
    · have hv : v = _ := visit_truncated hw ht
      clear_value v
      subst hv
      obtain ⟨-, hfl, hpos⟩ := ht
      obtain ⟨hle, hmod, hpage, htime⟩ := truncatedLength_fits hrd hpos
      exact ⟨fun h => absurd ⟨hcost.trans_le h.1, h.2⟩ hw, fun _ => ⟨rfl, hfl, hle, pageCost_eq _, hpage, htime, rfl, rfl,
        fun _ => ⟨hmod, hpos⟩, fun h => by cases h⟩, fun hn => absurd rfl hn⟩
    · have hv : v = _ := visit_skipped hw ht
      clear_value v
      subst hv
      exact ⟨fun h => absurd ⟨hcost.trans_le h.1, h.2⟩ hw, (fun h => by cases h),
        fun _ => ⟨rfl, rfl, rfl, rfl, rfl, hcost ▸ rfl, fun _ => nothing_fits hrd hw ht⟩⟩

end Sys2Proof.Machine
end

