-- ==== Sys2Proof/Proofs/Claims.lean ====
section
/-! SUPPORT. The claims of the open dumps and the pool (R46, R47): what a claim is made of, what lowers it, and the operations
that move a block or a share. -/
namespace Sys2Proof.Machine

/-! ### What a claim is made of -/

/-- The pages of a dump that its claim leaves out: those programmed and those its open block still has (R41, R46). -/
noncomputable def Store.covered (st : Store) (n : Num) : Nat := st.programmed n + st.remainder n

theorem Store.covered_eq (st : Store) (n : Num) :
    st.covered n = ((st.record n).map fun r => r.programmed + r.remainder).getD 0 := by
  unfold Store.covered Store.programmed Store.remainder
  cases st.record n <;> rfl

theorem roundBlocks_eq (n : Nat) : roundBlocks n = (n + 127) / 128 * 128 :=
  congrArg (fun m => m / 128 * 128) (Nat.add_sub_assoc (by decide) n)

theorem roundBlocks_mono {m n : Nat} (h : m ≤ n) : roundBlocks m ≤ roundBlocks n := by
  rw [roundBlocks_eq, roundBlocks_eq]
  exact Nat.mul_le_mul_right _ (Nat.div_le_div_right (Nat.add_le_add_right h _))

/-- With whole blocks beside it, a number fits in whole blocks where its own whole blocks do. -/
theorem roundBlocks_add_le_iff {n k p : Nat} : roundBlocks n + k * 128 ≤ p * 128 ↔ n + k * 128 ≤ p * 128 := by
  rw [roundBlocks_eq, ← Nat.add_mul, Nat.mul_le_mul_right_iff (by decide), ← Nat.add_mul_div_right _ _ (by decide),
    Nat.div_le_iff_le_mul (by decide), Nat.add_right_comm]
  exact ⟨Nat.le_of_add_le_add_right (b := 127), (Nat.add_le_add_right · 127)⟩

theorem le_roundBlocks (n : Nat) : n ≤ roundBlocks n :=
  roundBlocks_add_le_iff (k := 0).1 (roundBlocks_eq n).le

theorem Store.poolPages_eq (st : Store) : st.poolPages = st.pool.length * 128 := rfl

theorem State.claim_of {s : State} {d : Dom} {a : Admission} (h : s.admission d = some a) :
    s.claim d = roundBlocks (a.total - s.store.covered a.dump) := by
  unfold State.claim State.reservationOf Store.covered
  rw [h]
  dsimp only
  rw [Nat.sub_sub]

theorem State.claim_none {s : State} {d : Dom} (h : s.admission d = none) : s.claim d = 0 := by
  unfold State.claim
  rw [h]

theorem State.claim_blocks (s : State) (d : Dom) : ∃ k, s.claim d = k * 128 := by
  cases h : s.admission d with
  | none => exact ⟨0, by rw [State.claim_none h]⟩
  | some a => exact ⟨_, by rw [State.claim_of h, roundBlocks_eq]⟩

theorem State.claimLaw_iff (s : State) (d : Dom) :
    s.ClaimLaw ↔ s.claim d + s.claim (otherDom d) ≤ s.store.poolPages := by
  unfold State.ClaimLaw
  cases d
  · rfl
  · rw [Nat.add_comm]
    rfl

/-! ### What lowers the claims -/

/-- The dumps that claim in `t` claim in `s`, with as many shares and at most as many pages counted for them, and the pool of
`t` is as large. -/
structure State.ClaimsFall (s t : State) : Prop where
  shares : ∀ d y, t.admission d = some y → ∃ x, s.admission d = some x ∧ y.dump = x.dump ∧ y.total ≤ x.total
    ∧ s.store.covered x.dump ≤ t.store.covered x.dump
  pool : s.store.pool.length ≤ t.store.pool.length

theorem State.ClaimsFall.claim {s t : State} (h : s.ClaimsFall t) (d : Dom) : t.claim d ≤ s.claim d := by
  cases hy : t.admission d with
  | none =>
    rw [State.claim_none hy]
    exact Nat.zero_le _
  | some y =>
    obtain ⟨x, hx, hn, ht, hc⟩ := h.shares d y hy
    rw [State.claim_of hy, State.claim_of hx, hn]
    exact roundBlocks_mono ((Nat.sub_le_sub_right ht _).trans (Nat.sub_le_sub_left hc _))

theorem State.ClaimLaw.fall {s t : State} (h : s.ClaimLaw) (f : s.ClaimsFall t) : t.ClaimLaw := by
  have ha := f.claim .a
  have hb := f.claim .b
  have hp := f.pool
  unfold State.ClaimLaw at h ⊢
  exact (Nat.add_le_add ha hb).trans (h.trans (Nat.mul_le_mul_right _ hp))

theorem State.ClaimsFall.trans {s t u : State} (h : s.ClaimsFall t) (k : t.ClaimsFall u) : s.ClaimsFall u where
  shares d z hz := by
    obtain ⟨y, hy, hn, ht, hc⟩ := k.shares d z hz
    obtain ⟨x, hx, hm, hu, hd⟩ := h.shares d y hy
    exact ⟨x, hx, hn.trans hm, ht.trans hu, hd.trans (hm ▸ hc)⟩
  pool := h.pool.trans k.pool

/-- Only what the claims look at counts: the admission records, the pages counted and the pool. -/
theorem State.ClaimsFall.of_store {s t : State} (ha : ∀ d, t.admission d = s.admission d)
    (hc : ∀ n, s.store.covered n ≤ t.store.covered n) (hp : s.store.pool.length ≤ t.store.pool.length) : s.ClaimsFall t :=
  ⟨fun d y hy => ⟨y, (ha d).symm.trans hy, rfl, le_rfl, hc _⟩, hp⟩

theorem State.ClaimsFall.of_eq {s t : State} (ha : ∀ d, t.admission d = s.admission d) (hs : t.store = s.store) :
    s.ClaimsFall t :=
  .of_store ha (fun _ => by rw [hs]) (by rw [hs])

theorem State.ClaimsFall.refl (s : State) : s.ClaimsFall s := .of_eq (fun _ => rfl) rfl

/-! ### Store records -/

theorem Store.record_congr {x y : Store} (h : x.records = y.records) (n : Num) : x.record n = y.record n := by
  unfold Store.record
  rw [h]

theorem Store.covered_congr {x y : Store} (h : x.records = y.records) (n : Num) : x.covered n = y.covered n := by
  rw [Store.covered_eq, Store.covered_eq, Store.record_congr h]

/-- The record found after a change of one dump's record that keeps its number. -/
theorem Store.record_updRecord (st : Store) (n m : Num) (f : StoreRecord → StoreRecord) (hf : ∀ r, (f r).dump = r.dump) :
    (st.updRecord n f).record m = if m = n then (st.record m).map f else st.record m := by
  simp only [Store.updRecord, Store.record, List.find?_map]
  have hd : ((fun r : StoreRecord => r.dump == m) ∘ fun r => if r.dump = n then f r else r) = fun r => r.dump == m := by
    funext r
    simp only [Function.comp_apply]
    split
    · rw [hf]
    · rfl
  rw [hd]
  cases hr : st.records.find? fun r => r.dump == m with
  | none => simp
  | some r =>
    have hm : r.dump = m := by simpa using List.find?_some hr
    simp only [Option.map_some, hm]
    split <;> rfl

/-- Pages counted for a dump do not fall where its changed record counts at least as many. -/
theorem Store.covered_updRecord (st : Store) (n m : Num) (f : StoreRecord → StoreRecord) (hf : ∀ r, (f r).dump = r.dump)
    (h : ∀ r, st.record n = some r → r.programmed + r.remainder ≤ (f r).programmed + (f r).remainder) :
    st.covered m ≤ (st.updRecord n f).covered m := by
  rw [Store.covered_eq, Store.covered_eq, Store.record_updRecord st n m f hf]
  split
  · next hm =>
    subst hm
    cases hr : st.record m with
    | none => exact le_rfl
    | some r => exact h r hr
  · exact le_rfl

/-- A record with a block that its dump takes as its open block (R147). -/
noncomputable def StoreRecord.taking (r : StoreRecord) (b : Nat) : StoreRecord := { r with blocks := r.blocks ++ [b], openBlock := some b }

/-- A block given to a dump changes its records as a change of that dump's record does. -/
theorem Store.giveBlock_records (st : Store) (n : Num) (b : Nat) (f : StoreRecord → StoreRecord) :
    (st.giveBlock n b f).records = (st.updRecord n fun r => f (r.taking b)).records := by
  unfold Store.giveBlock
  dsimp only
  (repeat' split) <;> rfl

/-- Pages counted for a dump do not fall where a block is given to one whose record counts at least as many. -/
theorem Store.covered_giveBlock (st : Store) (n m : Num) (b : Nat) (f : StoreRecord → StoreRecord)
    (hf : ∀ r, (f r).dump = r.dump) (h : ∀ r, st.record n = some r →
      r.programmed + r.remainder ≤ (f (r.taking b)).programmed + (f (r.taking b)).remainder) :
    st.covered m ≤ (st.giveBlock n b f).covered m := by
  rw [Store.covered_congr (Store.giveBlock_records st n b f)]
  exact st.covered_updRecord n m (fun r => f (r.taking b)) (fun _ => hf _) h

@[simp] theorem Store.giveBlock_pool (st : Store) (n : Num) (b : Nat) (f : StoreRecord → StoreRecord) :
    (st.giveBlock n b f).pool = st.pool := by
  unfold Store.giveBlock
  dsimp only
  (repeat' split) <;> rfl

@[simp] theorem Store.giveBlock_waits (st : Store) (n : Num) (b : Nat) (f : StoreRecord → StoreRecord) :
    (st.giveBlock n b f).waits = st.waits := by
  unfold Store.giveBlock
  dsimp only
  (repeat' split) <;> rfl

/-- Waits stay covered where none is new and no record owes more. -/
theorem Store.WaitsCovered.of {x y : Store} (h : x.WaitsCovered) (hw : ∀ w ∈ y.waits, w ∈ x.waits)
    (hr : ∀ n r, y.record n = some r → ∃ q, x.record n = some q ∧ r.debt ≤ q.debt) : y.WaitsCovered := by
  intro w hm r hy
  obtain ⟨q, hq, hd⟩ := hr w.dump r hy
  have := h w (hw w hm) q hq
  split at this <;> split <;> simp_all
  omega

theorem Store.WaitsCovered.congr {x y : Store} (h : x.WaitsCovered) (hw : y.waits = x.waits) (hr : y.records = x.records) :
    y.WaitsCovered :=
  h.of (fun _ hm => hw ▸ hm) fun n r hy => ⟨r, (Store.record_congr hr n).symm.trans hy, le_rfl⟩

theorem Store.updRecord_debt (st : Store) (n m : Num) (f : StoreRecord → StoreRecord) (hf : ∀ r, (f r).dump = r.dump)
    (hd : ∀ r, (f r).debt ≤ r.debt) (r : StoreRecord) (h : (st.updRecord n f).record m = some r) :
    ∃ q, st.record m = some q ∧ r.debt ≤ q.debt := by
  rw [Store.record_updRecord st n m f hf] at h
  split at h
  · obtain ⟨q, hq, rfl⟩ := Option.map_eq_some_iff.1 h
    exact ⟨q, hq, hd q⟩
  · exact ⟨r, h, le_rfl⟩

theorem Store.giveBlock_debt (st : Store) (n m : Num) (b : Nat) (f : StoreRecord → StoreRecord)
    (hf : ∀ r, (f r).dump = r.dump) (hd : ∀ r, (f r).debt ≤ r.debt) (r : StoreRecord)
    (h : (st.giveBlock n b f).record m = some r) : ∃ q, st.record m = some q ∧ r.debt ≤ q.debt := by
  rw [Store.record_congr (Store.giveBlock_records st n b f)] at h
  exact st.updRecord_debt n m (fun r => f (r.taking b)) (fun _ => hf _) (fun q => hd (q.taking b)) r h

/-! ### Refills (R149, R152) -/

theorem RelocationWait.settle_dump (w : RelocationWait) (r : StoreRecord) : (w.settle r).dump = r.dump := by
  unfold RelocationWait.settle
  split <;> rfl

theorem RelocationWait.settle_debt (w : RelocationWait) (r : StoreRecord) : (w.settle r).debt ≤ r.debt := by
  unfold RelocationWait.settle
  split
  · exact Nat.zero_le _
  · exact le_rfl

/-- A wait that ends adds a block and takes away what was counted, which is at most a block. -/
theorem RelocationWait.settle_covers (w : RelocationWait) (r : StoreRecord)
    (h : w.counted + (if w.atTaking then r.debt else 0) ≤ 128) :
    r.programmed + r.remainder ≤ (w.settle r).programmed + (w.settle r).remainder := by
  unfold RelocationWait.settle
  split
  · next ht =>
    rw [if_pos ht] at h
    simp only [Config.blockPages]
    omega
  · next ht =>
    rw [if_neg ht] at h
    simp only [Config.blockPages]
    omega

/-- A wait that ends with a block counts at least as many pages for every dump, and the others stay covered. -/
theorem Store.WaitsCovered.settle {x y : Store} (h : x.WaitsCovered) {w : RelocationWait} {ws : List RelocationWait}
    (hx : x.waits = w :: ws) (hw : y.waits = ws) (hr : y.records = x.records) (b : Nat) :
    (∀ n, x.covered n ≤ (y.giveBlock w.dump b w.settle).covered n) ∧ (y.giveBlock w.dump b w.settle).WaitsCovered := by
  have hc := h w (by rw [hx]; exact List.mem_cons_self)
  refine ⟨fun n => ?_, h.of (fun v hv => ?_) fun n r hn => ?_⟩
  · rw [← Store.covered_congr hr]
    refine y.covered_giveBlock w.dump n b w.settle w.settle_dump fun r hy => w.settle_covers (r.taking b) (hc r ?_)
    rwa [← Store.record_congr hr]
  · rw [Store.giveBlock_waits, hw] at hv
    rw [hx]
    exact List.mem_cons_of_mem _ hv
  · rw [← Store.record_congr hr]
    exact y.giveBlock_debt w.dump n b w.settle w.settle_dump w.settle_debt r hn

theorem State.endWait_fall {s : State} (h : s.store.WaitsCovered) :
    s.ClaimsFall s.endWait ∧ s.endWait.store.WaitsCovered := by
  unfold State.endWait
  split
  · next w ws b bs hw hb =>
    obtain ⟨hc, hk⟩ := h.settle (y := { s.store with waits := ws, spares := bs }) hw rfl rfl b
    exact ⟨.of_store (fun _ => rfl) hc (by simp), hk⟩
  · exact ⟨.refl s, h⟩

/-- A block that the refill test lets out of the pool is not claimed (R149). -/
theorem State.refillOnce_claims {s t : State} (h : s.refillOnce = some t) :
    t.ClaimLaw ∧ t.store.waits = s.store.waits ∧ t.store.records = s.store.records
      ∧ t.store.pool.length + 1 = s.store.pool.length := by
  unfold State.refillOnce at h
  split at h
  · cases h
  · next b rest hp =>
    split at h
    · next hk =>
      cases h
      obtain ⟨-, hk⟩ := hk
      refine ⟨?_, rfl, rfl, by rw [hp]; rfl⟩
      rw [Store.poolPages_eq, hp, List.length_cons, Config.blockPages] at hk
      show s.claim .a + s.claim .b ≤ rest.length * 128
      omega
    · cases h

theorem State.refillOnce_none {s : State} (h : s.refillOnce = none) :
    s.store.pool = [] ∨ 2 ≤ s.store.spares.length ∨ 128 * s.store.pool.length < 128 + (s.claim .a + s.claim .b) := by
  unfold State.refillOnce at h
  split at h
  · next hp => exact .inl hp
  · split at h
    · cases h
    · next hk =>
      rw [Store.poolPages_eq, Config.blockPages] at hk
      omega

theorem refillLoop_claims (n : Nat) (s : State) (h : s.ClaimLaw) (hw : s.store.WaitsCovered) :
    (refillLoop n s).ClaimLaw := by
  induction n generalizing s with
  | zero => exact h
  | succ n ih =>
    unfold refillLoop
    split
    · next t ht =>
      obtain ⟨hl, hs, hr, -⟩ := State.refillOnce_claims ht
      obtain ⟨hf, hc⟩ := State.endWait_fall (hw.congr hs hr)
      exact ih _ (hl.fall hf) hc
    · exact h

theorem State.endWait_pool (s : State) : s.endWait.store.pool = s.store.pool := by
  unfold State.endWait
  split
  · simp
  · rfl

/-- A refill with fuel for every block of the pool stops for R149's reasons alone. -/
theorem refillLoop_stops (n : Nat) (s : State) (h : s.store.pool.length ≤ n) :
    (refillLoop n s).store.pool = [] ∨ 2 ≤ (refillLoop n s).store.spares.length
      ∨ 128 * (refillLoop n s).store.pool.length < 128 + ((refillLoop n s).claim .a + (refillLoop n s).claim .b) := by
  induction n generalizing s with
  | zero => exact .inl (List.length_eq_zero_iff.1 (Nat.le_zero.1 h))
  | succ n ih =>
    unfold refillLoop
    split
    · next t ht =>
      obtain ⟨-, -, -, hp⟩ := State.refillOnce_claims ht
      exact ih _ (by rw [State.endWait_pool]; omega)
    · next hn => exact State.refillOnce_none hn

theorem State.ClaimLaw.refill {s : State} (h : s.ClaimLaw) (hw : s.store.WaitsCovered) : s.refill.ClaimLaw :=
  refillLoop_claims _ s h hw

theorem State.ClaimLaw.refillIfFell {s : State} (h : s.ClaimLaw) (hw : s.store.WaitsCovered) (d : Dom) (before : Nat) :
    (s.refillIfFell d before).ClaimLaw := by
  unfold State.refillIfFell
  split
  · exact h.refill hw
  · exact h

/-! ### Passes (R42 to R53) -/

/-- A visit gives a share and leaves the rest of the budget's pages (R50 to R52). -/
theorem visit_pages (rd : Nat) (b : Budget) (x : SectionRecord) :
    (visit rd b x).share + (visit rd b x).budget.pages ≤ b.pages := by
  unfold visit
  split
  · next hw => exact (Nat.add_sub_of_le hw.1).le
  · split
    · next ht =>
      obtain ⟨-, -, hpos⟩ := ht
      exact (Nat.add_sub_of_le (truncatedLength_page hpos)).le
    · exact (Nat.zero_add _).le

/-- A walk gives shares out of the budget's pages alone (R49). -/
theorem walk_shares (rd : Nat) (b : Budget) (xs : List SectionRecord) (shares : List Nat) :
    (walk rd b xs shares).2.sum ≤ shares.sum + b.pages := by
  induction xs generalizing b shares with
  | nil => exact Nat.le_add_right _ _
  | cons x xs ih =>
    have hs : shares.headD 0 + shares.tail.sum = shares.sum := by
      cases shares <;> simp
    unfold walk
    split
    · have hv := visit_pages rd b x
      have hr := ih (visit rd b x).budget shares.tail
      simp only [List.sum_cons]
      omega
    · have hr := ih b shares.tail
      simp only [List.sum_cons]
      omega

theorem releaseShares_sum (xs : List SectionRecord) (shares : List Nat) : (releaseShares xs shares).sum ≤ shares.sum := by
  unfold releaseShares
  induction xs generalizing shares with
  | nil => exact Nat.zero_le _
  | cons x xs ih =>
    cases shares with
    | nil => exact le_rfl
    | cons n shares =>
      have := ih shares
      simp only [List.zipWith_cons_cons, List.sum_cons]
      split <;> omega

/-- Shares that grow by no more than the pages left over keep a claim within the pool: `t` pages stand beside the shares, `q`
of the dump's pages are programmed and `m` remain in its open block. -/
theorem claim_within {t a r w c p q m : Nat} (hr : r ≤ a) (hw : w ≤ r + (p + m - (c + (t + r - q))))
    (h : t + a - (q + m) + c ≤ p) : t + w - (q + m) + c ≤ p := by
  have hc : c ≤ p := le_of_add_le_right h
  rcases Nat.le_total (p + m) (c + (t + r - q)) with hle | hle
  · rw [Nat.sub_eq_zero_of_le hle] at hw
    exact (Nat.add_le_add_right (Nat.sub_le_sub_right (Nat.add_le_add_left (hw.trans hr) t) _) c).trans h
  · have hq : t + r ≤ t + r - q + q := Nat.sub_le_iff_le_add.1 le_rfl
    have hw' : w + (c + (t + r - q)) ≤ r + (p + m) :=
      (Nat.add_le_add_right hw _).trans (by rw [Nat.add_assoc, Nat.sub_add_cancel hle])
    generalize t + r - q = k at hq hw'
    refine Nat.add_le_of_le_sub hc (Nat.sub_le_iff_le_add.2 ?_)
    have : t + w + c ≤ p + (q + m) := by omega
    rw [← Nat.sub_add_comm hc]
    exact Nat.le_sub_of_add_le this

/-- A pass lets the domain claim what the pool leaves of the other's claim, or less than before (R47). -/
theorem State.ClaimLaw.pass {s : State} (h : s.ClaimLaw) (d : Dom) : (s.pass d).ClaimLaw := by
  rcases s.pass_eq d with hp | ⟨a, e, w, ha, -, hw, hp⟩
  · rwa [hp]
  · rw [State.claimLaw_iff _ d] at h ⊢
    have hother : (s.pass d).claim (otherDom d) = s.claim (otherDom d) := by
      have hadm : (s.pass d).admission (otherDom d) = s.admission (otherDom d) := by rw [hp]; simp
      unfold State.claim State.reservationOf
      rw [hadm, (by simp : (s.pass d).store = s.store)]
    have hself : (s.pass d).admission d = some { a with shares := w.2 } := by rw [hp]; simp
    have hwalk := walk_shares (s.rateDerate d)
        { pages := s.pagesAvailable d (s.reservationOf { a with shares := releaseShares e.sections a.shares })
            (s.store.remainder a.dump), time := s.timeAvailable d (s.rateDerate d) e } e.sections
        (releaseShares e.sections a.shares)
    have hrel := releaseShares_sum e.sections a.shares
    obtain ⟨k, hk⟩ := s.claim_blocks (otherDom d)
    rw [← hw] at hwalk
    rw [hother, State.claim_of hself, (by simp : (s.pass d).store = s.store)]
    rw [State.claim_of ha] at h
    simp only [State.pagesAvailable, State.reservationOf, Admission.total] at hwalk h ⊢
    rw [Store.poolPages_eq, hk] at hwalk h ⊢
    rw [roundBlocks_add_le_iff, Store.covered] at h ⊢
    exact claim_within hrel hwalk h

end Sys2Proof.Machine
end

