-- ==== Sys2Proof/Proofs/ClaimMoves.lean ====
section
/-! SUPPORT. The operations that move a claim or a block of the pool (R46, R47, R149 to R152), each after the rules of the claims. -/
namespace Sys2Proof.Machine

/-! ### Re-plans and harvest ends (R53, R76, R129) -/

theorem State.ClaimLaw.replan {s : State} (h : s.ClaimLaw) (d : Dom) : (s.replan d).ClaimLaw := by
  unfold State.replan
  split
  · exact h.pass d
  · exact h

theorem State.ClaimLaw.replanAll {s : State} (h : s.ClaimLaw) : s.replanAll.ClaimLaw := by
  unfold State.replanAll
  (repeat' split) <;> exact (h.replan _).replan _

/-- A harvest end releases shares, and leaves the store. -/
theorem State.endSections_fall (s : State) (d : Dom) (n : Num) (c : SectionCause) : s.ClaimsFall (s.endSections d n c) := by
  refine ⟨fun e y hy => ?_, by simp⟩
  rw [(by simp : (s.endSections d n c).store = s.store)]
  unfold State.endSections at hy
  dsimp only at hy
  simp only [channelsShort_frame, State.updDump_admission] at hy
  split at hy
  · next a x ha _ =>
    rw [State.setAdmission_admission] at hy
    split at hy
    · next he =>
      subst he
      cases hy
      have := releaseShares_sum x.sections a.shares
      refine ⟨a, ha, rfl, ?_, le_rfl⟩
      simp only [Admission.total]
      omega
    · exact ⟨y, hy, rfl, le_rfl, le_rfl⟩
  · exact ⟨y, hy, rfl, le_rfl, le_rfl⟩

theorem State.ClaimLaw.enterClosing {s : State} (h : s.ClaimLaw) (hw : s.store.WaitsCovered) (d : Dom) (cause : EndCause) :
    (s.enterClosing d cause).ClaimLaw := by
  unfold State.enterClosing
  dsimp only
  have h1 := h.fall (t := s.setDomain d { s.domain d with state := .closing, endCause := some cause })
    (.of_eq (fun _ => rfl) (by simp))
  split
  · exact h1
  · next n _ =>
    have h2 := h1.fall (t := (s.setDomain d { s.domain d with state := .closing, endCause := some cause }).updDump n
      fun e => { e with endCause := some cause }) (.of_eq (fun _ => rfl) rfl)
    refine State.ClaimLaw.replan (State.ClaimLaw.refillIfFell ?_ ?_ _ _) _
    · split
      · exact h2.fall (State.endSections_fall _ _ _ _)
      · exact h2
    · split <;> simpa using hw

/-- A complete harvest's end ends no section, so the claim stands and no refill is made (R149). -/
theorem State.enterClosing_complete_store (s : State) (d : Dom) : (s.enterClosing d .complete).store = s.store := by
  unfold State.enterClosing
  dsimp only
  split
  · simp
  · next n _ =>
    obtain ⟨u, hu⟩ : ∃ u, u = (s.setDomain d { s.domain d with state := .closing, endCause := some .complete }).updDump n
      fun e => { e with endCause := some .complete } := ⟨_, rfl⟩
    have hs : u.store = s.store := by rw [hu]; simp
    have hc : s.claim d ≤ u.claim d :=
      State.ClaimsFall.claim (s := u) (t := s) (.of_eq (fun e => by rw [hu]; simp) hs.symm) d
    simp only [EndCause.toSection, ← hu]
    rw [State.refillIfFell, if_neg (by omega)]
    simpa using hs

/-! ### Shares (R41) -/

theorem sum_set_of_lt (l : List Nat) (i n : Nat) (h : i < l.length) : (l.set i n).sum + l.getD i 0 = l.sum + n := by
  induction l generalizing i with
  | nil => exact absurd h (Nat.not_lt_zero i)
  | cons x l ih =>
    cases i with
    | zero => simp only [List.set_cons_zero, List.sum_cons, List.getD_cons_zero]; omega
    | succ i =>
      have := ih i (Nat.lt_of_succ_lt_succ h)
      simp only [List.set_cons_succ, List.sum_cons, List.getD_cons_succ]
      omega

theorem sum_set_le {l : List Nat} {i n : Nat} (h : n ≤ l.getD i 0) : (l.set i n).sum ≤ l.sum := by
  rcases Nat.lt_or_ge i l.length with hi | hi
  · have := sum_set_of_lt l i n hi
    omega
  · rw [List.set_eq_of_length_le hi]

theorem le_sum_set {l : List Nat} {i n : Nat} (h : l.getD i 0 ≤ n) : l.sum ≤ (l.set i n).sum := by
  rcases Nat.lt_or_ge i l.length with hi | hi
  · have := sum_set_of_lt l i n hi
    omega
  · rw [List.set_eq_of_length_le hi]

theorem State.setShare_admission (s : State) (d e : Dom) (i n : Nat) : (s.setShare d i n).admission e
    = if e = d then (s.admission d).map fun a => { a with shares := a.shares.set i n } else s.admission e := by
  unfold State.setShare
  split
  · next a ha => rw [State.setAdmission_admission, ha]; rfl
  · next ha =>
    split
    · next he => rw [he, ha]; rfl
    · rfl

theorem State.share_of {s : State} {d : Dom} {a : Admission} (h : s.admission d = some a) (i : Nat) :
    s.share d i = a.shares.getD i 0 := by
  unfold State.share
  rw [h]

/-- A share set to no more than it was lowers the claims. -/
theorem State.setShare_fall {s : State} {d : Dom} {i n : Nat} (h : n ≤ s.share d i) : s.ClaimsFall (s.setShare d i n) := by
  refine ⟨fun e y hy => ?_, by simp⟩
  rw [(by simp : (s.setShare d i n).store = s.store)]
  rw [State.setShare_admission] at hy
  split at hy
  · next he =>
    subst he
    obtain ⟨a, ha, rfl⟩ := Option.map_eq_some_iff.1 hy
    rw [State.share_of ha] at h
    have := sum_set_le h
    refine ⟨a, ha, rfl, ?_, le_rfl⟩
    simp only [Admission.total]
    omega
  · exact ⟨y, hy, rfl, le_rfl, le_rfl⟩

/-- A share set to no less than it was raises the claims. -/
theorem State.setShare_rise {s : State} {d : Dom} {i n : Nat} (h : s.share d i ≤ n) : (s.setShare d i n).ClaimsFall s := by
  refine ⟨fun e y hy => ?_, by simp⟩
  rw [(by simp : (s.setShare d i n).store = s.store), State.setShare_admission]
  split
  · next he =>
    subst he
    rw [State.share_of hy] at h
    have := le_sum_set h
    refine ⟨{ y with shares := y.shares.set i n }, by rw [hy]; rfl, rfl, ?_, le_rfl⟩
    simp only [Admission.total]
    omega
  · exact ⟨y, hy, rfl, le_rfl, le_rfl⟩

theorem State.completionTest_store (s : State) (d : Dom) : (s.completionTest d).store = s.store := by
  unfold State.completionTest
  (repeat' split)
  · exact s.enterClosing_complete_store d
  · rfl
  · rfl

/-- A section end that returns no page leaves the store: the claim does not fall, and no refill is made (R149). -/
theorem State.sectionEnded_store {s : State} {d : Dom} {n : Num} {i : Nat} {x : SectionRecord} (hx : s.sect n i = some x)
    (h : s.share d i ≤ endShare x.written) : (s.sectionEnded d n i).store = s.store := by
  have hc := (State.setShare_rise h).claim d
  unfold State.sectionEnded
  rw [hx]
  dsimp only
  rw [State.completionTest_store, State.refillIfFell, if_neg (by simpa using h), if_neg (by omega)]
  simp

/-! ### Programs (R147, R148, R151, R152) -/

/-- A page programmed counts as it did while its block still had it. -/
theorem State.pageProgrammed_fall (s : State) (k : PageKey) (a : Nat) : s.ClaimsFall (s.pageProgrammed k a) := by
  refine .of_store (fun _ => rfl) (fun n => ?_) le_rfl
  refine s.store.covered_updRecord k.dump n _ (by exact fun _ => rfl) fun r _ => ?_
  dsimp only
  omega

/-- A block taken from the pool for a dump that claims one leaves the claims within the pool (R46, R147). -/
theorem State.ClaimLaw.take {s t : State} (h : s.ClaimLaw) {d : Dom} {x : Admission} (hx : s.admission d = some x)
    (ha : ∀ e, t.admission e = s.admission e) (hc : ∀ n, s.store.covered n ≤ t.store.covered n)
    (hd : s.store.covered x.dump + 128 ≤ t.store.covered x.dump) (hp : s.store.pool.length = t.store.pool.length + 1)
    (hk : 128 ≤ s.claim d) : t.ClaimLaw := by
  rw [State.claimLaw_iff _ d] at h ⊢
  have hother : t.claim (otherDom d) ≤ s.claim (otherDom d) := by
    cases hy : s.admission (otherDom d) with
    | none => rw [State.claim_none ((ha _).trans hy)]; exact Nat.zero_le _
    | some y =>
      have := hc y.dump
      rw [State.claim_of ((ha _).trans hy), State.claim_of hy]
      exact roundBlocks_mono (Nat.sub_le_sub_left this _)
  obtain ⟨k, hk'⟩ := t.claim_blocks (otherDom d)
  have hroom : t.claim (otherDom d) ≤ t.store.poolPages := by
    refine Nat.le_of_add_le_add_left (a := 128) (((Nat.add_le_add hk hother).trans h).trans_eq ?_)
    rw [Store.poolPages_eq, Store.poolPages_eq, hp, Nat.add_mul, Nat.add_comm]
  rw [State.claim_of hx, Store.poolPages_eq] at h
  rw [State.claim_of ((ha d).trans hx), hk', Store.poolPages_eq, roundBlocks_add_le_iff, ← hk', ← Store.poolPages_eq]
  have hn := le_roundBlocks (x.total - s.store.covered x.dump)
  have hn' := (Nat.sub_le_sub_left hd x.total).trans_eq (Nat.sub_sub ..).symm
  rw [Store.poolPages_eq] at hroom ⊢
  generalize x.total - s.store.covered x.dump = n at h hn hn'
  generalize x.total - t.store.covered x.dump = m at hn' ⊢
  rcases Nat.le_total n 128 with hle | hge
  · exact (Nat.add_le_add_right (hn'.trans (Nat.sub_eq_zero_of_le hle).le) _).trans ((Nat.zero_add _).le.trans hroom)
  · have := Nat.add_le_of_le_sub hge hn'
    omega

theorem Store.place_pool {st : Store} {n : Num} {b : Nat} (h : st.place n = .pool b) :
    (∃ r, st.record n = some r) ∧ ∃ rest, st.pool = b :: rest := by
  unfold Store.place at h
  split at h
  · cases h
  · next r hr =>
    refine ⟨⟨r, hr⟩, ?_⟩
    dsimp only at h
    (repeat' split at h) <;> cases h
    all_goals exact ⟨_, by assumption⟩

/-- Pages counted for a dump whose changed record counts a block more. -/
theorem Store.covered_giveBlock_self {st : Store} {n : Num} {r : StoreRecord} (hr : st.record n = some r) (b k : Nat)
    (f : StoreRecord → StoreRecord) (hf : ∀ r, (f r).dump = r.dump)
    (h : r.programmed + r.remainder + k = (f (r.taking b)).programmed + (f (r.taking b)).remainder) :
    st.covered n + k = (st.giveBlock n b f).covered n := by
  rw [Store.covered_congr (Store.giveBlock_records st n b f), Store.covered_eq, Store.covered_eq,
    Store.record_updRecord st n n (fun r => f (r.taking b)) (fun _ => hf _), if_pos rfl, hr]
  exact h

theorem State.startProgram_pool {s : State} {i : Fin 8} {k : PageKey} {b : Nat} (h : s.ClaimLaw)
    (hb : s.store.place k.dump = .pool b) {d : Dom} {x : Admission} (hx : s.admission d = some x) (hn : x.dump = k.dump)
    (hk : 128 ≤ s.claim d) : (s.startProgram i (.page k)).ClaimLaw := by
  obtain ⟨⟨r, hr⟩, rest, hp⟩ := Store.place_pool hb
  unfold State.startProgram
  simp only [hb]
  refine h.take hx (fun _ => rfl) (fun n => ?_) (le_of_eq ?_) ?_ hk
  · exact Store.covered_giveBlock { s.store with programs := s.store.programs.erase (.page k), pool := s.store.pool.tail }
      k.dump n b (fun r => { r with remainder := r.remainder + Config.blockPages }) (fun _ => rfl)
      fun r _ => by simp only [StoreRecord.taking]; omega
  · rw [hn]
    exact Store.covered_giveBlock_self
      (st := { s.store with programs := s.store.programs.erase (.page k), pool := s.store.pool.tail }) hr b 128
      (fun r => { r with remainder := r.remainder + Config.blockPages }) (fun _ => rfl) rfl
  · simp [Store.fly, Store.setBlock, hp]

end Sys2Proof.Machine
end

