-- ==== Sys2Proof/Proofs/ClaimBlocks.lean ====
section
/-! SUPPORT. Programs that place no pool block, failures, erases, closes, releases and openings under the claims (R47, R148 to R155). -/
namespace Sys2Proof.Machine

/-! ### Changes that keep claims and waits -/

/-- A change under which no claim rises and the waits stay covered. -/
structure State.ClaimsKept (s t : State) : Prop extends s.ClaimsFall t where
  waits : s.store.WaitsCovered → t.store.WaitsCovered

theorem State.ClaimsKept.trans {s t u : State} (h : s.ClaimsKept t) (k : t.ClaimsKept u) : s.ClaimsKept u :=
  ⟨h.toClaimsFall.trans k.toClaimsFall, fun w => k.waits (h.waits w)⟩

/-- What a claim and a wait look at: the admission records, and the pool, the records and the waits of the store. -/
theorem State.ClaimsKept.of_eq {s t : State} (ha : ∀ d, t.admission d = s.admission d) (hp : t.store.pool = s.store.pool)
    (hr : t.store.records = s.store.records) (hw : t.store.waits = s.store.waits) : s.ClaimsKept t :=
  ⟨.of_store ha (fun n => le_of_eq (Store.covered_congr hr n).symm) (le_of_eq (by rw [hp])), fun h => h.congr hw hr⟩

/-- A dump's record changed so that it counts no fewer pages and owes no more. -/
theorem State.ClaimsKept.updRecord {s t : State} (n : Num) (f : StoreRecord → StoreRecord)
    (hx : t.store.records = (s.store.updRecord n f).records) (ha : ∀ d, t.admission d = s.admission d)
    (hp : t.store.pool = s.store.pool) (hw : t.store.waits = s.store.waits) (hf : ∀ r, (f r).dump = r.dump)
    (hd : ∀ r, (f r).debt ≤ r.debt) (hc : ∀ r, s.store.record n = some r →
      r.programmed + r.remainder ≤ (f r).programmed + (f r).remainder) : s.ClaimsKept t := by
  refine ⟨.of_store ha (fun m => ?_) (le_of_eq (by rw [hp])), fun h => h.of (fun w hm => hw ▸ hm) fun m r hm => ?_⟩
  · rw [Store.covered_congr hx]
    exact s.store.covered_updRecord n m f hf hc
  · rw [Store.record_congr hx] at hm
    exact s.store.updRecord_debt n m f hf hd r hm

theorem State.startStoreSave_claims (s : State) : s.ClaimsKept s.startStoreSave :=
  .of_eq (by simp) (by simp) (by simp) (by simp)

theorem State.retire_claims (s : State) (b : Nat) (n : Num) :
    s.ClaimsKept (s.retire b n) ∧ (s.retire b n).store.records = s.store.records
      ∧ (s.retire b n).store.waits = s.store.waits := by
  unfold State.retire
  split
  · refine ⟨.of_eq (by simp) ?_ ?_ ?_, ?_, ?_⟩ <;> simp [Store.setBlockState, Store.setBlock]
  · exact ⟨.of_eq (fun _ => rfl) rfl rfl rfl, rfl, rfl⟩

theorem Store.assignMarks_fields (st : Store) (b : Nat) (marks : List ProgramItem) :
    (st.assignMarks b marks).pool = st.pool ∧ (st.assignMarks b marks).records = st.records
      ∧ (st.assignMarks b marks).waits = st.waits := by
  unfold Store.assignMarks
  split <;> exact ⟨rfl, rfl, rfl⟩

/-! ### Programs that take no block of the pool (R147, R152) -/

/-- The record of a dump that settles its debt with a spare (R151). -/
noncomputable def StoreRecord.repaid (r : StoreRecord) : StoreRecord :=
  { r with remainder := r.remainder + Config.blockPages - r.debt, debt := 0 }

/-- A block given to a dump whose record then counts no fewer pages and owes no more. -/
theorem State.ClaimsKept.giveBlock {s t : State} (x : Store) (hr : x.records = s.store.records) (n : Num) (b : Nat)
    (f : StoreRecord → StoreRecord) (ht : t.store.records = (x.giveBlock n b f).records)
    (ha : ∀ d, t.admission d = s.admission d) (hxp : x.pool = s.store.pool) (hp : t.store.pool = (x.giveBlock n b f).pool)
    (hxw : x.waits = s.store.waits) (hw : t.store.waits = (x.giveBlock n b f).waits)
    (hf : ∀ r, (f r).dump = r.dump) (hd : ∀ r, (f r).debt ≤ r.debt) (hc : ∀ r, s.store.record n = some r →
      r.programmed + r.remainder ≤ (f (r.taking b)).programmed + (f (r.taking b)).remainder) : s.ClaimsKept t := by
  refine .updRecord n (fun r => f (r.taking b)) ?_ ha
    (by rw [hp, Store.giveBlock_pool, hxp]) (by rw [hw, Store.giveBlock_waits, hxw]) (fun _ => hf _)
    (fun r => hd (r.taking b)) hc
  rw [ht, Store.giveBlock_records, Store.updRecord, Store.updRecord, hr]

theorem State.ClaimLaw.kept {s t : State} (h : s.ClaimLaw) (k : s.ClaimsKept t) : t.ClaimLaw := h.fall k.toClaimsFall

theorem State.ClaimLaw.kept_refill {s t : State} (h : s.ClaimLaw) (hw : s.store.WaitsCovered) (k : s.ClaimsKept t) :
    t.refill.ClaimLaw := (h.kept k).refill (k.waits hw)

theorem Store.enterWait_fields (st : Store) (n : Num) (atTaking : Bool) (counted : Nat) :
    (st.enterWait n atTaking counted).pool = st.pool ∧ (st.enterWait n atTaking counted).records = st.records := by
  unfold Store.enterWait
  split <;> exact ⟨rfl, rfl⟩

/-- A program that takes no pool block: a debt settled with a spare leaves the dump what the block and its remainder hold
above the debt (R151). -/
theorem State.startProgram_other {s : State} (h : s.ClaimLaw) (hw : s.store.WaitsCovered) (i : Fin 8) (k : PageKey)
    (hd : ∀ r, s.store.record k.dump = some r → r.debt ≤ 128) (hp : ∀ b, s.store.place k.dump ≠ .pool b) :
    (s.startProgram i (.page k)).ClaimLaw := by
  unfold State.startProgram
  dsimp only
  split
  · exact h.kept (.of_eq (fun _ => rfl) (by rfl) (by rfl) (by rfl))
  · next b hb => exact absurd hb (hp b)
  · next b _ =>
    refine h.kept_refill hw (.giveBlock { s.store with
      programs := s.store.programs.erase (.page k), spares := s.store.spares.tail } rfl k.dump b StoreRecord.repaid (by rfl)
      (fun _ => rfl) rfl (by rfl) rfl (by rfl) (fun _ => rfl)
      (fun _ => Nat.zero_le _) fun r hr => ?_)
    have := hd r hr
    simp only [StoreRecord.taking, StoreRecord.repaid, Config.blockPages]
    omega
  · obtain ⟨hpool, hrec⟩ := s.store.enterWait_fields k.dump true 0
    exact h.fall (.of_store (fun _ => rfl) (fun n => le_of_eq (Store.covered_congr hrec n).symm) (le_of_eq (by rw [hpool])))
  · exact h

/-! ### Failures (R150, R151, R153) -/

/-- A dump that enters a wait with at most a block's pages counted leaves the waits covered (R152). -/
theorem Store.WaitsCovered.enter {st : Store} (h : st.WaitsCovered) {n : Num} (hn : st.isWaiting n = false) {k : Nat}
    (hk : k ≤ 128) : (st.enterWait n false k).WaitsCovered := by
  unfold Store.enterWait
  rw [if_neg (by simp [hn])]
  intro w hm r hr
  rcases List.mem_append.1 hm with hm | hm
  · exact h w hm r hr
  · rw [List.mem_singleton] at hm
    subst hm
    simpa using hk

theorem Store.isWaiting_congr {x y : Store} (h : x.waits = y.waits) (n : Num) : x.isWaiting n = y.isWaiting n := by
  unfold Store.isWaiting
  rw [h]

/-- The state in which a failed open block is withdrawn and its dump has no open block (R151, R153). -/
noncomputable def State.withdrawOpen (s : State) (k : PageKey) (b : Nat) : State :=
  { s.retire b k.dump with
    store := ((s.retire b k.dump).store.assignMarks b (s.store.markFor b)).updRecord k.dump
      fun r => { r with openBlock := none } }

theorem State.withdrawOpen_claims (s : State) (k : PageKey) (b : Nat) :
    s.ClaimsKept (s.withdrawOpen k b) ∧ (s.withdrawOpen k b).store.waits = s.store.waits := by
  obtain ⟨hret, -, hwait⟩ := s.retire_claims b k.dump
  obtain ⟨hpool, hrec, hwaits⟩ := (s.retire b k.dump).store.assignMarks_fields b (s.store.markFor b)
  refine ⟨hret.trans (.updRecord k.dump (fun r => { r with openBlock := none }) ?_ (fun _ => rfl) hpool hwaits
    (fun _ => rfl) (fun _ => le_rfl) fun _ _ => le_rfl), hwaits.trans hwait⟩
  simp only [State.withdrawOpen, Store.updRecord, hrec]

/-- The relocation of a page of the open block keeps counted what the block still had, in the block that follows or in a
wait (R151, R152). -/
theorem State.relocateOpen_claims {s : State} (h : s.ClaimLaw) (hw : s.store.WaitsCovered) (k : PageKey) (b : Nat)
    (hp : 1 ≤ (s.store.block b).nextPage) (hk : s.store.isWaiting k.dump = false) : (s.relocateOpen k b).ClaimLaw := by
  obtain ⟨hus, huw⟩ := s.withdrawOpen_claims k b
  rw [← Store.isWaiting_congr huw] at hk
  have hlost : Config.blockPages - (s.store.block b).nextPage + 1 ≤ 128 := by rw [Config.blockPages]; omega
  unfold State.relocateOpen
  dsimp only
  generalize Config.blockPages - (s.store.block b).nextPage + 1 = lost at hlost
  split
  · next x xs _ =>
    refine h.kept_refill hw (hus.trans (.giveBlock { (s.withdrawOpen k b).store with spares := xs } rfl k.dump x
      (fun r => { r with remainder := r.remainder - lost + Config.blockPages }) (by rfl) (fun _ => rfl)
      rfl (by rfl) rfl (by rfl) (fun _ => rfl) (fun _ => le_rfl) fun r _ => ?_))
    simp only [StoreRecord.taking, Config.blockPages]
    omega
  · obtain ⟨hpe, hre⟩ := (s.withdrawOpen k b).store.enterWait_fields k.dump false lost
    refine h.kept_refill hw (hus.trans ⟨.of_store (fun _ => rfl) (fun n => le_of_eq (Store.covered_congr hre n).symm)
      (le_of_eq (congrArg List.length hpe).symm), fun hc => ?_⟩)
    exact (hc.enter hk hlost).congr rfl rfl

theorem State.relocateOther_claims (s : State) (k : PageKey) (b : Nat) : s.ClaimsFall (s.relocateOther k b) := by
  unfold State.relocateOther
  dsimp only
  generalize hu : (if ((s.store.block b).state == .full) = true then s.retire b k.dump else s) = u
  generalize (if ((s.store.block b).state == .full) = true then s.store.markFor b else []) = marks
  have hus : s.ClaimsFall u := by
    rw [← hu]
    split
    · exact (s.retire_claims b k.dump).1.toClaimsFall
    · exact .refl s
  obtain ⟨hpool, hrec, -⟩ := u.store.assignMarks_fields b marks
  refine hus.trans (.of_store (fun _ => rfl) (fun n => ?_) (le_of_eq (congrArg List.length hpool).symm))
  rw [← Store.covered_congr hrec]
  exact Store.covered_updRecord _ k.dump n _ (by exact fun _ => rfl) (by exact fun _ _ => le_rfl)

theorem State.recordStoreRetire_fall (s : State) (d : Dom) (b : Nat) (n : Num) (full : Bool) :
    s.ClaimsFall (s.recordStoreRetire d b n full) :=
  .of_eq (fun _ => rfl) rfl

/-- The relocation of a failed page, of the open block or of another (R151). -/
theorem State.relocation_claims {s : State} (h : s.ClaimLaw) (hw : s.store.WaitsCovered) (k : PageKey) (b : Nat)
    (ho : ∀ r, s.store.record k.dump = some r → r.openBlock = some b →
      1 ≤ (s.store.block b).nextPage ∧ s.store.isWaiting k.dump = false) :
    (if (s.store.record k.dump).bind StoreRecord.openBlock = some b then s.relocateOpen k b
      else s.relocateOther k b).ClaimLaw := by
  split
  · next hb =>
    obtain ⟨r, hr, hopen⟩ := Option.bind_eq_some_iff.1 hb
    obtain ⟨hpage, hwait⟩ := ho r hr hopen
    exact State.relocateOpen_claims h hw k b hpage hwait
  · exact h.fall (s.relocateOther_claims k b)

theorem State.programFailure_claims {s : State} (h : s.ClaimLaw) (hw : s.store.WaitsCovered) (k : PageKey) (a : Nat)
    (ho : ∀ r, s.store.record k.dump = some r → r.openBlock = some (a / 128) →
      1 ≤ (s.store.block (a / 128)).nextPage ∧ s.store.isWaiting k.dump = false) :
    (s.programFailure (.page k) a).ClaimLaw := by
  unfold State.programFailure
  dsimp only
  refine State.ClaimLaw.fall ?_ (State.recordStoreRetire_fall _ _ _ _ _)
  exact State.relocation_claims (s := { s with
      flash := s.flash.put a .unreadable, store := { s.store with programFailures := s.store.programFailures.inc } })
    (h.kept (.of_eq (fun _ => rfl) rfl rfl rfl)) (hw.congr rfl rfl) k (a / 128) ho

/-! ### Erases (R150) -/

/-- An erase puts its block into the pool or leaves it out for good; the claims stand. -/
theorem State.eraseDone_claims {s : State} (h : s.ClaimLaw) (hw : s.store.WaitsCovered) (b : Nat) (withheld : Bool) :
    (s.eraseDone b withheld).ClaimLaw := by
  unfold State.eraseDone
  dsimp only
  refine State.ClaimLaw.replanAll (h.kept_refill hw ⟨.of_store (fun _ => rfl) ?_ ?_, fun hc => hc.congr ?_ ?_⟩)
  all_goals cases withheld
  all_goals simp [Store.clearEraseGates, Store.setBlock]
  all_goals exact fun n => le_rfl

end Sys2Proof.Machine
end

