-- ==== Sys2Proof/Proofs/ClaimLaw.lean ====
section
/-! SUPPORT. The close, the release and the opening of a dump under the claims (R47, R48, R126, R132, R155), and O14. -/
namespace Sys2Proof.Machine

/-! ### The close of a dump (R132, R147, R149) -/

theorem Store.closeDump_fields (st : Store) (n : Num) : (st.closeDump n).pool = st.pool ∧ (st.closeDump n).waits = st.waits
    ∧ (st.closeDump n).records = (st.updRecord n fun r => { r with openBlock := none, remainder := 0, debt := 0 }).records := by
  unfold Store.closeDump
  dsimp only
  split <;> exact ⟨rfl, rfl, rfl⟩

/-- A dump's close leaves the records of the other dumps. -/
theorem Store.closeDump_record (st : Store) {n m : Num} (h : m ≠ n) : (st.closeDump n).record m = st.record m := by
  rw [Store.record_congr (st.closeDump_fields n).2.2, Store.record_updRecord st n m _ (by exact fun _ => rfl), if_neg h]

/-- The claim of a dump that closes is gone, and the others stand. -/
theorem State.close_claims {s t : State} {d : Dom} {n : Num} (hn : t.admission d = none)
    (ho : t.admission (otherDom d) = s.admission (otherDom d)) (hx : ∀ x, s.admission (otherDom d) = some x → x.dump ≠ n)
    (ht : t.store = s.store.closeDump n) : s.ClaimsKept t := by
  obtain ⟨hpool, hwaits, hrec⟩ := s.store.closeDump_fields n
  refine ⟨⟨fun e y hy => ?_, by rw [ht, hpool]⟩, fun h => h.of (fun w hm => ?_) fun m r hm => ?_⟩
  · rcases dom_eq_or d e with rfl | rfl
    · rw [hn] at hy
      cases hy
    · rw [ho] at hy
      refine ⟨y, hy, rfl, le_rfl, le_of_eq ?_⟩
      rw [ht, Store.covered_eq, Store.covered_eq, Store.closeDump_record _ (hx y hy)]
  · rwa [ht, hwaits] at hm
  · rw [ht, Store.record_congr hrec] at hm
    exact s.store.updRecord_debt n m _ (by exact fun _ => rfl) (by exact fun _ => Nat.zero_le _) r hm

theorem State.closeReports_fall (s : State) (d : Dom) (j : Journal) (w : Work) :
    s.ClaimsFall ((s.setJournal d j).setWork d w) := .of_eq (fun _ => rfl) rfl

theorem State.closedReport_fall (s : State) (d : Dom) (n : Num) (cause : Option EndCause) (check : BitVec 32) (pages : Nat)
    (f : DumpEntry → DumpEntry) : s.ClaimsFall
      ((((s.recordDumpClosed d n cause check).noticeDumpClosed d n cause check pages).closedReport d).updDump n f) :=
  .of_eq (by simp [State.closedReport, State.recordDumpClosed]) (by simp [State.closedReport, State.recordDumpClosed])

theorem State.ClaimLaw.dumpClosed {s : State} (h : s.ClaimLaw) (hw : s.store.WaitsCovered) (d : Dom) (n : Num)
    (hx : ∀ x, s.admission (otherDom d) = some x → x.dump ≠ n) : (s.dumpClosed d n).ClaimLaw := by
  unfold State.dumpClosed
  split
  · exact h
  · next e _ =>
    dsimp only
    have hk : s.ClaimsKept ({ s.updDump n fun x => { x with state := .closed, manifestCheck := some e.checkOfManifest } with
        store := s.store.closeDump n }.setAdmission d none) := State.close_claims (by simp) (by simp) hx rfl
    refine State.ClaimLaw.replan (State.ClaimLaw.fall ((h.kept hk).refillIfFell (hk.waits hw) d _)
      ((State.closeReports_fall _ d _ _).trans (State.closedReport_fall _ d n _ _ _ _))) _

/-! ### The release of a dump (R139, R155) -/

theorem Store.handOver_fields (st : Store) (g : Option Gate) (b : Nat) :
    (st.handOver g b).pool = st.pool ∧ (st.handOver g b).records = st.records := by
  unfold Store.handOver
  dsimp only
  split <;> exact ⟨rfl, rfl⟩

theorem handOvers_fields (g : Option Gate) (bs : List Nat) (st : Store) :
    (bs.foldl (fun st b => st.handOver g b) st).pool = st.pool
      ∧ (bs.foldl (fun st b => st.handOver g b) st).records = st.records := by
  induction bs generalizing st with
  | nil => exact ⟨rfl, rfl⟩
  | cons b bs ih =>
    obtain ⟨hp, hr⟩ := st.handOver_fields g b
    obtain ⟨hq, hs⟩ := ih (st.handOver g b)
    exact ⟨hq.trans hp, hs.trans hr⟩

/-- A release drops one dump's record and moves no block of the pool. -/
theorem State.releaseBlocks_fields (s : State) (n : Num) : (s.releaseBlocks n).store.pool = s.store.pool
    ∧ ∀ m, m ≠ n → (s.releaseBlocks n).store.record m = s.store.record m := by
  have hfilter : ∀ l : List StoreRecord, ∀ m, m ≠ n →
      (l.filter fun x => decide (x.dump ≠ n)).find? (fun r => r.dump == m) = l.find? fun r => r.dump == m := by
    intro l m hm
    rw [List.find?_filter]
    congr 1
    funext r
    by_cases h : r.dump = m
    · simp [h, hm]
    · simp [h]
  unfold State.releaseBlocks
  split
  · exact ⟨rfl, fun _ _ => rfl⟩
  · next r _ =>
    split
    · exact ⟨rfl, fun m hm => hfilter _ m hm⟩
    · next b bs _ =>
      dsimp only
      obtain ⟨hp, hr⟩ := s.store.handOver_fields none b
      obtain ⟨hq, hs⟩ := handOvers_fields (some (if s.store.goesDirty b then Gate.erase b else .save b)) bs
        (s.store.handOver none b)
      split
      all_goals
        refine ⟨?_, fun m hm => ?_⟩
        · simpa using hq.trans hp
        · simp only [Store.record, State.startStoreSave_frame]
          rw [hs, hr]
          exact hfilter _ m hm

theorem State.ClaimLaw.releaseDump {s : State} (h : s.ClaimLaw) (n : Num) (hx : ∀ d x, s.admission d = some x → x.dump ≠ n) :
    (s.releaseDump n).ClaimLaw := by
  unfold State.releaseDump
  dsimp only
  generalize hu : ({ s with directory := { s.directory with
    entries := s.directory.entries.filter fun e => e.number ≠ n } } : State) = u
  have hs : u.store = s.store := by rw [← hu]
  have ha : ∀ d, u.admission d = s.admission d := by rw [← hu]; exact fun _ => rfl
  obtain ⟨hp, hr⟩ := u.releaseBlocks_fields n
  refine State.ClaimLaw.replanAll (h.fall ⟨fun d y hy => ?_, le_of_eq ?_⟩)
  · have hy' : s.admission d = some y := by
      rw [← ha, ← hy]
      exact (by simp : u.admission d = (u.releaseBlocks n).admission d)
    refine ⟨y, hy', rfl, le_rfl, le_of_eq ?_⟩
    rw [Store.covered_eq, Store.covered_eq, ← hs, ← hr _ (hx d y hy')]
  · rw [← hs, ← hp]

/-! ### The opening of a dump (R48, R126) -/

theorem State.spaceFor_of_opening {s : State} {d : Dom} (h : s.openingFailure d = none) :
    s.claim (otherDom d) + 61 ≤ s.store.poolPages := by
  unfold State.openingFailure at h
  split at h
  · cases h
  · split at h
    · cases h
    · split at h
      · next hs =>
        have hp := of_decide_eq_true hs
        simp only [State.pagesAvailable, Config.systemReserve] at hp
        omega
      · cases h

theorem Admission.opening_total (n : Num) (k : Nat) : (Admission.opening n k).total = 61 := by
  simp [Admission.total, Admission.opening]

/-- The system reserve fits the block that the space test finds free (R44, R48). -/
theorem State.opening_claims {s t : State} {d : Dom} {n : Num} {k : Nat}
    (h : s.claim (otherDom d) + 61 ≤ s.store.poolPages) (hd : t.admission d = some (Admission.opening n k))
    (ho : t.admission (otherDom d) = s.admission (otherDom d)) (hp : t.store.pool = s.store.pool)
    (hc : ∀ m, s.store.covered m ≤ t.store.covered m) : t.ClaimLaw := by
  rw [State.claimLaw_iff _ d, State.claim_of hd, Admission.opening_total]
  have hother : t.claim (otherDom d) ≤ s.claim (otherDom d) := by
    cases hy : s.admission (otherDom d) with
    | none => rw [State.claim_none (ho.trans hy)]; exact Nat.zero_le _
    | some y =>
      have := hc y.dump
      rw [State.claim_of (ho.trans hy), State.claim_of hy]
      exact roundBlocks_mono (Nat.sub_le_sub_left this _)
  obtain ⟨j, hj⟩ := t.claim_blocks (otherDom d)
  rw [hj] at hother ⊢
  rw [Store.poolPages_eq, roundBlocks_add_le_iff, hp, Nat.add_comm, ← Store.poolPages_eq]
  exact (Nat.add_le_add hother (Nat.sub_le _ _)).trans h

theorem State.addDump_covered (s : State) (d : Dom) (t : TriggerEntry) (m : Num) :
    s.store.covered m ≤ (s.addDump d t).store.covered m := by
  rw [Store.covered_eq, Store.covered_eq]
  simp only [State.addDump, Store.record, List.find?_append]
  cases s.store.records.find? fun r => r.dump == m with
  | none => exact Nat.zero_le _
  | some r => exact le_rfl

theorem State.openDump_claims {s : State} {d : Dom} (h : s.claim (otherDom d) + 61 ≤ s.store.poolPages) (t : TriggerEntry) :
    (s.openDump d t).ClaimLaw := by
  unfold State.openDump
  refine State.ClaimLaw.pass (State.opening_claims h (by simp; rfl) ?_ ?_ fun m => ?_) d
  · simp [State.addDump]
  · simp [State.addDump]
  · simpa using s.addDump_covered d t m

theorem State.noticeOpened_fall (s : State) (d : Dom) (x : Domain) (cause : TriggerCause) (n : Num) (g : BitVec 16) :
    s.ClaimsFall ((s.setDomain d x).noticeOpened d cause n g) := .of_eq (by simp) (by simp)

theorem State.setDomain_claim (s : State) (d e : Dom) (x : Domain) : (s.setDomain d x).claim e = s.claim e := by
  simp only [State.claim, State.reservationOf, State.setDomain_admission, State.setDomain_store]

theorem State.ClaimLaw.openingSucceeds {s : State} {d : Dom} (h : s.openingFailure d = none) (cause : TriggerCause)
    (code : Option (BitVec 32)) : (s.openingSucceeds d cause code).ClaimLaw := by
  unfold State.openingSucceeds
  dsimp only
  refine State.ClaimLaw.replan (State.ClaimLaw.fall (State.openDump_claims ?_ _) (State.noticeOpened_fall _ d _ cause _ _)) _
  rw [State.setDomain_claim, State.setDomain_store]
  exact State.spaceFor_of_opening h

/-- Settles O14: every operation by the rule of the change it makes, with R149's test where a refill follows. -/
theorem claimsStayCovered : Obligations.ClaimsStayCovered := by
  unfold Obligations.ClaimsStayCovered
  intro s h hw
  refine ⟨h.refill hw, h.replanAll, fun d => ⟨h.pass d, h.replan d⟩, fun d cause => h.enterClosing hw d cause,
    fun d i n hn => h.fall (State.setShare_fall hn), fun k a => h.fall (s.pageProgrammed_fall k a), ?_,
    fun i k hd hp => State.startProgram_other h hw i k hd hp, fun k a ho => State.programFailure_claims h hw k a ho,
    fun b withheld => State.eraseDone_claims h hw b withheld, fun d n hx => h.dumpClosed hw d n hx,
    fun n hx => h.releaseDump n hx, fun d cause code ho => .openingSucceeds ho cause code,
    refillLoop_stops _ s le_rfl, ?_, s.enterClosing_complete_store⟩
  · rintro i k b hb ⟨d, x, hx, hn, hk⟩
    exact State.startProgram_pool h hb hx hn hk
  · intro d n i x hx hs
    exact State.sectionEnded_store hx hs

end Sys2Proof.Machine
end

