-- ==== Sys2Proof/Proofs/SectionFrames.lean ====
section
/-! SUPPORT. What keeps the section law of itself (R51, R57, R66, R73, R90): the moves of a state in which no channel gets on
with its section.  A move leaves a channel's section, its front and its reads outstanding, takes positions, copies and
requests away but adds none that fills a section, and changes a section record only as its own law allows. -/
namespace Sys2Proof.Machine

/-! ### The directory's numbers and its open dumps -/

/-- What the section law needs of the directory (R2, R121, R122): numbers given once and below the next, and every open
dump an OPEN entry of its domain, none of them before start-up ends. -/
structure State.Filed (s : State) : Prop where
  numbers : (s.directory.entries.map DumpEntry.number).Nodup
  next : ∀ e ∈ s.directory.entries, e.number < s.directory.nextNumber
  openHeld : ∀ d n, (s.domain d).openDump = some n →
    ∃ e ∈ s.directory.entries, e.number = n ∧ e.domain = d ∧ e.state = .opened
  starting : s.startUp ≠ .finished → ∀ d, (s.domain d).openDump = none

theorem State.DomainLaw.openDump_none {s : State} (h : s.DomainLaw) {d : Dom} (hb : (s.domain d).busy = false) :
    (s.domain d).openDump = none := by
  have := (h.domains d).openDump
  rw [hb] at this
  simpa using this

theorem State.DomainLaw.starting_openDump {s : State} (h : s.DomainLaw) (hs : s.startUp ≠ .finished) (d : Dom) :
    (s.domain d).openDump = none :=
  h.openDump_none ((Domain.busy_eq_false_iff _).2 (.inl (h.starting hs d)))

theorem State.DirectoryLaw.filed {s : State} (h : s.DirectoryLaw) (hd : s.DomainLaw) : s.Filed := by
  refine ⟨?_, h.next, h.openHeld, hd.starting_openDump⟩
  rw [List.Nodup, List.pairwise_map]
  exact h.rising.imp fun hlt he => by rw [he] at hlt; exact absurd hlt (by simp)

theorem State.Filed.ext {s : State} (h : s.Filed) {e f : DumpEntry} (he : e ∈ s.directory.entries)
    (hf : f ∈ s.directory.entries) (hn : e.number = f.number) : e = f :=
  List.inj_on_of_nodup_map h.numbers he hf hn

/-- The directory finds every entry by its number. -/
theorem State.Filed.dump_of_mem {s : State} (h : s.Filed) {e : DumpEntry} (he : e ∈ s.directory.entries) :
    s.dump e.number = some e := by
  cases hd : s.dump e.number with
  | none => exact absurd (List.find?_eq_none.1 hd e he) (by simp)
  | some f => rw [h.ext (List.mem_of_find?_eq_some hd) he (by simpa using List.find?_some hd)]

theorem State.mem_of_dump {s : State} {n : Num} {e : DumpEntry} (h : s.dump n = some e) :
    e ∈ s.directory.entries ∧ e.number = n :=
  ⟨List.mem_of_find?_eq_some h, by simpa using List.find?_some h⟩

/-- A domain's open dump is an OPEN entry of its own, found by its number. -/
theorem State.Filed.openEntry {s : State} (h : s.Filed) {d : Dom} {e : DumpEntry} (he : s.openEntry d = some e) :
    e ∈ s.directory.entries ∧ (s.domain d).openDump = some e.number ∧ e.domain = d ∧ e.state = .opened := by
  unfold State.openEntry at he
  split at he
  · next n hn =>
    obtain ⟨hm, rfl⟩ := State.mem_of_dump he
    obtain ⟨f, hf, hfn, hfd, hfs⟩ := h.openHeld d _ hn
    cases h.ext hf hm hfn
    exact ⟨hm, hn, hfd, hfs⟩
  · cases he

theorem State.sect_of_dump {s : State} {n : Num} {e : DumpEntry} (h : s.dump n = some e) (i : Nat) :
    s.sect n i = e.sections[i]? := by
  simp [State.sect, h, DumpEntry.sect]

theorem State.sect_eq_some {s : State} {n : Num} {i : Nat} {x : SectionRecord} :
    s.sect n i = some x ↔ ∃ e, s.dump n = some e ∧ e.sections[i]? = some x := by
  unfold State.sect DumpEntry.sect
  cases s.dump n <;> simp

/-- What a directory keeps of its numbers, domains and states keeps it filed. -/
theorem State.Filed.of_still {s t : State} (h : s.Filed) (hd : t.directory.still = s.directory.still)
    (ho : ∀ d, (t.domain d).openDump = (s.domain d).openDump) (hu : t.startUp = s.startUp) : t.Filed := by
  have hn : t.directory.nextNumber = s.directory.nextNumber := by simpa using congrArg Directory.nextNumber hd
  have he : t.directory.entries.map DumpEntry.still = s.directory.entries.map DumpEntry.still :=
    congrArg Directory.entries hd
  have hm (f : DumpEntry) : f ∈ t.directory.entries → ∃ e ∈ s.directory.entries, e.still = f.still := by
    intro hf
    have : f.still ∈ s.directory.entries.map DumpEntry.still := he ▸ List.mem_map_of_mem hf
    simpa using List.mem_map.1 this
  have hm' (e : DumpEntry) : e ∈ s.directory.entries → ∃ f ∈ t.directory.entries, f.still = e.still := by
    intro hf
    have : e.still ∈ t.directory.entries.map DumpEntry.still := he ▸ List.mem_map_of_mem hf
    simpa using List.mem_map.1 this
  refine ⟨?_, fun f hf => ?_, fun d n hdn => ?_, fun hs d => by rw [ho]; exact h.starting (hu ▸ hs) d⟩
  · have := congrArg (List.map DumpEntry.number) he
    simp only [List.map_map] at this
    have hc : DumpEntry.number ∘ DumpEntry.still = DumpEntry.number := rfl
    rw [hc] at this
    rw [this]
    exact h.numbers
  · obtain ⟨e, hes, hst⟩ := hm f hf
    have hnum : e.number = f.number := by simpa using congrArg DumpEntry.number hst
    rw [hn, ← hnum]
    exact h.next e hes
  · obtain ⟨e, hes, rfl, rfl, hso⟩ := h.openHeld d n (ho d ▸ hdn)
    obtain ⟨f, hf, hst⟩ := hm' e hes
    refine ⟨f, hf, ?_, ?_, ?_⟩
    · simpa using congrArg DumpEntry.number hst
    · simpa using congrArg DumpEntry.domain hst
    · simpa [hso] using congrArg DumpEntry.state hst

/-! ### Moves of the parts -/

/-- A section record changed as its own law allows: a fixed section keeps its admitted length and stays taken up, and an
ACTIVE region is left with its channel. -/
structure SectionRecord.Moves (x y : SectionRecord) : Prop where
  index : y.index = x.index
  kind : y.kind = x.kind
  lawful : x.Lawful → y.Lawful
  fixed : x.kind ≠ .region → y.admitted = x.admitted
    ∧ (x.state ≠ .pending → x.state ≠ .skipped → y.state ≠ .pending ∧ y.state ≠ .skipped)
  active : x.kind = .region → x.state = .active → y.state = .active ∧ y.admitted = x.admitted ∧ y.written = x.written

theorem SectionRecord.Moves.refl (x : SectionRecord) : x.Moves x :=
  ⟨rfl, rfl, id, fun _ => ⟨rfl, fun h k => ⟨h, k⟩⟩, fun _ h => ⟨h, rfl, rfl⟩⟩

theorem SectionRecord.Moves.trans {x y z : SectionRecord} (h : x.Moves y) (k : y.Moves z) : x.Moves z where
  index := k.index.trans h.index
  kind := k.kind.trans h.kind
  lawful := k.lawful ∘ h.lawful
  fixed hr := by
    obtain ⟨ha, hs⟩ := h.fixed hr
    obtain ⟨ka, ks⟩ := k.fixed (h.kind ▸ hr)
    exact ⟨ka.trans ha, fun h1 h2 => ks (hs h1 h2).1 (hs h1 h2).2⟩
  active hr ha := by
    obtain ⟨h1, h2, h3⟩ := h.active hr ha
    obtain ⟨k1, k2, k3⟩ := k.active (h.kind.trans hr) h1
    exact ⟨k1, k2.trans h2, k3.trans h3⟩

theorem SectionRecord.Moves.fills {x y : SectionRecord} (h : x.Moves y) {n : Nat} (hf : x.fills n) : y.fills n := by
  obtain ⟨hk, hp, hs, hn⟩ := hf
  obtain ⟨ha, ht⟩ := h.fixed hk
  exact ⟨h.kind ▸ hk, (ht hp hs).1, (ht hp hs).2, ha ▸ hn⟩

/-- A dump's entry changed, its sections each by a move; it may close. -/
structure DumpEntry.Moves (e f : DumpEntry) : Prop where
  number : f.number = e.number
  state : f.state = .opened → e.state = .opened
  count : f.sections.length = e.sections.length
  sections : ∀ (i : Nat) (y : SectionRecord), f.sections[i]? = some y → ∃ x, e.sections[i]? = some x ∧ x.Moves y

theorem DumpEntry.Moves.of_sections {e f : DumpEntry} (hn : f.number = e.number)
    (hs : f.state = .opened → e.state = .opened) (h : f.sections = e.sections) : e.Moves f :=
  ⟨hn, hs, by rw [h], fun i y hy => ⟨y, by rw [← h]; exact hy, .refl y⟩⟩

theorem DumpEntry.Moves.refl (e : DumpEntry) : e.Moves e := .of_sections rfl id rfl

theorem DumpEntry.Moves.trans {e f g : DumpEntry} (h : e.Moves f) (k : f.Moves g) : e.Moves g := by
  refine ⟨k.number.trans h.number, h.state ∘ k.state, k.count.trans h.count, fun i z hz => ?_⟩
  obtain ⟨y, hy, hyz⟩ := k.sections i z hz
  obtain ⟨x, hx, hxy⟩ := h.sections i y hy
  exact ⟨x, hx, hxy.trans hyz⟩

/-- One section of an entry changed by a move. -/
theorem DumpEntry.Moves.modify (e : DumpEntry) (i : Nat) (g : SectionRecord → SectionRecord)
    (h : ∀ x, e.sections[i]? = some x → x.Moves (g x)) : e.Moves { e with sections := e.sections.modify i g } := by
  refine ⟨rfl, id, by simp, fun k y hy => ?_⟩
  simp only [List.getElem?_modify] at hy
  cases hx : e.sections[k]? with
  | none => rw [hx] at hy; cases hy
  | some x =>
    rw [hx] at hy
    refine ⟨x, rfl, ?_⟩
    simp only [Option.map_eq_map, Option.map_some, Option.some.injEq] at hy
    split at hy
    · next hik => subst hik; exact hy ▸ h x hx
    · exact hy ▸ .refl x

/-- What an entry that has moved keeps of its fixed sections (R124). -/
theorem DumpEntry.Moves.fixed {e f : DumpEntry} (h : e.Moves f) {l : List (SectionKind × Nat)}
    (hl : ∀ p ∈ l, p.1 ≠ .region) (he : (e.sections.take 3).map (fun x => (x.kind, x.admitted)) = l) :
    (f.sections.take 3).map (fun x => (x.kind, x.admitted)) = l := by
  rw [← he]
  apply List.ext_getElem?
  intro i
  simp only [List.getElem?_map, List.getElem?_take]
  split
  · next hi =>
    cases hy : f.sections[i]? with
    | none =>
      have := h.count
      rw [List.getElem?_eq_none_iff] at hy
      rw [List.getElem?_eq_none_iff.2 (by omega)]
    | some y =>
      obtain ⟨x, hx, hm⟩ := h.sections i y hy
      have hk : x.kind ≠ .region := by
        refine hl (x.kind, x.admitted) ?_
        rw [← he]
        refine List.mem_map.2 ⟨x, List.mem_of_getElem? (i := i) ?_, rfl⟩
        rw [List.getElem?_take, if_pos hi, hx]
      rw [hx]
      simp [hm.kind, (hm.fixed hk).1]
  · rfl

/-- A channel that stays with its section, or without one, and keeps its reads outstanding in hand. -/
structure Channel.Moves (x y : Channel) : Prop where
  job : y.job = x.job
  idle : y.state = .idle → x.state = .idle
  fetchPos : y.fetchPos = x.fetchPos
  handled : y.handled = x.handled
  above : y.above = x.above
  holesAbove : y.holesAbove = x.holesAbove
  hand : y.hand.Sublist x.hand
  outstanding : ∀ r ∈ x.hand, r.outstanding = true → r ∈ y.hand

theorem Channel.Moves.refl (x : Channel) : x.Moves x := ⟨rfl, id, rfl, rfl, rfl, rfl, .refl _, fun _ h _ => h⟩

theorem Channel.Moves.trans {x y z : Channel} (h : x.Moves y) (k : y.Moves z) : x.Moves z :=
  ⟨k.job.trans h.job, h.idle ∘ k.idle, k.fetchPos.trans h.fetchPos, k.handled.trans h.handled, k.above.trans h.above,
    k.holesAbove.trans h.holesAbove, k.hand.trans h.hand, fun r hr ho => k.outstanding r (h.outstanding r hr ho) ho⟩

/-- An outstanding read that is still the read it was, with fewer granules received than its own. -/
structure LinkRead.Moves (x y : LinkRead) : Prop where
  channel : y.channel = x.channel
  address : y.address = x.address
  length : y.length = x.length
  granules : y.granules = x.granules
  received : x.received.length < x.granules → y.received.length < y.granules

theorem LinkRead.Moves.refl (x : LinkRead) : x.Moves x := ⟨rfl, rfl, rfl, rfl, id⟩

theorem LinkRead.Moves.trans {x y z : LinkRead} (h : x.Moves y) (k : y.Moves z) : x.Moves z :=
  ⟨k.channel.trans h.channel, k.address.trans h.address, k.length.trans h.length, k.granules.trans h.granules,
    k.received ∘ h.received⟩

/-- A link with no outstanding read but those it had. -/
def Link.Moves (x y : Link) : Prop :=
  ∀ (i : Fin 2) r, y.positions[i] = some r → ∃ q, x.positions[i] = some q ∧ q.Moves r

theorem Link.Moves.of_positions {x y : Link} (h : y.positions = x.positions) : x.Moves y :=
  fun _ r hr => ⟨r, by rw [← h]; exact hr, .refl r⟩

theorem Link.Moves.trans {x y z : Link} (h : x.Moves y) (k : y.Moves z) : x.Moves z := by
  intro i r hr
  obtain ⟨q, hq, hqr⟩ := k i r hr
  obtain ⟨p, hp, hpq⟩ := h i q hq
  exact ⟨p, hp, hpq.trans hqr⟩

/-- A copy that is still the copy it was, with no more records copied than its own. -/
structure Copy.Moves (x y : Copy) : Prop where
  dump : y.dump = x.dump
  kind : y.kind = x.kind
  count : y.count = x.count
  copied : x.copied ≤ x.count → y.copied ≤ y.count

theorem Copy.Moves.refl (x : Copy) : x.Moves x := ⟨rfl, rfl, rfl, id⟩

/-- A journal with no copy in flight but the one it had. -/
def Journal.Moves (x y : Journal) : Prop := ∀ c, y.copier = some c → ∃ b, x.copier = some b ∧ b.Moves c

theorem Journal.Moves.of_copier {x y : Journal} (h : y.copier = x.copier) : x.Moves y :=
  fun c hc => ⟨c, by rw [← h]; exact hc, .refl c⟩

theorem Journal.Moves.trans {x y z : Journal} (h : x.Moves y) (k : y.Moves z) : x.Moves z := by
  intro c hc
  obtain ⟨b, hb, hbc⟩ := k c hc
  obtain ⟨a, ha, hab⟩ := h b hb
  exact ⟨a, ha, hbc.dump.trans hab.dump, hbc.kind.trans hab.kind, hbc.count.trans hab.count, hbc.copied ∘ hab.copied⟩

/-- A request of the directory for the pages of a latch snapshot (R119). -/
def StagingRequest.forLatches (r : StagingRequest) : Prop :=
  r.holder = .directory ∧ ∃ k, r.keys.head? = some k ∧ k.kind ≠ .dumpHeader ∧ k.kind ≠ .manifest

/-! ### Moves of the device -/

/-- A move of the device: no channel gets on with its section, no read is issued, no copy starts, and no latch snapshot is
asked for. -/
structure State.Moves (s t : State) : Prop where
  filed : s.Filed → t.Filed
  entries : s.Filed → ∀ f ∈ t.directory.entries, ∃ e ∈ s.directory.entries, e.Moves f
  next : t.directory.nextNumber = s.directory.nextNumber
  channels : ∀ c, (s.channel c).Moves (t.channel c)
  links : ∀ d, (s.link d).Moves (t.link d)
  journals : ∀ d, (s.journal d).Moves (t.journal d)
  requests : ∀ r ∈ t.staging.requests, r ∈ s.staging.requests ∨ (s.startUp = .finished ∧ ¬ r.forLatches)
  startUp : t.startUp = s.startUp

theorem State.Moves.refl (s : State) : s.Moves s :=
  ⟨id, fun _ f hf => ⟨f, hf, .refl f⟩, rfl, fun _ => .refl _, fun _ => .of_positions rfl, fun _ => .of_copier rfl,
    fun _ h => .inl h, rfl⟩

theorem State.Moves.trans {s t u : State} (h : s.Moves t) (k : t.Moves u) : s.Moves u where
  filed := k.filed ∘ h.filed
  entries hs g hg := by
    obtain ⟨f, hf, hfg⟩ := k.entries (h.filed hs) g hg
    obtain ⟨e, he, hef⟩ := h.entries hs f hf
    exact ⟨e, he, hef.trans hfg⟩
  next := k.next.trans h.next
  channels c := (h.channels c).trans (k.channels c)
  links d := (h.links d).trans (k.links d)
  journals d := (h.journals d).trans (k.journals d)
  requests r hr := by
    rcases k.requests r hr with hr | ⟨hu, hr⟩
    · exact h.requests r hr
    · exact .inr ⟨h.startUp ▸ hu, hr⟩
  startUp := k.startUp.trans h.startUp

/-- A section found after a move was there before it, and has moved. -/
theorem State.Moves.sect {s t : State} (h : s.Moves t) (hs : s.Filed) {n : Num} {i : Nat} {y : SectionRecord}
    (hy : t.sect n i = some y) : ∃ x, s.sect n i = some x ∧ x.Moves y := by
  obtain ⟨f, hf, hfy⟩ := State.sect_eq_some.1 hy
  obtain ⟨hm, rfl⟩ := State.mem_of_dump hf
  obtain ⟨e, he, hef⟩ := h.entries hs f hm
  obtain ⟨x, hx, hxy⟩ := hef.sections i y hfy
  exact ⟨x, State.sect_eq_some.2 ⟨e, by rw [hef.number]; exact hs.dump_of_mem he, hx⟩, hxy⟩

/-- A channel's own part of its law: handled front, reads in hand and extents above it, apart from one another and within the
admitted length (R62, R63, R66). -/
structure Channel.Laid (ch : Channel) (j : Job) : Prop where
  ordered : ch.handled ≤ ch.fetchPos ∧ ch.fetchPos ≤ j.admitted
  hand : ∀ r ∈ ch.hand, 1 ≤ r.length ∧ ch.handled ≤ r.offset ∧ r.offset + r.length ≤ ch.fetchPos
  handApart : ch.hand.Pairwise fun r q => r.offset + r.length ≤ q.offset ∨ q.offset + q.length ≤ r.offset
  above : ∀ x ∈ ch.above, 1 ≤ x.length ∧ ch.handled ≤ x.offset ∧ x.offset + x.length ≤ ch.fetchPos
  aboveApart : ch.above.Pairwise fun x y => x.offset + x.length ≤ y.offset ∨ y.offset + y.length ≤ x.offset
  bothApart : ∀ r ∈ ch.hand, ∀ x ∈ ch.above, r.offset + r.length ≤ x.offset ∨ x.offset + x.length ≤ r.offset
  holes : ∀ h ∈ ch.holesAbove, ∃ x ∈ ch.above, x.offset = h.offset ∧ x.length = h.length
  holesApart : ch.holesAbove.Pairwise fun h k => h.offset ≠ k.offset

theorem State.ChannelLaw.laid {s : State} {ch : Channel} {j : Job} (h : s.ChannelLaw ch j) : ch.Laid j :=
  ⟨h.ordered, h.hand, h.handApart, h.above, h.aboveApart, h.bothApart, h.holes, h.holesApart⟩

theorem Channel.Laid.law {ch : Channel} {j : Job} (h : ch.Laid j) {s : State} (hn : j.dump < s.directory.nextNumber)
    (hs : ∀ x, s.sect j.dump j.index = some x →
      x.kind = .region ∧ x.state = .active ∧ x.admitted = j.admitted ∧ x.written = ch.handled) : s.ChannelLaw ch j :=
  ⟨hn, hs, h.ordered, h.hand, h.handApart, h.above, h.aboveApart, h.bothApart, h.holes, h.holesApart⟩

theorem Channel.Moves.laid {x y : Channel} (h : x.Moves y) {j : Job} (hx : x.Laid j) : y.Laid j where
  ordered := by rw [h.handled, h.fetchPos]; exact hx.ordered
  hand := by rw [h.handled, h.fetchPos]; exact fun r hr => hx.hand r (h.hand.subset hr)
  handApart := hx.handApart.sublist h.hand
  above := by rw [h.above, h.handled, h.fetchPos]; exact hx.above
  aboveApart := by rw [h.above]; exact hx.aboveApart
  bothApart := by rw [h.above]; exact fun r hr => hx.bothApart r (h.hand.subset hr)
  holes := by rw [h.holesAbove, h.above]; exact hx.holes
  holesApart := by rw [h.holesAbove]; exact hx.holesApart

/-- A move keeps the law of a channel. -/
theorem State.Moves.channelLaw {s t : State} (h : s.Moves t) (hs : s.Filed) {x y : Channel} (hm : x.Moves y) {j : Job}
    (hx : s.ChannelLaw x j) : t.ChannelLaw y j := by
  refine (hm.laid hx.laid).law (h.next ▸ hx.number) fun b hb => ?_
  obtain ⟨a, ha, hab⟩ := h.sect hs hb
  obtain ⟨hk, hst, had, hw⟩ := hx.sect a ha
  obtain ⟨h1, h2, h3⟩ := hab.active hk hst
  exact ⟨hab.kind.trans hk, h1, h2.trans had, by rw [h3, hm.handled, hw]⟩

/-- A move keeps the law of an outstanding read. -/
theorem State.Moves.readLaw {s t : State} (h : s.Moves t) {d : Dom} {q r : LinkRead} (hqr : q.Moves r)
    (hq : s.ReadLaw d q) : t.ReadLaw d r := by
  obtain ⟨j, x, hj, hd, hx, ho, ha, hl⟩ := hq.hand
  refine ⟨⟨hqr.received hq.granules.1, by rw [hqr.granules, hqr.length]; exact hq.granules.2⟩, j, x, ?_, hd, ?_, ho, ?_, ?_⟩
  · rw [hqr.channel, (h.channels _).job]; exact hj
  · rw [hqr.channel]; exact (h.channels _).outstanding x hx ho
  · rw [hqr.address]; exact ha
  · rw [hqr.length]; exact hl

/-- A move keeps the section law. -/
theorem State.SectionLaw.moves {s t : State} (h : s.SectionLaw) (hs : s.Filed) (m : s.Moves t) : t.SectionLaw where
  sections f hf y hy := by
    obtain ⟨e, he, hef⟩ := m.entries hs f hf
    obtain ⟨i, hi⟩ := List.mem_iff_getElem?.1 hy
    obtain ⟨x, hx, hxy⟩ := hef.sections i y hi
    exact hxy.lawful (h.sections e he x (List.mem_of_getElem? hx))
  fixed f hf ho := by
    obtain ⟨e, he, hef⟩ := m.entries hs f hf
    obtain ⟨hfix, hidx⟩ := h.fixed e he (hef.state ho)
    refine ⟨hef.fixed (by simp) hfix, fun i y hy => ?_⟩
    obtain ⟨x, hx, hxy⟩ := hef.sections i y hy
    exact hxy.index.trans (hidx i x hx)
  idle c hc := (m.channels c).job.trans (h.idle c ((m.channels c).idle hc))
  channels c j hj := m.channelLaw hs (m.channels c) (h.channels c j ((m.channels c).job ▸ hj))
  distinct c e j k hj hk := h.distinct c e j k ((m.channels c).job ▸ hj) ((m.channels e).job ▸ hk)
  reads d i r hr := by
    obtain ⟨q, hq, hqr⟩ := m.links d i r hr
    exact m.readLaw hqr (h.reads d i q hq)
  readsApart d r q hr hq hc := by
    obtain ⟨r', hr', hrr⟩ := m.links d 0 r hr
    obtain ⟨q', hq', hqq⟩ := m.links d 1 q hq
    rw [hrr.address, hqq.address]
    exact h.readsApart d r' q' hr' hq' (by rw [← hrr.channel, ← hqq.channel]; exact hc)
  copies d c hc := by
    obtain ⟨b, hb, hbc⟩ := m.journals d c hc
    obtain ⟨hn, hle, hf⟩ := h.copies d b hb
    refine ⟨by rw [hbc.dump, m.next]; exact hn, hbc.copied hle, fun y hy => ?_⟩
    rw [hbc.dump, hbc.kind] at hy
    obtain ⟨x, hx, hxy⟩ := m.sect hs hy
    rw [hbc.count]
    exact hxy.fills (hf x hx)
  latches r hr hh k hk k1 k2 := by
    rcases m.requests r hr with hr | ⟨-, hn⟩
    · obtain ⟨hn, hf⟩ := h.latches r hr hh k hk k1 k2
      refine ⟨m.next ▸ hn, fun y hy => ?_⟩
      obtain ⟨x, hx, hxy⟩ := m.sect hs hy
      exact hxy.fills (hf x hx)
    · exact absurd ⟨hh, k, hk, k1, k2⟩ hn
  starting hu := by
    obtain ⟨hc, hj, hr⟩ := h.starting (m.startUp ▸ hu)
    refine ⟨fun c => (m.channels c).job.trans (hc c), fun d => ?_, ?_⟩
    · cases e : (t.journal d).copier with
      | none => rfl
      | some c =>
        obtain ⟨b, hb, -⟩ := m.journals d c e
        rw [hj d] at hb
        cases hb
    · refine List.eq_nil_iff_forall_not_mem.2 fun r hm => ?_
      rcases m.requests r hm with hm | ⟨hf, -⟩
      · rw [hr] at hm; cases hm
      · exact hu (m.startUp.trans hf)

/-! ### Moves put together -/

/-- What leaves the directory, the open dumps and the phase of start-up moves where its channels, links, journals and
requests do. -/
theorem State.Moves.of_directory {s t : State} (hd : t.directory.entries = s.directory.entries)
    (hn : t.directory.nextNumber = s.directory.nextNumber) (ho : ∀ d, (t.domain d).openDump = (s.domain d).openDump)
    (hu : t.startUp = s.startUp) (hc : ∀ c, (s.channel c).Moves (t.channel c)) (hl : ∀ d, (s.link d).Moves (t.link d))
    (hj : ∀ d, (s.journal d).Moves (t.journal d))
    (hr : ∀ r ∈ t.staging.requests, r ∈ s.staging.requests ∨ (s.startUp = .finished ∧ ¬ r.forLatches)) : s.Moves t where
  filed h := ⟨hd ▸ h.numbers, by rw [hd, hn]; exact h.next, fun d n k => by rw [hd]; exact h.openHeld d n (ho d ▸ k),
    fun k d => by rw [ho]; exact h.starting (hu ▸ k) d⟩
  entries _ f hf := ⟨f, hd ▸ hf, .refl f⟩
  next := hn
  channels := hc
  links := hl
  journals := hj
  requests := hr
  startUp := hu

/-- The parts of a state that the section law speaks of, but for what each needs of the rest. -/
noncomputable def State.sectionParts (s : State) :=
  (s.directory.entries, s.directory.nextNumber, fun d => (s.domain d).openDump, s.startUp, s.channels,
    fun d => (s.link d).positions, fun d => (s.journal d).copier, s.staging.requests)

/-- What leaves every part that the section law speaks of. -/
def State.LeavesSections (s t : State) : Prop := t.sectionParts = s.sectionParts

theorem State.LeavesSections.moves {s t : State} (h : s.LeavesSections t) : s.Moves t := by
  unfold State.LeavesSections State.sectionParts at h
  simp only [Prod.mk.injEq] at h
  obtain ⟨hd, hn, ho, hu, hc, hl, hj, hr⟩ := h
  refine .of_directory hd hn (congrFun ho) hu (fun c => ?_) (fun d => .of_positions (congrFun hl d))
    (fun d => .of_copier (congrFun hj d)) (fun r h => .inl (hr ▸ h))
  have : t.channel c = s.channel c := congrArg (fun v : Vector Channel 4 => v[(c : Nat)]) hc
  rw [this]
  exact .refl _

/-- A change of one dump's entry, the rest left. -/
theorem State.Moves.updDump (s : State) (n : Num) (f : DumpEntry → DumpEntry)
    (hf : s.Filed → ∀ e, s.dump n = some e → e.Moves (f e) ∧ (f e).domain = e.domain ∧ (f e).state = e.state) :
    s.Moves (s.updDump n f) := by
  have key (h : s.Filed) (e : DumpEntry) (he : e ∈ s.directory.entries) (hn : e.number = n) :=
    hf h e (by rw [← hn]; exact h.dump_of_mem he)
  refine ⟨fun h => ⟨?_, ?_, ?_, h.starting⟩, fun h g hg => ?_, rfl, fun _ => .refl _, fun _ => .of_positions rfl,
    fun _ => .of_copier rfl, fun _ h => .inl h, rfl⟩
  · have : (s.updDump n f).directory.entries.map DumpEntry.number = s.directory.entries.map DumpEntry.number := by
      simp only [State.updDump, List.map_map]
      refine List.map_congr_left fun e he => ?_
      simp only [Function.comp_apply]
      split
      · next hn => exact (key h e he hn).1.number
      · rfl
    rw [this]
    exact h.numbers
  · intro g hg
    obtain ⟨e, he, rfl⟩ := List.mem_map.1 hg
    have := h.next e he
    split
    · next hn => rw [(key h e he hn).1.number]; exact this
    · exact this
  · intro d m hm
    obtain ⟨e, he, h1, h2, h3⟩ := h.openHeld d m hm
    refine ⟨_, List.mem_map_of_mem he, ?_⟩
    split
    · next hn =>
      obtain ⟨k1, k2, k3⟩ := key h e he hn
      exact ⟨k1.number.trans h1, k2.trans h2, k3.trans h3⟩
    · exact ⟨h1, h2, h3⟩
  · obtain ⟨e, he, rfl⟩ := List.mem_map.1 hg
    refine ⟨e, he, ?_⟩
    split
    · next hn => exact (key h e he hn).1
    · exact .refl e

/-- A change of one section record. -/
theorem State.Moves.updSection (s : State) (n : Num) (i : Nat) (g : SectionRecord → SectionRecord)
    (hg : ∀ x, s.sect n i = some x → x.Moves (g x)) : s.Moves (s.updSection n i g) :=
  .updDump s n _ fun _ e he => ⟨.modify e i g fun x hx => hg x (State.sect_eq_some.2 ⟨e, he, hx⟩), rfl, rfl⟩

end Sys2Proof.Machine
end

