-- ==== Sys2Proof/Proofs/SectionOps.lean ====
section
/-! SUPPORT. The operations that only move the sections: passes and harvest ends, records and notices, the capture store's
work, trainings, and the ends of fixed sections. -/
namespace Sys2Proof.Machine

/-! ### Moves of one part of the device -/

/-- A state reached from another by an operation that leaves the parts of the section law. -/
theorem State.Moves.leaves {s t : State} (h : s.LeavesSections t) : s.Moves t := h.moves

theorem State.Moves.setDomain (s : State) (d : Dom) (x : Domain) (h : x.openDump = (s.domain d).openDump) :
    s.Moves (s.setDomain d x) := by
  refine .of_directory rfl rfl (fun e => ?_) rfl (fun _ => .refl _) (fun _ => .of_positions rfl) (fun _ => .of_copier rfl)
    fun _ h => .inl h
  rw [State.setDomain_domain]
  split
  · next hd => rw [hd, h]
  · rfl

theorem State.Moves.setLink (s : State) (d : Dom) (l : Link) (h : (s.link d).Moves l) : s.Moves (s.setLink d l) := by
  refine .of_directory rfl rfl (fun _ => rfl) rfl (fun _ => .refl _) (fun e => ?_) (fun _ => .of_copier rfl)
    fun _ h => .inl h
  rw [State.setLink_link]
  split
  · next hd => rw [hd]; exact h
  · exact .of_positions rfl

theorem State.Moves.setJournal (s : State) (d : Dom) (j : Journal) (h : (s.journal d).Moves j) :
    s.Moves (s.setJournal d j) := by
  refine .of_directory rfl rfl (fun _ => rfl) rfl (fun _ => .refl _) (fun _ => .of_positions rfl) (fun e => ?_)
    fun _ h => .inl h
  rw [State.setJournal_journal]
  split
  · next hd => rw [hd]; exact h
  · exact .of_copier rfl

theorem State.Moves.setChannel (s : State) (c : Fin 4) (x : Channel) (h : (s.channel c).Moves x) :
    s.Moves (s.setChannel c x) := by
  refine .of_directory rfl rfl (fun _ => rfl) rfl (fun e => ?_) (fun _ => .of_positions rfl) (fun _ => .of_copier rfl)
    fun _ h => .inl h
  rw [State.setChannel_channel]
  split
  · next hd => rw [hd]; exact h
  · exact .refl _

theorem State.Moves.askPages (s : State) (hd : Holder) (ks : List PageKey) (hu : s.startUp = .finished)
    (hn : ¬ StagingRequest.forLatches { holder := hd, keys := ks }) : s.Moves (s.askPages hd ks) := by
  refine .of_directory rfl rfl (fun _ => rfl) rfl (fun _ => .refl _) (fun _ => .of_positions rfl)
    (fun _ => .of_copier rfl) fun r hr => ?_
  rcases List.mem_append.1 hr with hr | hr
  · exact .inl hr
  · rw [List.mem_singleton] at hr
    exact .inr ⟨hu, hr ▸ hn⟩

theorem State.Moves.withdrawPages (s : State) (hd : Holder) : s.Moves (s.withdrawPages hd) :=
  .of_directory rfl rfl (fun _ => rfl) rfl (fun _ => .refl _) (fun _ => .of_positions rfl)
    (fun _ => .of_copier rfl) fun _ hr => .inl (List.mem_filter.1 hr).1

theorem Holder.not_forLatches {r : StagingRequest} (h : r.holder ≠ .directory) : ¬ r.forLatches := fun k => h k.1

/-! ### Journals and notices -/

theorem Journal.drop_moves (j : Journal) (r : EventRecord) : j.Moves (j.drop r) := by
  intro c hc
  obtain ⟨b, hb, rfl⟩ := Option.map_eq_some_iff.1 (show j.copier.map _ = some c from hc)
  exact ⟨b, hb, rfl, rfl, rfl, id⟩

/-- A record appended leaves the copy in flight the copy it is (R108). -/
theorem Journal.append_moves (j : Journal) (r : EventRecord) : j.Moves (j.append r) := by
  unfold Journal.append
  split
  · exact j.drop_moves r
  · split
    · exact j.drop_moves r
    · exact .of_copier rfl

theorem State.appendDevice_moves (s : State) (d : Dom) (k : Byte) (v : Nat) (bs : List Byte) :
    s.Moves (s.appendDevice d k v bs) := .setJournal s d _ (Journal.append_moves _ _)

theorem State.notice_moves (s : State) (k b : Byte) (bs : List Byte) : s.Moves (s.notice k b bs) :=
  .leaves (by simp [State.LeavesSections, State.sectionParts])

theorem State.releaseLine_moves (s : State) (d : Dom) (r : ReleaseReason) : s.Moves (s.releaseLine d r) := by
  unfold State.releaseLine
  dsimp only
  split
  · refine State.Moves.trans ?_ (State.notice_moves _ _ _ _)
    exact State.Moves.trans (.setDomain s d _ (by rfl)) (State.appendDevice_moves _ d _ _ _)
  · exact .refl s

theorem State.enterArmed_moves (s : State) (d : Dom) : s.Moves (s.enterArmed d) :=
  ((State.Moves.setDomain s d { s.domain d with state := .armed } rfl).trans
    (.setDomain _ d _ (by rfl))).trans (.setLink _ d _ (.of_positions (by rfl)))

/-! ### Passes (R49 to R53) -/

theorem SectionRecord.visited_iff (x : SectionRecord) :
    x.visited = true ↔ x.kind = .region ∧ (x.state = .pending ∨ x.state = .skipped) := by
  simp [SectionRecord.visited]

/-- A REGION section not taken up may change but for what the opening fixed of it, where the changed record is lawful. -/
theorem SectionRecord.Moves.of_visited {x y : SectionRecord} (hv : x.visited = true) (hi : y.index = x.index)
    (hk : y.kind = x.kind) (hl : x.Lawful → y.Lawful) : x.Moves y := by
  obtain ⟨hr, hs⟩ := x.visited_iff.1 hv
  refine ⟨hi, hk, hl, fun h => absurd hr h, fun _ ha => ?_⟩
  rcases hs with hs | hs <;> rw [hs] at ha <;> cases ha

/-- An admission of a lawful length keeps the law of a section not taken up (R50, R51). -/
theorem SectionRecord.Lawful.admitted {x : SectionRecord} (h : x.Lawful) (hv : x.visited = true) {n : Nat} {t : Bool}
    (hn : n ≤ x.planned) (ht : t = true → n % 4096 = 0 ∧ x.floor ≤ n) :
    SectionRecord.Lawful { x with state := .pending, admitted := n, truncated := t, cause := none } := by
  have hf := h.fresh (x.visited_iff.1 hv).2
  exact ⟨⟨hf.1 ▸ Nat.zero_le n, hn⟩, ht, (fun h => by cases h), fun _ => hf, h.holeCount, h.holeOrder, h.holeBounds, h.fixedWhole⟩

theorem truncatedLength_le (rd : Nat) (b : Budget) (planned : Nat) : truncatedLength rd b planned ≤ planned :=
  (Nat.min_le_left _ _).trans (Nat.div_mul_le_self _ _)

theorem visit_moves (rd : Nat) (b : Budget) (x : SectionRecord) (hv : x.visited = true) : x.Moves (visit rd b x).sect := by
  unfold visit
  split
  · exact .of_visited hv rfl rfl fun h => h.admitted hv le_rfl (fun h => by cases h)
  · split
    · next ht =>
      refine .of_visited hv rfl rfl fun h => h.admitted hv (truncatedLength_le _ _ _) fun _ => ⟨?_, ht.2.1⟩
      rw [truncatedLength_eq]
      exact Nat.mul_mod_left _ _
    · refine .of_visited hv rfl rfl fun h => ?_
      have hf := h.fresh (x.visited_iff.1 hv).2
      exact ⟨⟨hf.1.le, Nat.zero_le _⟩, (fun h => by cases h), fun _ => rfl, fun _ => hf, h.holeCount, h.holeOrder, h.holeBounds,
        h.fixedWhole⟩

theorem walk_length (rd : Nat) (b : Budget) (xs : List SectionRecord) (shares : List Nat) :
    (walk rd b xs shares).1.length = xs.length := by
  simpa using congrArg List.length (walk_shapes rd b xs shares)

/-- A walk moves every section (R49). -/
theorem walk_moves (rd : Nat) (b : Budget) (xs : List SectionRecord) (shares : List Nat) (i : Nat) (y : SectionRecord)
    (hy : (walk rd b xs shares).1[i]? = some y) : ∃ x, xs[i]? = some x ∧ x.Moves y := by
  induction xs generalizing b shares i with
  | nil => simp [walk] at hy
  | cons x xs ih =>
    unfold walk at hy
    split at hy
    · next hv =>
      cases i with
      | zero => simp only [List.getElem?_cons_zero, Option.some.injEq] at hy; exact ⟨x, rfl, hy ▸ visit_moves rd b x hv⟩
      | succ i => exact ih _ _ i hy
    · cases i with
      | zero => simp only [List.getElem?_cons_zero, Option.some.injEq] at hy; exact ⟨x, rfl, hy ▸ .refl x⟩
      | succ i => exact ih _ _ i hy

theorem State.Moves.setAdmission (s : State) (d : Dom) (a : Option Admission) : s.Moves (s.setAdmission d a) :=
  .leaves rfl

theorem State.pass_moves (s : State) (d : Dom) : s.Moves (s.pass d) := by
  rcases s.pass_eq d with e | ⟨a, x, w, -, hx, rfl, e⟩
  · rw [e]; exact .refl s
  · rw [e]
    refine (State.Moves.updDump s a.dump _ fun _ y hy => ?_).trans (.setAdmission _ _ _)
    rw [hx] at hy
    cases hy
    exact ⟨⟨rfl, id, walk_length _ _ _ _, walk_moves _ _ _ _⟩, rfl, rfl⟩

theorem State.replan_moves (s : State) (d : Dom) : s.Moves (s.replan d) := by
  unfold State.replan
  split
  · exact s.pass_moves d
  · exact .refl s

theorem State.replanAll_moves (s : State) : s.Moves s.replanAll := by
  unfold State.replanAll
  split
  · split <;> exact (State.replan_moves _ _).trans (State.replan_moves _ _)
  · exact (State.replan_moves _ _).trans (State.replan_moves _ _)

/-! ### Harvest ends (R11 to R16, R76, R77) -/

theorem State.channelShort_moves (s : State) (c : Fin 4) (k : SectionCause) : s.Moves (s.channelShort c k) := by
  have hch : Channel.Moves (s.channel c) { s.channel c with
      state := .ending, ending := some (.short k), hand := (s.channel c).hand.filter HandRead.outstanding } :=
    ⟨rfl, (fun h => by cases h), rfl, rfl, rfl, rfl, List.filter_sublist, fun r hr ho => List.mem_filter.2 ⟨hr, ho⟩⟩
  have h := (State.Moves.withdrawPages s (.channel c)).trans (.setChannel _ c _ hch)
  unfold State.channelShort
  dsimp only
  split
  · exact h.trans (.setLink _ _ _ (.of_positions rfl))
  · exact h

theorem State.channelsShort_moves (n : Num) (k : SectionCause) (l : List (Fin 4)) (s : State) :
    s.Moves (l.foldl (fun t c => if (t.channel c).endsWith n then t.channelShort c k else t) s) := by
  induction l generalizing s with
  | nil => exact .refl s
  | cons c l ih =>
    rw [List.foldl_cons]
    refine State.Moves.trans ?_ (ih _)
    split
    · exact s.channelShort_moves c k
    · exact .refl s

theorem SectionRecord.lost_moves (x : SectionRecord) (k : SectionCause) : x.Moves (x.lost k) := by
  unfold SectionRecord.lost
  split
  · next hp =>
    refine .of_visited (x.visited_iff.2 ⟨hp.1, .inl hp.2⟩) rfl rfl fun h => ?_
    obtain ⟨-, hh, -⟩ := h.fresh (.inl hp.2)
    exact ⟨⟨Nat.zero_le _, h.lengths.2⟩, h.truncated, (fun h => by cases h), by simp, h.holeCount, h.holeOrder, by simp [hh], h.fixedWhole⟩
  · exact .refl x

theorem State.endSections_moves (s : State) (d : Dom) (n : Num) (k : SectionCause) : s.Moves (s.endSections d n k) := by
  unfold State.endSections
  dsimp only
  refine State.Moves.trans ?_ (State.channelsShort_moves n k _ _)
  refine State.Moves.trans ?_ (State.Moves.updDump _ n _ fun _ e _ => ⟨⟨rfl, id, by simp, fun i y hy => ?_⟩, rfl, rfl⟩)
  · split
    · exact .setAdmission s d _
    · exact .refl s
  · rw [List.getElem?_map] at hy
    obtain ⟨x, hx, rfl⟩ := Option.map_eq_some_iff.1 hy
    exact ⟨x, hx, x.lost_moves k⟩

/-- A change of a dump's entry outside its number, domain, state and sections. -/
theorem State.Moves.updEntry (s : State) (n : Num) (f : DumpEntry → DumpEntry)
    (hf : ∀ e, (f e).number = e.number ∧ (f e).domain = e.domain ∧ (f e).state = e.state ∧ (f e).sections = e.sections) :
    s.Moves (s.updDump n f) :=
  .updDump s n f fun _ e _ => by
    obtain ⟨hn, hd, hs, hx⟩ := hf e
    exact ⟨.of_sections hn (by rw [hs]; exact id) hx, hd, hs⟩

theorem State.refillIfFell_moves (s : State) (d : Dom) (before : Nat) : s.Moves (s.refillIfFell d before) :=
  .leaves (by simp [State.LeavesSections, State.sectionParts])

theorem State.enterClosing_moves (s : State) (d : Dom) (k : EndCause) : s.Moves (s.enterClosing d k) := by
  unfold State.enterClosing
  dsimp only
  refine (State.Moves.setDomain s d { s.domain d with state := .closing, endCause := some k } rfl).trans ?_
  split
  · exact .refl _
  · next n _ =>
    refine State.Moves.trans ?_ ((State.refillIfFell_moves _ _ _).trans (State.replan_moves _ _))
    refine (State.Moves.updEntry _ n (fun e => { e with endCause := some k }) fun e => ⟨rfl, rfl, rfl, rfl⟩).trans ?_
    split
    · exact State.endSections_moves _ _ _ _
    · exact .refl _

theorem State.endHarvest_moves (s : State) (d : Dom) (k : EndCause) : s.Moves (s.endHarvest d k) := by
  unfold State.endHarvest
  dsimp only
  split
  · exact .setDomain s d _ rfl
  · exact s.enterClosing_moves d k
  · exact .refl s

theorem State.completionTest_moves (s : State) (d : Dom) : s.Moves (s.completionTest d) := by
  unfold State.completionTest
  split
  · split
    · exact s.enterClosing_moves d _
    · exact .refl s
  · exact .refl s

theorem State.headerProgrammed_moves (s : State) (d : Dom) : s.Moves (s.headerProgrammed d) := by
  unfold State.headerProgrammed
  dsimp only
  split
  · exact (State.Moves.setDomain s d { s.domain d with state := .harvesting } rfl).trans (State.completionTest_moves _ d)
  · exact s.enterClosing_moves d _
  · exact .refl s

/-! ### The ends of sections and dumps (R41, R74, R132) -/

theorem State.pagesReturned_moves (s : State) (d : Dom) (x : SectionRecord) : s.Moves (s.pagesReturned d x) := by
  unfold State.pagesReturned
  (repeat' split)
  · exact s.replanAll_moves
  · exact s.replan_moves _
  · exact .refl s

theorem State.setShare_moves (s : State) (d : Dom) (i n : Nat) : s.Moves (s.setShare d i n) := by
  unfold State.setShare
  split
  · exact .setAdmission s d _
  · exact .refl s

theorem State.sectionEnded_moves (s : State) (d : Dom) (n : Num) (i : Nat) : s.Moves (s.sectionEnded d n i) := by
  unfold State.sectionEnded
  dsimp only
  split
  · exact .refl s
  · refine State.Moves.trans ?_ ((State.notice_moves _ _ _ _).trans (State.completionTest_moves _ d))
    next x _ =>
    refine State.Moves.trans ((s.setShare_moves d i (endShare x.written)).trans (State.refillIfFell_moves _ d (s.claim d))) ?_
    split
    · exact State.pagesReturned_moves _ _ _
    · exact .refl _

end Sys2Proof.Machine
end

