-- ==== Sys2Proof/Proofs/SectionSteps.lean ====
section
/-! SUPPORT. The close of a dump, the links, the harvest channels' steps and the store's under the section law: each moves the
sections only (chapters 3 to 8). -/
namespace Sys2Proof.Machine

/-! ### The close of a dump (R132, R17) -/

theorem State.updDump_updDump (s : State) (n : Num) (f g : DumpEntry → DumpEntry) (hf : ∀ e, (f e).number = e.number) :
    (s.updDump n f).updDump n g = s.updDump n (g ∘ f) := by
  have key : ((s.directory.entries.map fun e => if e.number = n then f e else e).map fun e => if e.number = n then g e else e)
      = s.directory.entries.map fun e => if e.number = n then (g ∘ f) e else e := by
    rw [List.map_map]
    refine List.map_congr_left fun e _ => ?_
    rw [Function.comp_apply]
    by_cases he : e.number = n
    · rw [if_pos he, if_pos ((hf e).trans he), if_pos he]
      rfl
    · rw [if_neg he, if_neg he, if_neg he]
  exact congrArg (fun l => { s with directory := { s.directory with entries := l } }) key

theorem State.setWork_leaves (s : State) (d : Dom) (w : Work) : s.LeavesSections (s.setWork d w) :=
  rfl

theorem State.closedReport_openDump (s : State) (d e : Dom) :
    ((s.closedReport d).domain e).openDump = if e = d then none else (s.domain e).openDump := by
  unfold State.closedReport
  rw [State.setDomain_domain]
  split
  · rfl
  · next h =>
    obtain rfl := (dom_eq_or d e).resolve_left h
    simp

/-- A domain's open dump closed, and the domain without one: the other domain's dump is another entry (R2, R132). -/
theorem State.Moves.close {s t : State} {d : Dom} {n : Num} {f g : DumpEntry → DumpEntry}
    (hn : (s.domain d).openDump = some n) (m : (s.updDump n g).Moves t)
    (he : t.directory.entries = (s.updDump n f).directory.entries)
    (hf : ∀ e, (f e).number = e.number ∧ (f e).sections = e.sections ∧ (f e).state ≠ .opened)
    (ho : ∀ e, (t.domain e).openDump = if e = d then none else (s.domain e).openDump) : s.Moves t := by
  have hnext : t.directory.nextNumber = s.directory.nextNumber := m.next
  have hmem (g : DumpEntry) : g ∈ t.directory.entries ↔ ∃ e ∈ s.directory.entries, (if e.number = n then f e else e) = g := by
    rw [he]; exact List.mem_map
  have hnum (e : DumpEntry) : (if e.number = n then f e else e).number = e.number := by
    split
    · exact (hf e).1
    · rfl
  refine ⟨fun h => ⟨?_, fun x hx => ?_, fun e k hk => ?_, fun hu e => ?_⟩, fun _ x hx => ?_, m.next, m.channels, m.links,
    m.journals, m.requests, m.startUp⟩
  · have : t.directory.entries.map DumpEntry.number = s.directory.entries.map DumpEntry.number := by
      rw [he]
      exact (List.map_map ..).trans (List.map_congr_left fun e _ => hnum e)
    rw [this]
    exact h.numbers
  · obtain ⟨e, hes, hex⟩ := (hmem x).1 hx
    rw [hnext, ← hex, hnum]
    exact h.next e hes
  · rw [ho] at hk
    by_cases hed : e = d
    · rw [if_pos hed] at hk
      exact absurd hk.symm (Option.some_ne_none k)
    rw [if_neg hed] at hk
    obtain ⟨x, hx, hxn, hxd, hxs⟩ := h.openHeld e k hk
    obtain ⟨y, hy, hyn, hyd, -⟩ := h.openHeld d n hn
    refine ⟨x, (hmem x).2 ⟨x, hx, if_neg fun hk => hed ?_⟩, hxn, hxd, hxs⟩
    rw [← hxd, ← hyd, h.ext hx hy (hk.trans hyn.symm)]
  · rw [ho, h.starting (m.startUp.symm.trans_ne hu), ite_self]
  · obtain ⟨e, hes, hex⟩ := (hmem x).1 hx
    refine ⟨e, hes, hex ▸ ?_⟩
    split
    · exact .of_sections (hf e).1 (fun k => absurd k (hf e).2.2) (hf e).2.1
    · exact .refl e

/-- A domain that holds no dump any longer. -/
theorem State.Moves.withdrawDump (s : State) (d : Dom) (x : Domain) (hx : x.openDump = none) : s.Moves (s.setDomain d x) := by
  refine ⟨fun h => ⟨h.numbers, h.next, fun e k hk => ?_, fun hu e => ?_⟩, fun _ f hf => ⟨f, hf, .refl f⟩, rfl,
    fun _ => .refl _, fun _ => .of_positions rfl, fun _ => .of_copier rfl, fun _ h => .inl h, rfl⟩
  · rw [State.setDomain_domain] at hk
    split at hk
    · exact absurd (hk.symm.trans hx) (Option.some_ne_none k)
    · exact h.openHeld e k hk
  · rw [State.setDomain_domain]
    split
    · exact hx
    · exact h.starting hu e

theorem State.evalFetched_moves (s : State) (n : Num) : s.Moves (s.updDump n DumpEntry.evalFetched) :=
  .updEntry s n _ fun _ => ⟨rfl, rfl, rfl, rfl⟩

theorem State.dumpClosed_moves (s : State) (d : Dom) (n : Num) : s.Moves (s.dumpClosed d n) := by
  delta State.dumpClosed
  split
  · exact .refl s
  · next e he =>
    extract_lets check before s1 s2 j3 s3 s4 s5 s6
    have hn : (s.domain d).openDump = some n := by
      by_contra h
      rw [if_neg (by simp [State.closing, h])] at he
      cases he
    have m2 : s1.Moves s2 := State.Moves.trans (.leaves (by rfl)) (State.refillIfFell_moves _ d _)
    have m3 : s2.Moves s3 := State.Moves.trans (.setJournal s2 d { j3 with mark := none } (.of_copier rfl))
      (.leaves (State.setWork_leaves _ d _))
    have m5 : s3.Moves s5 := (State.appendDevice_moves s3 d _ _ _).trans (State.notice_moves _ _ _ _)
    have m6 : s5.Moves s6 := ((State.releaseLine_moves s5 d .closed).trans (.withdrawDump _ d _ rfl)).trans
      (State.evalFetched_moves _ n)
    have hf := State.updDump_updDump s n (fun x => { x with state := .closed, manifestCheck := some check })
      DumpEntry.evalFetched fun _ => rfl
    have h5 : (s5.closedReport d).directory = s1.directory := by simp [s5, s4, s3, s2]
    refine State.Moves.trans (.close hn (((m2.trans m3).trans m5).trans m6)
      ((congrArg (fun y : Directory => y.entries.map _) h5).trans (congrArg (fun u : State => u.directory.entries) hf))
      (fun x => ⟨rfl, rfl, fun h => by cases h⟩) fun x => ?_) (State.replan_moves _ _)
    have ho : (s5.domain x).openDump = (s.domain x).openDump := by simp [s5, s4, s3, s2, s1]
    rw [State.updDump_domain, State.closedReport_openDump, ho]

/-! ### Modes and trainings (R80 to R84) -/

theorem DumpEntry.reportMode_fixed (e : DumpEntry) (m : Mode) (t : Time) :
    (e.reportMode m t).number = e.number ∧ (e.reportMode m t).domain = e.domain
      ∧ (e.reportMode m t).state = e.state ∧ (e.reportMode m t).sections = e.sections := by
  unfold DumpEntry.reportMode
  (repeat' split) <;> exact ⟨rfl, rfl, rfl, rfl⟩

theorem State.setMode_moves (s : State) (d : Dom) (m : Mode) : s.Moves (s.setMode d m) := by
  unfold State.setMode
  dsimp only
  split
  · exact .refl s
  · have h := State.Moves.setLink s d { s.link d with mode := m, downshifts := 0 } (.of_positions rfl)
    split
    · exact h.trans (.updEntry _ _ _ fun e => e.reportMode_fixed m _)
    · exact h

theorem State.startTraining_moves (s : State) (d : Dom) (m : Mode) : s.Moves (s.startTraining d m) :=
  (s.setMode_moves d m).trans (.setLink _ d _ (.of_positions (by rfl)))

theorem State.linkDown_moves (s : State) (d : Dom) (t : Option Time) : s.Moves (s.linkDown d t) :=
  (s.setMode_moves d .wide).trans (.setLink _ d _ (.of_positions (by rfl)))

/-! ### Staging pages and channels (R60, R67, R93) -/

theorem State.stage_moves (s : State) (k : PageKey) (bs : List Byte) : s.Moves (s.stage k bs) :=
  .leaves rfl

theorem State.headerGiven_moves (s : State) (c : Fin 4) : s.Moves (s.headerGiven c) := by
  have hm (x : ChannelState) (hx : x ≠ .idle) (t : State) (ht : t.channels = s.channels) :
      t.Moves (t.setChannel c { s.channel c with state := x }) := by
    have : t.channel c = s.channel c := congrArg (fun v : Vector Channel 4 => v[(c : Nat)]) ht
    refine .setChannel t c _ ?_
    rw [this]
    exact ⟨rfl, fun h => absurd h hx, rfl, rfl, rfl, rfl, .refl _, fun _ h _ => h⟩
  delta State.headerGiven
  extract_lets ch
  split
  · exact .refl s
  · split
    · exact .refl s
    · next j _ _ x _ =>
      extract_lets t l
      refine (s.stage_moves (headerKey j.dump j.index) (sectionHeaderPage j.dump x)).trans ?_
      split
      · exact (hm .waitLock (by decide) t rfl).trans (.setLink _ _ _ (.of_positions (by rfl)))
      · exact hm .fetching (by decide) t rfl

theorem State.passData_moves (s : State) (c : Fin 4) (j : Job) (p u : Nat) : s.Moves (s.passData c j p u) :=
  (s.stage_moves _ _).trans (.setChannel _ c _ ⟨by rfl, fun h => h, by rfl, by rfl, by rfl, by rfl, .refl _, fun _ h _ => h⟩)

theorem State.passRest_moves (s : State) (c : Fin 4) (j : Job) (w n : Nat) : s.Moves (s.passRest c j w n) := by
  induction n generalizing s with
  | zero => exact .refl s
  | succ n ih =>
    unfold State.passRest
    dsimp only
    split
    · exact (s.passData_moves c j _ w).trans (ih _)
    · exact .refl s

theorem State.passStep_spec {s t : State} {c : Fin 4} (h : s.passStep c = some t) :
    ∃ j p, (s.channel c).job = some j ∧ t = s.passData c j p j.admitted := by
  unfold State.passStep at h
  dsimp only at h
  split at h
  · cases h
  · next j hj =>
    split at h <;> cases h
    exact ⟨j, _, hj, rfl⟩

theorem State.passStep_moves {s t : State} {c : Fin 4} (h : s.passStep c = some t) : s.Moves t := by
  obtain ⟨j, p, -, rfl⟩ := State.passStep_spec h
  exact s.passData_moves _ _ _ _

/-- A step of the lock leaves a link's positions, and brings at most one channel to FETCHING (R93). -/
theorem State.lockStep_spec {s t : State} {d : Dom} (h : s.lockStep d = some t) :
    ∃ l, l.positions = (s.link d).positions ∧
      (t = s.setLink d l ∨ ∃ c, t = (s.setLink d l).setChannel c { s.channel c with state := .fetching }) := by
  delta State.lockStep at h
  extract_lets l at h
  split at h
  · cases h
  · next x rest _ _ _ => exact ⟨{ l with designate := some x, lockQueue := rest }, rfl, .inl (Option.some.inj h).symm⟩
  · next x _ _ =>
    obtain ⟨-, h⟩ := Option.ite_none_left_eq_some.1 h
    exact ⟨{ l with lockHolder := some x, designate := none }, rfl, .inr ⟨x.channel, (Option.some.inj h).symm⟩⟩
  · cases h

theorem State.lockStep_moves {s t : State} {d : Dom} (h : s.lockStep d = some t) : s.Moves t := by
  obtain ⟨l, hl, rfl | ⟨c, rfl⟩⟩ := State.lockStep_spec h
  · exact .setLink s d l (.of_positions hl)
  · exact (State.Moves.setLink s d l (.of_positions hl)).trans
      (.setChannel _ c _ ⟨rfl, (fun h => by cases h), rfl, rfl, rfl, rfl, .refl _, fun _ h _ => h⟩)

theorem State.askStep_spec {s t : State} {d : Dom} (h : s.askStep d = some t) :
    ∃ qs, t = s.setLink d { s.link d with requests := qs } := by
  delta State.askStep at h
  extract_lets qs at h
  exact ⟨qs, (Option.some.inj (Option.ite_none_left_eq_some.1 h).2).symm⟩

theorem State.askStep_moves {s t : State} {d : Dom} (h : s.askStep d = some t) : s.Moves t := by
  obtain ⟨qs, rfl⟩ := State.askStep_spec h
  exact .setLink s d _ (.of_positions rfl)

/-! ### The capture store -/

theorem State.pageProgrammed_moves (s : State) (k : PageKey) (a : Nat) : s.Moves (s.pageProgrammed k a) :=
  .leaves rfl

theorem State.relocateOpen_leaves (s : State) (k : PageKey) (b : Nat) : s.LeavesSections (s.relocateOpen k b) := by
  simp [State.LeavesSections, State.sectionParts]

theorem State.relocateOther_leaves (s : State) (k : PageKey) (b : Nat) : s.LeavesSections (s.relocateOther k b) := by
  simp [State.LeavesSections, State.sectionParts]

theorem State.programFailure_moves (s : State) (x : ProgramItem) (a : Nat) : s.Moves (s.programFailure x a) := by
  unfold State.programFailure
  dsimp only
  split
  · exact .leaves rfl
  · refine State.Moves.trans (.leaves ?_) (State.appendDevice_moves _ _ _ _ _)
    split
    · exact Eq.trans (State.relocateOpen_leaves _ _ _) rfl
    · exact Eq.trans (State.relocateOther_leaves _ _ _) rfl

theorem State.eraseDone_moves (s : State) (b : Nat) (w : Bool) : s.Moves (s.eraseDone b w) := by
  unfold State.eraseDone
  dsimp only
  exact State.Moves.trans (.leaves (by simp [State.LeavesSections, State.sectionParts])) (State.replanAll_moves _)

theorem State.eraseFailure_moves (s : State) (b : Nat) : s.Moves (s.eraseFailure b) :=
  .leaves (by simp [State.LeavesSections, State.sectionParts])

theorem State.storeStep_moves {s t : State} (h : s.storeStep = some t) : s.Moves t :=
  .leaves (by simp [State.LeavesSections, State.sectionParts, State.storeStep_frame h])

theorem State.afterProgram_moves (s : State) (k : PageKey) : s.Moves (s.afterProgram k) := by
  unfold State.afterProgram
  split
  · exact s.headerProgrammed_moves _
  · split
    · exact s.dumpClosed_moves _ _
    · exact .refl s
  · exact .refl s

/-! ### Releases (R139, R155) -/

/-- A dump's entry taken from the directory, where no domain has it open. -/
theorem State.Moves.dropEntry (s : State) (n : Num)
    (hn : s.Filed → ∀ d, (s.domain d).openDump ≠ some n) :
    s.Moves { s with directory := { s.directory with entries := s.directory.entries.filter fun e => e.number ≠ n } } := by
  refine ⟨fun h => ⟨?_, fun e he => h.next e (List.mem_filter.1 he).1, fun d m hm => ?_, h.starting⟩,
    fun _ e he => ⟨e, (List.mem_filter.1 he).1, .refl e⟩, rfl, fun _ => .refl _, fun _ => .of_positions rfl,
    fun _ => .of_copier rfl, fun _ h => .inl h, rfl⟩
  · exact (List.filter_sublist.map _).nodup h.numbers
  · obtain ⟨e, he, h1, h2, h3⟩ := h.openHeld d m hm
    refine ⟨e, List.mem_filter.2 ⟨he, ?_⟩, h1, h2, h3⟩
    have : m ≠ n := fun k => hn h d (k ▸ hm)
    simpa [h1] using this

theorem State.releaseBlocks_leaves (s : State) (n : Num) : s.LeavesSections (s.releaseBlocks n) := by
  simp [State.LeavesSections, State.sectionParts]

theorem State.releaseDump_moves (s : State) (n : Num) {e : DumpEntry} (he : s.dump n = some e) (hs : e.state ≠ .opened) :
    s.Moves (s.releaseDump n) := by
  delta State.releaseDump
  extract_lets d1 s1 s2 v3 s3
  have m1 : s.Moves s1 := .dropEntry s n fun h d hd => by
    obtain ⟨f, hf, hfn, -, hfs⟩ := h.openHeld d n hd
    obtain ⟨hm, hen⟩ := State.mem_of_dump he
    exact hs (h.ext hf hm (hfn.trans hen.symm) ▸ hfs)
  have m3 : s1.LeavesSections s3 := Eq.trans (b := s2.sectionParts) (by rfl) (State.releaseBlocks_leaves s1 n)
  exact (m1.trans (.leaves m3)).trans (State.replanAll_moves s3)

end Sys2Proof.Machine
end

