-- ==== Sys2Proof/Proofs/SectionCopies.lean ====
section
/-! SUPPORT. The copies and the latch snapshot under the section law (R110, R111, R119): a fixed section that ends keeps its
law. -/
namespace Sys2Proof.Machine

/-! ### The ends of fixed sections (R110, R111, R119) -/

/-- A fixed section that ends is still lawful. -/
theorem SectionRecord.Moves.end_fixed {x : SectionRecord} (hk : x.kind ≠ .region) (crc : Option (BitVec 32)) :
    x.Moves { x with state := .done, crc := crc } :=
  ⟨rfl, rfl, fun h => ⟨h.lengths, h.truncated, (fun h => by cases h), by simp, h.holeCount, h.holeOrder, h.holeBounds, h.fixedWhole⟩,
    fun _ => ⟨rfl, fun _ _ => ⟨(fun h => by cases h), (fun h => by cases h)⟩⟩, fun h => absurd h hk⟩

/-- Bytes written to a section that has the room for them, of a copy or the latch snapshot. -/
theorem SectionRecord.Moves.write_fixed {x : SectionRecord} {m n : Nat} (hx : x.fills m) (hn : n ≤ m) :
    x.Moves { x with written := n } := by
  obtain ⟨hk, hp, hs, ha⟩ := hx
  refine ⟨rfl, rfl, fun h => ?_, fun _ => ⟨rfl, fun a b => ⟨a, b⟩⟩, fun h => absurd h hk⟩
  have hh := h.fixedWhole hk
  exact ⟨⟨hn.trans ha, h.lengths.2⟩, h.truncated, h.skipped, fun hf => (hf.elim hp hs).elim, h.holeCount, h.holeOrder,
    by simp [hh], h.fixedWhole⟩

theorem State.disown_leaves (s : State) (h : Holder) :
    s.LeavesSections { s with staging := s.staging.disown h } :=
  rfl

theorem Journal.Moves.of_none {x y : Journal} (h : y.copier = none) : x.Moves y := fun c hc => by
  rw [h] at hc
  cases hc

theorem State.copyEnded_moves (s : State) (d : Dom) (c : Copy)
    (hx : ∀ x, s.sect c.dump c.kind.index = some x → x.kind ≠ .region) : s.Moves (s.copyEnded d c) := by
  unfold State.copyEnded
  dsimp only
  refine State.Moves.trans ?_ (State.sectionEnded_moves _ _ _ _)
  refine State.Moves.trans ?_ (.leaves (State.disown_leaves _ _))
  refine State.Moves.trans ?_ (.setJournal _ d _ (.of_none (by rfl)))
  refine (State.Moves.updSection s c.dump c.kind.index _ fun x k => .end_fixed (hx x k) (some (crc32Final c.crc))).trans ?_
  split
  · exact .updEntry _ _ _ fun _ => ⟨rfl, rfl, rfl, rfl⟩
  · exact .refl _

theorem State.copyTest_moves (s : State) (d : Dom) (c : Copy)
    (hx : ∀ x, s.sect c.dump c.kind.index = some x → x.kind ≠ .region) : s.Moves (s.copyTest d c) := by
  unfold State.copyTest
  split
  · exact s.copyEnded_moves d c hx
  · exact .refl s

/-- A section looked up after a move of its state that is filled still is. -/
theorem State.Moves.fills {s t : State} (m : s.Moves t) (hf : s.Filed) {n : Num} {i b : Nat}
    (h : ∀ x, s.sect n i = some x → x.fills b) (y : SectionRecord) (hy : t.sect n i = some y) : y.fills b := by
  obtain ⟨x, hx, hxy⟩ := m.sect hf hy
  exact hxy.fills (h x hx)

theorem State.copierHeader_moves {s : State} (hf : s.Filed) (h : s.SectionLaw) (d : Dom) : s.Moves (s.copierHeader d) := by
  unfold State.copierHeader
  dsimp only
  split
  · exact .refl s
  · next c hc =>
    split
    · exact .refl s
    · next x _ =>
      have m : s.Moves ((s.stage (headerKey c.dump c.kind.index)
          (journalHeaderPage c.dump x { c with headerPassed := true })).setJournal d
          { s.journal d with copier := some { c with headerPassed := true } }) := by
        refine (s.stage_moves _ _).trans (.setJournal _ d _ fun b hb => ⟨c, hc, ?_⟩)
        cases hb
        exact ⟨rfl, rfl, rfl, id⟩
      obtain ⟨-, -, hfill⟩ := h.copies d c hc
      exact m.trans (State.copyTest_moves _ d { c with headerPassed := true } fun y hy => (m.fills hf hfill y hy).1)

theorem State.copierData_moves {s : State} (hf : s.Filed) (h : s.SectionLaw) (d : Dom) (k : PageKey) :
    s.Moves (s.copierData d k) := by
  unfold State.copierData
  dsimp only
  split
  · exact .refl s
  · next c hc =>
    obtain ⟨-, hle, hfill⟩ := h.copies d c hc
    have hcop : c.copied + min 64 (c.count - c.copied) ≤ c.count := by omega
    generalize hn : c.copied + min 64 (c.count - c.copied) = copied at hcop ⊢
    generalize hb : (Journal.nextRecords (s.journal d) c).flatMap EventRecord.bytes = bytes
    have m : s.Moves (((s.stage k bytes).updSection c.dump c.kind.index fun r => { r with written := 64 * copied }).setJournal d
        { s.journal d with copier := some { c with copied := copied, crc := crc32Feed c.crc bytes } }) := by
      refine State.Moves.trans ?_ (.setJournal _ d _ fun b hb => ⟨c, hc, ?_⟩)
      · refine (s.stage_moves k bytes).trans (.updSection _ _ _ _ fun x hx => .write_fixed (hfill x hx) (by omega))
      · cases hb
        exact ⟨rfl, rfl, rfl, fun _ => hcop⟩
    exact m.trans (State.copyTest_moves _ d { c with copied := copied, crc := crc32Feed c.crc bytes }
      fun y hy => (m.fills hf hfill y hy).1)

theorem State.latchGiven_moves {s : State} (n : Num) (hx : ∀ x, s.sect n 0 = some x → x.fills 4096) :
    s.Moves (s.latchGiven n) := by
  unfold State.latchGiven
  dsimp only
  split
  · exact .refl s
  · split
    · next x bytes _ _ =>
      refine State.Moves.trans ?_ (State.sectionEnded_moves _ _ _ _)
      refine State.Moves.trans ?_ (.leaves (State.setWork_leaves _ _ _))
      refine State.Moves.trans ((s.stage_moves (headerKey n 0) (sectionHeaderPage n x)).trans (State.stage_moves _ (dataKey n 0 1) bytes))
        (.updSection _ n 0 _ fun y hy => ?_)
      have hy' := hx y hy
      exact (SectionRecord.Moves.write_fixed hy' (n := Config.pageBytes) le_rfl).trans
        (.end_fixed (x := { y with written := Config.pageBytes }) hy'.1 _)
    · exact .refl s

theorem State.dumpHeaderGiven_moves (s : State) (n : Num) : s.Moves (s.dumpHeaderGiven n) := by
  unfold State.dumpHeaderGiven
  split
  · exact s.stage_moves _ _
  · exact .refl s

theorem State.manifestGiven_moves (s : State) (k : PageKey) : s.Moves (s.manifestGiven k) := by
  unfold State.manifestGiven
  split
  · exact s.stage_moves _ _
  · exact .refl s

/-! ### Requests for pages (R110, R131) -/

theorem State.SectionLaw.finished_of_copier {s : State} (h : s.SectionLaw) {d : Dom} {c : Copy}
    (hc : (s.journal d).copier = some c) : s.startUp = .finished := by
  by_contra hu
  rw [(h.starting hu).2.1 d] at hc
  cases hc

theorem State.SectionLaw.finished_of_job {s : State} (h : s.SectionLaw) {c : Fin 4} {j : Job}
    (hj : (s.channel c).job = some j) : s.startUp = .finished := by
  by_contra hu
  rw [(h.starting hu).1 c] at hj
  cases hj

theorem State.Filed.finished {s : State} (h : s.Filed) {d : Dom} {n : Num} (hn : (s.domain d).openDump = some n) :
    s.startUp = .finished := by
  by_contra hu
  rw [h.starting hu d] at hn
  cases hn

theorem State.copierStep_spec {s t : State} {d : Dom} (e : s.copierStep d = some t) :
    ∃ c ks, (s.journal d).copier = some c ∧ t = s.askPages (.copier d) ks := by
  unfold State.copierStep at e
  split at e
  · cases e
  · next c hc =>
    split at e <;> cases e
    exact ⟨c, _, hc, rfl⟩

theorem State.copierStep_moves {s t : State} (h : s.SectionLaw) {d : Dom} (e : s.copierStep d = some t) : s.Moves t := by
  obtain ⟨c, ks, hc, rfl⟩ := State.copierStep_spec e
  exact .askPages s _ _ (h.finished_of_copier hc) (Holder.not_forLatches (fun h => by cases h))

theorem State.manifestStep_spec {s t : State} {d : Dom} (e : s.manifestStep d = some t) :
    ∃ n w i, (s.domain d).openDump = some n ∧ t = (s.setWork d w).askPages .directory [manifestKey n i] := by
  unfold State.manifestStep at e
  dsimp only at e
  split at e
  · next n _ hn =>
    split at e <;> cases e
    exact ⟨n, _, _, hn, rfl⟩
  · cases e

theorem State.manifestStep_moves {s t : State} (hf : s.Filed) {d : Dom} (e : s.manifestStep d = some t) : s.Moves t := by
  obtain ⟨n, w, i, hn, rfl⟩ := State.manifestStep_spec e
  refine State.Moves.trans (.leaves (State.setWork_leaves _ _ _)) (.askPages _ _ _ (hf.finished hn) ?_)
  rintro ⟨-, k, hk, -, hm⟩
  cases hk
  exact hm rfl

theorem State.buildManifest_moves (s : State) (d : Dom) (n : Num) : s.Moves (s.buildManifest d n) := by
  unfold State.buildManifest
  dsimp only
  refine (State.Moves.updEntry s n (fun e => { e with
    closeTime := some s.partTime, countersAtClose := some (s.domain d).counters }) fun _ => ⟨rfl, rfl, rfl, rfl⟩).trans ?_
  split
  · exact .leaves (State.setWork_leaves _ _ _)
  · exact .refl _

/-! ### Copies that start (R109, R111) -/

/-- A copy starts on a fixed section that has the room for its records. -/
theorem State.SectionLaw.startCopy {s : State} (h : s.SectionLaw) (d : Dom) (j : Journal) (c : Copy)
    (hu : s.startUp = .finished) (hc : j.copier = some c) (hn : c.dump < s.directory.nextNumber) (hle : c.copied ≤ c.count)
    (hf : ∀ x, s.sect c.dump c.kind.index = some x → x.fills (64 * c.count)) : (s.setJournal d j).SectionLaw where
  sections := h.sections
  fixed := h.fixed
  idle := h.idle
  channels c j hj := (h.channels c j hj).laid.law (h.channels c j hj).number (h.channels c j hj).sect
  distinct := h.distinct
  reads e i r hr := ⟨(h.reads e i r hr).granules, (h.reads e i r hr).hand⟩
  readsApart := h.readsApart
  copies e b hb := by
    rw [State.setJournal_journal] at hb
    split at hb
    · rw [hc] at hb
      cases hb
      exact ⟨hn, hle, hf⟩
    · exact h.copies e b hb
  latches := h.latches
  starting k := absurd hu k

/-- The latch snapshot's pages are asked for (R119). -/
theorem State.SectionLaw.askLatches {s : State} (h : s.SectionLaw) (ks : List PageKey) (hu : s.startUp = .finished)
    (hk : ∀ k, ks.head? = some k → k.dump < s.directory.nextNumber ∧ ∀ x, s.sect k.dump 0 = some x → x.fills 4096) :
    (s.askPages .directory ks).SectionLaw where
  sections := h.sections
  fixed := h.fixed
  idle := h.idle
  channels c j hj := (h.channels c j hj).laid.law (h.channels c j hj).number (h.channels c j hj).sect
  distinct := h.distinct
  reads e i r hr := ⟨(h.reads e i r hr).granules, (h.reads e i r hr).hand⟩
  readsApart := h.readsApart
  copies := h.copies
  latches r hr hh k hkr k1 k2 := by
    rcases List.mem_append.1 hr with hr | hr
    · exact h.latches r hr hh k hkr k1 k2
    · rw [List.mem_singleton] at hr
      subst hr
      exact hk k hkr
  starting k := absurd hu k

/-- A fixed section of an OPEN dump, by its place (R124). -/
theorem State.SectionLaw.fixed_of_opened {s : State} (h : s.SectionLaw) (hf : s.Filed) {e : DumpEntry}
    (he : e ∈ s.directory.entries) (ho : e.state = .opened) {i : Nat} {x : SectionRecord} (hi : i < 3)
    (hx : s.sect e.number i = some x) :
    [(SectionKind.latch, 4096), (.journalPre, 131072), (.journalPost, 32768)][i]? = some (x.kind, x.admitted) := by
  rw [State.sect_of_dump (hf.dump_of_mem he)] at hx
  rw [← (h.fixed e he ho).1, List.getElem?_map, List.getElem?_take, if_pos hi, hx]
  rfl

/-- A fixed section is taken up: from PENDING or anything else to ACTIVE. -/
theorem SectionRecord.Moves.start_fixed {x : SectionRecord} (hk : x.kind ≠ .region) (t : Option Time) :
    x.Moves { x with state := .active, startTime := t } :=
  ⟨rfl, rfl, fun h => ⟨h.lengths, h.truncated, (fun h => by cases h), by simp, h.holeCount, h.holeOrder, h.holeBounds, h.fixedWhole⟩,
    fun _ => ⟨rfl, fun _ _ => ⟨(fun h => by cases h), (fun h => by cases h)⟩⟩, fun h => absurd h hk⟩

theorem Journal.postFigures_count (j : Journal) : j.postFigures.count ≤ 512 := Nat.min_le_right _ _

/-- The section record that a change of one section leaves there. -/
theorem State.updSection_sect_self (s : State) (n : Num) (i : Nat) (g : SectionRecord → SectionRecord) :
    (s.updSection n i g).sect n i = (s.sect n i).map g := by
  have : (s.updSection n i g).dump n = (s.dump n).map fun e => { e with sections := e.sections.modify i g } :=
    s.updDump_find n _ fun _ => rfl
  unfold State.sect DumpEntry.sect
  rw [this]
  cases s.dump n <;> simp

/-- The post-copy starts (R111, R130): its section has room for 512 records. -/
theorem State.SectionLaw.startPost {s : State} (h : s.SectionLaw) (hf : s.Filed) (d : Dom) {e : DumpEntry}
    (he : s.openEntry d = some e) : (s.startPost d e.number).SectionLaw := by
  obtain ⟨hm, hop, -, hst⟩ := hf.openEntry he
  have hu := hf.finished hop
  have hpost (x : SectionRecord) (hx : s.sect e.number 2 = some x) : x.kind = .journalPost ∧ x.admitted = 32768 := by
    have := h.fixed_of_opened hf hm hst (by decide) hx
    simp only [List.getElem?_cons_succ, List.getElem?_cons_zero, Option.some.injEq, Prod.mk.injEq] at this
    exact ⟨this.1.symm, this.2.symm⟩
  generalize hu1 : s.updDump e.number (fun e =>
    { e with postCounts := some (BitVec.ofNat 32 (s.journal d).postFigures.lost,
                                 BitVec.ofNat 32 (s.journal d).postFigures.overflow) }) = u
  have m1 : s.Moves u := hu1 ▸ .updEntry _ _ _ fun _ => ⟨rfl, rfl, rfl, rfl⟩
  have hk (x : SectionRecord) (hx : u.sect e.number 2 = some x) : x.kind = .journalPost ∧ x.admitted = 32768 := by
    obtain ⟨y, hy, hyx⟩ := m1.sect hf hx
    obtain ⟨h1, h2⟩ := hpost y hy
    exact ⟨hyx.kind.trans h1, (hyx.fixed (by rw [h1]; decide)).1.trans h2⟩
  have m2 : u.Moves (u.updSection e.number 2 fun r => { r with state := .active, startTime := some s.partTime }) :=
    .updSection _ _ _ _ fun x hx => .start_fixed (by rw [(hk x hx).1]; decide) _
  have m := m1.trans m2
  have hl := (h.moves hf m).startCopy d ((s.journal d).startPost e.number s.partTime) _ (by rw [m.startUp]; exact hu) rfl
    (by rw [m.next]; exact hf.next e hm) (Nat.zero_le _) fun y hy => by
      rw [show CopyKind.index _ = 2 from rfl, State.updSection_sect_self] at hy
      obtain ⟨x, hx, rfl⟩ := Option.map_eq_some_iff.1 hy
      obtain ⟨h1, h2⟩ := hk x hx
      have := (s.journal d).postFigures_count
      exact ⟨by rw [h1]; decide, (fun h => by cases h), (fun h => by cases h), by show 64 * (s.journal d).postFigures.count ≤ x.admitted; omega⟩
  have hs : s.startPost d e.number = State.askPages (State.setJournal (u.updSection e.number 2 fun r =>
      { r with state := .active, startTime := some s.partTime }) d ((s.journal d).startPost e.number s.partTime))
      (.copier d) [headerKey e.number 2] := by
    rw [← hu1]
    rfl
  rw [hs]
  refine hl.moves ((m.filed hf).of_still rfl (fun _ => rfl) rfl)
    (.askPages _ _ _ (m.startUp.trans hu) (Holder.not_forLatches (fun h => by cases h)))

end Sys2Proof.Machine
end

