-- ==== Sys2Proof/Proofs/ReadProgress.lean ====
section
/-! SUPPORT. The handled front, the extents above it and the hole list (R66, R73): what the end of a read makes of them. -/
namespace Sys2Proof.Machine

/-! ### The hole list (R73) -/

/-- A lawful hole list of a section with so many written bytes. -/
structure HolesWithin (holes : List Hole) (written : Nat) : Prop where
  count : holes.length ≤ 32
  order : holes.Pairwise fun h k => h.offset + h.length ≤ k.offset
  bounds : ∀ h ∈ holes, 1 ≤ h.length ∧ h.offset + h.length ≤ written

theorem HolesWithin.mono {holes : List Hole} {m n : Nat} (h : HolesWithin holes m) (hmn : m ≤ n) : HolesWithin holes n :=
  ⟨h.count, h.order, fun x hx => ⟨(h.bounds x hx).1, (h.bounds x hx).2.trans hmn⟩⟩

/-- A hole list whose last entry is stretched to a new end. -/
theorem HolesWithin.stretch {init : List Hole} {l m : Hole} {a b : Nat} (h : HolesWithin (init ++ [l]) a)
    (ho : m.offset = l.offset) (hl : l.length ≤ m.length) (hb : m.offset + m.length ≤ b) (hab : a ≤ b) :
    HolesWithin (init ++ [m]) b := by
  obtain ⟨hc, hp, hbd⟩ := h
  rw [List.pairwise_append] at hp
  have hl1 := (hbd l (by simp)).1
  refine ⟨by simpa using hc, List.pairwise_append.2 ⟨hp.1, List.pairwise_singleton _ _, fun x hx y hy => ?_⟩, fun x hx => ?_⟩
  · rw [List.mem_singleton] at hy
    rw [hy, ho]
    exact hp.2.2 x hx l (by simp)
  · rcases List.mem_append.1 hx with hx | hx
    · obtain ⟨h1, h2⟩ := hbd x (List.mem_append_left _ hx)
      exact ⟨h1, h2.trans hab⟩
    · rw [List.mem_singleton] at hx
      subst hx
      exact ⟨hl1.trans hl, hb⟩

/-- A hole that begins where the handled front stood enters the list (R73). -/
theorem enterHole_within {holes : List Hole} {a : Nat} (h : HolesWithin holes a) (o : Bool) (x : Hole)
    (hx : x.offset = a) (hl : 1 ≤ x.length) : HolesWithin (enterHole holes o x).1 (a + x.length) := by
  unfold enterHole
  split
  · refine ⟨by simp, List.pairwise_singleton _ _, fun y hy => ?_⟩
    rw [List.mem_singleton] at hy
    subst hy
    exact ⟨hl, by rw [hx]⟩
  · next l hlast =>
    have he : holes.dropLast ++ [l] = holes := List.dropLast_append_getLast? l hlast
    have hs : HolesWithin (holes.dropLast ++ [l]) a := he.symm ▸ h
    have hb := h.bounds l (List.mem_of_getLast? hlast)
    split
    · next hm =>
      exact hs.stretch rfl (Nat.le_add_right _ _) ((Nat.add_assoc _ _ _).ge.trans (Nat.add_le_add_right hb.2 _))
        (Nat.le_add_right _ _)
    · split
      · next hc =>
        refine ⟨by rw [List.length_append]; exact hc, List.pairwise_append.2 ⟨h.order, List.pairwise_singleton _ _, fun y hy z hz => ?_⟩,
          fun y hy => ?_⟩
        · rw [List.mem_singleton] at hz
          rw [hz, hx]
          exact (h.bounds y hy).2
        · rcases List.mem_append.1 hy with hy | hy
          · obtain ⟨h1, h2⟩ := h.bounds y hy
            exact ⟨h1, h2.trans (Nat.le_add_right _ _)⟩
          · rw [List.mem_singleton] at hy
            subst hy
            exact ⟨hl, by rw [hx]⟩
      · have hend : l.offset + l.length ≤ x.offset + x.length := hb.2.trans (hx ▸ Nat.le_add_right _ _)
        exact hs.stretch rfl (Nat.le_sub_of_add_le' hend)
          ((Nat.add_sub_of_le ((Nat.le_add_right _ _).trans hend)).le.trans (by rw [hx])) (Nat.le_add_right _ _)

/-! ### The handled front and what is above it (R66) -/

/-- Two runs of section offsets without a byte in common. -/
def Extent.Apart (x y : Extent) : Prop := x.offset + x.length ≤ y.offset ∨ y.offset + y.length ≤ x.offset

theorem Extent.Apart.symm {x y : Extent} (h : x.Apart y) : y.Apart x := Or.symm h

/-- The extent of a read in hand. -/
noncomputable def HandRead.extent (r : HandRead) : Extent := { offset := r.offset, length := r.length }

/-- An extent between a front and a fetch position. -/
def Extent.Within (x : Extent) (lo hi : Nat) : Prop := 1 ≤ x.length ∧ lo ≤ x.offset ∧ x.offset + x.length ≤ hi

/-- Prefix, extents above it and holes, apart from one another and from some reads in hand, below a fetch position. -/
structure Progress.Laid (p : Progress) (rs : List HandRead) (top : Nat) : Prop where
  ordered : p.handled ≤ top
  hand : ∀ r ∈ rs, r.extent.Within p.handled top
  above : ∀ x ∈ p.above, x.Within p.handled top
  aboveApart : p.above.Pairwise Extent.Apart
  bothApart : ∀ r ∈ rs, ∀ x ∈ p.above, r.extent.Apart x
  holesAbove : ∀ h ∈ p.holesAbove, ∃ x ∈ p.above, x.offset = h.offset ∧ x.length = h.length
  holesApart : p.holesAbove.Pairwise fun h k => h.offset ≠ k.offset
  holes : HolesWithin p.holes p.handled

/-- Members of a list without repetition under a symmetric relation stand in it to the one taken out. -/
theorem pairwise_erase {α : Type} [BEq α] [LawfulBEq α] {R : α → α → Prop} (hs : ∀ {x y}, R x y → R y x) {l : List α}
    (h : l.Pairwise R) {x : α} (hx : x ∈ l) : (l.erase x).Pairwise R ∧ ∀ y ∈ l.erase x, R x y := by
  have := (List.perm_cons_erase hx).pairwise h hs
  rw [List.pairwise_cons] at this
  exact this.symm

/-- An extent that begins where the front stands is passed, and the others stay above it. -/
theorem Extent.Apart.above_front {x y : Extent} {a top : Nat} (hx : x.offset = a) (h : x.Apart y)
    (hy : y.Within a top) : y.Within (a + x.length) top := by
  obtain ⟨h1, h2, h3⟩ := hy
  refine ⟨h1, ?_, h3⟩
  rcases h with h | h <;> omega

theorem Progress.Laid.absorb {p q : Progress} {rs : List HandRead} {top : Nat} (h : p.Laid rs top)
    (e : p.absorb = some q) : q.Laid rs top := by
  unfold Progress.absorb at e
  split at e
  · cases e
  · next x hx =>
    have hxm : x ∈ p.above := List.mem_of_find?_eq_some hx
    have hxo : x.offset = p.handled := by simpa using List.find?_some hx
    have hxw := h.above x hxm
    obtain ⟨hap, hxa⟩ := pairwise_erase Extent.Apart.symm h.aboveApart hxm
    have hmem {y : Extent} (hy : y ∈ p.above.erase x) : y ∈ p.above := List.mem_of_mem_erase hy
    have hkeep {k : Hole} (hk : k ∈ p.holesAbove) (hne : k.offset ≠ p.handled) :
        ∃ y ∈ p.above.erase x, y.offset = k.offset ∧ y.length = k.length := by
      obtain ⟨y, hy, ho, hl⟩ := h.holesAbove k hk
      refine ⟨y, (List.mem_erase_of_ne ?_).2 hy, ho, hl⟩
      rintro rfl
      exact hne (ho.symm.trans hxo)
    have moved (ha : List Hole) (hs : List Hole) (o : Bool)
        (h1 : ∀ k ∈ ha, ∃ y ∈ p.above.erase x, y.offset = k.offset ∧ y.length = k.length)
        (h2 : ha.Pairwise fun a b => a.offset ≠ b.offset) (h3 : HolesWithin hs (p.handled + x.length)) :
        Progress.Laid { handled := p.handled + x.length, above := p.above.erase x, holesAbove := ha, holes := hs, overflow := o }
          rs top := by
      refine ⟨hxo ▸ hxw.2.2, fun r hr => ?_, fun y hy => (hxa y hy).above_front hxo (h.above y (hmem hy)), hap,
        fun r hr y hy => h.bothApart r hr y (hmem hy), h1, h2, h3⟩
      exact (h.bothApart r hr x hxm).symm.above_front hxo (h.hand r hr)
    dsimp only at e
    split at e
    · next hn =>
      cases e
      refine moved _ _ _ (fun k hk => hkeep hk ?_) h.holesApart (h.holes.mono (Nat.le_add_right _ _))
      simpa using List.find?_eq_none.1 hn k hk
    · next k hk =>
      cases e
      have hkm : k ∈ p.holesAbove := List.mem_of_find?_eq_some hk
      have hko : k.offset = p.handled := by simpa using List.find?_some hk
      obtain ⟨hha, hkd⟩ := pairwise_erase (fun h => Ne.symm h) h.holesApart hkm
      have hlen : k.length = x.length := by
        obtain ⟨y, hy, ho, hl⟩ := h.holesAbove k hkm
        by_cases hyx : y = x
        · rw [← hl, hyx]
        · have hya := hxa y ((List.mem_erase_of_ne hyx).2 hy)
          have hyw := h.above y hy
          obtain ⟨h1, -, -⟩ := hxw
          obtain ⟨h2, -, -⟩ := hyw
          rcases hya with hya | hya <;> omega
      refine moved _ _ _ (fun m hm => hkeep (List.mem_of_mem_erase hm) ?_) hha ?_
      · rw [← hko]
        exact (hkd m hm).symm
      · rw [← hlen]
        exact enterHole_within h.holes _ k hko (hlen ▸ hxw.1)

theorem Progress.Laid.run {p : Progress} {rs : List HandRead} {top : Nat} (h : p.Laid rs top) (n : Nat) :
    (Progress.run n p).Laid rs top := by
  induction n generalizing p with
  | zero => exact h
  | succ n ih =>
    unfold Progress.run
    split
    · next q hq => exact ih (h.absorb hq)
    · exact h

/-- The end of a read over an extent, with or without a hole, where the extent is apart from the others and from the reads
that stay in hand (R66). -/
theorem Progress.Laid.mark {p : Progress} {rs : List HandRead} {top : Nat} (h : p.Laid rs top) (x : Extent)
    (hole : Option HoleCause) (hx : x.Within p.handled top) (ha : ∀ y ∈ p.above, y.Apart x)
    (hh : ∀ r ∈ rs, r.extent.Apart x) : (p.mark x hole).Laid rs top := by
  unfold Progress.mark
  dsimp only
  apply Progress.Laid.run
  refine ⟨h.ordered, h.hand, fun y hy => ?_, ?_, fun r hr y hy => ?_, fun k hk => ?_, ?_, h.holes⟩
  · rcases List.mem_append.1 hy with hy | hy
    · exact h.above y hy
    · rw [List.mem_singleton] at hy
      exact hy ▸ hx
  · refine List.pairwise_append.2 ⟨h.aboveApart, List.pairwise_singleton _ _, fun y hy z hz => ?_⟩
    rw [List.mem_singleton] at hz
    exact hz ▸ ha y hy
  · rcases List.mem_append.1 hy with hy | hy
    · exact h.bothApart r hr y hy
    · rw [List.mem_singleton] at hy
      exact hy ▸ hh r hr
  · have old (hk : k ∈ p.holesAbove) : ∃ y ∈ p.above ++ [x], y.offset = k.offset ∧ y.length = k.length := by
      obtain ⟨y, hy, ho⟩ := h.holesAbove k hk
      exact ⟨y, List.mem_append_left _ hy, ho⟩
    cases hole with
    | none => exact old hk
    | some c =>
      rcases List.mem_append.1 hk with hk | hk
      · exact old hk
      · rw [List.mem_singleton] at hk
        exact ⟨x, by simp, by rw [hk], by rw [hk]⟩
  · cases hole with
    | none => exact h.holesApart
    | some c =>
      refine List.pairwise_append.2 ⟨h.holesApart, List.pairwise_singleton _ _, fun k hk m hm => ?_⟩
      rw [List.mem_singleton] at hm
      obtain ⟨y, hy, ho, -⟩ := h.holesAbove k hk
      obtain ⟨h1, -, -⟩ := h.above y hy
      obtain ⟨h2, -, -⟩ := hx
      rw [hm, ← ho]
      show y.offset ≠ x.offset
      rcases ha y hy with k | k <;> omega

end Sys2Proof.Machine
end

