-- ==== Sys2Proof/Proofs/SectionRework.lean ====
section
/-! SUPPORT. A section and the channel that holds it changed together (R57, R60, R66, R74). -/
namespace Sys2Proof.Machine

/-! ### Lookups after a change of one section -/

theorem State.updDump_dump_other (s : State) {n m : Num} (h : m ≠ n) (f : DumpEntry → DumpEntry)
    (hf : ∀ e, (f e).number = e.number) : (s.updDump n f).dump m = s.dump m := by
  simp only [State.updDump, State.dump]
  induction s.directory.entries with
  | nil => rfl
  | cons x xs ih =>
    simp only [List.map_cons, List.find?_cons]
    by_cases hx : x.number = n
    · have hxm : (x.number == m) = false := by rw [hx]; simpa using h.symm
      have hfm : ((f x).number == m) = false := by rw [hf]; exact hxm
      rw [if_pos hx, hxm, hfm]
      exact ih
    · rw [if_neg hx, ih]

theorem State.updSection_sect (s : State) (n m : Num) (i k : Nat) (g : SectionRecord → SectionRecord) :
    (s.updSection n i g).sect m k = if m = n ∧ k = i then (s.sect n i).map g else s.sect m k := by
  by_cases hm : m = n
  · subst hm
    have hd : (s.updSection m i g).dump m = (s.dump m).map fun e => { e with sections := e.sections.modify i g } :=
      s.updDump_find m _ fun _ => rfl
    unfold State.sect DumpEntry.sect
    rw [hd]
    by_cases hk : k = i
    · subst hk
      cases s.dump m <;> simp
    · rw [if_neg (fun h => hk h.2)]
      cases s.dump m with
      | none => rfl
      | some e => simp [Ne.symm hk]
  · rw [if_neg (fun h => hm h.1)]
    have hd : (s.updSection n i g).dump m = s.dump m := s.updDump_dump_other hm _ fun _ => rfl
    unfold State.sect
    rw [hd]

/-- A change of one section that changes nothing. -/
theorem State.updSection_id (s : State) (n : Num) (i : Nat) : s.updSection n i id = s := by
  simp [State.updSection, State.updDump]

/-- The entries after a change of one section: those before, with that section of its dump changed. -/
theorem State.Filed.updSection_entries {s : State} (h : s.Filed) (n : Num) (i : Nat) (g : SectionRecord → SectionRecord)
    {f : DumpEntry} (hf : f ∈ (s.updSection n i g).directory.entries) :
    ∃ e ∈ s.directory.entries, f.number = e.number ∧ f.state = e.state ∧ f.sections.length = e.sections.length ∧
      ∀ (k : Nat) (y : SectionRecord), f.sections[k]? = some y →
        ∃ x, e.sections[k]? = some x ∧ (y = x ∨ (e.number = n ∧ k = i ∧ s.sect n i = some x ∧ y = g x)) := by
  obtain ⟨e, he, rfl⟩ := List.mem_map.1 hf
  refine ⟨e, he, by split <;> rfl, by split <;> rfl, by split <;> simp, fun k y hy => ?_⟩
  split at hy
  · next hn =>
    simp only [List.getElem?_modify] at hy
    obtain ⟨x, hx, hxy⟩ := Option.map_eq_some_iff.1 hy
    refine ⟨x, hx, ?_⟩
    by_cases hik : i = k
    · subst hik
      rw [if_pos rfl] at hxy
      refine .inr ⟨hn, rfl, ?_, hxy.symm⟩
      rw [← hn, State.sect_of_dump (h.dump_of_mem he), hx]
    · rw [if_neg hik] at hxy
      exact .inl hxy.symm
  · exact ⟨y, hy, .inl rfl⟩

/-- Fixed sections stay where only REGION sections change (R124). -/
theorem fixed_of_regions {xs ys : List SectionRecord} {l : List (SectionKind × Nat)} (hl : ∀ p ∈ l, p.1 ≠ .region)
    (hx : (xs.take 3).map (fun x => (x.kind, x.admitted)) = l) (hc : ys.length = xs.length)
    (h : ∀ (k : Nat) (y : SectionRecord), ys[k]? = some y → ∃ x, xs[k]? = some x ∧ (y = x ∨ x.kind = .region)) :
    (ys.take 3).map (fun x => (x.kind, x.admitted)) = l := by
  rw [← hx]
  apply List.ext_getElem?
  intro k
  simp only [List.getElem?_map, List.getElem?_take]
  split
  · next hk =>
    cases hy : ys[k]? with
    | none =>
      rw [List.getElem?_eq_none_iff] at hy
      rw [List.getElem?_eq_none_iff.2 (by omega)]
    | some y =>
      obtain ⟨x, hxk, hyx⟩ := h k y hy
      rw [hxk]
      rcases hyx with rfl | hr
      · rfl
      · refine absurd hr (hl (x.kind, x.admitted) ?_)
        rw [← hx]
        refine List.mem_map.2 ⟨x, List.mem_of_getElem? (i := k) ?_, rfl⟩
        rw [List.getElem?_take, if_pos hk, hxk]
  · rfl

/-- A channel that holds no section, or holds one and is laid out in it. -/
structure State.Takes (s : State) (n : Num) (i : Nat) (ch : Channel) (j : Job) : Prop where
  dump : j.dump = n
  index : j.index = i
  number : n < s.directory.nextNumber
  laid : ch.Laid j
  started : s.startUp = .finished

/-- A REGION section changed so that it is lawful and, where the channel holds it, ACTIVE and written as far as the channel
has handled. -/
structure SectionRecord.Reworked (x y : SectionRecord) (ch : Channel) : Prop where
  region : x.kind = .region
  kind : y.kind = x.kind
  index : y.index = x.index
  lawful : x.Lawful → y.Lawful
  held : ∀ j, ch.job = some j → y.state = .active ∧ y.admitted = j.admitted ∧ y.written = ch.handled

/-- A channel's outstanding read, in the hand of the channel as it is to be. -/
def Channel.answersFor (ch : Channel) (d : Dom) (q : LinkRead) : Prop :=
  ∃ j x, ch.job = some j ∧ j.domain = d ∧ x ∈ ch.hand ∧ x.outstanding = true ∧ j.base + x.offset = q.address
    ∧ x.length = q.length

/-- A section that no other channel holds and the channel that holds it, changed together, keep the section law. -/
theorem State.SectionLaw.rework {s : State} (h : s.SectionLaw) (hf : s.Filed) (n : Num) (i : Nat)
    (g : SectionRecord → SectionRecord) (c : Fin 4) (ch : Channel)
    (hown : ∀ e k, e ≠ c → (s.channel e).job = some k → k.dump = n → k.index = i → False)
    (hidle : ch.state = .idle → ch.job = none) (hjob : ∀ j, ch.job = some j → s.Takes n i ch j)
    (hsect : ∀ x, s.sect n i = some x → x.Reworked (g x) ch)
    (hreads : ∀ d (k : Fin 2) q, (s.link d).positions[k] = some q → q.channel = c → ch.answersFor d q) :
    ((s.updSection n i g).setChannel c ch).SectionLaw := by
  have hchan (e : Fin 4) : ((s.updSection n i g).setChannel c ch).channel e = if e = c then ch else s.channel e := by
    rw [State.setChannel_channel, State.updSection_channel]
  have hsec (m : Num) (k : Nat) : ((s.updSection n i g).setChannel c ch).sect m k
      = if m = n ∧ k = i then (s.sect n i).map g else s.sect m k := s.updSection_sect n m i k g
  have hent (f : DumpEntry) (hfm : f ∈ ((s.updSection n i g).setChannel c ch).directory.entries) :=
    hf.updSection_entries n i g hfm
  have hnext : ((s.updSection n i g).setChannel c ch).directory.nextNumber = s.directory.nextNumber := rfl
  have hlink (d : Dom) : ((s.updSection n i g).setChannel c ch).link d = s.link d := rfl
  have hjournal (d : Dom) : ((s.updSection n i g).setChannel c ch).journal d = s.journal d := rfl
  have hstaging : ((s.updSection n i g).setChannel c ch).staging = s.staging := rfl
  have hstart : ((s.updSection n i g).setChannel c ch).startUp = s.startUp := rfl
  generalize (s.updSection n i g).setChannel c ch = t at hchan hsec hent hnext hlink hjournal hstaging hstart ⊢
  have hheld (e : Fin 4) (he : e ≠ c) : t.channel e = s.channel e := (hchan e).trans (if_neg he)
  have hself : t.channel c = ch := (hchan c).trans (if_pos rfl)
  have hfills {m : Num} {k b : Nat} (hb : ∀ x, s.sect m k = some x → x.fills b) (y : SectionRecord)
      (hy : t.sect m k = some y) : y.fills b := by
    rw [hsec] at hy
    split at hy
    · next hmk =>
      obtain ⟨x, hx, -⟩ := Option.map_eq_some_iff.1 hy
      exact absurd (hsect x hx).region (hb x (by rw [hmk.1, hmk.2, hx])).1
    · exact hb y hy
  have hother {e : Fin 4} {j k : Job} (hj : ch.job = some j) (hk : (s.channel e).job = some k) (hd : k.dump = j.dump)
      (hi : k.index = j.index) : e = c := by
    by_contra he
    exact hown e k he hk (hd.trans (hjob j hj).dump) (hi.trans (hjob j hj).index)
  refine ⟨fun f hfm y hy => ?_, fun f hfm ho => ?_, fun e he => ?_, fun e j hj => ?_, fun a b j k hj hk hd hi => ?_,
    fun d k q hq => ?_, fun d => hlink d ▸ h.readsApart d, fun d b hb => ?_, fun r hr hh k hk k1 k2 => ?_, fun hu => ?_⟩
  · obtain ⟨e, he, -, -, -, hs⟩ := hent f hfm
    obtain ⟨k, hk⟩ := List.mem_iff_getElem?.1 hy
    obtain ⟨x, hx, hxy⟩ := hs k y hk
    have hl := h.sections e he x (List.mem_of_getElem? hx)
    rcases hxy with hyx | ⟨-, -, hsx, hyx⟩
    · exact hyx ▸ hl
    · exact hyx ▸ (hsect x hsx).lawful hl
  · obtain ⟨e, he, -, hst, hcount, hs⟩ := hent f hfm
    obtain ⟨hfix, hidx⟩ := h.fixed e he (hst ▸ ho)
    refine ⟨fixed_of_regions (by decide) hfix hcount fun k y hy => ?_, fun k y hy => ?_⟩
    · obtain ⟨x, hx, hyx | ⟨-, -, hsx, -⟩⟩ := hs k y hy
      · exact ⟨x, hx, .inl hyx⟩
      · exact ⟨x, hx, .inr (hsect x hsx).region⟩
    · obtain ⟨x, hx, hyx | ⟨-, -, hsx, hyx⟩⟩ := hs k y hy
      · exact hyx ▸ hidx k x hx
      · exact hyx ▸ (hsect x hsx).index.trans (hidx k x hx)
  · by_cases hec : e = c
    · rw [hec, hself] at he ⊢
      exact hidle he
    · rw [hheld e hec] at he ⊢
      exact h.idle e he
  · by_cases hec : e = c
    · rw [hec, hself] at hj ⊢
      have hk := hjob j hj
      refine hk.laid.law (hnext ▸ hk.dump ▸ hk.number) fun y hy => ?_
      rw [hsec, if_pos ⟨hk.dump, hk.index⟩] at hy
      obtain ⟨x, hx, hxy⟩ := Option.map_eq_some_iff.1 hy
      have hr := hsect x hx
      exact hxy ▸ ⟨hr.kind.trans hr.region, hr.held j hj⟩
    · rw [hheld e hec] at hj ⊢
      have hl := h.channels e j hj
      refine hl.laid.law (hnext ▸ hl.number) fun y hy => ?_
      rw [hsec, if_neg (fun hx => hown e j hec hj hx.1 hx.2)] at hy
      exact hl.sect y hy
  · by_cases ha : a = c <;> by_cases hb : b = c
    · rw [ha, hb]
    · rw [ha, hself] at hj
      rw [hheld b hb] at hk
      exact absurd (hother hj hk hd.symm hi.symm) hb
    · rw [hheld a ha] at hj
      rw [hb, hself] at hk
      exact absurd (hother hk hj hd hi) ha
    · rw [hheld a ha] at hj
      rw [hheld b hb] at hk
      exact h.distinct a b j k hj hk hd hi
  · rw [hlink] at hq
    refine ⟨(h.reads d k q hq).granules, ?_⟩
    by_cases hc : q.channel = c
    · rw [hc, hself]
      exact hreads d k q hq hc
    · rw [hheld _ hc]
      exact (h.reads d k q hq).hand
  · obtain ⟨hn, hle, hfill⟩ := h.copies d b (hjournal d ▸ hb)
    exact ⟨hnext ▸ hn, hle, hfills hfill⟩
  · obtain ⟨hn, hfill⟩ := h.latches r (hstaging ▸ hr) hh k hk k1 k2
    exact ⟨hnext ▸ hn, hfills hfill⟩
  · rw [hstart] at hu
    obtain ⟨hc, hj, hr⟩ := h.starting hu
    refine ⟨fun e => ?_, fun d => hjournal d ▸ hj d, hstaging ▸ hr⟩
    by_cases hec : e = c
    · rw [hec, hself]
      exact Option.eq_none_iff_forall_ne_some.2 fun j hj => hu (hjob j hj).started
    · rw [hheld e hec]
      exact hc e

end Sys2Proof.Machine
end

