-- ==== Sys2Proof/Proofs/ReadOutcomes.lean ====
section
/-! SUPPORT. The outcomes of reads (R66, R69 to R72, R76): a channel that takes one stays laid out, and its section follows. -/
namespace Sys2Proof.Machine

/-! ### The hand -/

/-- A channel with its hand replaced. -/
noncomputable def Channel.holding (ch : Channel) (rs : List HandRead) : Channel := { ch with hand := rs }

theorem Channel.Laid.holding_sublist {ch : Channel} {j : Job} (h : ch.Laid j) {rs : List HandRead}
    (hs : rs.Sublist ch.hand) : (ch.holding rs).Laid j :=
  ⟨h.ordered, fun r hr => h.hand r (hs.subset hr), h.handApart.sublist hs, h.above, h.aboveApart,
    fun r hr => h.bothApart r (hs.subset hr), h.holes, h.holesApart⟩

/-- Only the lists and the positions of a channel count. -/
theorem Channel.Laid.of_eq {x y : Channel} {j : Job} (h : x.Laid j) (h1 : y.handled = x.handled)
    (h2 : y.fetchPos = x.fetchPos) (h3 : y.hand = x.hand) (h4 : y.above = x.above) (h5 : y.holesAbove = x.holesAbove) :
    y.Laid j :=
  ⟨by rw [h1, h2]; exact h.ordered, by rw [h1, h2, h3]; exact h.hand, by rw [h3]; exact h.handApart,
    by rw [h1, h2, h4]; exact h.above, by rw [h4]; exact h.aboveApart, by rw [h3, h4]; exact h.bothApart,
    by rw [h4, h5]; exact h.holes, by rw [h5]; exact h.holesApart⟩

/-- Reads replaced by parts of themselves. -/
theorem Channel.Laid.holding_map {ch : Channel} {j : Job} (h : ch.Laid j) (f : HandRead → HandRead)
    (hf : ∀ r ∈ ch.hand, 1 ≤ (f r).length ∧ r.offset ≤ (f r).offset
      ∧ (f r).offset + (f r).length ≤ r.offset + r.length) : (ch.holding (ch.hand.map f)).Laid j := by
  refine ⟨h.ordered, fun q hq => ?_, ?_, h.above, h.aboveApart, fun q hq x hx => ?_, h.holes, h.holesApart⟩
  · obtain ⟨r, hr, rfl⟩ := List.mem_map.1 hq
    obtain ⟨h1, h2, h3⟩ := hf r hr
    obtain ⟨-, k2, k3⟩ := h.hand r hr
    exact ⟨h1, k2.trans h2, h3.trans k3⟩
  · refine List.pairwise_map.2 (h.handApart.imp_of_mem fun {r q} hr hq hrq => ?_)
    obtain ⟨-, h2, h3⟩ := hf r hr
    obtain ⟨-, k2, k3⟩ := hf q hq
    rcases hrq with hrq | hrq
    · exact .inl (h3.trans (hrq.trans k2))
    · exact .inr (k3.trans (hrq.trans h2))
  · obtain ⟨r, hr, rfl⟩ := List.mem_map.1 hq
    obtain ⟨-, h2, h3⟩ := hf r hr
    rcases h.bothApart r hr x hx with k | k
    · exact .inl (h3.trans k)
    · exact .inr (k.trans h2)

/-- Two reads in hand at different offsets have no byte in common. -/
theorem Channel.Laid.reads_apart {ch : Channel} {j : Job} (h : ch.Laid j) {r q : HandRead} (hr : r ∈ ch.hand)
    (hq : q ∈ ch.hand) (hne : r.offset ≠ q.offset) : r.extent.Apart q.extent :=
  (pairwise_erase (fun h => Or.symm h) h.handApart hr).2 q
    ((List.mem_erase_of_ne fun he => hne (by rw [he])).2 hq)

/-- Reads in hand at one offset are one read. -/
theorem Channel.Laid.read_ext {ch : Channel} {j : Job} (h : ch.Laid j) {r q : HandRead} (hr : r ∈ ch.hand)
    (hq : q ∈ ch.hand) (he : r.offset = q.offset) : r = q := by
  by_contra hne
  have := (pairwise_erase (fun h => Or.symm h) h.handApart hr).2 q ((List.mem_erase_of_ne (Ne.symm hne)).2 hq)
  obtain ⟨h1, -, -⟩ := h.hand r hr
  obtain ⟨k1, -, -⟩ := h.hand q hq
  rcases this with k | k <;> omega

/-! ### Handled extents (R66) -/

/-- What a channel and its section have handled. -/
noncomputable def Channel.progress (ch : Channel) (x : SectionRecord) : Progress :=
  { handled := ch.handled, above := ch.above, holesAbove := ch.holesAbove, holes := x.holes, overflow := x.holeOverflow }

/-- A channel that has come so far. -/
noncomputable def Channel.reached (ch : Channel) (p : Progress) : Channel :=
  { ch with handled := p.handled, above := p.above, holesAbove := p.holesAbove }

/-- A section that has been handled so far. -/
noncomputable def SectionRecord.reached (x : SectionRecord) (p : Progress) : SectionRecord :=
  { x with written := p.handled, holes := p.holes, holeOverflow := p.overflow }

theorem Channel.Laid.progress {ch : Channel} {j : Job} (h : ch.Laid j) {x : SectionRecord}
    (hx : HolesWithin x.holes ch.handled) : (ch.progress x).Laid ch.hand ch.fetchPos :=
  ⟨h.ordered.1, h.hand, h.above, h.aboveApart, h.bothApart, h.holes, h.holesApart, hx⟩

theorem Channel.Laid.reached {ch : Channel} {j : Job} (h : ch.Laid j) {p : Progress} (hp : p.Laid ch.hand ch.fetchPos) :
    (ch.reached p).Laid j :=
  ⟨⟨hp.ordered, h.ordered.2⟩, hp.hand, h.handApart, hp.above, hp.aboveApart, hp.bothApart, hp.holesAbove, hp.holesApart⟩

/-- What a handled extent makes of a section that its channel holds. -/
theorem SectionRecord.Reworked.reach {x : SectionRecord} {ch : Channel} {j : Job} {p : Progress} {rs : List HandRead}
    (hk : x.kind = .region) (hs : x.state = .active) (ha : x.admitted = j.admitted) (hp : p.Laid rs ch.fetchPos)
    (ht : ch.fetchPos ≤ j.admitted) {y : Channel} (hy : y.job = some j) (hh : y.handled = p.handled) :
    x.Reworked (x.reached p) y := by
  refine ⟨hk, rfl, rfl, fun h => ?_, fun k hk' => ?_⟩
  · refine ⟨⟨?_, h.lengths.2⟩, h.truncated, h.skipped, fun hf => ?_, hp.holes.count, hp.holes.order, hp.holes.bounds,
      fun hn => absurd hk hn⟩
    · show p.handled ≤ x.admitted
      exact ha ▸ hp.ordered.trans ht
    · exact absurd (show x.state = .pending ∨ x.state = .skipped from hf) (by rw [hs]; decide)
  · rw [hy] at hk'
    cases hk'
    exact ⟨hs, ha, hh.symm⟩

theorem State.handle_none {s : State} {c : Fin 4} {j : Job} (h : s.sect j.dump j.index = none) (e : Extent)
    (hole : Option HoleCause) : s.handle c j e hole = s := by
  unfold State.handle
  rw [h]

theorem State.handle_some {s : State} {c : Fin 4} {j : Job} {x : SectionRecord} (h : s.sect j.dump j.index = some x)
    (e : Extent) (hole : Option HoleCause) : s.handle c j e hole =
      (s.setChannel c ((s.channel c).reached (((s.channel c).progress x).mark e hole))).updSection j.dump j.index
        fun r => r.reached (((s.channel c).progress x).mark e hole) := by
  unfold State.handle
  rw [h]
  rfl

theorem State.reachSection_channel (s : State) (c : Fin 4) (x : Channel) (n : Num) (i : Nat)
    (g : SectionRecord → SectionRecord) : ((s.setChannel c x).updSection n i g).channel c = x := by simp

theorem State.reachSection_setChannel (s : State) (c : Fin 4) (x y : Channel) (n : Num) (i : Nat)
    (g : SectionRecord → SectionRecord) :
    ((s.setChannel c x).updSection n i g).setChannel c y = (s.updSection n i g).setChannel c y := by
  simp [State.setChannel, State.updSection, State.updDump]

/-- A section that a channel holds is held by no other. -/
theorem State.SectionLaw.alone {s : State} (h : s.SectionLaw) {c : Fin 4} {j : Job} (hj : (s.channel c).job = some j)
    (e : Fin 4) (k : Job) (he : e ≠ c) (hk : (s.channel e).job = some k) (hd : k.dump = j.dump) (hi : k.index = j.index) :
    False := he (h.distinct e c k j hk hj hd hi)

/-- The reads that a channel has outstanding are in a hand. -/
def State.OutstandingIn (s : State) (c : Fin 4) (j : Job) (rs : List HandRead) : Prop :=
  ∀ d (k : Fin 2) q, (s.link d).positions[k] = some q → q.channel = c →
    ∃ x ∈ rs, x.outstanding = true ∧ j.base + x.offset = q.address ∧ x.length = q.length

theorem State.OutstandingIn.answers {s : State} {c : Fin 4} {j : Job} {rs : List HandRead} (h : s.OutstandingIn c j rs)
    (hs : s.SectionLaw) (hj : (s.channel c).job = some j) {ch : Channel} (hc : ch.job = some j) (hh : ch.hand = rs)
    (d : Dom) (k : Fin 2) (q : LinkRead) (hq : (s.link d).positions[k] = some q) (hqc : q.channel = c) :
    ch.answersFor d q := by
  obtain ⟨x, hx, ho, ha, hl⟩ := h d k q hq hqc
  obtain ⟨i, -, hi, hd, -⟩ := (hs.reads d k q hq).hand
  rw [hqc, hj] at hi
  cases hi
  exact ⟨j, x, hc, hd, hh ▸ hx, ho, ha, hl⟩

/-- A channel that stays with its section, as far as it has come, and changes its hand. -/
theorem State.SectionLaw.rehand {s : State} (h : s.SectionLaw) (hf : s.Filed) {c : Fin 4} {j : Job}
    (hj : (s.channel c).job = some j) {ch : Channel} (hc : ch.job = some j) (hi : ch.state ≠ .idle) (hl : ch.Laid j)
    (hh : ch.handled = (s.channel c).handled) (hr : s.OutstandingIn c j ch.hand) : (s.setChannel c ch).SectionLaw := by
  have hL := h.channels c j hj
  have := h.rework hf j.dump j.index id c ch (h.alone hj) (fun he => absurd he hi)
    (fun k hk => by rw [hc] at hk; cases hk; exact ⟨rfl, rfl, hL.number, hl, h.finished_of_job hj⟩)
    (fun x hx => by
      obtain ⟨h1, h2, h3, h4⟩ := hL.sect x hx
      refine ⟨h1, rfl, rfl, id, fun k hk => ?_⟩
      rw [hc] at hk
      cases hk
      exact ⟨h2, h3, h4.trans hh.symm⟩)
    (hr.answers h hj hc rfl)
  rwa [State.updSection_id] at this

/-- A channel that handles an extent and changes its hand to reads apart from it. -/
theorem State.SectionLaw.handled {s : State} (h : s.SectionLaw) (hf : s.Filed) {c : Fin 4} {j : Job}
    (hj : (s.channel c).job = some j) {rs : List HandRead} (hl : ((s.channel c).holding rs).Laid j) (e : Extent)
    (hole : Option HoleCause) (he : e.Within (s.channel c).handled (s.channel c).fetchPos)
    (ha : ∀ y ∈ (s.channel c).above, y.Apart e) (hh : ∀ r ∈ rs, r.extent.Apart e) (hr : s.OutstandingIn c j rs) (n : Nat) :
    ((s.handle c j e hole).setChannel c
      { (s.handle c j e hole).channel c with hand := rs, failureRun := n }).SectionLaw := by
  have hi : (s.channel c).state ≠ .idle := fun hi => by rw [h.idle c hi] at hj; cases hj
  cases hx : s.sect j.dump j.index with
  | none =>
    rw [State.handle_none hx]
    exact h.rehand hf hj hj hi (hl.of_eq rfl rfl rfl rfl rfl) rfl hr
  | some x =>
    have hL := h.channels c j hj
    obtain ⟨h1, h2, h3, h4⟩ := hL.sect x hx
    obtain ⟨d, hd, hdx⟩ := State.sect_eq_some.1 hx
    have hxl := h.sections d (State.mem_of_dump hd).1 x (List.mem_of_getElem? hdx)
    have hp := (hl.progress (x := x) ⟨hxl.holeCount, hxl.holeOrder, h4 ▸ hxl.holeBounds⟩).mark e hole he ha hh
    have hlp := hl.reached hp
    rw [State.handle_some hx]
    generalize hq : ((s.channel c).progress x).mark e hole = p
    have hq' : (((s.channel c).holding rs).progress x).mark e hole = p := hq
    rw [hq'] at hp hlp
    have := h.rework hf j.dump j.index (fun r => r.reached p) c
      { (s.channel c).reached p with hand := rs, failureRun := n } (h.alone hj) (fun he => absurd he hi)
      (fun k hk => by
        have hk' : (s.channel c).job = some k := hk
        rw [hj] at hk'
        cases hk'
        exact ⟨rfl, rfl, hL.number, hlp.of_eq rfl rfl rfl rfl rfl, h.finished_of_job hj⟩)
      (fun y hy => by
        rw [hx] at hy
        cases hy
        exact .reach h1 h2 h3 hp hL.ordered.2 hj rfl)
      (hr.answers h hj hj rfl)
    rw [State.reachSection_channel, State.reachSection_setChannel]
    exact this

end Sys2Proof.Machine
end

