-- ==== Sys2Proof/Proofs/OutcomesTaken.lean ====
section
/-! SUPPORT. A channel that takes the outcome of a read (R69 to R72, R76). -/
namespace Sys2Proof.Machine

/-! ### The law and the directory together -/

/-- The section law in a filed directory, which every part of the device's work keeps together. -/
structure State.Sound (s : State) : Prop where
  filed : s.Filed
  law : s.SectionLaw

theorem State.Sound.moves {s t : State} (h : s.Sound) (m : s.Moves t) : t.Sound := ⟨m.filed h.filed, h.law.moves h.filed m⟩

/-! ### Outcomes -/

/-- Bytes that a read of a length may have delivered (Table 5-3): all of them, or with a DISCONNECT some and not all. -/
def ReadOutcome.Fits (o : ReadOutcome) (n : Nat) : Prop :=
  match o with
  | .data bytes => bytes.length = n
  | .disconnect bytes => 1 ≤ bytes.length ∧ bytes.length < n
  | _ => True

/-- A channel has no read of an address outstanding. -/
def State.Unheld (s : State) (c : Fin 4) (a : Nat) : Prop :=
  ∀ d (k : Fin 2) q, (s.link d).positions[k] = some q → q.channel = c → q.address ≠ a

/-- The reads of a channel but the one that has lost its position stay outstanding. -/
theorem State.SectionLaw.outstandingIn {s : State} (h : s.SectionLaw) {c : Fin 4} {j : Job} (hj : (s.channel c).job = some j)
    {o : Nat} (hu : s.Unheld c (j.base + o)) {rs : List HandRead}
    (hrs : ∀ x ∈ (s.channel c).hand, x.outstanding = true → x.offset ≠ o → x ∈ rs) : s.OutstandingIn c j rs := by
  intro d k q hq hqc
  obtain ⟨i, x, hi, -, hx, ho, ha, hl⟩ := (h.reads d k q hq).hand
  rw [hqc] at hi hx
  rw [hj] at hi
  cases hi
  refine ⟨x, hrs x hx ho fun hxo => hu d k q hq hqc ?_, ho, ha, hl⟩
  rw [← ha, hxo]

theorem State.handle_hand (s : State) (c : Fin 4) (j : Job) (e : Extent) (hole : Option HoleCause) :
    ((s.handle c j e hole).channel c).hand = (s.channel c).hand := by
  cases hx : s.sect j.dump j.index with
  | none => rw [State.handle_none hx]
  | some x => rw [State.handle_some hx, State.reachSection_channel]; rfl

/-- A part of a read that lies at its offset, within the handled front and the fetch position and apart from the extents above. -/
theorem Channel.Laid.part {ch : Channel} {j : Job} (h : ch.Laid j) {r : HandRead} (hr : r ∈ ch.hand) {m : Nat} (h1 : 1 ≤ m)
    (hm : m ≤ r.length) : Extent.Within { offset := r.offset, length := m } ch.handled ch.fetchPos
      ∧ ∀ y ∈ ch.above, y.Apart { offset := r.offset, length := m } := by
  obtain ⟨-, h2, h3⟩ := h.hand r hr
  exact ⟨⟨h1, h2, (Nat.add_le_add_left hm _).trans h3⟩, fun y hy =>
    (h.bothApart r hr y hy).symm.imp_right (Nat.add_le_add_left hm _).trans⟩

/-- A read leaves the hand as its extent, or the part of it that came, is handled. -/
theorem State.Sound.dropHandled {s : State} (h : s.Sound) {c : Fin 4} {j : Job} (hj : (s.channel c).job = some j)
    {r : HandRead} (hr : r ∈ (s.channel c).hand) (hu : s.Unheld c (j.base + r.offset)) {m : Nat} (h1 : 1 ≤ m)
    (hm : m ≤ r.length) (hole : Option HoleCause) (n : Nat) :
    ((s.handle c j { offset := r.offset, length := m } hole).setChannel c
      { ((s.handle c j { offset := r.offset, length := m } hole).channel c).dropRead r.offset with
        failureRun := n }).SectionLaw := by
  have hL := (h.law.channels c j hj).laid
  obtain ⟨hw, ha⟩ := hL.part hr h1 hm
  have := h.law.handled h.filed hj (hL.holding_sublist (List.filter_sublist (p := fun x => decide (x.offset ≠ r.offset)))) _ hole hw ha
    (fun x hx => by
      obtain ⟨hx, hne⟩ := List.mem_filter.1 hx
      have hap := hL.reads_apart hx hr (of_decide_eq_true hne)
      exact hap.imp_right (Nat.add_le_add_left hm _).trans)
    (h.law.outstandingIn hj hu fun x hx _ hne => List.mem_filter.2 ⟨hx, decide_eq_true hne⟩) n
  rw [← s.handle_hand c j { offset := r.offset, length := m } hole] at this
  exact this

/-- The rest of a burst that a DISCONNECT leaves. -/
noncomputable def HandRead.rest (r : HandRead) (m : Nat) : HandRead :=
  { r with offset := r.offset + m, length := r.length - m, outstanding := false }

theorem State.Sound.disconnected {s : State} (h : s.Sound) {c : Fin 4} {j : Job} (hj : (s.channel c).job = some j)
    {r : HandRead} (hr : r ∈ (s.channel c).hand) (hu : s.Unheld c (j.base + r.offset)) {m : Nat} (h1 : 1 ≤ m)
    (hm : m < r.length) :
    ((s.handle c j { offset := r.offset, length := m } none).setChannel c
      (((s.handle c j { offset := r.offset, length := m } none).channel c).updRead r.offset fun x => x.rest m)).SectionLaw := by
  have hL := (h.law.channels c j hj).laid
  obtain ⟨hw, ha⟩ := hL.part hr h1 hm.le
  have hmap : ∀ x ∈ (s.channel c).hand, 1 ≤ (if x.offset = r.offset then x.rest m else x).length
      ∧ x.offset ≤ (if x.offset = r.offset then x.rest m else x).offset
      ∧ (if x.offset = r.offset then x.rest m else x).offset + (if x.offset = r.offset then x.rest m else x).length
        ≤ x.offset + x.length := by
    intro x hx
    split
    · next he =>
      rw [hL.read_ext hx hr he]
      exact ⟨Nat.sub_pos_of_lt hm, Nat.le_add_right _ _,
        (by rw [Nat.add_assoc, Nat.add_sub_of_le hm.le] : r.offset + m + (r.length - m) = r.offset + r.length).le⟩
    · exact ⟨(hL.hand x hx).1, le_rfl, le_rfl⟩
  have := h.law.handled h.filed hj (hL.holding_map _ hmap) _ none hw ha
    (fun y hy => by
      obtain ⟨x, hx, rfl⟩ := List.mem_map.1 hy
      split
      · next he =>
        rw [hL.read_ext hx hr he]
        exact .inr le_rfl
      · next hne =>
        have hap := hL.reads_apart hx hr hne
        exact hap.imp_right (Nat.add_le_add_left hm.le _).trans)
    (h.law.outstandingIn hj hu fun x hx _ hne => List.mem_map.2 ⟨x, hx, if_neg hne⟩)
    ((s.handle c j { offset := r.offset, length := m } none).channel c).failureRun
  rw [← s.handle_hand c j { offset := r.offset, length := m } none] at this
  exact this

/-- A read that stays in hand, or leaves it without an extent handled. -/
theorem State.Sound.reread {s : State} (h : s.Sound) {c : Fin 4} {j : Job} (hj : (s.channel c).job = some j) {o : Nat}
    (hu : s.Unheld c (j.base + o)) (f : HandRead → HandRead)
    (hf : ∀ x, (f x).offset = x.offset ∧ (f x).length = x.length) :
    (s.setChannel c ((s.channel c).updRead o f)).SectionLaw ∧ (s.setChannel c ((s.channel c).dropRead o)).SectionLaw := by
  have hi : (s.channel c).state ≠ .idle := fun hi => by rw [h.law.idle c hi] at hj; cases hj
  have hL := (h.law.channels c j hj).laid
  constructor
  · refine h.law.rehand h.filed hj hj hi ((hL.holding_map (fun x => if x.offset = o then f x else x) fun x hx => ?_).of_eq
      rfl rfl rfl rfl rfl) rfl (h.law.outstandingIn hj hu fun x hx _ hne => List.mem_map.2 ⟨x, hx, if_neg hne⟩)
    have h1 := (hL.hand x hx).1
    split
    · obtain ⟨k1, k2⟩ := hf x
      rw [k1, k2]
      exact ⟨h1, le_rfl, le_rfl⟩
    · exact ⟨h1, le_rfl, le_rfl⟩
  · exact h.law.rehand h.filed hj hj hi ((hL.holding_sublist (List.filter_sublist
      (p := fun x => decide (x.offset ≠ o)))).of_eq rfl rfl rfl rfl rfl) rfl
      (h.law.outstandingIn hj hu fun x hx _ hne => List.mem_filter.2 ⟨hx, decide_eq_true hne⟩)

/-! ### What a channel does with an outcome -/

theorem State.placeBytes_leaves (s : State) (j : Job) (o : Nat) (bs : List Byte) : s.LeavesSections (s.placeBytes j o bs) := by
  unfold State.placeBytes
  dsimp only
  split <;> exact rfl

/-- A read whose position is free, in the hand of the channel that it belongs to. -/
structure State.Freed (s : State) (c : Fin 4) (j : Job) (r : HandRead) : Prop where
  job : (s.channel c).job = some j
  hand : r ∈ (s.channel c).hand
  unheld : s.Unheld c (j.base + r.offset)

theorem State.Freed.placed {s : State} {c : Fin 4} {j : Job} {r : HandRead} (h : s.Freed c j r) (o : Nat) (bs : List Byte) :
    (s.placeBytes j o bs).Freed c j r := by
  refine ⟨by simpa using h.job, by simpa using h.hand, fun d k q hq => h.unheld d k q ?_⟩
  simpa using hq

theorem State.Sound.endClean {s : State} (h : s.Sound) {c : Fin 4} {j : Job} {r : HandRead} (hr : s.Freed c j r)
    (bs : List Byte) : (s.endClean c j r bs).SectionLaw := by
  have hp := hr.placed r.offset bs
  exact (h.moves (s.placeBytes_leaves j r.offset bs).moves).dropHandled hp.job hp.hand hp.unheld
    ((h.law.channels c j hr.job).hand r hr.hand).1 le_rfl none 0

theorem State.Sound.endHole {s : State} (h : s.Sound) {c : Fin 4} {j : Job} {r : HandRead} (hr : s.Freed c j r)
    (k : HoleCause) (bs : List Byte) : (s.endHole c j r k bs).SectionLaw := by
  have hp := hr.placed r.offset bs
  exact (h.moves (s.placeBytes_leaves j r.offset bs).moves).dropHandled hp.job hp.hand hp.unheld
    ((h.law.channels c j hr.job).hand r hr.hand).1 le_rfl (some k) _

theorem State.Sound.failedIssue {s : State} (h : s.Sound) {c : Fin 4} {j : Job} {r : HandRead} (hr : s.Freed c j r)
    (k : HoleCause) (bs : List Byte) : (s.failedIssue c j r k bs).SectionLaw := by
  unfold State.failedIssue
  dsimp only
  split
  · exact (h.reread hr.job hr.unheld (fun x => { x with attempts := x.attempts + 1, outstanding := false })
      fun _ => ⟨rfl, rfl⟩).1
  · exact h.endHole hr k bs

theorem State.Sound.takeOutcome {s : State} (h : s.Sound) {c : Fin 4} {j : Job} {r : HandRead} (hr : s.Freed c j r)
    {o : ReadOutcome} (ho : o.Fits r.length) : (s.takeOutcome c j r o).Sound := by
  refine ⟨h.filed.of_still (by simp) (by simp) (by simp), ?_⟩
  have hread := h.reread hr.job hr.unheld (fun x => { x with outstanding := false }) fun _ => ⟨rfl, rfl⟩
  cases o with
  | data bytes => exact h.endClean hr bytes
  | disconnect bytes =>
    have hp := hr.placed r.offset bytes
    exact (h.moves (s.placeBytes_leaves j r.offset bytes).moves).disconnected hp.job hp.hand hp.unheld ho.1 ho.2
  | noClaim => exact h.failedIssue hr _ _
  | stall => exact h.failedIssue hr _ _
  | parity bytes => exact h.failedIssue hr _ _
  | targetAbort => exact h.endHole hr _ _
  | retrain => exact hread.1
  | linkDown => exact hread.2

theorem State.Sound.takeLastOutcome {s : State} (h : s.Sound) {c : Fin 4} {j : Job} {r : HandRead} (hr : s.Freed c j r)
    {o : ReadOutcome} (ho : o.Fits r.length) : (s.takeLastOutcome c j r o).Sound := by
  refine ⟨h.filed.of_still (by simp) (by simp) (by simp), ?_⟩
  have hdrop : (s.setChannel c ((s.channel c).dropRead r.offset)).SectionLaw :=
    (h.reread hr.job hr.unheld id fun _ => ⟨rfl, rfl⟩).2
  have kept (bytes : List Byte) (h1 : 1 ≤ bytes.length) (hm : bytes.length ≤ r.length) :
      (((s.placeBytes j r.offset bytes).handle c j { offset := r.offset, length := bytes.length } none).setChannel c
        ((((s.placeBytes j r.offset bytes).handle c j { offset := r.offset, length := bytes.length } none).channel c).dropRead
          r.offset)).SectionLaw := by
    have hp := hr.placed r.offset bytes
    exact (h.moves (s.placeBytes_leaves j r.offset bytes).moves).dropHandled hp.job hp.hand hp.unheld h1 hm none _
  unfold State.takeLastOutcome
  cases o with
  | data bytes =>
    have hb : bytes.length = r.length := ho
    exact kept bytes (hb ▸ ((h.law.channels c j hr.job).hand r hr.hand).1) hb.le
  | disconnect bytes => exact kept bytes ho.1 ho.2.le
  | noClaim | stall | parity | targetAbort | retrain | linkDown => exact hdrop

theorem State.afterOutcome_moves (s : State) (c : Fin 4) (j : Job) : s.Moves (s.afterOutcome c j) := by
  unfold State.afterOutcome
  dsimp only
  split
  · exact .setChannel s c _ ⟨rfl, (fun h => by cases h), rfl, rfl, rfl, rfl, .refl _, fun _ h _ => h⟩
  · split
    · exact s.channelShort_moves c _
    · exact .refl s

/-- An outcome taken by the channel whose read has lost its position. -/
theorem State.Sound.deliver {s : State} (h : s.Sound) {c : Fin 4} {a : Nat} {o : ReadOutcome} (hu : s.Unheld c a)
    (hfit : ∀ j r, (s.channel c).job = some j → r ∈ (s.channel c).hand → r.outstanding = true → j.base + r.offset = a →
      o.Fits r.length) : (s.deliver c a o).Sound := by
  unfold State.deliver
  dsimp only
  split
  · exact h
  · next j hj =>
    split
    · exact h
    · next r hf =>
      have hm := List.mem_of_find?_eq_some hf
      have hp := List.find?_some hf
      simp only [Bool.and_eq_true, beq_iff_eq] at hp
      have hr : s.Freed c j r := ⟨hj, hm, by rw [hp.2]; exact hu⟩
      have hfit' := hfit j r hj hm hp.1 hp.2
      split
      · exact h.takeLastOutcome hr hfit'
      · exact (h.takeOutcome hr hfit').moves (State.afterOutcome_moves _ _ _)

end Sys2Proof.Machine
end

