-- ==== Sys2Proof/Proofs/ReadEnds.lean ====
section
/-! SUPPORT. The ends of outstanding reads (R83 to R89, R96, R97): the position is freed first, so the channel's other reads
are those that its link still has. -/
namespace Sys2Proof.Machine

/-! ### Freed positions -/

theorem State.deliver_links (s : State) (c : Fin 4) (a : Nat) (o : ReadOutcome) (e : Dom) :
    (s.link e).Moves ((s.deliver c a o).link e) := by
  unfold State.deliver
  dsimp only
  split
  · exact .of_positions rfl
  · split
    · exact .of_positions rfl
    · next r _ =>
      split
      · exact .of_positions (by simp)
      · refine Link.Moves.trans (.of_positions ?_) ((State.afterOutcome_moves _ _ _).links e)
        simp

/-- Reads that no link has anew leave an address unheld. -/
theorem State.Unheld.of_links {s t : State} {c : Fin 4} {a : Nat} (h : s.Unheld c a)
    (hl : ∀ d, (s.link d).Moves (t.link d)) : t.Unheld c a := by
  intro d k q hq hc
  obtain ⟨p, hp, hpq⟩ := hl d k q hq
  rw [hpq.address]
  exact h d k p hp (hpq.channel ▸ hc)

/-- The channel of a read whose position is freed has no other read of that address outstanding. -/
theorem State.Sound.unheld {s t : State} (h : s.Sound) (hl : ∀ d, (s.link d).Moves (t.link d)) {d : Dom} {i : Fin 2}
    {r : LinkRead} (hr : (s.link d).positions[i] = some r) (hn : (t.link d).positions[i] = none) :
    t.Unheld r.channel r.address := by
  intro e k q hq hc
  obtain ⟨p, hp, hpq⟩ := hl e k q hq
  rw [hpq.address]
  rw [hpq.channel] at hc
  obtain ⟨j, -, hj, hjd, -⟩ := (h.law.reads d i r hr).hand
  obtain ⟨j', -, hj', hjd', -⟩ := (h.law.reads e k p hp).hand
  rw [hc, hj] at hj'
  cases hj'
  obtain rfl : d = e := hjd.symm.trans hjd'
  have hik : k ≠ i := by
    rintro rfl
    rw [hn] at hq
    cases hq
  have hpair : ∀ i k : Fin 2, k ≠ i → i = 0 ∧ k = 1 ∨ i = 1 ∧ k = 0 := by decide
  obtain ⟨rfl, rfl⟩ | ⟨rfl, rfl⟩ := hpair i k hik
  · exact fun ha => h.law.readsApart d r p hr hp hc.symm ha.symm
  · exact h.law.readsApart d p r hp hr hc

/-- A position freed. -/
noncomputable def Link.freed (l : Link) (i : Fin 2) : Link := { l with positions := l.positions.set i none }

theorem Link.freed_self (l : Link) (i : Fin 2) : (l.freed i).positions[i] = none := by
  simp [Link.freed]

theorem Link.freed_moves (l : Link) (i : Fin 2) : l.Moves (l.freed i) := by
  intro k r hr
  simp only [Link.freed, Fin.getElem_fin, Vector.getElem_set] at hr
  split at hr
  · cases hr
  · exact ⟨r, hr, .refl r⟩

theorem Link.countOutcome_positions (l : Link) (o : ReadOutcome) : (l.countOutcome o).positions = l.positions := by
  cases o <;> rfl

/-- An outcome fits the hand's read where it fits the read that had the position. -/
theorem State.Sound.fits {s : State} (h : s.Sound) {d : Dom} {i : Fin 2} {r : LinkRead}
    (hr : (s.link d).positions[i] = some r) {o : ReadOutcome} (ho : o.Fits r.length) (j : Job) (x : HandRead)
    (hj : (s.channel r.channel).job = some j) (hx : x ∈ (s.channel r.channel).hand) (ha : j.base + x.offset = r.address) :
    o.Fits x.length := by
  obtain ⟨j', y, hj', -, hy, -, hya, hyl⟩ := (h.law.reads d i r hr).hand
  rw [hj] at hj'
  cases hj'
  rw [(h.law.channels r.channel j hj).laid.read_ext hx hy (Nat.add_left_cancel (ha.trans hya.symm)), hyl]
  exact ho

/-- The device after a read has lost its position and its link has counted the outcome. -/
theorem State.Sound.endFreed {s : State} (h : s.Sound) {d : Dom} {i : Fin 2} {r : LinkRead}
    (hr : (s.link d).positions[i] = some r) {l : Link} (hl : (s.link d).Moves l) (hn : l.positions[i] = none)
    {o : ReadOutcome} (ho : o.Fits r.length) : ((s.setLink d l).deliver r.channel r.address o).Sound := by
  have m : s.Moves (s.setLink d l) := .setLink s d l hl
  refine (h.moves m).deliver (h.unheld m.links hr (by simpa using hn)) fun j x hj hx _ ha => ?_
  exact h.fits hr ho j x (by simpa using hj) (by simpa using hx) ha

/-! ### Reads dropped (R83, R84, R97) -/

theorem State.Sound.dropOutstanding {s : State} (h : s.Sound) (d : Dom) {o : ReadOutcome} (ho : ∀ n, o.Fits n) (i : Fin 2) :
    (s.dropOutstanding d o i).Sound := by
  unfold State.dropOutstanding
  dsimp only
  split
  · next r hr => exact h.endFreed hr ((s.link d).freed_moves i) ((s.link d).freed_self i) (ho _)
  · exact h

theorem State.dropOutstanding_links (s : State) (d : Dom) (o : ReadOutcome) (i : Fin 2) (e : Dom) :
    (s.link e).Moves ((s.dropOutstanding d o i).link e) := by
  unfold State.dropOutstanding
  dsimp only
  split
  · exact ((State.Moves.setLink s d _ ((s.link d).freed_moves i)).links e).trans (State.deliver_links _ _ _ _ e)
  · exact .of_positions rfl

theorem State.Sound.dropAll {s : State} (h : s.Sound) (d : Dom) {o : ReadOutcome} (ho : ∀ n, o.Fits n) :
    (s.dropAll d o).Sound := (h.dropOutstanding d ho 0).dropOutstanding d ho 1

theorem State.dropAll_links (s : State) (d : Dom) (o : ReadOutcome) (e : Dom) :
    (s.link e).Moves ((s.dropAll d o).link e) :=
  (s.dropOutstanding_links d o 0 e).trans (State.dropOutstanding_links _ d o 1 e)

/-- What follows the end of the reads in a training from UP. -/
theorem State.retrained_moves (s : State) (d : Dom) (m : Mode) :
    s.Moves ((s.setLink d { s.link d with
      counters := { (s.link d).counters with retrains := (s.link d).counters.retrains.inc } }).startTraining d m) := by
  refine State.Moves.trans ?_ (State.startTraining_moves _ d m)
  exact .setLink s d _ (.of_positions (by rfl))

theorem State.Sound.retrain {s : State} (h : s.Sound) (d : Dom) (m : Mode) : (s.retrain d m).Sound :=
  (h.dropAll d (o := .retrain) fun _ => trivial).moves (State.retrained_moves _ d m)

theorem State.retrain_links (s : State) (d : Dom) (m : Mode) (e : Dom) : (s.link e).Moves ((s.retrain d m).link e) :=
  (s.dropAll_links d .retrain e).trans ((State.retrained_moves _ d m).links e)

/-- What follows the training of a downshift. -/
theorem State.shifted_moves (s : State) (d : Dom) (x y : Mode) :
    s.Moves (((s.recordLinkShift d x y).noticeLink d 1 x y).replan d) :=
  ((s.appendDevice_moves d _ _ _).trans (State.notice_moves _ _ _ _)).trans (State.replan_moves _ d)

theorem State.parityCounted_rest {s : State} (d : Dom) : (s.Sound → (s.parityCounted d).Sound)
    ∧ ∀ e, (s.link e).Moves ((s.parityCounted d).link e) := by
  unfold State.parityCounted
  dsimp only
  split
  · next m _ =>
    split
    · have hm : s.Moves (s.setLink d { s.link d with shifted := true }) := .setLink s d _ (.of_positions rfl)
      exact ⟨fun h => ((h.moves hm).retrain d m).moves (State.shifted_moves _ d _ m),
        fun e => ((hm.links e).trans (State.retrain_links _ d m e)).trans ((State.shifted_moves _ d _ m).links e)⟩
    · exact ⟨id, fun _ => .of_positions rfl⟩
  · exact ⟨id, fun _ => .of_positions rfl⟩

/-! ### Reads that end (R85 to R89) -/

/-- An outstanding read ends with an outcome that fits it. -/
theorem State.Sound.endRead {s : State} (h : s.Sound) {d : Dom} {i : Fin 2} {r p : LinkRead}
    (hp : (s.link d).positions[i] = some p) (hc : r.channel = p.channel) (ha : r.address = p.address) {o : ReadOutcome}
    (ho : o.Fits p.length) : (s.endRead d i r o).Sound := by
  have hl : (s.link d).Moves (((s.link d).freed i).countOutcome o) :=
    ((s.link d).freed_moves i).trans (.of_positions (Link.countOutcome_positions _ o))
  have hn : (((s.link d).freed i).countOutcome o).positions[i] = none := by
    rw [Link.countOutcome_positions]
    exact (s.link d).freed_self i
  have hdel := h.endFreed hp hl hn ho
  unfold State.endRead
  rw [hc, ha]
  cases o with
  | parity bytes =>
    have m : s.Moves (s.setLink d (((s.link d).freed i).countOutcome (.parity bytes))) := .setLink s d _ hl
    obtain ⟨hs, hlk⟩ := State.parityCounted_rest (s := s.setLink d (((s.link d).freed i).countOutcome (.parity bytes))) d
    exact (hs (h.moves m)).deliver ((h.unheld m.links hp (by simpa using hn)).of_links hlk) fun _ _ _ _ _ _ => trivial
  | data | disconnect | noClaim | stall | targetAbort | retrain | linkDown => exact hdel

end Sys2Proof.Machine
end

