-- ==== Sys2Proof/Proofs/ChannelSteps.lean ====
section
/-! SUPPORT. The steps in which a channel cuts a read, takes a section or ends it, and in which a read is granted (R60, R62 to
R65, R74, R85, R92). -/
namespace Sys2Proof.Machine

/-! ### Cutting (R62) -/

/-- A read cut below the admitted length begins at the fetch position, is not empty and stays within it. -/
theorem cutRead_within (base admitted offset : Nat) (h : offset < admitted) :
    (cutRead base admitted offset).offset = offset ∧ 1 ≤ (cutRead base admitted offset).length
      ∧ offset + (cutRead base admitted offset).length ≤ admitted := by
  have hleft {n : Nat} (hn : n ≤ admitted - offset) : offset + n ≤ admitted := Nat.add_le_of_le_sub' h.le hn
  have hpos : 1 ≤ admitted - offset := Nat.sub_pos_of_lt h
  unfold cutRead
  dsimp only
  split
  · exact ⟨rfl, le_min (Nat.sub_pos_of_lt (Nat.mod_lt _ (by decide))) hpos, hleft (min_le_right _ _)⟩
  · next ha =>
    split
    · exact ⟨rfl, hpos, hleft le_rfl⟩
    · next hl =>
      have hroom : 64 ≤ 4096 - (base + offset) % 4096 := by
        have hd : 64 ∣ (base + offset) % 4096 :=
          (Nat.dvd_mod_iff (by decide)).2 (Nat.dvd_of_mod_eq_zero (not_not.1 ha))
        exact Nat.le_of_dvd (Nat.sub_pos_of_lt (Nat.mod_lt _ (by decide))) (Nat.dvd_sub (by decide) hd)
      have hg : 1 ≤ min 4 (min ((admitted - offset) / 64) ((4096 - (base + offset) % 4096) / 64)) :=
        le_min (by decide) (le_min (Nat.div_pos (Nat.le_of_not_lt hl) (by decide)) (Nat.div_pos hroom (by decide)))
      refine ⟨rfl, hg.trans (Nat.le_mul_of_pos_left _ (by decide)), hleft ?_⟩
      exact (Nat.mul_le_mul_left 64 ((min_le_right _ _).trans (min_le_left _ _))).trans (Nat.mul_div_le _ 64)

/-- A channel's outstanding reads are in every hand that keeps them. -/
theorem State.SectionLaw.outstanding {s : State} (h : s.SectionLaw) {c : Fin 4} {j : Job} (hj : (s.channel c).job = some j)
    {rs : List HandRead} (hrs : ∀ x ∈ (s.channel c).hand, x.outstanding = true → x ∈ rs) : s.OutstandingIn c j rs := by
  intro d k q hq hqc
  obtain ⟨i, x, hi, -, hx, ho, ha, hl⟩ := (h.reads d k q hq).hand
  rw [hqc] at hi hx
  rw [hj] at hi
  cases hi
  exact ⟨x, hrs x hx ho, ho, ha, hl⟩

theorem State.Sound.not_idle {s : State} (h : s.Sound) {c : Fin 4} {j : Job} (hj : (s.channel c).job = some j) :
    (s.channel c).state ≠ .idle := fun hi => by
  rw [h.law.idle c hi] at hj
  cases hj

/-- A new read enters the hand above everything in it (R63). -/
theorem Channel.Laid.takeInHand {ch : Channel} {j : Job} (h : ch.Laid j) (hj : ch.job = some j) {r : HandRead}
    (hr : ch.nextRead = some r) : (ch.takeInHand r).Laid j := by
  unfold Channel.nextRead at hr
  rw [hj] at hr
  dsimp only at hr
  split at hr
  · next hlt =>
    cases hr
    obtain ⟨ho, h1, hle⟩ := cutRead_within j.base j.admitted ch.fetchPos hlt
    generalize cutRead j.base j.admitted ch.fetchPos = r at ho h1 hle ⊢
    obtain ⟨hhf, -⟩ := h.ordered
    have below {a : Nat} (ha : a ≤ ch.fetchPos) : a ≤ r.offset + r.length := by omega
    refine ⟨⟨below hhf, by show r.offset + r.length ≤ _; omega⟩, fun q hq => ?_, ?_, fun x hx => ?_, h.aboveApart,
      fun q hq x hx => ?_, h.holes, h.holesApart⟩
    · rcases List.mem_append.1 hq with hq | hq
      · obtain ⟨k1, k2, k3⟩ := h.hand q hq
        exact ⟨k1, k2, below k3⟩
      · rw [List.mem_singleton] at hq
        subst hq
        exact ⟨h1, by rw [ho]; exact hhf, le_rfl⟩
    · refine List.pairwise_append.2 ⟨h.handApart, List.pairwise_singleton _ _, fun q hq p hp => ?_⟩
      rw [List.mem_singleton] at hp
      subst hp
      exact .inl (ho ▸ (h.hand q hq).2.2)
    · obtain ⟨k1, k2, k3⟩ := h.above x hx
      exact ⟨k1, k2, below k3⟩
    · rcases List.mem_append.1 hq with hq | hq
      · exact h.bothApart q hq x hx
      · rw [List.mem_singleton] at hq
        subst hq
        exact .inr (ho ▸ (h.above x hx).2.2)
  · cases hr

theorem Channel.nextRead_job {ch : Channel} {r : HandRead} (h : ch.nextRead = some r) : ∃ j, ch.job = some j := by
  unfold Channel.nextRead at h
  split at h
  · next j hj => exact ⟨j, hj⟩
  · cases h

theorem State.Sound.takeInHand {s : State} (h : s.Sound) {c : Fin 4} {r : HandRead} (hr : (s.channel c).nextRead = some r)
    {ch : Channel} (hc : ch = (s.channel c).takeInHand r ∨
      ∃ g, ch = Channel.takeInHand { s.channel c with given := g } r) : (s.setChannel c ch).Sound := by
  obtain ⟨j, hj⟩ := Channel.nextRead_job hr
  have hl := (h.law.channels c j hj).laid.takeInHand hj hr
  refine ⟨h.filed.of_still rfl (fun _ => rfl) rfl, ?_⟩
  have hkeep (x : HandRead) (hx : x ∈ (s.channel c).hand) (_ : x.outstanding = true) : x ∈ (s.channel c).hand ++ [r] :=
    List.mem_append_left _ hx
  rcases hc with rfl | ⟨g, rfl⟩
  · exact h.law.rehand h.filed hj hj (fun h => by cases h) hl rfl (h.law.outstanding hj hkeep)
  · exact h.law.rehand h.filed hj hj (fun h => by cases h) (hl.of_eq rfl rfl rfl rfl rfl) rfl (h.law.outstanding hj hkeep)

theorem Channel.Moves.stalled (ch : Channel) : ch.Moves { ch with state := .stalled } :=
  ⟨rfl, (fun h => by cases h), rfl, rfl, rfl, rfl, .refl _, fun _ h _ => h⟩

/-- A channel that cuts a read takes it in hand, stalls, or stalls and asks for the read's pages (R63 to R65). -/
theorem State.cutStep_spec {s t : State} {c : Fin 4} (e : s.cutStep c = some t) :
    ∃ r j ks, (s.channel c).nextRead = some r ∧ (s.channel c).job = some j
      ∧ (t = s.setChannel c ((s.channel c).takeInHand r) ∨ t = s.setChannel c { s.channel c with state := .stalled }
        ∨ t = (s.setChannel c { s.channel c with state := .stalled }).askPages (.channel c) ks) := by
  unfold State.cutStep at e
  generalize s.channel c = ch at e ⊢
  dsimp only at e
  split at e
  · split at e
    · next r j hr hj =>
      refine ⟨r, j, (r.needs ch.given).map fun p => dataKey j.dump j.index p, hr, hj, ?_⟩
      by_cases h1 : r.needs ch.given = []
      · rw [if_pos h1] at e
        exact .inl (Option.some.inj e).symm
      rw [if_neg h1] at e
      split at e
      · exact .inr (.inr (Option.some.inj e).symm)
      · split at e
        · exact .inr (.inl (Option.some.inj e).symm)
        · cases e
    · cases e
  · cases e

theorem State.Sound.cutStep {s t : State} (h : s.Sound) {c : Fin 4} (e : s.cutStep c = some t) : t.Sound := by
  obtain ⟨r, j, ks, hr, hj, rfl | rfl | rfl⟩ := State.cutStep_spec e
  · exact h.takeInHand hr (.inl rfl)
  · exact h.moves (.setChannel s c _ (.stalled _))
  · exact (h.moves (.setChannel s c _ (.stalled _))).moves (.askPages _ _ _ (h.law.finished_of_job hj)
      (Holder.not_forLatches (fun h => by cases h)))

theorem State.Sound.dataGiven {s : State} (h : s.Sound) (c : Fin 4) (n : Nat) : (s.dataGiven c n).Sound := by
  unfold State.dataGiven
  dsimp only
  split
  · next r hr => exact h.takeInHand hr (.inr ⟨_, rfl⟩)
  · exact h

/-! ### Sections taken and ended (R59, R60, R74) -/

/-- A section that a channel may take: PENDING, of the domain's open dump. -/
theorem State.Sound.pickable {s : State} (h : s.Sound) {d : Dom} {n : Num} {x : SectionRecord}
    (hp : s.pickable d = some (n, x)) : s.sect n x.index = some x ∧ x.kind = .region ∧ x.state = .pending
      ∧ n < s.directory.nextNumber ∧ s.startUp = .finished := by
  unfold State.pickable at hp
  split at hp
  · next e _ he =>
    obtain ⟨y, hy, hyx⟩ := Option.map_eq_some_iff.1 hp
    cases hyx
    obtain ⟨hm, ho, -, hs⟩ := h.filed.openEntry he
    have hk := List.find?_some hy
    simp only [Bool.and_eq_true, beq_iff_eq] at hk
    obtain ⟨i, hi⟩ := List.mem_iff_getElem?.1 (List.mem_of_find?_eq_some hy)
    have hidx := (h.law.fixed e hm hs).2 i x hi
    refine ⟨?_, hk.1, hk.2, h.filed.next e hm, h.filed.finished ho⟩
    rw [State.sect_of_dump (h.filed.dump_of_mem hm), hidx, hi]
  · cases hp

/-- A section as a channel takes it up: ACTIVE, with nothing written. -/
theorem SectionRecord.Reworked.takeUp {x : SectionRecord} (hk : x.kind = .region) {ch : Channel} (t : Option Time)
    (m : Option Mode) (hj : ∀ j, ch.job = some j → x.admitted = j.admitted) (hh : ch.handled = 0) :
    x.Reworked { x with state := .active, startTime := t, linkMode := m, written := 0, holes := [], holeOverflow := false }
      ch :=
  ⟨hk, rfl, rfl, fun h => ⟨⟨Nat.zero_le _, h.lengths.2⟩, h.truncated, (fun h => by cases h), by simp, by simp, by simp, by simp,
    fun _ => rfl⟩, fun j hc => ⟨rfl, hj j hc, hh.symm⟩⟩

theorem State.Sound.pick {s : State} (h : s.Sound) {c : Fin 4} (hc : (s.channel c).state = .idle) {d : Dom} {n : Num}
    {x : SectionRecord} (hp : s.pickable d = some (n, x)) : (s.pick c d n x).Sound := by
  obtain ⟨hx, hk, hs, hn, hu⟩ := h.pickable hp
  have hrew := h.law.rework h.filed n x.index (fun r => { r with
      state := .active, startTime := some s.partTime, linkMode := some (s.link d).mode, written := 0, holes := []
      holeOverflow := false }) c
    { Channel.idle with
      state := .stalled, retryLimit := (s.settings d).retry
      job := some { dump := n, index := x.index, domain := d, base := x.base, admitted := x.admitted, atomic := x.atomic } }
    (fun e k _ hk' hd hi => by
      have := (h.law.channels e k hk').sect x (by rw [hd, hi]; exact hx)
      rw [hs] at this
      cases this.2.1)
    (fun h => by cases h)
    (fun j hj => by
      cases hj
      exact ⟨rfl, rfl, hn, ⟨⟨le_rfl, Nat.zero_le _⟩, List.forall_mem_nil _, .nil, List.forall_mem_nil _, .nil,
        List.forall_mem_nil _, List.forall_mem_nil _, .nil⟩, hu⟩)
    (fun y hy => by
      rw [hx] at hy
      cases hy
      exact .takeUp hk _ _ (fun j hj => by cases hj; rfl) rfl)
    (fun e k q hq hqc => by
      obtain ⟨j, -, hj, -⟩ := (h.law.reads e k q hq).hand
      rw [hqc, h.law.idle c hc] at hj
      cases hj)
  have hsound : ((s.updSection n x.index (fun r => { r with
      state := .active, startTime := some s.partTime, linkMode := some (s.link d).mode, written := 0, holes := []
      holeOverflow := false })).setChannel c
    { Channel.idle with
      state := .stalled, retryLimit := (s.settings d).retry
      job := some { dump := n, index := x.index, domain := d, base := x.base, admitted := x.admitted
                    atomic := x.atomic } }).Sound :=
    ⟨h.filed.of_still (by simp) (fun _ => rfl) rfl, hrew⟩
  unfold State.pick
  dsimp only
  refine (hsound.moves (.leaves ?_)).moves (.askPages _ _ _ hu (Holder.not_forLatches fun h => by cases h))
  exact rfl

theorem State.pickStep_spec {s t : State} (e : s.pickStep = some t) :
    ∃ c d p, (s.channel c).state = .idle ∧ s.pickable d = some p ∧ t = s.pick c d p.1 p.2 := by
  unfold State.pickStep at e
  split at e
  · cases e
  · next c hc =>
    have hi : (s.channel c).state = .idle := by simpa using List.find?_some hc
    split at e
    · next p hp => exact ⟨c, _, p, hi, hp, (Option.some.inj e).symm⟩
    · split at e
      · next p hp => exact ⟨c, _, p, hi, hp, (Option.some.inj e).symm⟩
      · cases e

theorem State.Sound.pickStep {s t : State} (h : s.Sound) (e : s.pickStep = some t) : t.Sound := by
  obtain ⟨c, d, p, hi, hp, rfl⟩ := State.pickStep_spec e
  exact h.pick hi hp

/-- A section that its channel has handled, as it ends. -/
theorem SectionRecord.Reworked.finish {x : SectionRecord} (hk : x.kind = .region) (why : Ending)
    (crc : Option (BitVec 32)) {n : Nat} (hn : x.written = n) :
    x.Reworked { x with state := why.result.1, cause := why.result.2, written := n, crc := crc } Channel.idle := by
  subst hn
  refine ⟨hk, rfl, rfl, fun h => ⟨h.lengths, h.truncated, ?_, ?_, h.holeCount, h.holeOrder, h.holeBounds, h.fixedWhole⟩,
    fun _ h => by cases h⟩
  · cases why <;> exact fun h => by cases h
  · cases why <;> simp [Ending.result]

end Sys2Proof.Machine
end

