-- ==== Sys2Proof/Proofs/GrantsAndPicks.lean ====
section
/-! SUPPORT. The end of a section and the grant of a read (R74, R85, R92). -/
namespace Sys2Proof.Machine

/-! ### The end of a section (R74, R76) -/

/-- A channel with no read in hand leaves its section, which takes its final record. -/
theorem State.Sound.leave {s : State} (h : s.Sound) {c : Fin 4} {j : Job} (hj : (s.channel c).job = some j)
    (hh : (s.channel c).hand = []) (why : Ending) (crc : Option (BitVec 32)) {n : Nat} (hn : (s.channel c).handled = n) :
    ((s.updSection j.dump j.index fun r => { r with
      state := why.result.1, cause := why.result.2, written := n, crc := crc }).setChannel c Channel.idle).Sound := by
  refine ⟨h.filed.of_still (by simp) (fun _ => rfl) rfl, h.law.rework h.filed j.dump j.index _ c Channel.idle
    (h.law.alone hj) (fun _ => rfl) (fun _ h => by cases h) (fun x hx => ?_) fun d k q hq hqc => ?_⟩
  · obtain ⟨h1, -, -, h4⟩ := (h.law.channels c j hj).sect x hx
    exact .finish h1 why crc (h4.trans hn)
  · obtain ⟨-, x, -, -, hx, -⟩ := (h.law.reads d k q hq).hand
    rw [hqc, hh] at hx
    cases hx

/-- The lock given back by a channel that holds it. -/
noncomputable def State.unlockFor (s : State) (c : Fin 4) (d : Dom) : State :=
  match (s.link d).lockHolder with
  | some x => if x.channel = c then s.setLink d { s.link d with lockHolder := none } else s
  | none => s

theorem State.unlockFor_moves (s : State) (c : Fin 4) (d : Dom) : s.Moves (s.unlockFor c d) := by
  unfold State.unlockFor
  split
  · split
    · exact .setLink _ _ _ (.of_positions rfl)
    · exact .refl _
  · exact .refl _

/-- A section's final record and its channel back to IDLE, with the staging pages as they are left. -/
noncomputable def State.left (s : State) (c : Fin 4) (j : Job) (why : Ending) (n : Nat) (crc : Option (BitVec 32)) (last : Nat) : State :=
  (State.withdrawPages { (s.updSection j.dump j.index fun r => { r with
      state := why.result.1, cause := why.result.2, written := n, crc := crc }) with
    staging := s.staging.leave c last } (.channel c)).setChannel c Channel.idle

/-- A channel with no read in hand and `n` pages left to pass ends its section (R74, R76). -/
noncomputable def State.ended (s : State) (c : Fin 4) (j : Job) (why : Ending) (n : Nat) : State :=
  (((s.passRest c j (s.channel c).handled n).unlockFor c j.domain).left c j why (s.channel c).handled
    (some (crc32Final ((s.passRest c j (s.channel c).handled n).channel c).crc))
    ((s.passRest c j (s.channel c).handled n).channel c).passed).sectionEnded j.domain j.dump j.index

theorem State.finishStep_spec {s t : State} {c : Fin 4} (e : s.finishStep c = some t) :
    ∃ (j : Job) (why : Ending) (n : Nat), (s.channel c).job = some j ∧ (s.channel c).hand = [] ∧ t = s.ended c j why n := by
  have e : (match (s.channel c).state, (s.channel c).job, (s.channel c).ending with
    | .ending, some j, some why =>
      if (s.channel c).hand = [] then some (s.ended c j why ((s.channel c).given - (s.channel c).passed)) else none
    | _, _, _ => none) = some t := e
  split at e
  · next j why _ hj _ =>
    obtain ⟨hh, e⟩ := Option.ite_none_right_eq_some.1 e
    exact ⟨j, why, _, hj, hh, (Option.some.inj e).symm⟩
  · cases e

theorem State.Sound.finishStep {s t : State} (h : s.Sound) {c : Fin 4} (e : s.finishStep c = some t) : t.Sound := by
  obtain ⟨j, why, n, hj, hh, rfl⟩ := State.finishStep_spec e
  unfold State.ended
  have m := (s.passRest_moves c j (s.channel c).handled n).trans (State.unlockFor_moves _ c j.domain)
  generalize some (crc32Final ((s.passRest c j (s.channel c).handled n).channel c).crc) = crc
  generalize ((s.passRest c j (s.channel c).handled n).channel c).passed = last
  generalize (s.passRest c j (s.channel c).handled n).unlockFor c j.domain = u at m ⊢
  have hc := m.channels c
  have hu := (h.moves m).leave (hc.job.trans hj) (List.eq_nil_of_subset_nil (hh ▸ hc.hand.subset)) why crc hc.handled
  refine (hu.moves (t := u.left c j why (s.channel c).handled crc last) ?_).moves (State.sectionEnded_moves _ _ _ _)
  exact .of_directory (by rfl) rfl (fun _ => rfl) rfl (fun _ => .refl _) (fun _ => .of_positions rfl)
    (fun _ => .of_copier rfl) fun r hr => .inl (List.mem_of_mem_filter hr)

/-! ### Grants (R63, R85, R91, R92) -/

/-- The request that a channel makes is for a read of its hand that awaits a grant. -/
theorem State.wanted_spec {s : State} {d : Dom} {c : Fin 4} {q : GrantRequest} (h : s.wanted d c = some q) :
    ∃ j r, (s.channel c).job = some j ∧ j.domain = d ∧ r ∈ (s.channel c).hand ∧ r.outstanding = false
      ∧ q.channel = c ∧ q.address = j.base + r.offset ∧ q.length = r.length := by
  have hfold (l : List HandRead) (m : Option HandRead) (r : HandRead)
      (hr : l.foldl (fun (m : Option HandRead) r =>
        match m with
        | some x => if r.offset < x.offset then some r else some x
        | none => some r) m = some r) : r ∈ l ∨ m = some r := by
    induction l generalizing m with
    | nil => exact .inr hr
    | cons x l ih =>
      rcases ih _ hr with hm | hm
      · exact .inl (List.mem_cons_of_mem _ hm)
      · dsimp only at hm
        split at hm
        · split at hm
          · cases hm; exact .inl List.mem_cons_self
          · exact .inr hm
        · cases hm; exact .inl List.mem_cons_self
  unfold State.wanted at h
  dsimp only at h
  split at h
  · cases h
  · next j hj =>
    split at h
    · next hd =>
      obtain ⟨r, hr, rfl⟩ := Option.map_eq_some_iff.1 h
      rcases hfold _ _ r hr with hm | hm
      · obtain ⟨hm, ho⟩ := List.mem_filter.1 hm
        exact ⟨j, r, hj, hd.1, hm, by simpa using ho, rfl, rfl, rfl⟩
      · cases hm
    · cases h

/-- A read issued into a position, for a read outstanding in a hand. -/
theorem State.SectionLaw.issueRead {s : State} (h : s.SectionLaw) {d : Dom} {l : Link} {pos : Fin 2} {r : LinkRead}
    (hl : l.positions = (s.link d).positions.set pos (some r)) (hr : s.ReadLaw d r)
    (ha : ∀ (k : Fin 2) q, k ≠ pos → (s.link d).positions[k] = some q → q.channel = r.channel → q.address ≠ r.address) :
    (s.setLink d l).SectionLaw := by
  have hpos (k : Fin 2) (q : LinkRead) (hq : l.positions[k] = some q) :
      (k = pos ∧ q = r) ∨ (k ≠ pos ∧ (s.link d).positions[k] = some q) := by
    rw [hl] at hq
    by_cases hk : k = pos
    · subst hk
      exact .inl ⟨rfl, by simpa using hq.symm⟩
    · have hv : (pos : Nat) ≠ k := fun he => hk (Fin.ext he.symm)
      exact .inr ⟨hk, by simpa [Vector.getElem_set, hv] using hq⟩
  have hread (e : Dom) (q : LinkRead) (hq : s.ReadLaw e q) : (s.setLink d l).ReadLaw e q := ⟨hq.granules, hq.hand⟩
  have hlink (e : Dom) : (s.setLink d l).link e = if e = d then l else s.link e := State.setLink_link ..
  refine ⟨h.sections, h.fixed, h.idle, fun c j hj => (h.channels c j hj).laid.law (h.channels c j hj).number
    (h.channels c j hj).sect, h.distinct, fun e k q hq => hread e q ?_, fun e p q hp hq hc => ?_, h.copies, h.latches,
    fun hu => ?_⟩
  · rw [hlink] at hq
    by_cases he : e = d
    · rw [if_pos he] at hq
      rcases hpos k q hq with ⟨-, hqr⟩ | ⟨-, hq⟩
      · exact he ▸ hqr ▸ hr
      · exact he ▸ h.reads d k q hq
    · rw [if_neg he] at hq
      exact h.reads e k q hq
  · rw [hlink] at hp hq
    by_cases he : e = d
    · rw [if_pos he] at hp hq
      rcases hpos 0 p hp with ⟨h0, hpr⟩ | ⟨h0, hp'⟩ <;> rcases hpos 1 q hq with ⟨h1, hqr⟩ | ⟨h1, hq'⟩
      · exact absurd (h0.trans h1.symm) (by decide)
      · rw [hpr] at hc ⊢
        exact (ha 1 q h1 hq' hc.symm).symm
      · rw [hqr] at hc ⊢
        exact ha 0 p h0 hp' hc
      · exact h.readsApart d p q hp' hq' hc
    · rw [if_neg he] at hp hq
      exact h.readsApart e p q hp hq hc
  · obtain ⟨j, -, hj, -⟩ := hr.hand
    exact absurd (h.finished_of_job hj) hu

/-- The read that a grant issues. -/
noncomputable def GrantRequest.read (q : GrantRequest) (number : Nat) (now : Time) : LinkRead :=
  { number := number, channel := q.channel, address := q.address, length := q.length
    granules := if q.address % 64 = 0 ∧ q.length % 64 = 0 then q.length / 64 else 1
    mask := if q.address % 64 = 0 ∧ q.length % 64 = 0 then none else some (byteMask q.address q.length)
    locked := q.locked, issueTime := now, claimed := false, received := [], mismatch := false }

theorem GrantRequest.read_granules (q : GrantRequest) (number : Nat) (now : Time) (h : 1 ≤ q.length) :
    (q.read number now).received.length < (q.read number now).granules
      ∧ ((q.read number now).granules = 1 ∨ 64 * (q.read number now).granules = (q.read number now).length) := by
  simp only [GrantRequest.read, List.length_nil]
  split
  · next hw =>
    have hd := Nat.dvd_of_mod_eq_zero hw.2
    exact ⟨Nat.div_pos (Nat.le_of_dvd h hd) (by decide), .inr (Nat.mul_div_cancel' hd)⟩
  · exact ⟨Nat.one_pos, .inl rfl⟩

/-- The read granted is marked outstanding in its hand. -/
theorem State.Sound.markOutstanding {s : State} (h : s.Sound) {c : Fin 4} {j : Job} (hj : (s.channel c).job = some j)
    (o : Nat) : (s.setChannel c ((s.channel c).updRead o fun x => { x with outstanding := true })).Sound := by
  have hL := (h.law.channels c j hj).laid
  refine ⟨h.filed.of_still rfl (fun _ => rfl) rfl, h.law.rehand h.filed hj hj (h.not_idle hj)
    ((hL.holding_map (fun x => if x.offset = o then { x with outstanding := true } else x) fun x hx => ?_).of_eq
      rfl rfl rfl rfl rfl) rfl (h.law.outstanding hj fun x hx ho => List.mem_map.2 ⟨x, hx, ?_⟩)⟩
  · have h1 := (hL.hand x hx).1
    split <;> exact ⟨h1, le_rfl, le_rfl⟩
  · split
    · rw [← ho]
    · rfl

/-- A request for a waiting read is granted into a free position. -/
theorem State.Sound.issue {s : State} (h : s.Sound) {d : Dom} (pos : Fin 2) {q : GrantRequest}
     (hq : s.wanted d q.channel = some q) : (s.issue d pos q).Sound := by
  obtain ⟨j, r, hj, hd, hr, ho, -, ha, hlen⟩ := State.wanted_spec hq
  have hL := (h.law.channels q.channel j hj).laid
  have hoff : q.address - j.base = r.offset := by rw [ha, Nat.add_sub_cancel_left]
  have hm := h.markOutstanding hj r.offset
  generalize hu : s.setChannel q.channel ((s.channel q.channel).updRead r.offset fun x => { x with outstanding := true }) = u
    at hm
  have hlink : u.link d = s.link d := by rw [← hu]; rfl
  have hissue : s.issue d pos q = u.setLink d { s.link d with
      positions := (s.link d).positions.set pos (some (q.read (s.link d).issued s.partTime))
      requests := (s.link d).requests.filter fun x => x.channel ≠ q.channel
      lastGranted := q.channel
      counters := { (s.link d).counters with readsIssued := (s.link d).counters.readsIssued.inc }
      issued := (s.link d).issued + 1 } := by
    unfold State.issue
    have hj' : ∀ l : Link, ((s.setLink d l).channel q.channel).job = some j := fun _ => hj
    simp only [hj', hoff]
    rw [← hu]
    rfl
  rw [hissue]
  refine ⟨hm.filed.of_still rfl (fun e => rfl) rfl, hm.law.issueRead (pos := pos)
    (r := q.read (s.link d).issued s.partTime) (by rw [hlink]) ⟨q.read_granules _ _ ?_, ?_⟩ fun k p _ hp hc he => ?_⟩
  · rw [hlen]
    exact (hL.hand r hr).1
  · refine ⟨j, { r with outstanding := true }, ?_, hd, ?_, rfl, ha.symm, hlen.symm⟩
    · rw [← hu, show (q.read (s.link d).issued s.partTime).channel = q.channel from rfl, State.setChannel_channel_self]
      exact hj
    · rw [← hu, show (q.read (s.link d).issued s.partTime).channel = q.channel from rfl, State.setChannel_channel_self]
      exact List.mem_map.2 ⟨r, hr, if_pos rfl⟩
  · rw [hlink] at hp
    obtain ⟨j', x, hj', -, hx, hxo, hxa, -⟩ := (h.law.reads d k p hp).hand
    have hc' : p.channel = q.channel := hc
    have he' : p.address = q.address := he
    rw [hc'] at hj' hx
    rw [hj] at hj'
    cases hj'
    have hxr : x = r := hL.read_ext hx hr (Nat.add_left_cancel (hxa.trans (he'.trans ha)))
    rw [hxr, ho] at hxo
    cases hxo

theorem State.requests_of_askStep {s : State} {d : Dom} (h : s.askStep d = none) :
    (s.link d).requests = (List.finRange 4).filterMap fun c => s.wanted d c := by
  unfold State.askStep at h
  dsimp only at h
  split at h
  · next hr => exact hr
  · cases h

/-- Where the requests are settled, a grant is of a request that a channel makes (R91, R92). -/
theorem State.grantStep_spec {s t : State} {d : Dom} (ha : s.askStep d = none) (e : s.grantStep d = some t) :
    ∃ pos c q, s.wanted d c = some q ∧ t = s.issue d pos q := by
  unfold State.grantStep at e
  dsimp only at e
  split at e
  · cases e
  · next pos _ =>
    split at e
    · next q hq =>
      obtain ⟨c, -, hc⟩ := List.exists_of_findSome?_eq_some hq
      have hm := List.mem_of_find?_eq_some hc
      rw [State.requests_of_askStep ha] at hm
      obtain ⟨c', -, hw⟩ := List.mem_filterMap.1 hm
      exact ⟨pos, c', q, hw, (Option.some.inj e).symm⟩
    · cases e

theorem State.Sound.grantStep {s t : State} (h : s.Sound) {d : Dom} (ha : s.askStep d = none) (e : s.grantStep d = some t) :
    t.Sound := by
  obtain ⟨pos, c, q, hw, rfl⟩ := State.grantStep_spec ha e
  obtain ⟨-, -, -, -, -, -, hqc, -⟩ := State.wanted_spec hw
  exact h.issue pos (hqc ▸ hw)

end Sys2Proof.Machine
end

