-- ==== Sys2Proof/Proofs/SectionPump.lean ====
section
/-! SUPPORT. The device's own work keeps the section law (95; log 4): the staging buffer served, a closing's steps, and the
pump. -/
namespace Sys2Proof.Machine

/-! ### The staging buffer (R64, R65, R110, R119) -/

/-- Pages given to the oldest request, which is dropped. -/
theorem State.served_moves (s : State) {r : StagingRequest} {rest : List StagingRequest} (hr : s.staging.requests = r :: rest)
    (ps : List StagingPage) : s.Moves { s with staging := { pages := ps, requests := rest } } :=
  .of_directory rfl rfl (fun _ => rfl) rfl (fun _ => .refl _) (fun _ => .of_positions rfl) (fun _ => .of_copier rfl)
    fun q hq => .inl (by rw [hr]; exact List.mem_cons_of_mem _ hq)

/-- What the holder of given pages does with them, where a latch snapshot's section has the room for its page. -/
theorem State.Sound.given {s : State} (h : s.Sound) (r : StagingRequest)
    (hl : r.holder = .directory → ∀ k, r.keys.head? = some k → k.kind ≠ .dumpHeader → k.kind ≠ .manifest →
      ∀ x, s.sect k.dump 0 = some x → x.fills 4096) : (s.given r).Sound := by
  unfold State.given
  split
  · next c k _ _ _ =>
    split
    · exact h.moves (s.headerGiven_moves c)
    · exact h.dataGiven c _
  · next d k _ _ _ =>
    split
    · exact h.moves (State.copierHeader_moves h.filed h.law d)
    · exact h.moves (State.copierData_moves h.filed h.law d k)
  · next k ks hh hk =>
    split
    · exact h.moves (s.dumpHeaderGiven_moves k.dump)
    · exact h.moves (s.manifestGiven_moves k)
    · next h1 h2 => exact h.moves (State.latchGiven_moves k.dump (hl hh k (by rw [hk]; rfl) h1 h2))
  · exact h

theorem State.serveStep_spec {s t : State} (e : s.serveStep = some t) :
    ∃ r rest pages, s.staging.requests = r :: rest
      ∧ t = State.given { s with staging := { pages := pages, requests := rest } } r := by
  unfold State.serveStep at e
  split at e
  · cases e
  · next r rest hr =>
    split at e <;> cases e
    exact ⟨r, rest, _, hr, rfl⟩

theorem State.Sound.serveStep {s t : State} (h : s.Sound) (e : s.serveStep = some t) : t.Sound := by
  obtain ⟨r, rest, pages, hr, rfl⟩ := State.serveStep_spec e
  refine (h.moves (s.served_moves hr _)).given r fun hh k hk k1 k2 => ?_
  exact (h.law.latches r (hr ▸ List.mem_cons_self) hh k hk k1 k2).2

/-! ### Closing (R129 to R131) -/

theorem State.closingStep_spec {s t : State} {d : Dom} (e : s.closingStep d = some t) :
    ∃ x, s.openEntry d = some x ∧ (t = s.startPost d x.number ∨ t = s.buildManifest d x.number) := by
  unfold State.closingStep at e
  split at e
  · next x _ hx =>
    refine ⟨x, hx, ?_⟩
    split at e
    · split at e <;> cases e
      · exact .inl rfl
      · exact .inr rfl
    · cases e
  · cases e

theorem State.Sound.closingStep {s t : State} (h : s.Sound) {d : Dom} (e : s.closingStep d = some t) : t.Sound := by
  obtain ⟨x, hx, rfl | rfl⟩ := State.closingStep_spec e
  · exact ⟨h.filed.of_still (by simp) (fun _ => rfl) rfl, h.law.startPost h.filed d hx⟩
  · exact h.moves (s.buildManifest_moves d x.number)

/-! ### The pump -/

/-- Of three steps looked at in turn the third is taken only where the second is not enabled. -/
theorem findSome_three {x y z : Unit → Option State} {t : State}
    (h : [x, y, z].findSome? (fun f => f ()) = some t) : x () = some t ∨ y () = some t ∨ (y () = none ∧ z () = some t) := by
  simp only [List.findSome?_cons, List.findSome?_nil] at h
  split at h
  · next hx => exact .inl (hx.trans h)
  · split at h
    · next hy => exact .inr (.inl (hy.trans h))
    · next hy =>
      split at h
      · next hz => exact .inr (.inr ⟨hy, hz.trans h⟩)
      · cases h

/-- The kinds of the steps that a pump takes; a grant is one of a link with no grant request to change first. -/
inductive State.PumpStep (s t : State) : Prop
  | serve (e : s.serveStep = some t)
  | pass (c : Fin 4) (e : s.passStep c = some t)
  | finish (c : Fin 4) (e : s.finishStep c = some t)
  | cut (c : Fin 4) (e : s.cutStep c = some t)
  | lock (d : Dom) (e : s.lockStep d = some t)
  | ask (d : Dom) (e : s.askStep d = some t)
  | grant (d : Dom) (ha : s.askStep d = none) (e : s.grantStep d = some t)
  | pick (e : s.pickStep = some t)
  | copy (d : Dom) (e : s.copierStep d = some t)
  | closing (d : Dom) (e : s.closingStep d = some t)
  | manifest (d : Dom) (e : s.manifestStep d = some t)
  | store (e : s.storeStep = some t)

theorem State.pump_step {s t : State} (h : s.pump = some t) : s.PumpStep t := by
  unfold State.pump State.steps at h
  simp only [List.findSome?_append, Option.or_eq_some_iff] at h
  rcases h with ((((h | ⟨-, h⟩) | ⟨-, h⟩) | ⟨-, h⟩) | ⟨-, h⟩) | ⟨-, h⟩
  · obtain ⟨f, hf, e⟩ := List.exists_of_findSome?_eq_some h
    rw [List.mem_singleton] at hf
    subst hf
    exact .serve e
  · obtain ⟨f, hf, e⟩ := List.exists_of_findSome?_eq_some h
    simp only [List.mem_flatMap, List.mem_cons, List.not_mem_nil, or_false] at hf
    obtain ⟨c, -, rfl | rfl | rfl⟩ := hf
    · exact .pass c e
    · exact .finish c e
    · exact .cut c e
  · have hd : ∃ d, [fun _ => s.lockStep d, fun _ => s.askStep d, fun _ => s.grantStep d].findSome?
        (fun f : Unit → Option State => f ()) = some t := by
      simp only [List.flatMap_cons, List.flatMap_nil, List.append_nil, List.findSome?_append, Option.or_eq_some_iff] at h
      rcases h with h | ⟨-, h⟩
      · exact ⟨.a, h⟩
      · exact ⟨.b, h⟩
    obtain ⟨d, hd⟩ := hd
    rcases findSome_three hd with e | e | ⟨ha, e⟩
    · exact .lock d e
    · exact .ask d e
    · exact .grant d ha e
  · obtain ⟨f, hf, e⟩ := List.exists_of_findSome?_eq_some h
    rw [List.mem_singleton] at hf
    subst hf
    exact .pick e
  · obtain ⟨f, hf, e⟩ := List.exists_of_findSome?_eq_some h
    simp only [List.mem_flatMap, List.mem_cons, List.not_mem_nil, or_false] at hf
    obtain ⟨d, -, rfl | rfl | rfl⟩ := hf
    · exact .copy d e
    · exact .closing d e
    · exact .manifest d e
  · obtain ⟨f, hf, e⟩ := List.exists_of_findSome?_eq_some h
    rw [List.mem_singleton] at hf
    subst hf
    exact .store e

theorem State.Sound.pump {s t : State} (h : s.Sound) (e : s.pump = some t) : t.Sound := by
  cases State.pump_step e with
  | serve e => exact h.serveStep e
  | pass c e => exact h.moves (State.passStep_moves e)
  | finish c e => exact h.finishStep e
  | cut c e => exact h.cutStep e
  | lock d e => exact h.moves (State.lockStep_moves e)
  | ask d e => exact h.moves (State.askStep_moves e)
  | grant d ha e => exact h.grantStep ha e
  | pick e => exact h.pickStep e
  | copy d e => exact h.moves (State.copierStep_moves h.law e)
  | closing d e => exact h.closingStep e
  | manifest d e => exact h.moves (State.manifestStep_moves h.filed e)
  | store e => exact h.moves (State.storeStep_moves e)

/-- The device's own work keeps the section law. -/
theorem State.Sound.settle {s : State} (h : s.Sound) : s.settle.Sound :=
  State.settle_induction (P := State.Sound) (fun _ _ e hs => hs.pump e) s h

end Sys2Proof.Machine
end

