-- ==== Sys2Proof/Proofs/NewDumps.lean ====
section
/-! SUPPORT. The opening of a dump under the section law (R37, R109, R119, R124, R126): the new entry's sections are lawful,
and the pre-copy and the latch snapshot have the room for what they take. -/
namespace Sys2Proof.Machine

/-! ### The new entry -/

theorem fixedSection_lawful (i : Nat) (k : SectionKind) (st : SectionState) (n : Nat) (t : Option Time)
    (hs : st ≠ .skipped) : (fixedSection i k st n t).Lawful :=
  ⟨⟨Nat.zero_le _, le_rfl⟩, (fun h => by cases h), fun h => absurd h hs, fun _ => ⟨rfl, rfl, rfl⟩, Nat.zero_le _, .nil, List.forall_mem_nil _, fun _ => rfl⟩

theorem PlanEntry.toSection_lawful (x : PlanEntry) (i : Nat) : (x.toSection i).Lawful :=
  ⟨⟨le_rfl, Nat.zero_le _⟩, (fun h => by cases h), fun _ => rfl, fun _ => ⟨rfl, rfl, rfl⟩, Nat.zero_le _, .nil, List.forall_mem_nil _, fun _ => rfl⟩

/-- The sections of a new entry: the three fixed ones, and a lawful REGION section of its own index for each plan entry. -/
theorem State.newEntry_sections (s : State) (d : Dom) (n : Num) (t : TriggerEntry) (i : Nat) :
    (s.newEntry d n t).sections[i]? = match i with
      | 0 => some (fixedSection 0 .latch .active 4096 (some t.time))
      | 1 => some (fixedSection 1 .journalPre .active 131072 (some t.time))
      | 2 => some (fixedSection 2 .journalPost .pending 32768 none)
      | i + 3 => (s.plan d).harvestOrder[i]?.map fun x => x.toSection (i + 3) := by
  match i with
  | 0 | 1 | 2 => rfl
  | i + 3 => simp [State.newEntry, Plan.snapshot]

theorem State.newEntry_section (s : State) (d : Dom) (n : Num) (t : TriggerEntry) {i : Nat} {x : SectionRecord}
    (h : (s.newEntry d n t).sections[i]? = some x) : x.Lawful ∧ x.index = i := by
  rw [State.newEntry_sections] at h
  match i with
  | 0 => cases h; exact ⟨fixedSection_lawful _ _ _ _ _ (fun h => by cases h), rfl⟩
  | 1 => cases h; exact ⟨fixedSection_lawful _ _ _ _ _ (fun h => by cases h), rfl⟩
  | 2 => cases h; exact ⟨fixedSection_lawful _ _ _ _ _ (fun h => by cases h), rfl⟩
  | i + 3 =>
    obtain ⟨p, -, rfl⟩ := Option.map_eq_some_iff.1 h
    exact ⟨p.toSection_lawful _, rfl⟩

/-! ### The directory with the new entry -/

/-- The state in which a dump is added for a domain that names it as its own open dump (R4, R126 steps 1 and 2). -/
noncomputable def State.added (s : State) (d : Dom) (x : Domain) (t : TriggerEntry) : State := (s.setDomain d x).addDump d t

theorem State.added_entries (s : State) (d : Dom) (x : Domain) (t : TriggerEntry) :
    (s.added d x t).directory.entries
      = s.directory.entries ++ [(s.setDomain d x).newEntry d s.directory.nextNumber t] := rfl

theorem State.added_dump_old (s : State) (d : Dom) (x : Domain) (t : TriggerEntry) {m : Num}
    (hm : m ≠ s.directory.nextNumber) : (s.added d x t).dump m = s.dump m := by
  have hne : (((s.setDomain d x).newEntry d s.directory.nextNumber t).number == m) = false := by
    simpa [State.newEntry] using Ne.symm hm
  rw [State.dump, State.added_entries, List.find?_append, List.find?_cons_of_neg (by simp [hne]), List.find?_nil, Option.or_none]
  rfl

theorem State.Filed.fresh {s : State} (h : s.Filed) : s.dump s.directory.nextNumber = none :=
  List.find?_eq_none.2 fun e he hn => by
    have := h.next e he
    rw [beq_iff_eq.1 hn] at this
    exact absurd this (by simp)

theorem State.added_dump_new {s : State} (h : s.Filed) (d : Dom) (x : Domain) (t : TriggerEntry) :
    (s.added d x t).dump s.directory.nextNumber = some ((s.setDomain d x).newEntry d s.directory.nextNumber t) := by
  have := h.fresh
  rw [State.dump] at this
  rw [State.dump, State.added_entries, List.find?_append, this]
  simp [State.newEntry]

/-- The next number is above the last given while there is one (R122). -/
theorem lt_succ_of_ne_last {n : Num} (hn : n ≠ 0xFFFFFFFF) : n < n + 1 := by
  have : n.toNat ≠ 0xFFFFFFFF := fun he => hn (BitVec.eq_of_toNat_eq he)
  bv_omega

theorem State.Filed.added {s : State} (h : s.Filed) (hu : s.startUp = .finished) (hn : s.directory.nextNumber ≠ 0xFFFFFFFF)
    (d : Dom) (x : Domain) (hx : x.openDump = some s.directory.nextNumber) (t : TriggerEntry) : (s.added d x t).Filed := by
  have hlt := lt_succ_of_ne_last hn
  refine ⟨?_, fun e he => ?_, fun f n hf => ?_, fun k => absurd hu k⟩
  · rw [State.added_entries, List.map_append, List.nodup_append]
    refine ⟨h.numbers, by simp, fun a ha b hb => ?_⟩
    simp only [List.map_cons, List.map_nil, List.mem_singleton] at hb
    obtain ⟨e, he, rfl⟩ := List.mem_map.1 ha
    have := h.next e he
    rintro rfl
    rw [hb] at this
    exact absurd this (by simp [State.newEntry])
  · rw [State.added_entries] at he
    rcases List.mem_append.1 he with he | he
    · exact BitVec.lt_trans (h.next e he) hlt
    · rw [List.mem_singleton] at he
      subst he
      exact hlt
  · rw [State.added_entries]
    have hf' : ((s.setDomain d x).domain f).openDump = some n := hf
    rw [State.setDomain_domain] at hf'
    split at hf'
    · next he =>
      subst he
      rw [hx] at hf'
      cases hf'
      exact ⟨_, List.mem_append_right _ (List.mem_singleton_self _), rfl, rfl, rfl⟩
    · obtain ⟨e, he, hen⟩ := h.openHeld f n hf'
      exact ⟨e, List.mem_append_left _ he, hen⟩

/-- The sections of the other dumps stay, and the new number was not theirs. -/
theorem State.SectionLaw.added {s : State} (h : s.SectionLaw) (hu : s.startUp = .finished)
    (hn : s.directory.nextNumber ≠ 0xFFFFFFFF) (d : Dom) (x : Domain) (t : TriggerEntry) : (s.added d x t).SectionLaw := by
  have hlt {m : Num} (hm : m < s.directory.nextNumber) : m < (s.added d x t).directory.nextNumber :=
    BitVec.lt_trans hm (lt_succ_of_ne_last hn)
  have hsect {m : Num} (hm : m < s.directory.nextNumber) (i : Nat) : (s.added d x t).sect m i = s.sect m i := by
    unfold State.sect
    rw [s.added_dump_old d x t (fun he => by rw [he] at hm; exact absurd hm (by simp))]
  refine ⟨fun e he y hy => ?_, fun e he ho => ?_, h.idle, fun c j hj => ?_, h.distinct, fun e k q hq => ?_, h.readsApart,
    fun e c hc => ?_, fun r hr hh k hk k1 k2 => ?_, fun k => absurd hu k⟩
  · rw [State.added_entries] at he
    rcases List.mem_append.1 he with he | he
    · exact h.sections e he y hy
    · rw [List.mem_singleton] at he
      subst he
      obtain ⟨i, hi⟩ := List.mem_iff_getElem?.1 hy
      exact (State.newEntry_section _ _ _ _ hi).1
  · rw [State.added_entries] at he
    rcases List.mem_append.1 he with he | he
    · exact h.fixed e he ho
    · rw [List.mem_singleton] at he
      subst he
      exact ⟨rfl, fun i y hi => (State.newEntry_section _ _ _ _ hi).2⟩
  · have hl := h.channels c j hj
    refine hl.laid.law (hlt hl.number) fun y hy => hl.sect y ?_
    rwa [hsect hl.number] at hy
  · exact ⟨(h.reads e k q hq).granules, (h.reads e k q hq).hand⟩
  · obtain ⟨h1, h2, h3⟩ := h.copies e c hc
    exact ⟨hlt h1, h2, fun y hy => h3 y (by rwa [hsect h1] at hy)⟩
  · obtain ⟨h1, h2⟩ := h.latches r hr hh k hk k1 k2
    exact ⟨hlt h1, fun y hy => h2 y (by rwa [hsect h1] at hy)⟩

end Sys2Proof.Machine
end

