-- ==== Sys2Proof/Proofs/DumpOpenings.lean ====
section
/-! SUPPORT. The first work of a dump, and the triggers (R4 to R6, R109, R119, R126). -/
namespace Sys2Proof.Machine

/-! ### The first work of a dump (R109, R119, R126) -/

theorem State.Sound.startCopy {s : State} (h : s.Sound) (d : Dom) (j : Journal) (c : Copy) (hu : s.startUp = .finished)
    (hc : j.copier = some c) (hn : c.dump < s.directory.nextNumber) (hle : c.copied ≤ c.count)
    (hf : ∀ x, s.sect c.dump c.kind.index = some x → x.fills (64 * c.count)) : (s.setJournal d j).Sound :=
  ⟨h.filed.of_still rfl (fun e => by simp) rfl, h.law.startCopy d j c hu hc hn hle hf⟩

theorem State.Sound.askLatches {s : State} (h : s.Sound) (ks : List PageKey) (hu : s.startUp = .finished)
    (hk : ∀ k, ks.head? = some k → k.dump < s.directory.nextNumber ∧ ∀ x, s.sect k.dump 0 = some x → x.fills 4096) :
    (s.askPages .directory ks).Sound :=
  ⟨h.filed.of_still rfl (fun _ => rfl) rfl, h.law.askLatches ks hu hk⟩

/-- The header page, the pre-copy of at most 2,048 records and the latch snapshot of a dump whose first two sections stand
open. -/
theorem State.Sound.startDumpWork {s : State} (h : s.Sound) (d : Dom) {n : Num} (now : Time) (hu : s.startUp = .finished)
    (hn : n < s.directory.nextNumber) (h0 : ∀ x, s.sect n 0 = some x → x.fills 4096)
    (h1 : ∀ x, s.sect n 1 = some x → x.fills 131072) : (s.startDumpWork d n now).Sound := by
  have hcount : min (s.journal d).ring.length Config.preMax ≤ 2048 := Nat.min_le_right _ _
  unfold State.startDumpWork
  dsimp only
  have hask := h.moves (.askPages s .directory [dumpHeaderKey n] hu fun ⟨_, k, hk, hne, _⟩ => by
    cases hk
    exact hne rfl)
  have hpre := hask.startCopy d ((s.journal d).startPre n s.partTime) _ hu rfl hn (Nat.zero_le _) fun x hx => by
    obtain ⟨k1, k2, k3, k4⟩ := h1 x hx
    exact ⟨k1, k2, k3, le_trans (by show 64 * min (s.journal d).ring.length Config.preMax ≤ 131072; omega) k4⟩
  refine State.Sound.askLatches ((hpre.moves (.askPages _ (.copier d) [headerKey n 1] hu (Holder.not_forLatches (fun h => by cases h)))).moves
    (.leaves (State.setWork_leaves _ _ _))) _ hu fun k hk => ?_
  cases hk
  exact ⟨hn, h0⟩

/-! ### Openings (R4, R5, R126) -/

theorem State.openingFailure_number {s : State} {d : Dom} (h : s.openingFailure d = none) :
    s.directory.nextNumber ≠ 0xFFFFFFFF := by
  unfold State.openingFailure at h
  split at h
  · cases h
  · split at h
    · cases h
    · next hn => exact hn

/-- A dump opened for a domain that names it. -/
theorem State.Sound.openDump {s : State} (h : s.Sound) (hu : s.startUp = .finished)
    (hn : s.directory.nextNumber ≠ 0xFFFFFFFF) (d : Dom) (x : Domain) (hx : x.openDump = some s.directory.nextNumber)
    (t : TriggerEntry) : ((s.setDomain d x).openDump d t).Sound := by
  have hadd : (s.added d x t).Sound := ⟨h.filed.added hu hn d x hx t, h.law.added hu hn d x t⟩
  have hnew := State.added_dump_new h.filed d x t
  have hlt : s.directory.nextNumber < (s.added d x t).directory.nextNumber :=
    hadd.filed.next _ (State.mem_of_dump hnew).1
  have hsect (i : Nat) := State.sect_of_dump hnew i
  have hwork := hadd.startDumpWork d (n := s.directory.nextNumber) t.time hu hlt
    (fun y hy => by rw [hsect, State.newEntry_sections] at hy; cases hy; exact ⟨(fun h => by cases h), (fun h => by cases h), (fun h => by cases h), le_rfl⟩)
    (fun y hy => by rw [hsect, State.newEntry_sections] at hy; cases hy; exact ⟨(fun h => by cases h), (fun h => by cases h), (fun h => by cases h), le_rfl⟩)
  unfold State.openDump
  exact (hwork.moves (.setAdmission _ d _)).moves (State.pass_moves _ d)

theorem State.recordTrigger_moves (s : State) (d : Dom) (c : TriggerCause) (o : Option (BitVec 32)) (n : Num) :
    s.Moves (s.recordTrigger d c o n) := s.appendDevice_moves d _ _ _

theorem State.triggerStarts_moves (s : State) (d : Dom) (c : TriggerCause) (o : Option (BitVec 32)) :
    s.Moves (s.triggerStarts d c o) := by
  have m := (State.Moves.setDomain s d
    { s.domain d with state := .triggered, heartbeatTimer := none, triggerTime := some s.partTime } rfl).trans
    (State.recordTrigger_moves _ d c o 0)
  exact m.trans (.leaves rfl)

theorem State.openingFails_moves (s : State) (d : Dom) (c : TriggerCause) (w : FailureCause)
    (ho : (s.domain d).openDump = none) : s.Moves (s.openingFails d c w) := by
  have m := (State.Moves.setDomain s d { (s.domain d).withoutDump with state := .settled } (by rw [ho]; rfl)).trans
    (State.appendDevice_moves _ d 0xF4 3 (le 1 c.code ++ le 1 w.code))
  exact m.trans (State.notice_moves _ _ _ _)

theorem State.Sound.openingSucceeds {s : State} (h : s.Sound) (hu : s.startUp = .finished) {d : Dom}
    (hf : s.openingFailure d = none) (c : TriggerCause) (o : Option (BitVec 32)) : (s.openingSucceeds d c o).Sound := by
  unfold State.openingSucceeds
  dsimp only
  refine (((h.openDump hu (State.openingFailure_number hf) d _ (by rfl) _).moves (.setDomain _ d _ ?_)).moves
    (State.notice_moves _ _ _ _)).moves (State.replan_moves _ _)
  rfl

/-- A trigger that starts a dump, where no dump is open for its domain and start-up has ended. -/
theorem State.Sound.startDump {s : State} (h : s.Sound) (hu : s.startUp = .finished) {d : Dom}
    (ho : (s.domain d).openDump = none) (c : TriggerCause) (o : Option (BitVec 32)) : (s.startDump d c o).1.Sound := by
  have m := s.triggerStarts_moves d c o
  unfold State.startDump
  dsimp only
  split
  · exact (h.moves m).moves (State.openingFails_moves _ d c _ (by
      rw [State.triggerStarts_domain_self]
      exact ho))
  · next hf => exact (h.moves m).openingSucceeds (m.startUp.trans hu) hf c o

/-! ### Triggers (R6, R8) -/

theorem State.appendTrigger_moves (s : State) (d : Dom) (c : TriggerCause) (o : Option (BitVec 32)) :
    s.Moves (s.appendTrigger d c o).1 := by
  unfold State.appendTrigger
  split
  · split
    · refine State.Moves.trans ?_ (State.recordTrigger_moves _ d c o _)
      exact .updEntry s _ _ fun _ => ⟨rfl, rfl, rfl, rfl⟩
    · exact .setDomain s d _ rfl
  · exact .setDomain s d _ rfl

theorem State.Sound.takeTrigger {s : State} (h : s.Sound) (hd : s.DomainLaw) (d : Dom) (c : TriggerCause)
    (o : Option (BitVec 32)) : (s.takeTrigger d c o).1.Sound := by
  have hu (hs : (s.domain d).state ≠ .disarmed) : s.startUp = .finished := by
    by_contra hu
    exact hs (hd.starting hu d)
  unfold State.takeTrigger
  split
  · next hs => exact h.startDump (hu (by simp [hs])) (hd.openDump_none (by simp [Domain.busy, hs])) c o
  · next hs =>
    split
    · exact h.startDump (hu (by simp [hs])) (hd.openDump_none (by simp [Domain.busy, hs])) c o
    · exact h.moves (.setDomain s d _ rfl)
  · exact h.moves (s.appendTrigger_moves d c o)
  · exact h.moves (s.appendTrigger_moves d c o)
  · exact h.moves (.setDomain s d _ rfl)
  · exact h.moves (.setDomain s d _ rfl)

end Sys2Proof.Machine
end

