-- ==== Sys2Proof/Proofs/SectionRequests.lean ====
section
/-! SUPPORT. The requests under the section law: what each owning rule leaves or moves (chapters 1, 2, 6, 9). -/
namespace Sys2Proof.Machine

/-- The section law in a filed directory, with the law of the domains. -/
structure State.Whole (s : State) : Prop extends s.Sound where
  domains : s.DomainLaw

theorem State.Sound.leaves {s t : State} (h : s.Sound) (l : s.LeavesSections t) : t.Sound := h.moves l.moves

/-! ### Ports, taking up, answering and refusing -/

theorem State.LeavesSections.trans {s t u : State} (h : s.LeavesSections t) (k : t.LeavesSections u) : s.LeavesSections u :=
  Eq.trans k h

theorem State.setPort_leaves (s : State) (p : PortId) (x : Port) : s.LeavesSections (s.setPort p x) := by
  cases p <;> rfl

theorem State.advancePort_leaves (s : State) (p : PortId) : s.LeavesSections (s.advancePort p) := by
  unfold State.advancePort
  split
  · rfl
  · exact s.setPort_leaves p _

theorem State.sendHold_leaves (s : State) (p : PortId) (n : BitVec 16) : s.LeavesSections (s.sendHold p n) :=
  (s.setPort_leaves p _).trans (State.advancePort_leaves _ p)

theorem State.complete_leaves (s : State) (p : PortId) (r : Frame) : s.LeavesSections (s.complete p r) := by
  simp [State.LeavesSections, State.sectionParts]

theorem State.reserve_leaves (s : State) (p : PortId) : s.LeavesSections (s.reserve p) := by
  simp [State.LeavesSections, State.sectionParts]

theorem State.countMissed_moves (s : State) (d : Dom) : s.Moves (s.countMissed d) := .setDomain s d _ rfl

theorem State.refuse_moves (s : State) (p : PortId) (f : Frame) (st : Byte) : s.Moves (s.refuse p f st) := by
  unfold State.refuse
  dsimp only
  split
  · exact (s.countMissed_moves _).trans (State.complete_leaves _ p _).moves
  · exact (s.complete_leaves p _).moves

/-- A request keeps the law where its owning rule's answer, to a frame it takes, does. -/
theorem State.Whole.request {s : State} (h : s.Whole) (p : PortId) (kind : Byte) (act : State → Frame → Dom → Answer)
    (ha : ∀ u f d, u.Whole → (act u f d).All State.Sound) : (s.request p kind act).Sound := by
  have hr : (s.reserve p).Sound := h.toSound.leaves (s.reserve_leaves p)
  rcases s.request_cases p kind act with e | ⟨f, st, -, -, e⟩ | ⟨f, hf, e⟩ <;> rw [e]
  · exact h.toSound
  · exact hr.moves (State.refuse_moves _ p f st)
  · exact (ha _ f _ ⟨hr, h.domains.reserve p⟩).finish (fun _ p r k => k.leaves (State.complete_leaves _ p r))
      (fun _ k => k.settle) p f _

/-! ### The domain requests (R7 to R10, R18 to R21) -/

theorem State.startHeartbeat_moves (s : State) (d : Dom) : s.Moves (s.startHeartbeat d) := by
  unfold State.startHeartbeat
  exact .setDomain s d _ rfl

theorem armAct_sound {s : State} (h : s.Sound) (f : Frame) (d : Dom) : (armAct s f d).All State.Sound := by
  unfold armAct
  split
  · exact h.moves (s.enterArmed_moves d)
  · exact h.moves (s.enterArmed_moves d)
  all_goals exact h

theorem disarmAct_sound {s : State} (h : s.Sound) (f : Frame) (d : Dom) : (disarmAct s f d).All State.Sound := by
  unfold disarmAct
  split
  · exact h.moves (.setDomain s d _ rfl)
  · exact h.moves (.setDomain s d _ rfl)
  all_goals exact h

theorem heartbeatAct_sound {s : State} (h : s.Sound) (f : Frame) (d : Dom) : (heartbeatAct s f d).All State.Sound := by
  have m : s.Moves (s.setDomain d ((s.domain d).heartbeat f.body s.partTime)) := .setDomain s d _ rfl
  unfold heartbeatAct
  dsimp only
  generalize s.setDomain d ((s.domain d).heartbeat f.body s.partTime) = u at m ⊢
  split
  · exact (h.moves m).moves (u.startHeartbeat_moves d)
  · split
    · exact (h.moves m).moves (u.enterArmed_moves d)
    · exact h.moves m
  all_goals exact h.moves m

theorem crashAct_sound {s : State} (h : s.Whole) (f : Frame) (d : Dom) : (crashAct s f d).All State.Sound := by
  unfold crashAct
  dsimp only
  split
  · exact Answer.trigger_all (h.toSound.takeTrigger h.domains d _ _)
  · exact h.toSound.leaves rfl

theorem captureAct_sound {s : State} (h : s.Whole) (f : Frame) (d : Dom) : (captureAct s f d).All State.Sound := by
  unfold captureAct
  split
  · exact Answer.trigger_all (h.toSound.takeTrigger h.domains d _ _)
  · exact Answer.trigger_all (h.toSound.takeTrigger h.domains d _ _)
  · exact h.toSound.moves (s.countMissed_moves d)
  all_goals exact h.toSound

theorem abortAct_sound {s : State} (h : s.Sound) (f : Frame) (d : Dom) : (abortAct s f d).All State.Sound := by
  unfold abortAct
  split
  · exact h.moves (s.endHarvest_moves d _)
  · exact h.moves (s.endHarvest_moves d _)
  all_goals exact h

theorem releaseHoldAct_sound {s : State} (h : s.Sound) (f : Frame) (d : Dom) :
    (releaseHoldAct s f d).All State.Sound := by
  have m := s.releaseLine_moves d
  unfold releaseHoldAct
  split
  · exact (h.moves (m _)).moves (State.endHarvest_moves _ d _)
  · exact (h.moves (m _)).moves (State.endHarvest_moves _ d _)
  · exact h.moves (m _)
  all_goals exact h

/-! ### The directory's requests (R136 to R142) -/

theorem releaseAct_sound {s : State} (h : s.Sound) (f : Frame) (d : Dom) : (releaseAct s f d).All State.Sound := by
  unfold releaseAct
  dsimp only
  split
  · exact h
  · next e he =>
    split
    · exact h
    · next hs =>
      (repeat' split) <;> first | exact h | exact h.moves (s.releaseDump_moves _ he hs)

theorem protectAct_sound {s : State} (h : s.Sound) (f : Frame) (d : Dom) : (protectAct s f d).All State.Sound := by
  unfold protectAct
  dsimp only
  split
  · exact h
  · exact h.moves (.updEntry s _ _ fun _ => ⟨rfl, rfl, rfl, rfl⟩)

/-- The owning rules that leave every part the section law speaks of. -/
theorem manifestAct_sound {s : State} (h : s.Sound) (f : Frame) (d : Dom) : (manifestAct s f d).All State.Sound := by
  unfold manifestAct
  dsimp only
  (repeat' split) <;> exact h

theorem cursorAct_sound {s : State} (h : s.Sound) (f : Frame) (d : Dom) : (cursorAct s f d).All State.Sound := by
  unfold cursorAct
  dsimp only
  (repeat' split) <;> exact h.leaves rfl

end Sys2Proof.Machine
end

