-- ==== Sys2Proof/Proofs/SectionReports.lean ====
section
/-! SUPPORT. The requests that leave every part the section law speaks of, and the reports of reads and verifies (chapters 2, 6,
9 and 10). -/
namespace Sys2Proof.Machine

/-! ### Delivery marks (R138, R172) -/

theorem SectionRecord.Moves.mark (x : SectionRecord) (n : Nat) : x.Moves { x with delivered := n } :=
  ⟨rfl, rfl, fun h => ⟨h.lengths, h.truncated, h.skipped, h.fresh, h.holeCount, h.holeOrder, h.holeBounds, h.fixedWhole⟩,
    fun _ => ⟨rfl, fun a b => ⟨a, b⟩⟩, fun _ h => ⟨h, rfl, rfl⟩⟩

theorem State.delivered_moves (s : State) (n : Num) (i a b : Nat) : s.Moves (s.delivered n i a b) := by
  unfold State.delivered
  dsimp only
  refine State.Moves.trans ?_ (State.evalFetched_moves _ n)
  refine State.Moves.trans ?_ (.updSection _ n i _ fun x _ => .mark x _)
  exact .leaves rfl

theorem State.readingOn_leaves (s : State) (x : Option Processing) :
    s.LeavesSections { s with servicePort.processing := x } :=
  rfl

theorem State.cursorPage_moves (s : State) (p : PageRead) : s.Moves (s.cursorPage p) := by
  unfold State.cursorPage
  dsimp only
  split
  · next pages _ _ _ _ =>
    generalize (if pages.any fun q => decide (p.seq < q.seq) then p :: pages else pages ++ [p]) = ps
    split
    · exact (s.delivered_moves _ _ _ _).trans (.leaves (State.complete_leaves _ _ _))
    · exact .leaves (s.readingOn_leaves _)
  · exact .refl s

theorem Answer.all_ite {P : State → Prop} {c : Prop} [Decidable c] {x y : Answer} (hx : x.All P) (hy : y.All P) :
    (if c then x else y).All P := by
  split
  · exact hx
  · exact hy

theorem readAct_sound {s : State} (h : s.Sound) (f : Frame) (d : Dom) : (readAct s f d).All State.Sound := by
  unfold readAct
  dsimp only
  split
  · exact h
  · next c _ =>
    refine Answer.all_ite ?_ ?_
    · exact h.leaves rfl
    · exact h.moves (s.evalFetched_moves c.dump)

/-! ### Verifies (R141, R142) -/

theorem State.noticeVerify_leaves (s : State) (n : Num) (w r : Nat) (x y : BitVec 32) :
    s.LeavesSections (s.noticeVerify n w r x y) := by
  simp [State.LeavesSections, State.sectionParts]

theorem State.verifyEnds_leaves (s : State) (v : Verify) (r : BitVec 32) : s.LeavesSections (s.verifyEnds v r) := by
  unfold State.verifyEnds
  dsimp only
  split <;> simp [State.LeavesSections, State.sectionParts]

theorem State.verifyNext_leaves (s : State) (v : Verify) : s.LeavesSections (s.verifyNext v) := by
  unfold State.verifyNext
  dsimp only
  split
  · exact s.verifyEnds_leaves _ _
  · split
    · exact s.verifyEnds_leaves _ _
    · split
      · exact s.verifyEnds_leaves _ _
      · exact rfl

theorem State.verifyPage_leaves (s : State) (b : Option (List Byte)) : s.LeavesSections (s.verifyPage b) := by
  unfold State.verifyPage
  split
  · exact s.verifyNext_leaves _
  · exact rfl

theorem verifyAct_sound {s : State} (h : s.Sound) (f : Frame) (d : Dom) : (verifyAct s f d).All State.Sound := by
  unfold verifyAct
  dsimp only
  split
  · exact h
  · split
    · exact h
    · split
      · exact h
      · split
        · exact ⟨h, fun u k => k.leaves (by simp [State.LeavesSections, State.sectionParts])⟩
        · split
          · exact ⟨h, fun u k => k.leaves (u.noticeVerify_leaves _ _ _ _ _)⟩
          · exact ⟨h, fun u k => (k.leaves (u.verifyNext_leaves _)).settle⟩

/-! ### Requests that leave the sections -/

theorem planAddAct_sound {s : State} (h : s.Sound) (f : Frame) (d : Dom) : (planAddAct s f d).All State.Sound := by
  unfold planAddAct
  dsimp only
  (repeat' split) <;> exact h.leaves (by simp [State.LeavesSections, State.sectionParts])

theorem planDeleteAct_sound {s : State} (h : s.Sound) (f : Frame) (d : Dom) : (planDeleteAct s f d).All State.Sound := by
  unfold planDeleteAct
  dsimp only
  (repeat' split) <;> exact h.leaves (by simp [State.LeavesSections, State.sectionParts])

theorem planReadAct_sound {s : State} (h : s.Sound) (f : Frame) (d : Dom) : (planReadAct s f d).All State.Sound := by
  unfold planReadAct
  dsimp only
  split <;> exact h

theorem State.setCopier_moves (s : State) (d : Dom) (j : Journal) (h : j.copier = (s.journal d).copier) :
    s.Moves (s.setJournal d j) := .setJournal s d j (.of_copier h)

theorem State.unsaved_leaves (s : State) (b : Bool) : s.LeavesSections { s with config.unsaved := b } :=
  rfl

theorem State.throttle_moves (s : State) (d : Dom) : s.Moves (s.throttle d) := by
  unfold State.throttle
  dsimp only
  split
  · exact (s.setCopier_moves d _ (by rfl)).trans (.leaves (State.sendHold_leaves _ _ _))
  · exact .refl s

theorem State.unthrottle_moves (s : State) (d : Dom) : s.Moves (s.unthrottle d) := by
  unfold State.unthrottle
  dsimp only
  split
  · exact (s.setCopier_moves d _ (by rfl)).trans (.leaves (State.sendHold_leaves _ _ _))
  · exact .refl s

theorem eventAct_sound {s : State} (h : s.Sound) (f : Frame) (d : Dom) : (eventAct s f d).All State.Sound := by
  unfold eventAct
  dsimp only
  split
  · exact h
  · split
    · exact h.moves (s.setCopier_moves d _ (by rfl))
    · exact (h.moves (s.setCopier_moves d _ (by rfl))).moves (State.throttle_moves _ d)

theorem latchSetAct_sound {s : State} (h : s.Sound) (f : Frame) (d : Dom) : (latchSetAct s f d).All State.Sound := by
  unfold latchSetAct
  dsimp only
  split
  · split
    · exact h
    · exact (h.moves (s.setCopier_moves d _ (by rfl))).leaves (State.unsaved_leaves _ true)
  · exact h

theorem latchReadAct_sound {s : State} (h : s.Sound) (f : Frame) (d : Dom) : (latchReadAct s f d).All State.Sound :=
  h.moves (s.setCopier_moves d _ (by rfl))

theorem journalReadAct_sound {s : State} (h : s.Sound) (f : Frame) (d : Dom) :
    (journalReadAct s f d).All State.Sound := by
  unfold journalReadAct
  dsimp only
  (repeat' split) <;> exact h

theorem configSetAct_sound {s : State} (h : s.Sound) (f : Frame) (d : Dom) : (configSetAct s f d).All State.Sound := by
  unfold configSetAct
  dsimp only
  (repeat' split) <;> exact h.leaves rfl

theorem configSaveAct_sound {s : State} (h : s.Sound) (f : Frame) (d : Dom) : (configSaveAct s f d).All State.Sound := by
  unfold configSaveAct
  split <;> exact h.leaves (by simp [State.LeavesSections, State.sectionParts])

theorem viewAct_sound {s : State} (h : s.Sound) (f : Frame) (d : Dom) : (viewAct s f d).All State.Sound := by
  unfold viewAct
  split <;> exact h.leaves (by simp [State.LeavesSections, State.sectionParts])

theorem restartAct_sound {s : State} (h : s.Sound) (f : Frame) (d : Dom) : (restartAct s f d).All State.Sound := by
  unfold restartAct
  split
  · exact h
  · split
    · exact h
    · exact h.leaves rfl

theorem linkStatusAct_sound {s : State} (h : s.Sound) (f : Frame) (d : Dom) : (linkStatusAct s f d).All State.Sound :=
  h.moves (.setLink s d _ (.of_positions (by split <;> rfl)))

theorem planClearAct_sound {s : State} (h : s.Sound) (f : Frame) (d : Dom) : (planClearAct s f d).All State.Sound :=
  h.leaves rfl

end Sys2Proof.Machine
end

