-- ==== Sys2Proof/Proofs/SectionEvents.lean ====
section
/-! SUPPORT. The pins, the domain timers and the events of the harvest links under the section law (chapters 1 and 5). -/
namespace Sys2Proof.Machine

/-! ### Pins and timers -/

theorem State.reach_leaves (s : State) (t : Time) : s.LeavesSections (s.reach t) := by
  simp [State.LeavesSections, State.sectionParts]

theorem State.powerGood_leaves (s : State) (x : Two Bool) : s.LeavesSections { s with powerGood := x } :=
  rfl

theorem State.Whole.reach {s : State} (h : s.Whole) (t : Time) : (s.reach t).Whole :=
  ⟨h.toSound.leaves (s.reach_leaves t), h.domains.reach t⟩

theorem State.Sound.worked {s : State} (h : s.Sound) (x : Disposition) : (s.worked x).Sound := by
  unfold State.worked
  split
  · exact h.settle
  · exact h

theorem State.Whole.fatalLine {s : State} (h : s.Whole) (d : Dom) (level : Bool) : (s.fatalLine d level).Sound := by
  have hs := h.toSound.moves (.setDomain s d { s.domain d with fatalLevel := level } rfl)
  have hx := h.domains.count d { s.domain d with fatalLevel := level } rfl
  unfold State.fatalLine
  dsimp only
  split
  · exact (hs.takeTrigger hx d _ _).worked _
  · exact hs

theorem State.domainPowerFall_moves (s : State) (d : Dom) : s.Moves (s.domainPowerFall d) := by
  unfold State.domainPowerFall
  split
  · exact s.endHarvest_moves d _
  · exact s.endHarvest_moves d _
  · exact .setDomain s d _ rfl
  all_goals exact .refl s

theorem State.Sound.powerFall {s : State} (h : s.Sound) (d : Dom) : (s.powerFall d).Sound := by
  unfold State.powerFall
  split
  · have hp := (h.leaves (s.powerGood_leaves (s.powerGood.set d false))).moves (State.domainPowerFall_moves _ d)
    exact ((hp.dropAll d (o := .linkDown) fun _ => trivial).moves (State.linkDown_moves _ d none)).settle
  · exact h

theorem State.Sound.powerRise {s : State} (h : s.Sound) (d : Dom) : (s.powerRise d).Sound := by
  unfold State.powerRise
  dsimp only
  split
  · exact h
  · have hp := h.leaves (s.powerGood_leaves (s.powerGood.set d true))
    generalize ({ s with powerGood := s.powerGood.set d true } : State) = u at hp ⊢
    have hq : (if (u.domain d).state = .armed then u.startHeartbeat d else u).Sound := by
      split
      · exact hp.moves (u.startHeartbeat_moves d)
      · exact hp
    generalize (if (u.domain d).state = .armed then u.startHeartbeat d else u) = v at hq ⊢
    split
    · exact hq.moves (v.startTraining_moves d _)
    · exact hq

theorem State.Sound.resetRequestRise {s : State} (h : s.Sound) (d : Dom) : (s.resetRequestRise d).Sound := by
  unfold State.resetRequestRise
  dsimp only
  split
  · exact h
  · exact h.moves (.setDomain s d _ rfl)

theorem State.Whole.hang {s : State} (h : s.Whole) (d : Dom) : (s.hang d).Sound := by
  unfold State.hang
  split
  · next t _ =>
    have hr := h.reach t
    generalize s.reach t = u at hr ⊢
    have hs := hr.toSound.moves (.setDomain u d { u.domain d with heartbeatTimer := none } rfl)
    have hd := hr.domains.setDomain d _ (hr.domains.domains d).stopHeartbeat fun k _ => k
    exact (hs.takeTrigger hd d _ _).worked _
  · exact h.toSound

theorem State.Sound.holdExpiry {s : State} (h : s.Sound) (d : Dom) : (s.holdExpiry d).Sound := by
  unfold State.holdExpiry
  split
  · next t _ =>
    have hr := h.leaves (s.reach_leaves t)
    generalize s.reach t = u at hr ⊢
    have hs := hr.moves (.setDomain u d { u.domain d with holdTimer := none } rfl)
    exact ((hs.moves (State.releaseLine_moves _ d _)).moves (State.endHarvest_moves _ d _)).settle
  · exact h

theorem State.Sound.attachRise {s : State} (h : s.Sound) : s.attachRise.Sound := by
  unfold State.attachRise
  split
  · exact h
  · exact h.leaves (by simp [State.LeavesSections, State.sectionParts])

theorem State.Sound.attachFall {s : State} (h : s.Sound) : s.attachFall.Sound := by
  unfold State.attachFall
  split
  · exact h.leaves rfl
  · exact h

/-! ### Trainings (R81 to R84) -/

theorem State.Sound.trainingDone {s : State} (h : s.Sound) (d : Dom) : (s.trainingDone d).Sound := by
  unfold State.trainingDone
  dsimp only
  split
  · exact (h.moves (.setLink s d _ (.of_positions (by rfl)))).settle
  · exact h

theorem State.noticeLink_moves (s : State) (d : Dom) (k : Nat) (x y : Mode) : s.Moves (s.noticeLink d k x y) :=
  State.notice_moves _ _ _ _

theorem State.Sound.trainingFailed {s : State} (h : s.Sound) (d : Dom) : (s.trainingFailed d).Sound := by
  unfold State.trainingFailed
  dsimp only
  split
  · exact ((((h.leaves (s.reach_leaves _)).moves (State.linkDown_moves _ d _)).moves
      (State.noticeLink_moves _ d _ _ _)).moves (State.endHarvest_moves _ d _)).settle
  · exact h

theorem State.Sound.retryExpiry {s : State} (h : s.Sound) (d : Dom) : (s.retryExpiry d).Sound := by
  unfold State.retryExpiry
  split
  · next t _ =>
    have hr := h.leaves (s.reach_leaves t)
    dsimp only
    generalize s.reach t = u at hr ⊢
    have hs := hr.moves (.setLink u d { u.link d with retryTimer := none } (.of_positions rfl))
    split
    · exact hs.moves (State.startTraining_moves _ d _)
    · exact hs
  · exact h

theorem State.Sound.retrainAsked {s : State} (h : s.Sound) (d : Dom) : (s.retrainAsked d).Sound := by
  unfold State.retrainAsked
  dsimp only
  split
  · exact (h.retrain d _).settle
  · exact h

/-! ### Outstanding reads (R85 to R88) -/

/-- The read that an event names has its position. -/
theorem State.readAt_eq_some {s : State} {d : Dom} {n : ReadName} {r : LinkRead} (h : s.readAt d n = some r) :
    (s.link d).positions[n.pos] = some r := (Option.filter_eq_some_iff.1 h).1

/-- A read keeps its position with other marks, and with granules received short of its own. -/
theorem State.reread_moves (s : State) (d : Dom) (i : Fin 2) {r q : LinkRead} (hr : (s.link d).positions[i] = some r)
    (h : r.Moves q) : s.Moves (s.setLink d { s.link d with positions := (s.link d).positions.set i (some q) }) := by
  refine .setLink s d _ fun k p hp => ?_
  simp only [Fin.getElem_fin, Vector.getElem_set] at hp
  split at hp
  · next e =>
    obtain rfl : i = k := Fin.ext e
    cases hp
    exact ⟨r, hr, h⟩
  · exact ⟨p, hp, .refl p⟩

theorem State.Sound.claimRead {s : State} (h : s.Sound) (d : Dom) (n : ReadName) : (s.claimRead d n).Sound := by
  unfold State.claimRead
  split
  · next r hr => exact h.moves (s.reread_moves d n.pos (State.readAt_eq_some hr) ⟨rfl, rfl, rfl, rfl, id⟩)
  · exact h

theorem State.Sound.claimExpiry {s : State} (h : s.Sound) (d : Dom) (n : ReadName) : (s.claimExpiry d n).Sound := by
  unfold State.claimExpiry
  split
  · next r hr =>
    split
    · exact h
    · exact (h.endRead (State.readAt_eq_some hr) rfl rfl (by trivial)).settle
  · exact h

theorem LinkRead.delivered_length (r : LinkRead) (g : List (List Byte)) (n : Nat) : (r.delivered g n).length = n :=
  slice_length _ _ _

/-- The last granule ends a read with all its bytes; another one leaves it short of its granules. -/
theorem State.Sound.granule {s : State} (h : s.Sound) (d : Dom) (n : ReadName) (bs : List Byte) (good : Bool) :
    (s.granule d n bs good).Sound := by
  unfold State.granule
  dsimp only
  split
  · next r hr =>
    have hp := State.readAt_eq_some hr
    split
    · split
      · refine (h.endRead hp rfl rfl ?_).settle
        split
        · trivial
        · exact LinkRead.delivered_length _ _ _
      · next hg => exact h.moves (s.reread_moves d n.pos hp ⟨rfl, rfl, rfl, rfl, fun _ => Nat.lt_of_not_le hg⟩)
    · exact h
  · exact h

theorem State.Sound.granuleExpiry {s : State} (h : s.Sound) (d : Dom) (w : WindowName) : (s.granuleExpiry d w).Sound := by
  unfold State.granuleExpiry
  split
  · next r hr =>
    split
    · exact (h.endRead (State.readAt_eq_some hr) rfl rfl (by trivial)).settle
    · exact h
  · exact h

/-- A read disconnected after a granule has come is one of whole granules, of which some are still to come. -/
theorem State.ReadLaw.disconnected {s : State} {d : Dom} {r : LinkRead} (h : s.ReadLaw d r) (hn : r.received ≠ []) :
    (ReadOutcome.disconnect (r.delivered r.received (64 * r.received.length))).Fits r.length := by
  obtain ⟨hlt, hg⟩ := h.granules
  have hpos := List.length_pos_iff.2 hn
  have hw : 64 * r.granules = r.length := hg.resolve_left (by omega)
  rw [ReadOutcome.Fits, LinkRead.delivered_length]
  omega

theorem State.Sound.disconnectRead {s : State} (h : s.Sound) (d : Dom) (n : ReadName) : (s.disconnectRead d n).Sound := by
  unfold State.disconnectRead
  split
  · next r hr =>
    have hp := State.readAt_eq_some hr
    refine (h.endRead hp rfl rfl ?_).settle
    split
    · trivial
    · next hn =>
      split
      · trivial
      · exact (h.law.reads d n.pos r hp).disconnected hn
  · exact h

theorem State.Sound.abortRead {s : State} (h : s.Sound) (d : Dom) (n : ReadName) : (s.abortRead d n).Sound := by
  unfold State.abortRead
  split
  · next r hr => exact (h.endRead (State.readAt_eq_some hr) rfl rfl (by trivial)).settle
  · exact h

end Sys2Proof.Machine
end

