-- ==== Sys2Proof/Proofs/SectionOutcomes.lean ====
section
/-! SUPPORT. The outcomes of the store and of saves, the journals' steps and the lines under the section law (chapters 7 to
10). -/
namespace Sys2Proof.Machine

/-! ### The store's outcomes (R148, R150, R151, R154) -/

theorem State.land_leaves (s : State) (i : Fin 8) : s.LeavesSections (s.land i) :=
  rfl

theorem State.flash_leaves (s : State) (f : Flash) : s.LeavesSections { s with flash := f } :=
  rfl

theorem State.Sound.programDone {s : State} (h : s.Sound) (i : Fin 8) : (s.programDone i).Sound := by
  have hl := h.leaves (s.land_leaves i)
  unfold State.programDone
  dsimp only
  split
  · exact ((hl.moves (State.pageProgrammed_moves _ _ _)).moves (State.afterProgram_moves _ _)).settle
  · exact (hl.leaves (State.flash_leaves _ _)).settle
  · exact h

theorem State.Sound.programFails {s : State} (h : s.Sound) (i : Fin 8) : (s.programFails i).Sound := by
  unfold State.programFails
  split
  · exact ((h.leaves (s.land_leaves i)).moves (State.programFailure_moves _ _ _)).settle
  · exact h

theorem State.Sound.readDone {s : State} (h : s.Sound) (i : Fin 8) (held : Bool) : (s.readDone i held).Sound := by
  unfold State.readDone
  dsimp only
  split
  · next r a _ =>
    have hl : (if held then s.land i else { s.land i with flash := (s.land i).flash.put a .unreadable }).Sound := by
      split
      · exact h.leaves (s.land_leaves i)
      · exact (h.leaves (s.land_leaves i)).leaves (State.flash_leaves _ _)
    generalize (if held then s.land i else { s.land i with flash := (s.land i).flash.put a .unreadable }) = u at hl ⊢
    split
    · exact (hl.moves (u.cursorPage_moves _)).settle
    · exact (hl.leaves (u.verifyPage_leaves _)).settle
    · exact hl.settle
  · exact h

theorem State.Sound.eraseEnds {s : State} (h : s.Sound) (i : Fin 8) : (s.eraseEnds i).Sound := by
  unfold State.eraseEnds
  split
  · exact ((h.leaves (s.land_leaves i)).moves (State.eraseDone_moves _ _ _)).settle
  · exact h

theorem State.Sound.eraseFails {s : State} (h : s.Sound) (i : Fin 8) : (s.eraseFails i).Sound := by
  unfold State.eraseFails
  split
  · exact ((h.leaves (s.land_leaves i)).moves (State.eraseFailure_moves _ _)).settle
  · exact h

/-! ### The ends of saves (R153, R179) -/

theorem State.configSaveEnd_of_save {s : State} (sv : Save) (ok : Bool) : s.LeavesSections (((State.answerSave
    { s.saveEnded sv ok with config.unsaved := (s.saveEnded sv ok).config.unsaved || !ok } ok).startPendingSave)) := by
  simp [State.LeavesSections, State.sectionParts]

theorem State.Sound.configSaveEnd {s : State} (h : s.Sound) (ok : Bool) : (s.configSaveEnd ok).Sound := by
  unfold State.configSaveEnd
  split
  · next sv _ =>
    split
    · exact (h.leaves (State.configSaveEnd_of_save sv ok)).settle
    · exact h
  · exact h

theorem State.Sound.storeSaveEnd {s : State} (h : s.Sound) (ok : Bool) : (s.storeSaveEnd ok).Sound := by
  unfold State.storeSaveEnd
  split
  · split
    · exact (h.leaves (by simp [State.LeavesSections, State.sectionParts])).settle
    · exact h
  · exact h

/-! ### Journals (R105, R116) -/

theorem State.Sound.intakeDone {s : State} (h : s.Sound) (d : Dom) : (s.intakeDone d).Sound := by
  unfold State.intakeDone
  dsimp only
  split
  · next r rest _ _ =>
    refine h.moves (State.Moves.trans (.setJournal s d _ ?_) (State.unthrottle_moves _ d))
    exact (Journal.append_moves (s.journal d) r).trans (.of_copier rfl)
  · exact h

theorem State.Sound.agingTaken {s : State} (h : s.Sound) (d : Dom) (i : Fin 16) : (s.agingTaken d i).Sound := by
  unfold State.agingTaken
  dsimp only
  split
  · exact (h.leaves (s.reach_leaves _)).moves (State.setCopier_moves _ d _ (by rfl))
  · exact h

theorem State.Whole.crashTaken {s : State} (h : s.Whole) (d : Dom) : (s.crashTaken d).Sound := by
  unfold State.crashTaken
  dsimp only
  split
  · split
    · exact ((h.toSound.takeTrigger h.domains d _ _).leaves (State.complete_leaves _ _ _)).worked _
    · exact h.toSound
  · exact h.toSound

/-! ### Lines (R162 to R166) -/

theorem State.restarting_leaves (s : State) (x : RestartPhase) : s.LeavesSections { s with restart := x } := rfl

theorem State.paceArrival_leaves (s : State) (p : PortId) : s.LeavesSections (s.paceArrival p) := by
  unfold State.paceArrival
  split
  · split
    · exact State.sendHold_leaves _ _ _
    · rfl
  · rfl

theorem State.peerHolds_leaves (s : State) (p : PortId) (bs : List Byte) : s.LeavesSections (s.peerHolds p bs) := by
  unfold State.peerHolds
  split
  · dsimp only
    split
    · exact (s.setPort_leaves p _).trans (State.advancePort_leaves _ p)
    · exact s.setPort_leaves p _
  · rfl

theorem State.goodFrame_leaves (s : State) (p : PortId) (f : Frame) : s.LeavesSections (s.goodFrame p f) := by
  unfold State.goodFrame
  dsimp only
  split
  · exact (s.setPort_leaves p _).trans (State.peerHolds_leaves _ p _)
  · split
    · exact s.setPort_leaves p _
    · split
      · exact s.setPort_leaves p _
      · exact (s.setPort_leaves p _).trans (State.paceArrival_leaves _ p)

theorem State.receive_leaves (s : State) (p : PortId) (f : Frame) (crc : BitVec 16) :
    s.LeavesSections (s.receive p f crc) := by
  unfold State.receive
  split
  · refine (s.setPort_leaves p { s.port p with receiver := .hunting }).trans ?_
    dsimp only
    split
    · exact State.setPort_leaves _ p _
    · split
      · exact State.goodFrame_leaves _ p f
      · exact State.setPort_leaves _ p _
  · rfl

theorem State.syncFound_leaves (s : State) (p : PortId) : s.LeavesSections (s.syncFound p) := by
  unfold State.syncFound
  split
  · exact s.setPort_leaves p _
  · rfl

theorem State.frameGap_leaves (s : State) (p : PortId) : s.LeavesSections (s.frameGap p) := by
  unfold State.frameGap
  dsimp only
  split
  · exact s.setPort_leaves p _
  · rfl

theorem State.oversizeLength_leaves (s : State) (p : PortId) : s.LeavesSections (s.oversizeLength p) := by
  unfold State.oversizeLength
  dsimp only
  split
  · exact s.setPort_leaves p _
  · rfl

theorem State.peerHoldEnds_leaves (s : State) (p : PortId) : s.LeavesSections (s.peerHoldEnds p) := by
  unfold State.peerHoldEnds
  split
  · exact ((s.reach_leaves _).trans (State.setPort_leaves _ p _)).trans (State.advancePort_leaves _ p)
  · rfl

theorem State.frameSent_leaves (s : State) (p : PortId) : s.LeavesSections (s.frameSent p) := by
  unfold State.frameSent
  dsimp only
  split
  · refine (s.setPort_leaves p { s.port p with line := none }).trans (.trans ?_ (State.advancePort_leaves _ p))
    split
    · exact State.restarting_leaves _ .due
    · rfl
  · rfl

theorem State.Sound.refuseUnknown {s : State} (h : s.Sound) (p : PortId) : (s.refuseUnknown p).Sound := by
  unfold State.refuseUnknown
  split
  · exact h
  · split
    · exact h
    · exact (h.leaves (s.reserve_leaves p)).moves (State.refuse_moves _ p _ _)

end Sys2Proof.Machine
end

