-- ==== Sys2Proof/Proofs/SectionResets.lean ====
section
/-! SUPPORT. A device at rest, which harvests nothing: the section law at resets, the configuration load and restarts
(chapter 10; R24, R120). -/
namespace Sys2Proof.Machine

/-! ### A device at rest -/

/-- A device in which nothing fills a section: no channel holds one, no read is outstanding, no copy is made and no page is
asked for. -/
structure State.Resting (s : State) : Prop where
  jobs : ∀ c, (s.channel c).job = none
  reads : ∀ d (i : Fin 2), (s.link d).positions[i] = none
  copies : ∀ d, (s.journal d).copier = none
  requests : s.staging.requests = []

/-- At rest the section law is that of the sections themselves. -/
theorem State.Resting.sectionLaw {s : State} (h : s.Resting)
    (hs : ∀ e ∈ s.directory.entries, ∀ x ∈ e.sections, x.Lawful)
    (hf : ∀ e ∈ s.directory.entries, e.state = .opened →
      (e.sections.take 3).map (fun x => (x.kind, x.admitted))
          = [(.latch, 4096), (.journalPre, 131072), (.journalPost, 32768)]
        ∧ ∀ (i : Nat) (x : SectionRecord), e.sections[i]? = some x → x.index = i) : s.SectionLaw where
  sections := hs
  fixed := hf
  idle c _ := h.jobs c
  channels c j hj := by rw [h.jobs c] at hj; cases hj
  distinct c _ j _ hj := by rw [h.jobs c] at hj; cases hj
  reads d i r hr := by rw [h.reads d i] at hr; cases hr
  readsApart d r _ hr := by rw [h.reads d 0] at hr; cases hr
  copies d c hc := by rw [h.copies d] at hc; cases hc
  latches r hr := by rw [h.requests] at hr; cases hr
  starting _ := ⟨h.jobs, h.copies, h.requests⟩

/-- Before start-up ends the device is at rest. -/
theorem State.SectionLaw.resting {s : State} (h : s.SectionLaw) (hs : s.startUp ≠ .finished) : s.Resting := by
  obtain ⟨hj, hc, hr⟩ := h.starting hs
  refine ⟨hj, fun d i => ?_, hc, hr⟩
  cases hp : (s.link d).positions[i] with
  | none => rfl
  | some r =>
    obtain ⟨j, -, hrj, -⟩ := (h.reads d i r hp).hand
    rw [hj] at hrj
    cases hrj

/-- A move that asks for no page leaves a device at rest. -/
theorem State.Resting.moves {s t : State} (h : s.Resting) (m : s.Moves t) (hr : t.staging.requests = []) : t.Resting := by
  refine ⟨fun c => by rw [(m.channels c).job, h.jobs c], fun d i => ?_, fun d => ?_, hr⟩
  · cases hp : (t.link d).positions[i] with
    | none => rfl
    | some r =>
      obtain ⟨q, hq, -⟩ := m.links d i r hp
      rw [h.reads d i] at hq
      cases hq
  · cases hc : (t.journal d).copier with
    | none => rfl
    | some c =>
      obtain ⟨b, hb, -⟩ := m.journals d c hc
      rw [h.copies d] at hb
      cases hb

/-! ### Hard reset (R180) -/

theorem Link.started_positions (l : Link) (p : Bool) (t : Time) (i : Fin 2) : (l.started p t).positions[i] = none := by
  unfold Link.started
  split <;> exact Link.afterReset_positions i

/-- A device at rest whose directory is empty and whose domains hold no dump. -/
theorem State.Resting.sound_of_empty {s : State} (h : s.Resting) (he : s.directory.entries = [])
    (ho : ∀ d, (s.domain d).openDump = none) : s.Sound := by
  refine ⟨⟨by simp [he], by simp [he], fun d n hn => ?_, fun _ => ho⟩, h.sectionLaw (by simp [he]) (by simp [he])⟩
  rw [ho d] at hn
  cases hn

theorem State.hardReset_sound (s : State) (lv : Levels) : (s.hardReset lv).Sound := by
  unfold State.hardReset
  extract_lets _ t _
  have hs : t.Sound := by
    refine State.Resting.sound_of_empty ⟨fun c => ?_, fun d i => ?_, fun d => ?_, rfl⟩ rfl fun d => ?_
    · exact congrArg Channel.job (Vector.getElem_replicate (a := Channel.idle) ..)
    · cases d <;> exact Link.started_positions _ _ _ i
    · cases d <;> rfl
    · cases d <;> rfl
  split
  · exact hs.leaves rfl
  · exact hs

/-! ### The configuration load (R176) -/

theorem State.applySlots_copier (s : State) (im : Option Image) (d : Dom) :
    ((s.applySlots im).journal d).copier = (s.journal d).copier := by cases d <;> rfl

theorem State.SectionLaw.loadDone {s : State} (h : s.SectionLaw) : s.loadDone.SectionLaw := by
  unfold State.loadDone
  dsimp only
  split
  · next hl =>
    have hr := h.resting (by rw [hl]; decide)
    refine State.Resting.sectionLaw ⟨fun c => ?_, fun d i => ?_, fun d => ?_, ?_⟩ (fun e he => ?_) (fun e he => ?_)
    · simpa using hr.jobs c
    · simpa using hr.reads d i
    · exact (s.applySlots_copier _ d).trans (hr.copies d)
    · simpa using hr.requests
    · exact h.sections e (by simpa using he)
    · exact h.fixed e (by simpa using he)
  · exact h

/-! ### Restart (R181) -/

theorem State.armAtEnd_moves (s : State) (d : Dom) : s.Moves (s.armAtEnd d) := by
  unfold State.armAtEnd
  split
  · exact s.enterArmed_moves d
  · exact .refl s

theorem State.domainRestart_moves (s : State) (d : Dom) : s.Moves (s.domainRestart d) := by
  unfold State.domainRestart
  dsimp only
  refine State.Moves.trans ?_ (State.armAtEnd_moves _ d)
  exact .setDomain s d _ rfl

theorem State.noticeIdent_leaves (s : State) : s.LeavesSections s.noticeIdent := by
  simp [State.LeavesSections, State.sectionParts]

/-- The blocks at their restart values are at rest. -/
theorem State.blocksRestart_resting (s : State) : s.blocksRestart.Resting := by
  refine ⟨fun c => ?_, fun d i => ?_, fun d => ?_, rfl⟩
  · exact congrArg Channel.job (Vector.getElem_replicate (a := Channel.idle) ..)
  · cases d <;> exact Link.started_positions _ _ _ i
  · cases d <;> rfl

theorem State.Resting.applySlots {s : State} (h : s.Resting) (im : Option Image) : (s.applySlots im).Resting :=
  ⟨by simpa using h.jobs, by simpa using h.reads, fun d => (s.applySlots_copier im d).trans (h.copies d),
    by simpa using h.requests⟩

theorem State.Sound.restartDone {s : State} (h : s.Sound) : s.restartDone.Sound := by
  unfold State.restartDone
  dsimp only
  split
  · have hr := s.reloaded.blocksRestart_resting.applySlots s.config.memory.image
    have hd : (s.reloaded.blocksRestart.applySlots s.config.memory.image).directory.entries = s.directory.entries := rfl
    have hf : (s.reloaded.blocksRestart.applySlots s.config.memory.image).Filed :=
      ⟨h.filed.numbers, h.filed.next, h.filed.openHeld, h.filed.starting⟩
    generalize s.reloaded.blocksRestart.applySlots s.config.memory.image = u at hr hd hf ⊢
    have hu : u.Sound := ⟨hf, hr.sectionLaw (hd ▸ h.law.sections) (hd ▸ h.law.fixed)⟩
    exact (((hu.moves (u.domainRestart_moves .a)).moves (State.domainRestart_moves _ .b)).leaves
      (State.noticeIdent_leaves _)).settle
  · exact h

end Sys2Proof.Machine
end

