-- ==== Sys2Proof/Proofs/SectionScan.lean ====
section
/-! SUPPORT. The end of start-up (R133 to R135, R158, R180): the dumps found are not OPEN, so the device stays at rest with
them, and the settled directory is the one rebuilt. -/
namespace Sys2Proof.Machine

/-! ### The device's own work at rest -/

/-- A device at rest whose domains hold no dump. -/
structure State.Undumped (s : State) : Prop extends s.Resting where
  openDump : ∀ d, (s.domain d).openDump = none

theorem State.Undumped.openEntry {s : State} (h : s.Undumped) (d : Dom) : s.openEntry d = none := by
  simp [State.openEntry, h.openDump d]

theorem State.Undumped.pickable {s : State} (h : s.Undumped) (d : Dom) : s.pickable d = none := by
  unfold State.pickable
  rw [h.openEntry d]
  split <;> simp_all

theorem State.lockStep_still {s t : State} {d : Dom} (h : s.lockStep d = some t) :
    t.staging = s.staging ∧ t.domains = s.domains ∧ t.directory = s.directory := by
  obtain ⟨l, -, rfl | ⟨c, rfl⟩⟩ := State.lockStep_spec h <;> exact ⟨rfl, rfl, rfl⟩

theorem State.askStep_still {s t : State} {d : Dom} (h : s.askStep d = some t) :
    t.staging = s.staging ∧ t.domains = s.domains ∧ t.directory = s.directory := by
  obtain ⟨qs, rfl⟩ := State.askStep_spec h
  exact ⟨rfl, rfl, rfl⟩

theorem State.Undumped.of_still {s t : State} (h : s.Undumped) (m : s.Moves t)
    (e : t.staging = s.staging ∧ t.domains = s.domains ∧ t.directory = s.directory) :
    t.Undumped ∧ t.directory = s.directory := by
  obtain ⟨hs, hd, hf⟩ := e
  refine ⟨⟨h.toResting.moves m (hs ▸ h.requests), fun d => ?_⟩, hf⟩
  rw [State.domain, hd]
  exact h.openDump d

theorem State.Undumped.jobless {s : State} (h : s.Undumped) {c : Fin 4} {j : Job} : (s.channel c).job ≠ some j := by
  rw [h.jobs c]
  exact (Option.some_ne_none j).symm

/-- At rest the links and the store alone go on. -/
theorem State.Undumped.pump {s t : State} (h : s.Undumped) (e : s.pump = some t) : t.Undumped ∧ t.directory = s.directory := by
  cases State.pump_step e with
  | lock d e => exact h.of_still (State.lockStep_moves e) (State.lockStep_still e)
  | ask d e => exact h.of_still (State.askStep_moves e) (State.askStep_still e)
  | store e => exact h.of_still (State.storeStep_moves e) (by simp [State.storeStep_frame e])
  | serve e =>
    obtain ⟨r, rest, _, hr, -⟩ := State.serveStep_spec e
    exact absurd (h.requests.symm.trans hr) (List.cons_ne_nil r rest).symm
  | pass c e =>
    obtain ⟨_, _, hj, -⟩ := State.passStep_spec e
    exact absurd hj h.jobless
  | finish c e =>
    obtain ⟨_, _, _, hj, -⟩ := State.finishStep_spec e
    exact absurd hj h.jobless
  | cut c e =>
    obtain ⟨_, _, _, -, hj, -⟩ := State.cutStep_spec e
    exact absurd hj h.jobless
  | grant d ha e =>
    obtain ⟨_, _, _, hw, -⟩ := State.grantStep_spec ha e
    obtain ⟨_, _, hj, -⟩ := State.wanted_spec hw
    exact absurd hj h.jobless
  | pick e =>
    obtain ⟨_, d, p, -, hp, -⟩ := State.pickStep_spec e
    exact absurd (hp.symm.trans (h.pickable d)) (Option.some_ne_none p)
  | copy d e =>
    obtain ⟨c, _, hc, -⟩ := State.copierStep_spec e
    exact absurd (hc.symm.trans (h.copies d)) (Option.some_ne_none c)
  | closing d e =>
    obtain ⟨x, hx, -⟩ := State.closingStep_spec e
    exact absurd (hx.symm.trans (h.openEntry d)) (Option.some_ne_none x)
  | manifest d e =>
    obtain ⟨n, _, _, hn, -⟩ := State.manifestStep_spec e
    exact absurd (hn.symm.trans (h.openDump d)) (Option.some_ne_none n)

theorem State.Undumped.settle {s : State} (h : s.Undumped) : s.settle.Undumped ∧ s.settle.directory = s.directory :=
  State.settle_induction (P := fun t => t.Undumped ∧ t.directory = s.directory)
    (fun _ _ e ⟨hu, hd⟩ => ⟨(hu.pump e).1, (hu.pump e).2.trans hd⟩) s ⟨h, rfl⟩

theorem State.Undumped.armAtEnd {s : State} (h : s.Undumped) (d : Dom) : (s.armAtEnd d).Undumped := by
  refine ⟨h.toResting.moves (s.armAtEnd_moves d) (by simpa using h.requests), fun e => ?_⟩
  unfold State.armAtEnd
  split
  · have := h.openDump e
    cases d <;> cases e <;> exact this
  · exact h.openDump e

/-! ### The dumps found (R133, R134) -/

theorem State.dumpFound_closed (s : State) (n : Num) : (s.dumpFound n).state ≠ .opened := by
  unfold State.dumpFound
  cases hc : s.closedFound n with
  | none => exact fun h => by cases h
  | some e =>
    unfold State.closedFound at hc
    dsimp only at hc
    (repeat' split at hc) <;> cases hc
    exact fun h => by cases h

/-- Start-up ends with the dumps found, and with the device at rest. -/
theorem State.Whole.scanDone {s : State} (h : s.Whole) (hx : ∀ e ∈ s.scanDone.directory.entries, ∀ x ∈ e.sections, x.Lawful) :
    s.scanDone.SectionLaw := by
  by_cases hl : s.startUp = .scan
  · have hn : s.startUp ≠ .finished := by rw [hl]; decide
    have hr := h.law.resting hn
    unfold State.scanDone at hx ⊢
    dsimp only at hx ⊢
    rw [if_pos hl] at hx ⊢
    generalize hu : ({ State.refill _ with startUp := .finished, directory := _ } : State) = u at hx ⊢
    have hud : u.Undumped := by
      subst hu
      refine ⟨⟨?_, ?_, ?_, ?_⟩, ?_⟩
      · simpa using hr.jobs
      · simpa using hr.reads
      · simpa using hr.copies
      · simpa using hr.requests
      · simpa using h.domains.starting_openDump hn
    have hue : ∀ e ∈ u.directory.entries, e.state ≠ .opened := by
      subst hu
      intro e he
      obtain ⟨n, -, rfl⟩ := List.mem_map.1 he
      exact State.dumpFound_closed _ _
    obtain ⟨ht, hd⟩ := ((hud.armAtEnd .a).armAtEnd .b).settle
    refine ht.sectionLaw hx fun e he ho => absurd ho (hue e ?_)
    simpa [hd] using he
  · unfold State.scanDone
    rw [if_neg hl]
    exact h.law

end Sys2Proof.Machine
end

