-- ==== Sys2Proof/Proofs/SectionLaw.lean ====
section
/-! SUPPORT. Every step keeps the section law. -/
namespace Sys2Proof.Machine

/-- A request whose owning rule keeps the law by itself. -/
theorem State.Whole.ask {s : State} (h : s.Whole) (p : PortId) (kind : Byte) {act : State → Frame → Dom → Answer}
    (ha : ∀ {u : State}, u.Sound → ∀ f d, (act u f d).All State.Sound) : (s.request p kind act).SectionLaw :=
  (h.request p kind act fun _ f d k => ha k.toSound f d).law

/-- A command whose meaning keeps the law leads to a state that has it. -/
theorem State.SectionLaw.next {u t : State} (h : u.SectionLaw) (e : (.next u : Host.Outcome State Fault Refusal) = .next t) :
    t.SectionLaw := by
  cases e
  exact h

/-- Every command keeps the section law, if the end of the scan does. -/
theorem exec_keeps_sectionLaw (c : Instr) {s t : State} (h : s.Whole)
    (hx : c = .startUpScanComplete → s.scanDone.SectionLaw) (e : exec c s = .next t) : t.SectionLaw := by
  have hs := h.toSound
  cases c
  case hardReset lv => exact (s.hardReset_sound lv).law.next e
  case configLoadComplete => exact h.law.loadDone.next e
  case startUpScanComplete => exact (hx rfl).next e
  case restartTakesEffect => exact hs.restartDone.law.next e
  case fatalLine d level => exact (h.fatalLine d level).law.next e
  case powerGoodFall d => exact (hs.powerFall d).law.next e
  case powerGoodRise d => exact (hs.powerRise d).law.next e
  case resetRequestEdge d => exact (hs.resetRequestRise d).law.next e
  case resetRequestFall d => exact (hs.moves (.setDomain s d { s.domain d with resetRequestLevel := false } rfl)).law.next e
  case attach => exact hs.attachRise.law.next e
  case detach => exact hs.attachFall.law.next e
  case hang d => exact (h.hang d).law.next e
  case holdTimerExpiry d => exact (hs.holdExpiry d).law.next e
  case linkRetryTimerExpiry d => exact (hs.retryExpiry d).law.next e
  case trainingExpiry d => exact (hs.trainingFailed d).law.next e
  case trainingComplete d => exact (hs.trainingDone d).law.next e
  case targetRetrainRequest d => exact (hs.retrainAsked d).law.next e
  case targetClaim d r => exact (hs.claimRead d r).law.next e
  case claimWindowExpiry d r => exact (hs.claimExpiry d r).law.next e
  case granuleArrival d r bs good => exact (hs.granule d r bs good).law.next e
  case granuleWindowExpiry d w => exact (hs.granuleExpiry d w).law.next e
  case disconnect d r => exact (hs.disconnectRead d r).law.next e
  case targetAbort d r => exact (hs.abortRead d r).law.next e
  case programComplete i => exact (hs.programDone i).law.next e
  case programFailed i => exact (hs.programFails i).law.next e
  case storeReadComplete i held => exact (hs.readDone i held).law.next e
  case eraseComplete i => exact (hs.eraseEnds i).law.next e
  case eraseFailed i => exact (hs.eraseFails i).law.next e
  case storeSaveEnd ok => exact (hs.storeSaveEnd ok).law.next e
  case configSaveEnd ok => exact (hs.configSaveEnd ok).law.next e
  case intakeStepComplete d => exact (hs.intakeDone d).law.next e
  case agingExpiry d i => exact (hs.agingTaken d i).law.next e
  case crashTaken d => exact (h.crashTaken d).law.next e
  case receiveFrame p k g d bs crc => exact (hs.leaves (s.receive_leaves p _ crc)).law.next e
  case syncPairFound p => exact (hs.leaves (s.syncFound_leaves p)).law.next e
  case frameGapTimeout p => exact (hs.leaves (s.frameGap_leaves p)).law.next e
  case oversize p => exact (hs.leaves (s.oversizeLength_leaves p)).law.next e
  case peerHoldExpiry p => exact (hs.leaves (s.peerHoldEnds_leaves p)).law.next e
  case frameSent p => exact (hs.leaves (s.frameSent_leaves p)).law.next e
  case unknownKind p => exact (hs.refuseUnknown p).law.next e
  case ident p => exact (h.ask p _ (act := identAct) fun k _ _ => k).next e
  case status p => exact (h.ask p _ (act := statusAct) fun k _ _ => k).next e
  case counters p => exact (h.ask p _ (act := countersAct) fun k _ _ => k).next e
  case configGet p => exact (h.ask p _ (act := configGetAct) fun k _ _ => k).next e
  case dir p => exact (h.ask p _ (act := dirAct) fun k _ _ => k).next e
  case linkStatus p => exact (h.ask p _ linkStatusAct_sound).next e
  case latchRead p => exact (h.ask p _ latchReadAct_sound).next e
  case planClear p => exact (h.ask p _ planClearAct_sound).next e
  case planAdd p => exact (h.ask p _ planAddAct_sound).next e
  case planDelete p => exact (h.ask p _ planDeleteAct_sound).next e
  case planRead p => exact (h.ask p _ planReadAct_sound).next e
  case arm p => exact (h.ask p _ armAct_sound).next e
  case disarm p => exact (h.ask p _ disarmAct_sound).next e
  case heartbeat p => exact (h.ask p _ heartbeatAct_sound).next e
  case latchSet p => exact (h.ask p _ latchSetAct_sound).next e
  case event p => exact (h.ask p _ eventAct_sound).next e
  case crash p => exact (h.request p _ _ fun u f d k => crashAct_sound k f d).law.next e
  case capture p => exact (h.request p _ _ fun u f d k => captureAct_sound k f d).law.next e
  case abort p => exact (h.ask p _ abortAct_sound).next e
  case releaseHold p => exact (h.ask p _ releaseHoldAct_sound).next e
  case manifest p => exact (h.ask p _ manifestAct_sound).next e
  case cursor p => exact (h.ask p _ cursorAct_sound).next e
  case read p => exact (h.ask p _ readAct_sound).next e
  case journalRead p => exact (h.ask p _ journalReadAct_sound).next e
  case release p => exact (h.ask p _ releaseAct_sound).next e
  case protect p => exact (h.ask p _ protectAct_sound).next e
  case verify p => exact (h.ask p _ verifyAct_sound).next e
  case configSet p => exact (h.ask p _ configSetAct_sound).next e
  case configSave p => exact (h.ask p _ configSaveAct_sound).next e
  case view p => exact (h.ask p _ viewAct_sound).next e
  case restart p => exact (h.ask p _ restartAct_sound).next e

theorem State.withPending_leaves (s : State) (l : List Instr) : s.LeavesSections (s.withPending l) :=
  rfl

theorem State.idle_leaves (s : State) : s.LeavesSections { s with partTime := s.partTime + 1 } :=
  rfl

/-- Settles O13: an idle millisecond leaves the sections, and every command keeps their law. -/
theorem stepsKeepTheSectionLaw : Obligations.StepsKeepTheSectionLaw := by
  unfold Obligations.StepsKeepTheSectionLaw
  intro s t hd hf h hx e
  have hs : s.Sound := ⟨hf.filed hd, h⟩
  unfold step at e
  split at e
  · cases e
    exact (hs.leaves s.idle_leaves).law
  · next c rest hp =>
    have hw : (s.withPending rest).Whole := ⟨hs.leaves (s.withPending_leaves rest), hd.of_eq rfl rfl rfl⟩
    refine exec_keeps_sectionLaw c hw (fun hc => ?_) e
    subst hc
    cases e
    exact hw.scanDone (hx (by rw [hp]; rfl))

end Sys2Proof.Machine
end

