-- ==== Sys2Proof/Proofs/LinkRecords.lean ====
section
/-! SUPPORT. What a link's law reads of it (R79 to R84, R90, R94; log 57), and the changes that keep a link lawful. -/
namespace Sys2Proof.Machine

/-! ### Links as their law reads them -/

/-- A link as its law reads it: state, mode, timers, outstanding reads, lock holder, and the count of reads issued. -/
def Link.held (l : Link) : Link :=
  { Link.afterReset with
    state := l.state, mode := l.mode, trainingExpiry := l.trainingExpiry, retryTimer := l.retryTimer
    positions := l.positions, lockHolder := l.lockHolder, issued := l.issued }

theorem Link.held_eq_iff {x y : Link} : y.held = x.held ↔ y.state = x.state ∧ y.mode = x.mode
    ∧ y.trainingExpiry = x.trainingExpiry ∧ y.retryTimer = x.retryTimer ∧ y.positions = x.positions
    ∧ y.lockHolder = x.lockHolder ∧ y.issued = x.issued := by
  simp [Link.held]

/-- What differs in lock requests alone is held alike. -/
theorem Link.held_of_unlocked {x y : Link} (h : y.unlocked = x.unlocked) : y.held = x.held := by
  have e := congrArg Link.held h
  exact e

/-- Table 5-4 counts an outcome in what the law does not read. -/
@[simp] theorem Link.countOutcome_held (l : Link) (o : ReadOutcome) : (l.countOutcome o).held = l.held := by
  cases o <;> rfl

/-- The law reads of a link what is held of it. -/
theorem Link.Lawful.of_held {x y : Link} {p : Bool} (h : x.Lawful p) (e : y.held = x.held) : y.Lawful p := by
  obtain ⟨hs, hm, ht, hr, hp, hl, hi⟩ := Link.held_eq_iff.1 e
  exact ⟨by rw [hs, hp]; exact h.outstanding, by rw [ht, hs]; exact h.training, by rw [hr, hs]; exact h.retry,
    by rw [hs, hm]; exact h.down, by rw [hs]; exact h.power, by rw [hl, hp]; exact h.lock,
    by rw [hp, hi]; exact h.numbers⟩

/-! ### Changes that keep a link lawful -/

/-- Power is good where a link is not DOWN (R83). -/
theorem Link.Lawful.powered {l : Link} {p : Bool} (h : l.Lawful p) (hs : l.state ≠ .down) : p = true := by
  by_contra hp
  exact hs (h.power (Bool.eq_false_iff.2 hp))

/-- A link with a read outstanding is UP (R80). -/
theorem Link.Lawful.up {l : Link} {p : Bool} (h : l.Lawful p) {i : Fin 2} {r : LinkRead} (hr : l.positions[i] = some r) :
    l.state = .up := by
  by_contra hs
  rw [h.outstanding hs i] at hr
  cases hr

/-- The part of the law that is about outstanding reads holds of a link that has none. -/
theorem Link.lawful_of_empty {l : Link} {p : Bool} (he : ∀ i : Fin 2, l.positions[i] = none)
    (ht : l.trainingExpiry.isSome = (l.state == .training)) (hr : l.retryTimer.isSome = true → l.state = .down)
    (hd : l.state = .down → l.mode = .wide) (hp : p = false → l.state = .down) : l.Lawful p where
  outstanding _ := he
  training := ht
  retry := hr
  down := hd
  power := hp
  lock _ _ i r k := by rw [he i] at k; cases k
  numbers i r k := by rw [he i] at k; cases k

/-- The law where no outstanding read is new and none touches more of the locked range. -/
theorem Link.Lawful.of_reads {x y : Link} {p : Bool} (h : x.Lawful p)
    (e : y.held = { x.held with positions := y.positions, lockHolder := y.lockHolder })
    (hr : ∀ i : Fin 2, ∀ r, y.positions[i] = some r → ∃ q, x.positions[i] = some q ∧ q.Moves r
      ∧ r.number = q.number)
    (hl : ∀ c, y.lockHolder = some c → ∀ i : Fin 2, ∀ q, x.positions[i] = some q →
      q.channel = c.channel ∨ touches c.base c.length q.address q.length = false) : y.Lawful p := by
  simp only [Link.held, Link.mk.injEq, true_and] at e
  obtain ⟨hs, hm, ht, hy, hi⟩ := e
  refine ⟨fun k i => ?_, by rw [ht, hs]; exact h.training, by rw [hy, hs]; exact h.retry, by rw [hs, hm]; exact h.down,
    by rw [hs]; exact h.power, fun c hc i r k => ?_, fun i r k => ?_⟩
  · refine Option.eq_none_iff_forall_ne_some.2 fun r k' => ?_
    obtain ⟨q, hq, -⟩ := hr i r k'
    rw [h.outstanding (hs ▸ k) i] at hq
    cases hq
  · obtain ⟨q, hq, hm, -⟩ := hr i r k
    rw [hm.channel, hm.address, hm.length]
    exact hl c hc i q hq
  · obtain ⟨q, hq, -, hn⟩ := hr i r k
    obtain ⟨hlt, hone⟩ := h.numbers i q hq
    refine ⟨by rw [hi, hn]; exact hlt, fun j r' k' hn' => ?_⟩
    obtain ⟨q', hq', -, hn2⟩ := hr j r' k'
    exact hone j q' hq' (by rw [← hn2, hn', hn])

theorem Link.Lawful.freed {l : Link} {p : Bool} (h : l.Lawful p) (i : Fin 2) : (l.freed i).Lawful p := by
  refine h.of_reads rfl (fun k r hr => ?_) h.lock
  simp only [Link.freed, Fin.getElem_fin, Vector.getElem_set] at hr
  split at hr
  · cases hr
  · exact ⟨r, hr, .refl r, rfl⟩

/-- A read keeps its position with other marks, and granules more. -/
theorem Link.Lawful.marked {l : Link} {p : Bool} (h : l.Lawful p) {i : Fin 2} {r q : LinkRead}
    (hr : l.positions[i] = some r) (hm : r.Moves q) (hn : q.number = r.number) :
    Link.Lawful { l with positions := l.positions.set i (some q) } p := by
  refine h.of_reads rfl (fun k x hx => ?_) h.lock
  simp only [Fin.getElem_fin, Vector.getElem_set] at hx
  split at hx
  · next e =>
    obtain rfl : i = k := Fin.ext e
    cases hx
    exact ⟨r, hr, hm, hn⟩
  · exact ⟨x, hx, .refl x, rfl⟩

/-- The lock released (R95). -/
theorem Link.Lawful.unlock {l : Link} {p : Bool} (h : l.Lawful p) : Link.Lawful { l with lockHolder := none } p :=
  h.of_reads rfl (fun _ r hr => ⟨r, hr, .refl r, rfl⟩) nofun

/-- The lock taken for a range that no other channel's outstanding read touches (R93). -/
theorem Link.Lawful.locked {l : Link} {p : Bool} (h : l.Lawful p) {c : LockClaim} (hc : l.touched c = false) :
    Link.Lawful { l with lockHolder := some c, designate := none } p := by
  refine h.of_reads rfl (fun _ r hr => ⟨r, hr, .refl r, rfl⟩) fun _ e i q hq => ?_
  cases e
  have hm : some q ∈ l.positions.toList := by
    rw [← hq]
    exact Vector.mem_toList_iff.2 (Vector.getElem_mem i.isLt)
  have hn := List.any_eq_false.1 hc _ hm
  by_cases hch : q.channel = c.channel
  · exact .inl hch
  · exact .inr (by simpa [hch] using hn)

/-- A read issued for an eligible request, under the next number (R85, R91, R92, R94). -/
theorem Link.Lawful.issued {l m : Link} {p : Bool} (h : l.Lawful p) {i : Fin 2} {q : GrantRequest} {r : LinkRead}
    (hq : l.eligible q = true) (hc : r.channel = q.channel) (ha : r.address = q.address) (hl : r.length = q.length)
    (hn : r.number = l.issued)
    (e : m.held = { l.held with positions := l.positions.set i (some r), issued := l.issued + 1 }) : m.Lawful p := by
  simp only [Link.held, Link.mk.injEq, true_and] at e
  obtain ⟨es, em, et, ey, ep, el, ei⟩ := e
  simp only [Link.eligible, Bool.and_eq_true, beq_iff_eq, Bool.not_eq_true', List.any_eq_false] at hq
  obtain ⟨hu, hb⟩ := hq
  have hset : ∀ (k : Fin 2) x, m.positions[k] = some x → x = r ∧ k = i ∨ k ≠ i ∧ l.positions[k] = some x := by
    intro k x hx
    simp only [ep, Fin.getElem_fin, Vector.getElem_set] at hx
    split at hx
    · next e => cases hx; exact .inl ⟨rfl, Fin.ext e.symm⟩
    · next e => exact .inr ⟨fun k' => e (congrArg Fin.val k'.symm), hx⟩
  refine ⟨fun k => absurd (es.trans hu) k, by rw [et, es]; exact h.training, by rw [ey, es]; exact h.retry,
    by rw [es, em]; exact h.down, by rw [es]; exact h.power, fun c k j x hx => ?_, fun j x hx => ?_⟩
  · rw [el] at k
    rcases hset j x hx with ⟨rfl, -⟩ | ⟨-, hx⟩
    · have hn := hb c (by simp [k])
      rw [hc, ha, hl]
      by_cases hch : q.channel = c.channel
      · exact .inl hch
      · exact .inr (by simpa [LockClaim.blocks, Ne.symm hch] using hn)
    · exact h.lock c k j x hx
  · rw [ei]
    rcases hset j x hx with ⟨rfl, rfl⟩ | ⟨hj, hx⟩
    · refine ⟨by omega, fun k y hy hyn => ?_⟩
      rcases hset k y hy with ⟨-, rfl⟩ | ⟨-, hy⟩
      · rfl
      · have := (h.numbers k y hy).1
        omega
    · obtain ⟨hlt, hone⟩ := h.numbers j x hx
      refine ⟨by omega, fun k y hy hyn => ?_⟩
      rcases hset k y hy with ⟨rfl, rfl⟩ | ⟨-, hy⟩
      · omega
      · exact hone k y hy hyn

end Sys2Proof.Machine
end

