-- ==== Sys2Proof/Proofs/LinkWork.lean ====
section
/-! SUPPORT. The device's own work keeps the law of the links (95; log 4): locks released, taken and asked for, and reads issued (R91 to R95). -/
namespace Sys2Proof.Machine

/-! ### The links through the device's own operations -/

@[simp] theorem State.completionTest_unlocked (s : State) (d e : Dom) :
    ((s.completionTest d).link e).unlocked = (s.link e).unlocked := by
  unfold State.completionTest
  (repeat' split) <;> simp

@[simp] theorem State.headerProgrammed_unlocked (s : State) (d e : Dom) :
    ((s.headerProgrammed d).link e).unlocked = (s.link e).unlocked := by
  unfold State.headerProgrammed
  dsimp only
  split <;> simp

@[simp] theorem State.sectionEnded_unlocked (s : State) (d : Dom) (n : Num) (i : Nat) (e : Dom) :
    ((s.sectionEnded d n i).link e).unlocked = (s.link e).unlocked := by
  unfold State.sectionEnded
  dsimp only
  split
  · rfl
  · split <;> simp

@[simp] theorem State.headerGiven_unlocked (s : State) (c : Fin 4) (e : Dom) :
    ((s.headerGiven c).link e).unlocked = (s.link e).unlocked := by
  unfold State.headerGiven
  dsimp only
  split
  · rfl
  · split
    · rfl
    · split
      · rw [State.setLink_unlocked]
        · simp
        · rfl
      · simp

@[simp] theorem State.copyTest_unlocked (s : State) (d : Dom) (k : Copy) (e : Dom) :
    ((s.copyTest d k).link e).unlocked = (s.link e).unlocked := by
  unfold State.copyTest State.copyEnded
  dsimp only
  (repeat' split) <;> simp

@[simp] theorem State.copierHeader_unlocked (s : State) (d e : Dom) :
    ((s.copierHeader d).link e).unlocked = (s.link e).unlocked := by
  unfold State.copierHeader
  dsimp only
  (repeat' split) <;> simp

@[simp] theorem State.copierData_unlocked (s : State) (d : Dom) (k : PageKey) (e : Dom) :
    ((s.copierData d k).link e).unlocked = (s.link e).unlocked := by
  unfold State.copierData
  dsimp only
  split <;> simp

@[simp] theorem State.latchGiven_unlocked (s : State) (n : Num) (e : Dom) :
    ((s.latchGiven n).link e).unlocked = (s.link e).unlocked := by
  unfold State.latchGiven
  dsimp only
  (repeat' split) <;> simp

/-- Pages given lead at most to a lock request (R60). -/
@[simp] theorem State.given_unlocked (s : State) (r : StagingRequest) (e : Dom) :
    ((s.given r).link e).unlocked = (s.link e).unlocked := by
  unfold State.given
  (repeat' split) <;> simp

@[simp] theorem State.afterOutcome_unlocked (s : State) (c : Fin 4) (j : Job) (e : Dom) :
    ((s.afterOutcome c j).link e).unlocked = (s.link e).unlocked := by
  unfold State.afterOutcome
  dsimp only
  (repeat' split) <;> simp

/-- An outcome delivered withdraws at most a lock request (R72). -/
@[simp] theorem State.deliver_unlocked (s : State) (c : Fin 4) (a : Nat) (o : ReadOutcome) (e : Dom) :
    ((s.deliver c a o).link e).unlocked = (s.link e).unlocked := by
  unfold State.deliver
  dsimp only
  (repeat' split) <;> simp

/-! ### The law of the links -/

/-- The law is kept where the power-good inputs and what is held of each link are left. -/
theorem State.LinkLaw.keeps {s t : State} (h : s.LinkLaw) (hp : t.powerGood = s.powerGood)
    (hl : ∀ d, (t.link d).held = (s.link d).held) : t.LinkLaw := fun d => by
  rw [hp]
  exact (h d).of_held (hl d)

/-- As `keeps`, of what differs in lock requests alone. -/
theorem State.LinkLaw.unlocked {s t : State} (h : s.LinkLaw) (hp : t.powerGood = s.powerGood)
    (hl : ∀ d, (t.link d).unlocked = (s.link d).unlocked) : t.LinkLaw :=
  h.keeps hp fun d => Link.held_of_unlocked (hl d)

theorem State.LinkLaw.of_links {s t : State} (h : s.LinkLaw) (hp : t.powerGood = s.powerGood)
    (hl : t.links = s.links) : t.LinkLaw :=
  h.keeps hp fun d => by unfold State.link; rw [hl]

theorem State.LinkLaw.setLink {s : State} (h : s.LinkLaw) (d : Dom) {l : Link} (hl : l.Lawful (s.powerGood.get d)) :
    (s.setLink d l).LinkLaw := fun e => by
  rw [State.setLink_link]
  split
  · next k => exact k ▸ hl
  · exact h e

/-! ### The device's own work -/

theorem State.LinkLaw.serveStep {s t : State} (h : s.LinkLaw) (e : s.serveStep = some t) : t.LinkLaw := by
  refine h.unlocked (State.serveStep_frame e).2.2.2.2.2.1 fun d => ?_
  unfold State.serveStep at e
  split at e
  · cases e
  · split at e
    · cases e
      exact State.given_unlocked _ _ d
    · cases e

/-- The end of a section releases the lock its channel holds (R74, R95). -/
theorem State.LinkLaw.finishStep {s t : State} (h : s.LinkLaw) {c : Fin 4} (e : s.finishStep c = some t) : t.LinkLaw := by
  unfold State.finishStep at e
  dsimp only at e
  split at e
  · next j _ _ _ _ =>
    split at e
    · cases e
      generalize hu : s.passRest c j _ _ = u
      have hk : u.LinkLaw := by
        subst hu
        exact h.of_links (by simp) (by simp)
      split
      · split
        · exact (hk.setLink j.domain (hk j.domain).unlock).unlocked (by simp) (by simp)
        · exact hk.unlocked (by simp) (by simp)
      · exact hk.unlocked (by simp) (by simp)
    · cases e
  · cases e

/-- The lock goes to a designate whose granules no other channel's read touches (R93). -/
theorem State.LinkLaw.lockStep {s t : State} (h : s.LinkLaw) {d : Dom} (e : s.lockStep d = some t) : t.LinkLaw := by
  unfold State.lockStep at e
  dsimp only at e
  split at e
  · cases e
  · cases e
    exact h.setLink d ((h d).of_held rfl)
  · split at e
    · cases e
    · next hn =>
      cases e
      exact (h.setLink d ((h d).locked (Bool.eq_false_iff.2 hn))).of_links rfl rfl
  · cases e

theorem State.LinkLaw.askStep {s t : State} (h : s.LinkLaw) {d : Dom} (e : s.askStep d = some t) : t.LinkLaw := by
  unfold State.askStep at e
  dsimp only at e
  split at e
  · cases e
  · cases e
    exact h.setLink d ((h d).of_held rfl)

/-- A grant issues a read for an eligible request (R91, R92). -/
theorem State.LinkLaw.grantStep {s t : State} (h : s.LinkLaw) {d : Dom} (e : s.grantStep d = some t) : t.LinkLaw := by
  unfold State.grantStep at e
  dsimp only at e
  split at e
  · cases e
  · next pos _ =>
    split at e
    · next q hq =>
      cases e
      obtain ⟨c, -, hc⟩ := List.exists_of_findSome?_eq_some hq
      have he := List.find?_some hc
      rw [Bool.and_eq_true] at he
      unfold State.issue
      dsimp only
      generalize hr : (LinkRead.mk _ _ _ _ _ _ _ _ _ _ _) = r
      have hl := (h d).issued (m := { s.link d with
          positions := (s.link d).positions.set pos (some r)
          requests := (s.link d).requests.filter fun x => x.channel ≠ q.channel, lastGranted := q.channel
          counters := { (s.link d).counters with readsIssued := (s.link d).counters.readsIssued.inc }
          issued := (s.link d).issued + 1 }) (r := r) (i := pos) he.2 (by rw [← hr]) (by rw [← hr]) (by rw [← hr])
        (by rw [← hr]) rfl
      have hs := h.setLink d hl
      split
      · exact hs.of_links rfl rfl
      · exact hs
    · cases e

/-- One step of the device's own work keeps the law: a lock released, taken or asked for, and a read issued, are its only
moves on a link. -/
theorem State.LinkLaw.pump {s t : State} (h : s.LinkLaw) (e : s.pump = some t) : t.LinkLaw := by
  rcases State.pump_cases e with e | ⟨c, e⟩ | ⟨c, e⟩ | ⟨c, e⟩ | ⟨d, e⟩ | ⟨d, e⟩
    | ⟨d, e⟩ | e | ⟨d, e⟩ | ⟨d, e⟩ | ⟨d, e⟩ | e
  · exact h.serveStep e
  · exact h.of_links (by simp [State.passStep_frame e]) (by simp [State.passStep_frame e])
  · exact h.finishStep e
  · exact h.of_links (by simp [State.cutStep_frame e]) (by simp [State.cutStep_frame e])
  · exact h.lockStep e
  · exact h.askStep e
  · exact h.grantStep e
  · exact h.of_links (by simp [State.pickStep_frame e]) (by simp [State.pickStep_frame e])
  · exact h.of_links (by simp [State.copierStep_frame e]) (by simp [State.copierStep_frame e])
  · exact h.of_links (by simp [State.closingStep_frame e]) (by simp [State.closingStep_frame e])
  · exact h.of_links (by simp [State.manifestStep_frame e]) (by simp [State.manifestStep_frame e])
  · exact h.of_links (by simp [State.storeStep_frame e]) (by simp [State.storeStep_frame e])

theorem State.LinkLaw.settle {s : State} (h : s.LinkLaw) : s.settle.LinkLaw :=
  State.settle_induction (P := State.LinkLaw) (fun _ _ e k => k.pump e) s h

theorem State.LinkLaw.worked {s : State} (h : s.LinkLaw) (x : Disposition) : (s.worked x).LinkLaw := by
  unfold State.worked
  split
  · exact h.settle
  · exact h

end Sys2Proof.Machine
end

