-- ==== Sys2Proof/Proofs/LinkEvents.lean ====
section
/-! SUPPORT. Trainings, links DOWN and the ends of reads under the law of the links (R80 to R89, R96, R97). -/
namespace Sys2Proof.Machine

/-! ### Trainings, and the links DOWN (R80 to R84) -/

/-- The next position is freed whatever the outcome, and the link is left otherwise, but for lock requests. -/
theorem State.dropOutstanding_freed (s : State) (d : Dom) (o : ReadOutcome) (i : Fin 2) :
    ((s.dropOutstanding d o i).link d).unlocked = ((s.link d).freed i).unlocked := by
  unfold State.dropOutstanding
  dsimp only
  split
  · rw [State.deliver_unlocked, State.setLink_link_self]
    rfl
  · next h => simp [Link.freed, ← h]

theorem Link.freed_freed (l : Link) : (l.freed 0).freed 1 = { l with positions := Vector.replicate 2 none } := by
  have hv : (l.positions.set 0 none).set 1 none = Vector.replicate 2 none := by
    ext i hi : 1
    have : i = 0 ∨ i = 1 := by omega
    rcases this with rfl | rfl <;> simp
  simp [Link.freed, hv]

/-- Both positions are freed, whatever the outcome (R83, R84). -/
theorem State.dropAll_freed (s : State) (d : Dom) (o : ReadOutcome) :
    ((s.dropAll d o).link d).unlocked = Link.unlocked { s.link d with positions := Vector.replicate 2 none } := by
  calc ((s.dropAll d o).link d).unlocked
    _ = Link.freed (Link.unlocked ((s.dropOutstanding d o 0).link d)) 1 :=
        (s.dropOutstanding d o 0).dropOutstanding_freed d o 1
    _ = Link.unlocked (((s.link d).freed 0).freed 1) := by rw [State.dropOutstanding_freed]; rfl
    _ = _ := by rw [Link.freed_freed]

theorem State.dropOutstanding_unlocked_other (s : State) (d : Dom) (o : ReadOutcome) (i : Fin 2) :
    ((s.dropOutstanding d o i).link (otherDom d)).unlocked = (s.link (otherDom d)).unlocked := by
  unfold State.dropOutstanding
  dsimp only
  split <;> simp

@[simp] theorem State.dropAll_unlocked_other (s : State) (d : Dom) (o : ReadOutcome) :
    ((s.dropAll d o).link (otherDom d)).unlocked = (s.link (otherDom d)).unlocked := by
  unfold State.dropAll
  rw [State.dropOutstanding_unlocked_other, State.dropOutstanding_unlocked_other]

theorem State.LinkLaw.deliver {s : State} (h : s.LinkLaw) (c : Fin 4) (a : Nat) (o : ReadOutcome) :
    (s.deliver c a o).LinkLaw := h.unlocked (by simp) (by simp)

theorem State.LinkLaw.dropOutstanding {s : State} (h : s.LinkLaw) (d : Dom) (o : ReadOutcome) (i : Fin 2) :
    (s.dropOutstanding d o i).LinkLaw := by
  unfold State.dropOutstanding
  dsimp only
  split
  · exact State.LinkLaw.deliver (h.setLink d ((h d).freed i)) _ _ o
  · exact h

theorem State.LinkLaw.dropAll {s : State} (h : s.LinkLaw) (d : Dom) (o : ReadOutcome) : (s.dropAll d o).LinkLaw :=
  (h.dropOutstanding d o 0).dropOutstanding d o 1

theorem State.dropAll_none (s : State) (d : Dom) (o : ReadOutcome) (i : Fin 2) :
    ((s.dropAll d o).link d).positions[i] = none := by
  have h : ((s.dropAll d o).link d).positions = Vector.replicate 2 none :=
    congrArg (fun l : Link => l.positions) (s.dropAll_freed d o)
  simp [h]

@[simp] theorem State.setMode_link_other (s : State) (d : Dom) (m : Mode) :
    (s.setMode d m).link (otherDom d) = s.link (otherDom d) := by
  unfold State.setMode
  dsimp only
  split
  · rfl
  · split <;> simp

@[simp] theorem State.startTraining_link_other (s : State) (d : Dom) (m : Mode) :
    (s.startTraining d m).link (otherDom d) = s.link (otherDom d) := by
  simp [State.startTraining]

@[simp] theorem State.linkDown_link_other (s : State) (d : Dom) (r : Option Time) :
    (s.linkDown d r).link (otherDom d) = s.link (otherDom d) := by
  simp [State.linkDown]

/-- The link that a training starts on (R81, R98). -/
theorem State.startTraining_link (s : State) (d : Dom) (m : Mode) : (s.startTraining d m).link d = { s.link d with
    mode := m, downshifts := if (s.link d).mode = m then (s.link d).downshifts else 0
    state := .training, trainingExpiry := some (s.partTime + 5), retryTimer := none, widen := false
    stayedUp := false } := by
  simp [State.startTraining, State.setMode_link, ms, Config.trainingMs]

/-- A training starts on a link with power and no outstanding read. -/
theorem State.LinkLaw.startTraining {s : State} (h : s.LinkLaw) {d : Dom} (m : Mode) (hp : s.powerGood.get d = true)
    (he : ∀ i : Fin 2, (s.link d).positions[i] = none) : (s.startTraining d m).LinkLaw := fun e => by
  simp only [State.startTraining_frame]
  rcases dom_eq_or d e with rfl | rfl
  · rw [State.startTraining_link]
    exact Link.lawful_of_empty he rfl nofun nofun (by simp [hp])
  · rw [State.startTraining_link_other]
    exact h _

/-- A link goes DOWN with no outstanding read; its power-good input may have fallen before it (R82, R83). -/
theorem State.LinkLaw.linkDown {s t : State} (h : s.LinkLaw) {d : Dom} (r : Option Time)
    (hp : t.powerGood.get (otherDom d) = s.powerGood.get (otherDom d))
    (ho : (t.link (otherDom d)).held = (s.link (otherDom d)).held)
    (he : ∀ i : Fin 2, (t.link d).positions[i] = none) : (t.linkDown d r).LinkLaw := fun e => by
  simp only [State.linkDown_frame]
  rcases dom_eq_or d e with rfl | rfl
  · rw [State.linkDown_link]
    exact Link.lawful_of_empty he rfl (fun _ => rfl) (fun _ => rfl) (fun _ => rfl)
  · rw [State.linkDown_link_other, hp]
    exact (h _).of_held ho

/-- A link with one retrain more on its count (R84, R99). -/
def Link.retrainCounted (l : Link) : Link :=
  { l with counters := { l.counters with retrains := l.counters.retrains.inc } }

theorem State.retrain_eq (s : State) (d : Dom) (m : Mode) : s.retrain d m
    = ((s.dropAll d .retrain).setLink d ((s.dropAll d .retrain).link d).retrainCounted).startTraining d m := rfl

/-- A link with power retrains, its outstanding reads dropped first (R84). -/
theorem State.LinkLaw.retrain {s : State} (h : s.LinkLaw) {d : Dom} (m : Mode) (hp : s.powerGood.get d = true) :
    (s.retrain d m).LinkLaw := by
  have hd := h.dropAll d .retrain
  have hl : ((s.dropAll d .retrain).link d).retrainCounted.Lawful _ := (hd d).of_held rfl
  refine State.LinkLaw.startTraining (hd.setLink d hl) m (by simpa using hp) fun i => ?_
  rw [State.setLink_link_self]
  exact s.dropAll_none d .retrain i

/-! ### The ends of reads (R85 to R89, R96, R97) -/

/-- A downshift retrains a link that has power (R96, R97). -/
theorem State.LinkLaw.parityCounted {s : State} (h : s.LinkLaw) {d : Dom} (hp : s.powerGood.get d = true) :
    (s.parityCounted d).LinkLaw := by
  unfold State.parityCounted
  dsimp only
  split
  · next m _ =>
    split
    · have hs := (h.setLink d (l := { s.link d with shifted := true }) ((h d).of_held rfl)).retrain m (d := d)
        (by simpa using hp)
      exact hs.of_links (by simp [State.downshift]) (by simp [State.downshift])
    · exact h
  · exact h

/-- A read that ends frees its position, and its link has power (R85, R89). -/
theorem State.LinkLaw.endRead {s : State} (h : s.LinkLaw) {d : Dom} {i : Fin 2} {q : LinkRead}
    (hq : (s.link d).positions[i] = some q) (r : LinkRead) (o : ReadOutcome) : (s.endRead d i r o).LinkLaw := by
  have hp := (h d).powered (by rw [(h d).up hq]; decide)
  have hs : (s.setLink d (((s.link d).freed i).countOutcome o)).LinkLaw :=
    h.setLink d (((h d).freed i).of_held (Link.countOutcome_held _ o))
  unfold State.endRead
  refine State.LinkLaw.deliver ?_ _ _ _
  split
  · exact hs.parityCounted (by simpa using hp)
  · exact hs

/-! ### The events of the links -/

theorem State.LinkLaw.reach {s : State} (h : s.LinkLaw) (t : Time) : (s.reach t).LinkLaw :=
  h.of_links (by simp) (by simp)

theorem State.LinkLaw.trainingDone {s : State} (h : s.LinkLaw) (d : Dom) : (s.trainingDone d).LinkLaw := by
  unfold State.trainingDone
  dsimp only
  split
  · next hs =>
    have hp := (h d).powered (by rw [hs]; decide)
    have he := (h d).outstanding (by rw [hs]; decide)
    have hr : (s.link d).retryTimer.isSome = true → LinkState.up = .down := fun k => by
      have := (h d).retry k
      rw [hs] at this
      cases this
    have hl : Link.Lawful { s.link d with state := .up, trainingExpiry := none } (s.powerGood.get d) :=
      Link.lawful_of_empty he rfl hr nofun (by simp [hp])
    exact (h.setLink d hl).settle
  · exact h

theorem State.LinkLaw.trainingFailed {s : State} (h : s.LinkLaw) (d : Dom) : (s.trainingFailed d).LinkLaw := by
  unfold State.trainingFailed
  dsimp only
  split
  · next t hs _ =>
    have hd : ((s.reach t).linkDown d _).LinkLaw := h.linkDown (some ((s.reach t).partTime + ms Config.retryMs)) (by simp)
      (by simp) (by simpa using (h d).outstanding (by rw [hs]; decide))
    exact State.LinkLaw.settle (hd.unlocked (by simp) (by simp))
  · exact h

theorem State.LinkLaw.retryExpiry {s : State} (h : s.LinkLaw) (d : Dom) : (s.retryExpiry d).LinkLaw := by
  unfold State.retryExpiry
  split
  · next t _ =>
    have hr := h.reach t
    dsimp only
    generalize s.reach t = u at hr ⊢
    have hs : (u.setLink d { u.link d with retryTimer := none }).LinkLaw :=
      hr.setLink d ⟨(hr d).outstanding, (hr d).training, nofun, (hr d).down, (hr d).power, (hr d).lock, (hr d).numbers⟩
    split
    · next hc =>
      obtain ⟨hdown, hp⟩ := hc
      exact hs.startTraining .wide hp ((hs d).outstanding (by rw [hdown]; decide))
    · exact hs
  · exact h

theorem State.LinkLaw.retrainAsked {s : State} (h : s.LinkLaw) (d : Dom) : (s.retrainAsked d).LinkLaw := by
  unfold State.retrainAsked
  dsimp only
  split
  · next hu => exact (h.retrain _ ((h d).powered (by rw [hu]; decide))).settle
  · exact h

theorem State.LinkLaw.claimRead {s : State} (h : s.LinkLaw) (d : Dom) (n : ReadName) : (s.claimRead d n).LinkLaw := by
  unfold State.claimRead
  split
  · next r hr => exact h.setLink d ((h d).marked (State.readAt_eq_some hr) ⟨rfl, rfl, rfl, rfl, id⟩ rfl)
  · exact h

theorem State.LinkLaw.claimExpiry {s : State} (h : s.LinkLaw) (d : Dom) (n : ReadName) :
    (s.claimExpiry d n).LinkLaw := by
  unfold State.claimExpiry
  split
  · next r hr =>
    split
    · exact h
    · exact (h.endRead (State.readAt_eq_some hr) _ _).settle
  · exact h

theorem State.LinkLaw.granule {s : State} (h : s.LinkLaw) (d : Dom) (n : ReadName) (bs : List Byte) (good : Bool) :
    (s.granule d n bs good).LinkLaw := by
  unfold State.granule
  dsimp only
  split
  · next r hr =>
    have hp := State.readAt_eq_some hr
    split
    · split
      · exact (h.endRead hp _ _).settle
      · next hg =>
        exact h.setLink d ((h d).marked hp ⟨rfl, rfl, rfl, rfl, fun _ => Nat.lt_of_not_le hg⟩ rfl)
    · exact h
  · exact h

theorem State.LinkLaw.granuleExpiry {s : State} (h : s.LinkLaw) (d : Dom) (w : WindowName) :
    (s.granuleExpiry d w).LinkLaw := by
  unfold State.granuleExpiry
  split
  · next r hr =>
    split
    · exact (h.endRead (State.readAt_eq_some hr) _ _).settle
    · exact h
  · exact h

theorem State.LinkLaw.disconnectRead {s : State} (h : s.LinkLaw) (d : Dom) (n : ReadName) :
    (s.disconnectRead d n).LinkLaw := by
  unfold State.disconnectRead
  split
  · next r hr => exact (h.endRead (State.readAt_eq_some hr) _ _).settle
  · exact h

theorem State.LinkLaw.abortRead {s : State} (h : s.LinkLaw) (d : Dom) (n : ReadName) : (s.abortRead d n).LinkLaw := by
  unfold State.abortRead
  split
  · next r hr => exact (h.endRead (State.readAt_eq_some hr) _ _).settle
  · exact h

end Sys2Proof.Machine
end

