-- ==== Sys2Proof/Proofs/LinkLaw.lean ====
section
/-! SUPPORT. The other commands under the law of the links, and O7. -/
namespace Sys2Proof.Machine

/-! ### Pins and timers -/

theorem State.LinkLaw.takeTrigger {s : State} (h : s.LinkLaw) (d : Dom) (c : TriggerCause) (o : Option (BitVec 32)) :
    (s.takeTrigger d c o).1.LinkLaw := h.of_links (by simp) (by simp)

theorem State.LinkLaw.setDomain {s : State} (h : s.LinkLaw) (d : Dom) (x : Domain) : (s.setDomain d x).LinkLaw :=
  h.of_links rfl rfl

theorem State.LinkLaw.endHarvest {s : State} (h : s.LinkLaw) (d : Dom) (k : EndCause) : (s.endHarvest d k).LinkLaw :=
  h.unlocked (by simp) (by simp)

theorem State.LinkLaw.releaseLine {s : State} (h : s.LinkLaw) (d : Dom) (r : ReleaseReason) :
    (s.releaseLine d r).LinkLaw := h.of_links (by simp) (by simp)

/-- Arming sets the link's widen request alone (R20, R81). -/
theorem State.LinkLaw.enterArmed {s : State} (h : s.LinkLaw) (d : Dom) : (s.enterArmed d).LinkLaw :=
  State.LinkLaw.setLink (h.of_links rfl rfl) d ((h d).of_held rfl)

theorem State.LinkLaw.fatalLine {s : State} (h : s.LinkLaw) (d : Dom) (level : Bool) : (s.fatalLine d level).LinkLaw := by
  unfold State.fatalLine
  dsimp only
  split
  · exact ((h.setDomain d _).takeTrigger d _ _).worked _
  · exact h.setDomain d _

/-- A fall of power-good takes the link DOWN, its outstanding reads dropped first (R83). -/
theorem State.LinkLaw.powerFall {s : State} (h : s.LinkLaw) (d : Dom) : (s.powerFall d).LinkLaw := by
  unfold State.powerFall
  split
  · exact State.LinkLaw.settle (h.linkDown none (by simp) (Link.held_of_unlocked (by simp)) (State.dropAll_none _ d _))
  · exact h

/-- At a rise of power-good a link that is DOWN trains (R81); by the law it is. -/
theorem State.LinkLaw.powerRise {s : State} (h : s.LinkLaw) (d : Dom) : (s.powerRise d).LinkLaw := by
  unfold State.powerRise
  dsimp only
  split
  · exact h
  · next hp =>
    have hdown : (s.link d).state = .down := (h d).power (Bool.eq_false_iff.2 hp)
    generalize hu : ({ s with powerGood := s.powerGood.set d true } : State) = u
    have hup : u.powerGood = s.powerGood.set d true := by rw [← hu]
    have hul : ∀ e, u.link e = s.link e := fun _ => by rw [← hu]; rfl
    have hk : u.LinkLaw := fun e => by
      rw [hul, hup]
      rcases dom_eq_or d e with rfl | rfl
      · exact ⟨(h e).outstanding, (h e).training, (h e).retry, (h e).down, by simp, (h e).lock, (h e).numbers⟩
      · simpa using h (otherDom d)
    generalize hv : (if (u.domain d).state = .armed then u.startHeartbeat d else u) = v
    have hkv : v.LinkLaw ∧ v.powerGood = u.powerGood ∧ v.link d = u.link d := by
      subst hv
      split
      · exact ⟨hk.setDomain d _, rfl, rfl⟩
      · exact ⟨hk, rfl, rfl⟩
    obtain ⟨hkv, hvp, hvl⟩ := hkv
    split
    · exact hkv.startTraining .wide (by simp [hvp, hup]) ((hkv d).outstanding (by rw [hvl, hul, hdown]; decide))
    · exact hkv

theorem State.LinkLaw.resetRequestRise {s : State} (h : s.LinkLaw) (d : Dom) : (s.resetRequestRise d).LinkLaw := by
  unfold State.resetRequestRise
  dsimp only
  split
  · exact h
  · exact h.setDomain d _

theorem State.LinkLaw.hang {s : State} (h : s.LinkLaw) (d : Dom) : (s.hang d).LinkLaw := by
  unfold State.hang
  dsimp only
  split
  · exact (((h.reach _).setDomain d _).takeTrigger d _ _).worked _
  · exact h

theorem State.LinkLaw.holdExpiry {s : State} (h : s.LinkLaw) (d : Dom) : (s.holdExpiry d).LinkLaw := by
  unfold State.holdExpiry
  dsimp only
  split
  · exact ((((h.reach _).setDomain d _).releaseLine d _).endHarvest d _).settle
  · exact h

theorem State.LinkLaw.attachRise {s : State} (h : s.LinkLaw) : s.attachRise.LinkLaw := by
  unfold State.attachRise
  split
  · exact h
  · exact h.of_links (by simp) (by simp)

theorem State.LinkLaw.attachFall {s : State} (h : s.LinkLaw) : s.attachFall.LinkLaw := by
  unfold State.attachFall
  dsimp only
  split
  · exact h.of_links (by simp) (by simp)
  · exact h

/-! ### The store, the journals and the lines -/

theorem State.LinkLaw.programDone {s : State} (h : s.LinkLaw) (i : Fin 8) : (s.programDone i).LinkLaw := by
  have ha (u : State) (hu : u.LinkLaw) (k : PageKey) : (u.afterProgram k).LinkLaw := by
    unfold State.afterProgram
    split
    · exact hu.unlocked (by simp) (by simp)
    · split
      · exact hu.of_links (by simp) (by simp)
      · exact hu
    · exact hu
  unfold State.programDone
  dsimp only
  split
  · exact (ha _ (h.of_links (by simp) (by simp)) _).settle
  · exact State.LinkLaw.settle (h.of_links (by simp) (by simp))
  · exact h

theorem State.LinkLaw.programFails {s : State} (h : s.LinkLaw) (i : Fin 8) : (s.programFails i).LinkLaw := by
  unfold State.programFails
  split
  · exact State.LinkLaw.settle (h.of_links (by simp) (by simp))
  · exact h

theorem State.LinkLaw.readDone {s : State} (h : s.LinkLaw) (i : Fin 8) (held : Bool) : (s.readDone i held).LinkLaw := by
  unfold State.readDone
  dsimp only
  split
  · cases held <;> split <;> exact State.LinkLaw.settle (h.of_links (by simp) (by simp))
  · exact h

theorem State.LinkLaw.eraseEnds {s : State} (h : s.LinkLaw) (i : Fin 8) : (s.eraseEnds i).LinkLaw := by
  unfold State.eraseEnds
  split
  · exact State.LinkLaw.settle (h.of_links (by simp) (by simp))
  · exact h

theorem State.LinkLaw.eraseFails {s : State} (h : s.LinkLaw) (i : Fin 8) : (s.eraseFails i).LinkLaw := by
  unfold State.eraseFails
  split
  · exact State.LinkLaw.settle (h.of_links (by simp) (by simp))
  · exact h

theorem State.LinkLaw.storeSaveEnd {s : State} (h : s.LinkLaw) (ok : Bool) : (s.storeSaveEnd ok).LinkLaw := by
  unfold State.storeSaveEnd
  split
  · split
    · exact State.LinkLaw.settle (h.of_links (by simp) (by simp))
    · exact h
  · exact h

theorem State.LinkLaw.configSaveEnd {s : State} (h : s.LinkLaw) (ok : Bool) : (s.configSaveEnd ok).LinkLaw := by
  unfold State.configSaveEnd
  dsimp only
  split
  · split
    · exact State.LinkLaw.settle (h.of_links (by simp) (by simp))
    · exact h
  · exact h

theorem State.LinkLaw.intakeDone {s : State} (h : s.LinkLaw) (d : Dom) : (s.intakeDone d).LinkLaw := by
  unfold State.intakeDone
  dsimp only
  split
  · exact h.of_links (by simp) (by simp)
  · exact h

theorem State.LinkLaw.agingTaken {s : State} (h : s.LinkLaw) (d : Dom) (i : Fin 16) : (s.agingTaken d i).LinkLaw := by
  unfold State.agingTaken
  dsimp only
  split
  · exact h.of_links (by simp) (by simp)
  · exact h

theorem State.LinkLaw.complete {s : State} (h : s.LinkLaw) (p : PortId) (r : Frame) : (s.complete p r).LinkLaw :=
  h.of_links (by simp) (by simp)

theorem State.LinkLaw.crashTaken {s : State} (h : s.LinkLaw) (d : Dom) : (s.crashTaken d).LinkLaw := by
  unfold State.crashTaken
  dsimp only
  split
  · split
    · exact ((h.takeTrigger d _ _).complete _ _).worked _
    · exact h
  · exact h

theorem State.LinkLaw.receive {s : State} (h : s.LinkLaw) (p : PortId) (f : Frame) (crc : BitVec 16) :
    (s.receive p f crc).LinkLaw := by
  unfold State.receive
  dsimp only
  split
  · (repeat' split) <;> exact h.of_links (by simp) (by simp)
  · exact h

theorem State.LinkLaw.syncFound {s : State} (h : s.LinkLaw) (p : PortId) : (s.syncFound p).LinkLaw := by
  unfold State.syncFound
  split
  · exact h.of_links (by simp) (by simp)
  · exact h

theorem State.LinkLaw.frameGap {s : State} (h : s.LinkLaw) (p : PortId) : (s.frameGap p).LinkLaw := by
  unfold State.frameGap
  dsimp only
  split
  · exact h.of_links (by simp) (by simp)
  · exact h

theorem State.LinkLaw.oversizeLength {s : State} (h : s.LinkLaw) (p : PortId) : (s.oversizeLength p).LinkLaw := by
  unfold State.oversizeLength
  dsimp only
  split
  · exact h.of_links (by simp) (by simp)
  · exact h

theorem State.LinkLaw.peerHoldEnds {s : State} (h : s.LinkLaw) (p : PortId) : (s.peerHoldEnds p).LinkLaw := by
  unfold State.peerHoldEnds
  dsimp only
  split
  · exact h.of_links (by simp) (by simp)
  · exact h

theorem State.LinkLaw.frameSent {s : State} (h : s.LinkLaw) (p : PortId) : (s.frameSent p).LinkLaw := by
  unfold State.frameSent
  dsimp only
  split
  · split <;> exact h.of_links (by simp) (by simp)
  · exact h

theorem State.LinkLaw.refuseUnknown {s : State} (h : s.LinkLaw) (p : PortId) : (s.refuseUnknown p).LinkLaw := by
  unfold State.refuseUnknown
  split
  · exact h
  · split
    · exact h
    · exact h.of_links (by simp) (by simp)

/-! ### Resets and start-up -/

/-- A link is lawful as a reset leaves it: with power it trains at once (R79). -/
theorem Link.started_lawful (l : Link) (p : Bool) (now : Time) : (l.started p now).Lawful p := by
  have he : ∀ i : Fin 2, (Vector.replicate 2 (none : Option LinkRead))[i] = none := by simp
  cases p
  · exact Link.lawful_of_empty he rfl nofun (fun _ => rfl) (fun _ => rfl)
  · exact Link.lawful_of_empty he rfl nofun nofun nofun

theorem State.linkLaw_of_started {s : State} {x y : Link} {m n : Time}
    (h : s.links = ⟨x.started s.powerGood.a m, y.started s.powerGood.b n⟩) : s.LinkLaw := fun d => by
  unfold State.link
  rw [h]
  cases d <;> exact Link.started_lawful _ _ _

theorem State.hardReset_linkLaw (s : State) (lv : Levels) : (s.hardReset lv).LinkLaw := by
  unfold State.hardReset
  dsimp only
  split <;>
    exact State.linkLaw_of_started (x := s.link .a) (y := s.link .b) (m := 0) (n := 0) (by simp)

theorem State.LinkLaw.loadDone {s : State} (h : s.LinkLaw) : s.loadDone.LinkLaw := by
  unfold State.loadDone
  dsimp only
  split
  · exact h.of_links (by simp) (by simp)
  · exact h

theorem State.LinkLaw.armAtEnd {s : State} (h : s.LinkLaw) (d : Dom) : (s.armAtEnd d).LinkLaw := by
  unfold State.armAtEnd
  split
  · exact h.enterArmed d
  · exact h

theorem State.LinkLaw.scanDone {s : State} (h : s.LinkLaw) : s.scanDone.LinkLaw := by
  unfold State.scanDone
  dsimp only
  split
  · exact (State.LinkLaw.armAtEnd (State.LinkLaw.armAtEnd (h.of_links (by simp) (by simp)) .a) .b).settle
  · exact h

theorem State.LinkLaw.domainRestart {s : State} (h : s.LinkLaw) (d : Dom) : (s.domainRestart d).LinkLaw :=
  (h.setDomain d _).armAtEnd d

theorem State.LinkLaw.restartDone {s : State} (h : s.LinkLaw) : s.restartDone.LinkLaw := by
  unfold State.restartDone
  dsimp only
  split
  · have hb : s.reloaded.blocksRestart.LinkLaw :=
      State.linkLaw_of_started (x := s.link .a) (y := s.link .b) (m := s.partTime) (n := s.partTime) rfl
    have hs := hb.of_links (t := s.reloaded.blocksRestart.applySlots s.config.memory.image) (by simp) (by simp)
    have hd := (hs.domainRestart .a).domainRestart .b
    exact (hd.of_links (by simp) (by simp) : State.LinkLaw (State.noticeIdent _)).settle
  · exact h

/-! ### Requests -/

/-- An owning rule that keeps the law of the links, as every request does. -/
def KeepsLinkLaw (act : State → Frame → Dom → Answer) : Prop :=
  ∀ s : State, s.LinkLaw → ∀ f d, (act s f d).All State.LinkLaw

theorem KeepsLinkLaw.request {act : State → Frame → Dom → Answer} (h : KeepsLinkLaw act) {s : State} (hs : s.LinkLaw)
    (p : PortId) (kind : Byte) : (s.request p kind act).LinkLaw :=
  State.request_keeps s p kind act (fun k => k.of_links (by simp) (by simp)) (fun _ r k => k.complete p r)
    (fun _ d k => k.setDomain d _) (fun _ k => k.settle) (fun f d _ k => h _ k f d) hs

theorem armAct_keepsLinkLaw : KeepsLinkLaw armAct := fun s h f d => by
  unfold armAct
  split
  · exact h.enterArmed d
  · exact h.enterArmed d
  all_goals exact h

theorem disarmAct_keepsLinkLaw : KeepsLinkLaw disarmAct := fun s h f d => by
  unfold disarmAct
  split
  · exact h.setDomain d _
  · exact h.setDomain d _
  all_goals exact h

theorem heartbeatAct_keepsLinkLaw : KeepsLinkLaw heartbeatAct := fun s h f d => by
  have hs := h.setDomain d ((s.domain d).heartbeat f.body s.partTime)
  unfold heartbeatAct
  dsimp only
  split
  · exact hs.setDomain d _
  · split
    · exact hs.enterArmed d
    · exact hs
  all_goals exact hs

theorem crashAct_keepsLinkLaw : KeepsLinkLaw crashAct := fun s h f d => by
  unfold crashAct
  dsimp only
  split
  · exact Answer.trigger_all (h.takeTrigger d _ _)
  · exact h.of_links (by simp) (by simp)

theorem captureAct_keepsLinkLaw : KeepsLinkLaw captureAct := fun s h f d => by
  unfold captureAct
  split
  · exact Answer.trigger_all (h.takeTrigger d _ _)
  · exact Answer.trigger_all (h.takeTrigger d _ _)
  · exact h.setDomain d _
  all_goals exact h

theorem abortAct_keepsLinkLaw : KeepsLinkLaw abortAct := fun s h f d => by
  unfold abortAct
  split
  · exact h.endHarvest d _
  · exact h.endHarvest d _
  all_goals exact h

theorem releaseHoldAct_keepsLinkLaw : KeepsLinkLaw releaseHoldAct := fun s h f d => by
  unfold releaseHoldAct
  split
  · exact (h.releaseLine d _).endHarvest d _
  · exact (h.releaseLine d _).endHarvest d _
  · exact h.releaseLine d _
  all_goals exact h

/-- LINK STATUS clears flags and counters alone (R98, R99). -/
theorem linkStatusAct_keepsLinkLaw : KeepsLinkLaw linkStatusAct := fun s h f d =>
  h.setLink d ((h d).of_held (by split <;> rfl))

/-- VERIFY goes on after its reply (R141). -/
theorem verifyAct_keepsLinkLaw : KeepsLinkLaw verifyAct := fun s h f d => by
  unfold verifyAct
  dsimp only
  split
  · exact h
  · split
    · exact h
    · split
      · exact h
      · split
        · exact ⟨h, fun u k => k.of_links (by simp) (by simp)⟩
        · split
          · exact ⟨h, fun u k => k.of_links (by simp) (by simp)⟩
          · exact ⟨h, fun u k => State.LinkLaw.settle (k.of_links (by simp) (by simp))⟩

/-! ### Requests that leave the links -/

theorem planAddAct_keepsLinkLaw : KeepsLinkLaw planAddAct := fun s h f d => by
  unfold planAddAct
  dsimp only
  (repeat' split) <;> exact h.of_links (by simp) (by simp)

theorem planDeleteAct_keepsLinkLaw : KeepsLinkLaw planDeleteAct := fun s h f d => by
  unfold planDeleteAct
  dsimp only
  (repeat' split) <;> exact h.of_links (by simp) (by simp)

theorem planReadAct_keepsLinkLaw : KeepsLinkLaw planReadAct := fun s h f d => by
  unfold planReadAct
  dsimp only
  (repeat' split) <;> exact h.of_links (by simp) (by simp)

theorem eventAct_keepsLinkLaw : KeepsLinkLaw eventAct := fun s h f d => by
  unfold eventAct
  dsimp only
  (repeat' split) <;> exact h.of_links (by simp) (by simp)

theorem latchSetAct_keepsLinkLaw : KeepsLinkLaw latchSetAct := fun s h f d => by
  unfold latchSetAct
  dsimp only
  (repeat' split) <;> exact h.of_links (by simp) (by simp)

theorem journalReadAct_keepsLinkLaw : KeepsLinkLaw journalReadAct := fun s h f d => by
  unfold journalReadAct
  dsimp only
  (repeat' split) <;> exact h.of_links (by simp) (by simp)

theorem manifestAct_keepsLinkLaw : KeepsLinkLaw manifestAct := fun s h f d => by
  unfold manifestAct
  dsimp only
  (repeat' split) <;> exact h.of_links (by simp) (by simp)

theorem cursorAct_keepsLinkLaw : KeepsLinkLaw cursorAct := fun s h f d => by
  unfold cursorAct
  dsimp only
  (repeat' split) <;> exact h.of_links (by simp) (by simp)

theorem readAct_keepsLinkLaw : KeepsLinkLaw readAct := fun s h f d => by
  unfold readAct
  dsimp only
  (repeat' split) <;> exact h.of_links (by simp) (by simp)

theorem releaseAct_keepsLinkLaw : KeepsLinkLaw releaseAct := fun s h f d => by
  unfold releaseAct
  dsimp only
  (repeat' split) <;> exact h.of_links (by simp) (by simp)

theorem protectAct_keepsLinkLaw : KeepsLinkLaw protectAct := fun s h f d => by
  unfold protectAct
  dsimp only
  (repeat' split) <;> exact h.of_links (by simp) (by simp)

theorem configSetAct_keepsLinkLaw : KeepsLinkLaw configSetAct := fun s h f d => by
  unfold configSetAct
  dsimp only
  (repeat' split) <;> exact h.of_links (by simp) (by simp)

theorem configSaveAct_keepsLinkLaw : KeepsLinkLaw configSaveAct := fun s h f d => by
  unfold configSaveAct
  dsimp only
  (repeat' split) <;> exact h.of_links (by simp) (by simp)

theorem viewAct_keepsLinkLaw : KeepsLinkLaw viewAct := fun s h f d => by
  unfold viewAct
  dsimp only
  (repeat' split) <;> exact h.of_links (by simp) (by simp)

theorem restartAct_keepsLinkLaw : KeepsLinkLaw restartAct := fun s h f d => by
  unfold restartAct
  (repeat' split) <;> exact h.of_links (by simp) (by simp)

/-! ### Every command -/

/-- Every command keeps the law of the links. -/
theorem exec_keeps_linkLaw (c : Instr) {s t : State} (h : s.LinkLaw) (e : exec c s = .next t) : t.LinkLaw := by
  cases c <;> cases e
  case hardReset lv => exact s.hardReset_linkLaw lv
  case configLoadComplete => exact h.loadDone
  case startUpScanComplete => exact h.scanDone
  case restartTakesEffect => exact h.restartDone
  case fatalLine d level => exact h.fatalLine d level
  case powerGoodFall d => exact h.powerFall d
  case powerGoodRise d => exact h.powerRise d
  case resetRequestEdge d => exact h.resetRequestRise d
  case resetRequestFall d => exact h.setDomain d _
  case attach => exact h.attachRise
  case detach => exact h.attachFall
  case hang d => exact h.hang d
  case holdTimerExpiry d => exact h.holdExpiry d
  case linkRetryTimerExpiry d => exact h.retryExpiry d
  case trainingExpiry d => exact h.trainingFailed d
  case trainingComplete d => exact h.trainingDone d
  case targetRetrainRequest d => exact h.retrainAsked d
  case targetClaim d r => exact h.claimRead d r
  case claimWindowExpiry d r => exact h.claimExpiry d r
  case granuleArrival d r bs good => exact h.granule d r bs good
  case granuleWindowExpiry d w => exact h.granuleExpiry d w
  case disconnect d r => exact h.disconnectRead d r
  case targetAbort d r => exact h.abortRead d r
  case programComplete i => exact h.programDone i
  case programFailed i => exact h.programFails i
  case storeReadComplete i held => exact h.readDone i held
  case eraseComplete i => exact h.eraseEnds i
  case eraseFailed i => exact h.eraseFails i
  case storeSaveEnd ok => exact h.storeSaveEnd ok
  case configSaveEnd ok => exact h.configSaveEnd ok
  case intakeStepComplete d => exact h.intakeDone d
  case agingExpiry d i => exact h.agingTaken d i
  case crashTaken d => exact h.crashTaken d
  case receiveFrame p k g d bs crc => exact h.receive p _ crc
  case syncPairFound p => exact h.syncFound p
  case frameGapTimeout p => exact h.frameGap p
  case oversize p => exact h.oversizeLength p
  case peerHoldExpiry p => exact h.peerHoldEnds p
  case frameSent p => exact h.frameSent p
  case unknownKind p => exact h.refuseUnknown p
  case linkStatus p => exact linkStatusAct_keepsLinkLaw.request h p _
  case arm p => exact armAct_keepsLinkLaw.request h p _
  case disarm p => exact disarmAct_keepsLinkLaw.request h p _
  case heartbeat p => exact heartbeatAct_keepsLinkLaw.request h p _
  case crash p => exact crashAct_keepsLinkLaw.request h p _
  case capture p => exact captureAct_keepsLinkLaw.request h p _
  case abort p => exact abortAct_keepsLinkLaw.request h p _
  case releaseHold p => exact releaseHoldAct_keepsLinkLaw.request h p _
  case verify p => exact verifyAct_keepsLinkLaw.request h p _
  case planAdd p => exact planAddAct_keepsLinkLaw.request h p _
  case planDelete p => exact planDeleteAct_keepsLinkLaw.request h p _
  case planRead p => exact planReadAct_keepsLinkLaw.request h p _
  case event p => exact eventAct_keepsLinkLaw.request h p _
  case latchSet p => exact latchSetAct_keepsLinkLaw.request h p _
  case journalRead p => exact journalReadAct_keepsLinkLaw.request h p _
  case manifest p => exact manifestAct_keepsLinkLaw.request h p _
  case cursor p => exact cursorAct_keepsLinkLaw.request h p _
  case read p => exact readAct_keepsLinkLaw.request h p _
  case release p => exact releaseAct_keepsLinkLaw.request h p _
  case protect p => exact protectAct_keepsLinkLaw.request h p _
  case configSet p => exact configSetAct_keepsLinkLaw.request h p _
  case configSave p => exact configSaveAct_keepsLinkLaw.request h p _
  case view p => exact viewAct_keepsLinkLaw.request h p _
  case restart p => exact restartAct_keepsLinkLaw.request h p _
  case ident p => exact KeepsLinkLaw.request (act := identAct) (fun _ k _ _ => k) h p _
  case status p => exact KeepsLinkLaw.request (act := statusAct) (fun _ k _ _ => k) h p _
  case counters p => exact KeepsLinkLaw.request (act := countersAct) (fun _ k _ _ => k) h p _
  case configGet p => exact KeepsLinkLaw.request (act := configGetAct) (fun _ k _ _ => k) h p _
  case dir p => exact KeepsLinkLaw.request (act := dirAct) (fun _ k _ _ => k) h p _
  case latchRead p => exact KeepsLinkLaw.request (act := latchReadAct) (fun _ k _ _ => k.of_links rfl rfl) h p _
  case planClear p => exact KeepsLinkLaw.request (act := planClearAct) (fun _ k _ _ => k.of_links rfl rfl) h p _

/-- Settles O7: an idle millisecond leaves the links, and every command keeps their law. -/
theorem stepsKeepTheLinkLaw : Obligations.StepsKeepTheLinkLaw := by
  unfold Obligations.StepsKeepTheLinkLaw
  intro s t h e
  unfold step at e
  split at e
  · cases e
    exact h.of_links rfl rfl
  · next c rest _ => exact exec_keeps_linkLaw c (h.of_links rfl rfl : (s.withPending rest).LinkLaw) e

end Sys2Proof.Machine
end

