-- ==== Sys2Proof/Proofs/IdleCommands.lean ====
section
/-! SUPPORT. Commands with nothing to do change nothing (logs 3, 17, 57 and 65), and O17. -/
namespace Sys2Proof.Machine

/-! ### Requests -/

/-- The command of a request is the taking up of its kind at its port, by some owning rule (R163). -/
theorem exec_of_requestOf {c : Instr} {p : PortId} {k : Byte} (h : requestOf c = some (p, k)) :
    ∃ act, ∀ s, exec c s = .next (s.request p k act) := by
  cases c <;> cases h <;> exact ⟨_, fun _ => rfl⟩

theorem State.refuseUnknown_known {s : State} {p : PortId}
    (h : ∀ f, s.nextFrame p = some f → 1 ≤ f.kind.toNat ∧ f.kind.toNat ≤ 0x1F) : s.refuseUnknown p = s := by
  unfold State.refuseUnknown
  split
  · rfl
  · next f hf => rw [if_pos (by simpa [isRequestKind] using h f hf)]

/-! ### Pins -/

/-- A domain's record written as it stands. -/
theorem State.setDomain_eq_self {s : State} {d : Dom} {x : Domain} (h : x = s.domain d) : s.setDomain d x = s := by
  rw [h]
  simp only [State.setDomain, State.domain, Two.set_get]

theorem State.fatalLine_level (s : State) (d : Dom) : s.fatalLine d (s.domain d).fatalLevel = s := by
  unfold State.fatalLine
  dsimp only
  rw [if_neg (by simp), State.setDomain_eq_self rfl]

theorem State.powerRise_high {s : State} {d : Dom} (h : s.powerGood.get d = true) : s.powerRise d = s := if_pos h

theorem State.powerFall_low {s : State} {d : Dom} (h : s.powerGood.get d = false) : s.powerFall d = s := by
  simp [State.powerFall, h]

theorem State.resetRequestRise_high {s : State} {d : Dom} (h : (s.domain d).resetRequestLevel = true) :
    s.resetRequestRise d = s := if_pos h

theorem State.resetRequestFall_low {s : State} {d : Dom} (h : (s.domain d).resetRequestLevel = false) :
    s.resetRequestFall d = s := State.setDomain_eq_self (by rw [← h])

theorem State.attachRise_attached {s : State} (h : s.service.attached = true) : s.attachRise = s := if_pos h

theorem State.attachFall_detached {s : State} (h : s.service.attached = false) : s.attachFall = s := by
  simp [State.attachFall, h]

/-! ### Timers and trainings -/

theorem State.holdExpiry_stopped {s : State} {d : Dom} (h : (s.domain d).holdTimer = none) : s.holdExpiry d = s := by
  simp [State.holdExpiry, h]

theorem State.hang_stopped {s : State} {d : Dom} (h : (s.domain d).heartbeatTimer = none) : s.hang d = s := by
  simp [State.hang, h]

theorem State.retryExpiry_stopped {s : State} {d : Dom} (h : (s.link d).retryTimer = none) : s.retryExpiry d = s := by
  simp [State.retryExpiry, h]

theorem State.trainingDone_idle {s : State} {d : Dom} (h : (s.link d).state ≠ .training) : s.trainingDone d = s :=
  if_neg h

theorem State.trainingFailed_idle {s : State} {d : Dom}
    (h : (s.link d).state ≠ .training ∨ (s.link d).trainingExpiry = none) : s.trainingFailed d = s := by
  unfold State.trainingFailed
  dsimp only
  split
  · next t hs ht => simp [hs, ht] at h
  · rfl

theorem State.retrainAsked_idle {s : State} {d : Dom} (h : (s.link d).state ≠ .up) : s.retrainAsked d = s := if_neg h

/-! ### Events of reads -/

/-- No read that has its position is the one named: an event of it belongs to no read (R86, R87; log 57). -/
theorem State.readAt_eq_none {s : State} {d : Dom} {i : Fin 2} {n : Nat}
    (h : ∀ r, (s.link d).positions[i] = some r → r.number ≠ n) : s.readAt d ⟨i, n⟩ = none := by
  simpa [State.readAt, Option.filter_eq_none_iff] using h

/-- The read that has a position is named by its number. -/
theorem State.readAt_self {s : State} {d : Dom} {i : Fin 2} {r : LinkRead} (h : (s.link d).positions[i] = some r) :
    s.readAt d ⟨i, r.number⟩ = some r := by
  unfold State.readAt
  rw [h]
  simp

theorem State.claimRead_ended {s : State} {d : Dom} {n : ReadName} (h : s.readAt d n = none) : s.claimRead d n = s := by
  simp [State.claimRead, h]

theorem State.claimExpiry_ended {s : State} {d : Dom} {n : ReadName} (h : s.readAt d n = none) :
    s.claimExpiry d n = s := by
  simp [State.claimExpiry, h]

theorem State.granule_ended {s : State} {d : Dom} {n : ReadName} (h : s.readAt d n = none) (bs : List Byte)
    (good : Bool) : s.granule d n bs good = s := by
  simp [State.granule, h]

theorem State.granuleExpiry_ended {s : State} {d : Dom} {n : ReadName} (h : s.readAt d n = none) (since : Nat) :
    s.granuleExpiry d ⟨n, since⟩ = s := by
  simp [State.granuleExpiry, h]

theorem State.disconnectRead_ended {s : State} {d : Dom} {n : ReadName} (h : s.readAt d n = none) :
    s.disconnectRead d n = s := by
  simp [State.disconnectRead, h]

theorem State.abortRead_ended {s : State} {d : Dom} {n : ReadName} (h : s.readAt d n = none) : s.abortRead d n = s := by
  simp [State.abortRead, h]

/-- A claim has ended the claim window (R86). -/
theorem State.claimExpiry_claimed {s : State} {d : Dom} {n : ReadName} {r : LinkRead} (h : s.readAt d n = some r)
    (hc : r.claimed = true) : s.claimExpiry d n = s := by
  simp [State.claimExpiry, h, hc]

/-- No granule comes before the claim (R86). -/
theorem State.granule_unclaimed {s : State} {d : Dom} {n : ReadName} {r : LinkRead} (h : s.readAt d n = some r)
    (hc : r.claimed = false) (bs : List Byte) (good : Bool) : s.granule d n bs good = s := by
  simp [State.granule, h, hc]

/-- A granule window runs from a claim or a granule, until the next granule (R86; log 57). -/
theorem State.granuleExpiry_over {s : State} {d : Dom} {n : ReadName} {r : LinkRead} {since : Nat}
    (h : s.readAt d n = some r) (hc : r.claimed = false ∨ since ≠ r.received.length) :
    s.granuleExpiry d ⟨n, since⟩ = s := by
  unfold State.granuleExpiry
  rw [h]
  refine if_neg fun ⟨k, e⟩ => ?_
  simp [k, e] at hc

/-! ### The store and saves -/

theorem State.programDone_idle {s : State} {i : Fin 8} (h : ∀ x a, s.store.inFlight[i] ≠ some (.program x a)) :
    s.programDone i = s := by
  unfold State.programDone
  split
  · next e => exact absurd e (h _ _)
  · next e => exact absurd e (h _ _)
  · rfl

theorem State.programFails_idle {s : State} {i : Fin 8} (h : ∀ x a, s.store.inFlight[i] ≠ some (.program x a)) :
    s.programFails i = s := by
  unfold State.programFails
  split
  · next e => exact absurd e (h _ _)
  · rfl

theorem State.readDone_idle {s : State} {i : Fin 8} (h : ∀ r a, s.store.inFlight[i] ≠ some (.read r a)) (held : Bool) :
    s.readDone i held = s := by
  unfold State.readDone
  split
  · next e => exact absurd e (h _ _)
  · rfl

theorem State.eraseEnds_idle {s : State} {i : Fin 8} (h : ∀ b w, s.store.inFlight[i] ≠ some (.erase b w)) :
    s.eraseEnds i = s := by
  unfold State.eraseEnds
  split
  · next e => exact absurd e (h _ _)
  · rfl

theorem State.eraseFails_idle {s : State} {i : Fin 8} (h : ∀ b w, s.store.inFlight[i] ≠ some (.erase b w)) :
    s.eraseFails i = s := by
  unfold State.eraseFails
  split
  · next e => exact absurd e (h _ _)
  · rfl

theorem State.configSaveEnd_idle {s : State} (h : ∀ im, s.config.save ≠ some { kind := .config, image := im })
    (ok : Bool) : s.configSaveEnd ok = s := by
  unfold State.configSaveEnd
  split
  · next sv e => exact if_neg fun k => h sv.image (by rw [e, ← k])
  · rfl

theorem State.storeSaveEnd_idle {s : State} (h : ∀ im, s.config.save ≠ some { kind := .store, image := im })
    (ok : Bool) : s.storeSaveEnd ok = s := by
  unfold State.storeSaveEnd
  split
  · next sv e => exact if_neg fun k => h sv.image (by rw [e, ← k])
  · rfl

/-! ### Lines and journals -/

theorem State.frameSent_idle {s : State} {p : PortId} (h : (s.port p).line = none) : s.frameSent p = s := by
  simp [State.frameSent, h]

theorem State.peerHoldEnds_idle {s : State} {p : PortId} (h : (s.port p).peerHold = none) : s.peerHoldEnds p = s := by
  simp [State.peerHoldEnds, h]

theorem State.frameGap_hunting {s : State} {p : PortId} (h : (s.port p).receiver = .hunting) : s.frameGap p = s := by
  simp [State.frameGap, Port.inFrame, h]

theorem State.oversizeLength_hunting {s : State} {p : PortId} (h : (s.port p).receiver = .hunting) :
    s.oversizeLength p = s := by
  simp [State.oversizeLength, Port.inFrame, h]

theorem State.syncFound_inFrame {s : State} {p : PortId} (h : (s.port p).receiver ≠ .hunting) : s.syncFound p = s :=
  if_neg fun k => h k.2

theorem State.syncFound_deaf {s : State} {p : PortId} (h : s.listens p = false) : s.syncFound p = s := by
  simp [State.syncFound, h]

theorem State.receive_deaf {s : State} {p : PortId} (h : s.listens p = false) (f : Frame) (crc : BitVec 16) :
    s.receive p f crc = s := by
  simp [State.receive, h]

theorem State.intakeDone_empty {s : State} {d : Dom} (h : (s.journal d).intake = []) : s.intakeDone d = s := by
  simp [State.intakeDone, h]

theorem State.agingTaken_stopped {s : State} {d : Dom} {i : Fin 16} (h : (s.journal d).slots[i].aging = none) :
    s.agingTaken d i = s := by
  unfold State.agingTaken
  dsimp only
  rw [h]

theorem State.crashTaken_idle {s : State} {d : Dom}
    (h : (∀ code, (s.port (.platform d)).processing ≠ some (.crash code)) ∨ (s.port (.platform d)).input = []
      ∨ (s.journal d).intake ≠ []) : s.crashTaken d = s := by
  unfold State.crashTaken
  dsimp only
  split
  · next code f rest hp hi =>
    refine if_neg fun k => ?_
    rcases h with h | h | h
    · exact h code hp
    · rw [hi] at h; cases h
    · exact h k
  · rfl

/-! ### Start-up and restart -/

theorem State.loadDone_idle {s : State} (h : s.startUp ≠ .load) : s.loadDone = s := if_neg h

theorem State.scanDone_idle {s : State} (h : s.startUp ≠ .scan) : s.scanDone = s := if_neg h

/-- A restart that is due waits while a domain has a dump open (log 17). -/
theorem State.restartDone_idle {s : State}
    (h : s.restart ≠ .due ∨ (s.domain .a).busy = true ∨ (s.domain .b).busy = true) : s.restartDone = s := by
  refine if_neg fun ⟨hr, ha, hb⟩ => ?_
  simp [hr, ha, hb] at h

/-- Settles O17, event by event. -/
theorem commandsWithNothingToDoChangeNothing : Obligations.CommandsWithNothingToDoChangeNothing := by
  unfold Obligations.CommandsWithNothingToDoChangeNothing
  intro s d pos i slot p
  have next {t : State} (h : t = s) : (Host.Outcome.next t : Host.Outcome State Fault Refusal) = .next s :=
    congrArg Host.Outcome.next h
  refine ⟨fun c k hc hf => ?_, fun h => next (State.refuseUnknown_known h), next (s.fatalLine_level d),
    fun h => next (State.powerRise_high h), fun h => next (State.powerFall_low h),
    fun h => next (State.resetRequestRise_high h), fun h => next (State.resetRequestFall_low h),
    fun h => next (State.attachRise_attached h), fun h => next (State.attachFall_detached h),
    fun h => next (State.holdExpiry_stopped h), fun h => next (State.hang_stopped h),
    fun h => next (State.retryExpiry_stopped h), fun h => next (State.trainingDone_idle h),
    fun h => next (State.trainingFailed_idle h), fun h => next (State.retrainAsked_idle h), fun n h => ?_, fun r h => ?_,
    fun h => ⟨next (State.programDone_idle h), next (State.programFails_idle h)⟩,
    fun h => ⟨next (State.eraseEnds_idle h), next (State.eraseFails_idle h)⟩,
    fun h held => next (State.readDone_idle h held), fun h ok => next (State.configSaveEnd_idle h ok),
    fun h ok => next (State.storeSaveEnd_idle h ok), fun h => next (State.frameSent_idle h),
    fun h => next (State.peerHoldEnds_idle h),
    fun h => ⟨next (State.frameGap_hunting h), next (State.oversizeLength_hunting h)⟩,
    fun h => next (State.syncFound_inFrame h),
    fun h => ⟨next (State.syncFound_deaf h), fun _ _ _ _ crc => next (State.receive_deaf (p := .service) h _ crc)⟩,
    fun h => next (State.intakeDone_empty h), fun h => next (State.agingTaken_stopped h),
    fun h => next (State.crashTaken_idle h), fun h => next (State.loadDone_idle h), fun h => next (State.scanDone_idle h),
    fun h => next (State.restartDone_idle h)⟩
  · obtain ⟨act, e⟩ := exec_of_requestOf hc
    rw [e, State.request_other act hf]
  · have hn := State.readAt_eq_none h
    exact ⟨next (State.claimRead_ended hn), next (State.claimExpiry_ended hn),
      fun since => next (State.granuleExpiry_ended hn since), next (State.disconnectRead_ended hn),
      next (State.abortRead_ended hn), fun bs good => next (State.granule_ended hn bs good)⟩
  · have hr := State.readAt_self h
    exact ⟨fun hc => next (State.claimExpiry_claimed hr hc),
      fun hc bs good => next (State.granule_unclaimed hr hc bs good),
      fun since hc => next (State.granuleExpiry_over hr hc)⟩

end Sys2Proof.Machine
end

