-- ==== Sys2Proof/Proofs/Trainings.lean ====
section
/-! SUPPORT. Trainings start and end (R80 to R84, R9), and O36. -/
namespace Sys2Proof.Machine

/-! ### What a training and a retraining leave -/

/-- What differs in lock requests alone differs there alone. -/
theorem Link.eq_of_unlocked {x y : Link} (h : x.unlocked = y.unlocked) :
    x = { y with designate := x.designate, lockQueue := x.lockQueue } := by
  cases x
  simp only [Link.unlocked, Link.mk.injEq] at h ⊢
  simp [h]

theorem State.links_eq_set {s u : State} {d : Dom} (h : u.link (otherDom d) = s.link (otherDom d)) :
    u.links = s.links.set d (u.link d) := (Two.eq_set_iff d).2 h

/-- A training changes its link, and reports its mode to the directory (R80, R81). -/
theorem State.startTraining_eq (s : State) (d : Dom) (m : Mode) : s.startTraining d m = { s with
    links := s.links.set d ((s.startTraining d m).link d), directory := (s.startTraining d m).directory } := by
  rw [State.eq_iff]
  simpa using State.links_eq_set (s.startTraining_link_other d m)

/-- A link that retrains in a mode: its positions are free, and one retrain more is counted (R81, R84, R98). -/
def Link.retrained (l : Link) (m : Mode) (now : Time) : Link :=
  { l with
    state := .training, mode := m, widen := false, trainingExpiry := some (now + 5), retryTimer := none
    positions := Vector.replicate 2 none, downshifts := if l.mode = m then l.downshifts else 0, stayedUp := false
    counters := { l.counters with retrains := l.counters.retrains.inc } }

theorem State.retrain_unlocked (s : State) (d : Dom) (m : Mode) :
    ((s.retrain d m).link d).unlocked = ((s.link d).retrained m s.partTime).unlocked := by
  rw [State.retrain_eq, State.startTraining_link, State.setLink_link_self, State.setLink_partTime,
    (s.dropAll_frame d .retrain).2.2.1, Link.eq_of_unlocked (s.dropAll_freed d .retrain)]
  rfl

/-- Retraining leaves a link's lock requests alone open. -/
theorem State.retrain_link (s : State) (d : Dom) (m : Mode) : (s.retrain d m).link d =
    { (s.link d).retrained m s.partTime with
      designate := ((s.retrain d m).link d).designate, lockQueue := ((s.retrain d m).link d).lockQueue } :=
  Link.eq_of_unlocked (s.retrain_unlocked d m)

/-! ### The events (R80 to R84, R9) -/

theorem State.retryExpiry_running {s : State} {d : Dom} {x : Time} (h : (s.link d).retryTimer = some x) :
    s.retryExpiry d = if (s.link d).state = .down ∧ s.powerGood.get d = true then
      ((s.reach x).setLink d { s.link d with retryTimer := none }).startTraining d .wide
    else (s.reach x).setLink d { s.link d with retryTimer := none } := by
  unfold State.retryExpiry
  rw [h]
  simp

theorem State.powerRise_low {s : State} {d : Dom} (h : s.powerGood.get d = false) : s.powerRise d =
    (let u := ({ s with powerGood := s.powerGood.set d true } : State).setDomain d (if (s.domain d).state = .armed then
      { s.domain d with
        heartbeatTimer := if (s.settings d).heartbeatTimeout ≠ 0 then
          some (s.partTime + BitVec.ofNat 32 ((s.settings d).heartbeatTimeout * 1000)) else none } else s.domain d)
    if (s.link d).state = .down then u.startTraining d .wide else u) := by
  have hs : ({ s with powerGood := s.powerGood.set d true } : State).setDomain d (s.domain d)
      = { s with powerGood := s.powerGood.set d true } := State.setDomain_eq_self rfl
  unfold State.powerRise
  simp only [h]
  by_cases ha : (s.domain d).state = .armed
  · simp [ha, State.startHeartbeat, State.heartbeatExpiry, ms]
  · simp [ha, hs]

/-- Settles O36: each event is the training of its link, or leaves it untrained. -/
theorem trainingsStartAndEnd : Obligations.TrainingsStartAndEnd := by
  unfold Obligations.TrainingsStartAndEnd
  rintro s d l rfl
  refine ⟨fun h => congrArg Host.Outcome.next (if_pos h), fun x hx => ⟨fun h => ?_, fun h => ?_⟩,
    fun h => ?_, fun h => ?_⟩
  · have e := State.retryExpiry_running hx
    rw [if_pos h] at e
    refine ⟨_, congrArg Host.Outcome.next e, ?_, ?_⟩
    · simp [State.startTraining_link]
    · rw [State.startTraining_eq]
      simp [State.setLink]
  · exact congrArg Host.Outcome.next ((State.retryExpiry_running hx).trans (if_neg h))
  · refine ⟨_, congrArg Host.Outcome.next (State.powerRise_low h), ?_⟩
    dsimp only
    split
    · next hd =>
      refine ⟨by simp, by simp, fun _ => by rw [State.startTraining_link]; rfl, fun k => absurd hd k, ?_⟩
      rw [State.startTraining_eq]
      simp [State.setDomain]
    · next hd =>
      refine ⟨rfl, by simp, fun k => absurd k hd, fun _ => rfl, ?_⟩
      have hl : s.links.set d (s.link d) = s.links := Two.set_get _ _
      simp [State.setDomain, hl]
  · refine ⟨_, congrArg Host.Outcome.next (if_pos h), ?_⟩
    rw [State.retrain_link]
    refine ⟨rfl, rfl, rfl, rfl, rfl, rfl, ?_, rfl, by simp [Link.retrained], ?_⟩
    · cases hw : (s.link d).widen <;> simp [Link.retrained, eq_comm]
    · rw [State.eq_iff]
      simp

end Sys2Proof.Machine
end

