-- ==== Sys2Proof/Proofs/EndedReads.lean ====
section
/-! SUPPORT. The events of an outstanding read (R85 to R89, Tables 5-3 and 5-4), and O37. -/
namespace Sys2Proof.Machine

/-! ### What an outcome delivered leaves -/

/-- A link as an outcome delivered leaves it: lock requests aside, as it was. -/
theorem State.deliver_link (s : State) (c : Fin 4) (a : Nat) (o : ReadOutcome) (e : Dom) :
    (s.deliver c a o).link e = { s.link e with
      designate := ((s.deliver c a o).link e).designate, lockQueue := ((s.deliver c a o).link e).lockQueue } :=
  Link.eq_of_unlocked (s.deliver_unlocked c a o e)

theorem State.setLink_deliver_link (s : State) (d : Dom) (l : Link) (c : Fin 4) (a : Nat) (o : ReadOutcome) :
    ((s.setLink d l).deliver c a o).link d = { l with
      designate := (((s.setLink d l).deliver c a o).link d).designate
      lockQueue := (((s.setLink d l).deliver c a o).link d).lockQueue } := by
  rw [State.deliver_link, State.setLink_link_self]

/-- What the end of a read, with the link's record written, may change (R89). -/
theorem State.setLink_deliver_eq (s : State) (d : Dom) (l : Link) (c : Fin 4) (a : Nat) (o : ReadOutcome) :
    (s.setLink d l).deliver c a o = { s with
      links := ((s.setLink d l).deliver c a o).links, channels := ((s.setLink d l).deliver c a o).channels
      staging := ((s.setLink d l).deliver c a o).staging
      directory := ((s.setLink d l).deliver c a o).directory } := by
  rw [State.eq_iff]
  simp

/-! ### The ends of reads by their events (R86 to R88) -/

/-- A read that ends with an outcome other than PARITY (R85, R89). -/
theorem State.endRead_eq (s : State) (d : Dom) (i : Fin 2) (r : LinkRead) (o : ReadOutcome)
    (h : ∀ bs, o ≠ .parity bs) : s.endRead d i r o
      = (s.setLink d (((s.link d).freed i).countOutcome o)).deliver r.channel r.address o := by
  cases o with
  | parity bs => exact absurd rfl (h bs)
  | data | disconnect | noClaim | stall | targetAbort | retrain | linkDown => rfl

/-- A read that ends PARITY: the link may be shifted down before its channel takes the outcome (R96). -/
theorem State.endRead_parity (s : State) (d : Dom) (i : Fin 2) (r : LinkRead) (bs : List Byte) :
    s.endRead d i r (.parity bs) = ((s.setLink d (((s.link d).freed i).countOutcome (.parity bs))).parityCounted
      d).deliver r.channel r.address (.parity bs) := rfl

section
variable {s : State} {d : Dom} {n : ReadName} {r : LinkRead} (h : s.readAt d n = some r)
include h

theorem State.claimRead_eq : s.claimRead d n = s.setLink d { s.link d with
    positions := (s.link d).positions.set n.pos (some { r with claimed := true }) } := by
  simp [State.claimRead, h]

theorem State.claimExpiry_unclaimed (hc : r.claimed = false) :
    s.claimExpiry d n = (s.endRead d n.pos r .noClaim).settle := by
  simp [State.claimExpiry, h, hc]

theorem State.granuleExpiry_running (hc : r.claimed = true) :
    s.granuleExpiry d ⟨n, r.received.length⟩ = (s.endRead d n.pos r .stall).settle := by
  simp [State.granuleExpiry, h, hc]

theorem State.abortRead_eq : s.abortRead d n = (s.endRead d n.pos r .targetAbort).settle := by
  simp [State.abortRead, h]

/-- A disconnect, by the granules that have come (R87, R88; log 45). -/
theorem State.disconnectRead_eq : s.disconnectRead d n = (s.endRead d n.pos r
    (if r.received = [] then .targetAbort
     else if r.mismatch then .parity (slice r.received.flatten (r.address % 64) r.length)
     else .disconnect (slice r.received.flatten (r.address % 64) (64 * r.received.length)))).settle := by
  simp [State.disconnectRead, h, LinkRead.delivered]

/-- A granule that is not its read's last is kept (R86). -/
theorem State.granule_kept {data : List Byte} (good : Bool) (hc : r.claimed = true) (hd : data.length = 64)
    (hg : r.received.length + 1 < r.granules) : s.granule d n data good = s.setLink d { s.link d with
      positions := (s.link d).positions.set n.pos (some { r with
        received := r.received ++ [data], mismatch := r.mismatch || !good }) } := by
  have hp : padTo 64 data = data := slice_all data 64 hd
  simp [State.granule, h, hc, hp, hg]

/-- The last granule of a read ends it, clean or not (R86, R88). -/
theorem State.granule_last {data : List Byte} (good : Bool) (hc : r.claimed = true) (hd : data.length = 64)
    (hg : r.granules ≤ r.received.length + 1) : s.granule d n data good = (s.endRead d n.pos r
      (if r.mismatch || !good then .parity (slice (r.received ++ [data]).flatten (r.address % 64) r.length)
       else .data (slice (r.received ++ [data]).flatten (r.address % 64) r.length))).settle := by
  have hp : padTo 64 data = data := slice_all data 64 hd
  simp only [State.granule, h, hc, hp, if_true, List.length_append, List.length_singleton, hg]
  rfl

end

/-- The two events that end a read PARITY: its last granule, with bad parity or after a mismatch, and a disconnect after a
mismatch (R88, Table 5-3). -/
theorem State.parity_run {s : State} {d : Dom} {i : Fin 2} {r : LinkRead} {bytes : List Byte}
    {run : Host.Outcome State Fault Refusal} (hr : (s.link d).positions[i] = some r)
    (h : (∃ data good, r.claimed = true ∧ (r.mismatch = true ∨ good = false) ∧ data.length = 64
          ∧ r.granules ≤ r.received.length + 1
          ∧ bytes = slice (r.received ++ [data]).flatten (r.address % 64) r.length
          ∧ run = exec (.granuleArrival d ⟨i, r.number⟩ data good) s)
      ∨ (r.received ≠ [] ∧ r.mismatch = true ∧ bytes = slice r.received.flatten (r.address % 64) r.length
          ∧ run = exec (.disconnect d ⟨i, r.number⟩) s)) :
    run = .next (s.endRead d i r (.parity bytes)).settle := by
  have hn := State.readAt_self hr
  rcases h with ⟨data, good, hc, hm, hd, hg, rfl, rfl⟩ | ⟨hne, hm, rfl, rfl⟩
  · refine congrArg Host.Outcome.next ((State.granule_last hn good hc hd hg).trans ?_)
    rw [if_pos (by simpa using hm)]
  · refine congrArg Host.Outcome.next ((State.disconnectRead_eq hn).trans ?_)
    rw [if_neg hne, if_pos hm]

/-- Below the threshold, and in SINGLE, a PARITY outcome shifts nothing (R96). -/
theorem State.parityCounted_stays {s : State} {d : Dom}
    (h : (s.link d).downshifts.toNat < (s.settings d).threshold ∨ (s.link d).mode = .single) :
    s.parityCounted d = s := by
  unfold State.parityCounted
  dsimp only
  split
  · next m hm =>
    refine if_neg fun k => ?_
    rcases h with h | h
    · omega
    · rw [h] at hm; cases hm
  · rfl

/-- Settles O37: each event as the read's end, or what it writes at the read's position. -/
theorem eventsOfOutstandingReads : Obligations.EventsOfOutstandingReads := by
  unfold Obligations.EventsOfOutstandingReads
  rintro s d pos l r around rfl hr ha
  have hn := State.readAt_self hr
  have next {u v : State} (h : u = v) : (Host.Outcome.next u : Host.Outcome State Fault Refusal) = .next v := by rw [h]
  have ends {v : State} {o : ReadOutcome} (ho : ∀ bs, o ≠ .parity bs) (h : v = (s.endRead d pos r o).settle) :=
    next (h.trans (congrArg State.settle (State.endRead_eq s d pos r o ho)))
  have hu (m : Link) (o : ReadOutcome) := (ha _).2 (s.setLink_deliver_eq d m r.channel r.address o)
  refine ⟨next (State.claimRead_eq hn),
    fun hc => next (State.claimExpiry_claimed hn hc),
    fun since hc => next (State.granuleExpiry_over hn hc),
    fun hc bs good => next (State.granule_unclaimed hn hc bs good),
    fun bs good hc hd hg => next (State.granule_kept hn good hc hd hg),
    fun hc => ?_, fun hc => ?_, ?_, fun he => ?_, fun he hm => ?_, fun data hc hm hd hg => ?_,
    fun data good bytes run h hs => ?_⟩
  · exact ⟨_, ends (by simp) (State.claimExpiry_unclaimed hn hc), hu _ .noClaim, by rw [State.setLink_deliver_link]; rfl,
      by rw [State.setLink_deliver_link]; rfl, rfl⟩
  · exact ⟨_, ends (by simp) (State.granuleExpiry_running hn hc), hu _ .stall, by rw [State.setLink_deliver_link]; rfl,
      by rw [State.setLink_deliver_link]; rfl, rfl⟩
  · exact ⟨_, ends (by simp) (State.abortRead_eq hn), hu _ .targetAbort, by rw [State.setLink_deliver_link]; rfl,
      by rw [State.setLink_deliver_link]; rfl, by rw [State.setLink_deliver_link]; rfl, rfl⟩
  · refine next ((State.disconnectRead_eq hn).trans ?_)
    rw [if_pos he, State.abortRead_eq hn]
  · refine ⟨_, ends (by simp) ((State.disconnectRead_eq hn).trans ?_), hu _ (.disconnect _),
      by rw [State.setLink_deliver_link]; rfl, by rw [State.setLink_deliver_link]; rfl, rfl⟩
    rw [if_neg he, if_neg (by simp [hm])]
  · refine ⟨_, ends (by simp) ((State.granule_last hn true hc hd hg).trans ?_), hu _ (.data _),
      by rw [State.setLink_deliver_link]; rfl, by rw [State.setLink_deliver_link]; rfl, rfl⟩
    rw [if_neg (by simp [hm])]
  · have hrun := State.parity_run hr (h.imp (fun h => ⟨data, good, h⟩) id)
    rw [State.endRead_parity, State.parityCounted_stays (by simpa [Link.countOutcome, Link.freed] using hs)] at hrun
    exact ⟨_, hrun, hu _ _, by rw [State.setLink_deliver_link]; rfl, by rw [State.setLink_deliver_link]; rfl,
      by rw [State.setLink_deliver_link]; rfl, by rw [State.setLink_deliver_link]; rfl, rfl⟩

end Sys2Proof.Machine
end

