-- ==== Sys2Proof/Proofs/Downshifts.lean ====
section
/-! SUPPORT. The downshift of a link (R96, R97), and O38. -/
namespace Sys2Proof.Machine

/-! ### The downshift (R96, R97) -/

theorem Mode.narrower_ne {x m : Mode} (h : x.narrower = some m) : x ≠ m := by
  rintro rfl
  cases x <;> cases h

/-- At the threshold a PARITY outcome narrows the link's mode (R96). -/
theorem State.parityCounted_shifts {s : State} {d : Dom} {m : Mode} (hm : (s.link d).mode.narrower = some m)
    (ht : (s.settings d).threshold ≤ (s.link d).downshifts.toNat) :
    s.parityCounted d = s.downshift d (s.link d).mode m := by
  simp [State.parityCounted, hm, ht]

theorem State.dropOutstanding_empty {s : State} {d : Dom} {i : Fin 2} (h : (s.link d).positions[i] = none)
    (o : ReadOutcome) : s.dropOutstanding d o i = s := by
  unfold State.dropOutstanding
  dsimp only
  rw [h]

/-- A link with no read outstanding has none to drop. -/
theorem State.dropAll_empty {s : State} {d : Dom} (h : ∀ i : Fin 2, (s.link d).positions[i] = none) (o : ReadOutcome) :
    s.dropAll d o = s := by
  unfold State.dropAll
  rw [State.dropOutstanding_empty (h 0), State.dropOutstanding_empty (h 1)]

/-- A retraining with no read outstanding tells no channel. -/
theorem State.retrain_empty {s : State} {d : Dom} (h : ∀ i : Fin 2, (s.link d).positions[i] = none) (m : Mode) :
    (s.retrain d m).channels = s.channels ∧ (s.retrain d m).staging = s.staging := by
  rw [State.retrain_eq, State.dropAll_empty h]
  simp

theorem State.downshift_empty {s : State} {d : Dom} (h : ∀ i : Fin 2, (s.link d).positions[i] = none) (x m : Mode) :
    (s.downshift d x m).channels = s.channels ∧ (s.downshift d x m).staging = s.staging := by
  obtain ⟨hc, hs⟩ := (s.setLink d { s.link d with shifted := true }).retrain_empty (d := d) (by simpa using h) m
  simp [State.downshift, hc, hs]

/-- A link that is shifted down has its flag up and retrains in the narrower mode (R96). -/
theorem State.downshift_unlocked (s : State) (d : Dom) (x m : Mode) : ((s.downshift d x m).link d).unlocked
    = (({ s.link d with shifted := true } : Link).retrained m s.partTime).unlocked := by
  simp [State.downshift, State.retrain_unlocked]

/-- The LINK_SHIFT record (R97). -/
def linkShiftRecord (s : State) (d : Dom) (before after : Mode) : EventRecord :=
  { sequence := 0, time := s.partTime, origin := 15, eventClass := 0xF1, severity := 2, checkBad := false
    payload := le 1 before.code ++ le 1 after.code ++ le 4 (codeOr BitVec.toNat (s.domain d).openDump) }

theorem State.downshift_journal (s : State) (d : Dom) (x m : Mode) :
    (s.downshift d x m).journal d = (s.journal d).append (linkShiftRecord s d x m) := by
  simp [State.downshift, State.recordLinkShift, State.appendDevice, linkShiftRecord]

theorem State.downshift_journals (s : State) (d : Dom) (x m : Mode) :
    (s.downshift d x m).journals = s.journals.set d ((s.downshift d x m).journal d) :=
  State.journals_eq_set (by simp [State.downshift, State.recordLinkShift, State.appendDevice])

/-- A link as it stands once the channel of a PARITY read that shifted it down has the outcome. -/
theorem State.shifted_link (s : State) (d : Dom) (l : Link) (x m : Mode) (c : Fin 4) (a : Nat) (o : ReadOutcome) :
    ((((s.setLink d l).downshift d x m).deliver c a o).link d).unlocked
      = (({ l with shifted := true } : Link).retrained m s.partTime).unlocked := by
  rw [State.deliver_unlocked, State.downshift_unlocked]
  simp

theorem Link.freed_positions (l : Link) (i j : Fin 2) :
    (l.freed i).positions[j] = if i = j then none else l.positions[j] := by
  simp [Link.freed, Vector.getElem_set, Fin.ext_iff]

/-- Settles O38: the read's end counts the mismatch, shifts the link down, and then hands the outcome over. -/
theorem parityDownshiftsTheLink : Obligations.ParityDownshiftsTheLink := by
  unfold Obligations.ParityDownshiftsTheLink
  rintro s d pos l r m bytes run rfl hr h ht hm
  have hrun := State.parity_run hr h
  have hmode : (((s.link d).freed pos).countOutcome (.parity bytes)).mode = (s.link d).mode := rfl
  rw [State.endRead_parity, State.parityCounted_shifts (m := m) (by simpa [Link.countOutcome, Link.freed] using hm)
    (by simpa [Link.countOutcome, Link.freed] using ht), State.setLink_link_self, hmode] at hrun
  refine ⟨_, hrun, ?_⟩
  rw [Link.eq_of_unlocked (State.shifted_link _ d _ _ m _ _ _)]
  refine ⟨rfl, rfl, if_neg (Mode.narrower_ne hm), rfl, rfl, rfl, rfl, fun i => by simp [Link.retrained],
    rfl, ?_, fun he => ?_, ?_⟩
  · simp [State.downshift_journal, linkShiftRecord]
  · refine ⟨_, rfl, State.downshift_empty (fun i => ?_) _ _⟩
    rw [State.setLink_link_self]
    change ((s.link d).freed pos).positions[i] = none
    rw [Link.freed_positions]
    split
    · rfl
    · next hi => exact he i fun h => hi h.symm
  · have hj := State.downshift_journals (s.setLink d (((s.link d).freed pos).countOutcome (.parity bytes))) d
      (s.link d).mode m
    rw [State.setLink_journals] at hj
    rw [State.eq_iff]
    simp [← hj]

end Sys2Proof.Machine
end

