-- ==== Sys2Proof/Proofs/LinkReports.lean ====
section
/-! SUPPORT. LINK STATUS and VIEW (R98 to R100, R169), and O53. -/
namespace Sys2Proof.Machine

/-! ### LINK STATUS (R98 to R100) -/

theorem State.linkStatusBytes_length (s : State) (d : Dom) : (s.linkStatusBytes d).length = 23 := by
  unfold State.linkStatusBytes
  dsimp only
  split <;> simp [LinkCounters.bytes, le_length]

theorem State.reserve_linkStatusBytes (s : State) (p : PortId) (d : Dom) :
    (s.reserve p).linkStatusBytes d = s.linkStatusBytes d := by cases p <;> rfl

theorem State.reserve_link (s : State) (p : PortId) (d : Dom) : (s.reserve p).link d = s.link d := by simp

theorem State.reserve_setLink (s : State) (p : PortId) (d : Dom) (l : Link) :
    (s.reserve p).setLink d l = (s.setLink d l).reserve p := by cases p <;> rfl

/-- A link whose status has been read, and its counters cleared if asked (R99). -/
def Link.reported (l : Link) (f : Frame) : Link :=
  { l.statusTaken with counters := if field f.body 0 1 = 0 then l.counters else LinkCounters.zero }

theorem linkStatusAct_eq (s : State) (f : Frame) (d : Dom) : linkStatusAct s f d
    = .ok (s.setLink d ((s.link d).reported f)) (s.linkStatusBytes d) := by
  unfold linkStatusAct Link.reported
  dsimp only
  split <;> rfl

/-! ### VIEW (R169) -/

/-- A request of a kind that names no domain, answered over a state reached with the port left alone. -/
theorem State.request_unnamed {s u : State} {p : PortId} {kind : Byte} {f : Frame} {st : Byte} {body : List Byte}
    {act : State → Frame → Dom → Answer} (h : s.takes p kind f) (hn : namesDomain kind.toNat f.body = false)
    (ha : act (s.reserve p) f (s.resolve p f.domain) = .reply (u.reserve p) st body) (hu : u.port p = s.port p) :
    Answered s (s.request p kind act) p f 0xFF st body ∧ (s.request p kind act).apart p = u.apart p := by
  obtain ⟨t, rfl, hans, hap⟩ := State.request_reply h ha (by rw [State.reserve_port, hu])
  rw [h.replyDomain_none hn] at hans
  exact ⟨hans, by rw [hap, State.reserve_apart]⟩

/-- The state with another view. -/
def State.withView (s : State) (v : View) : State := { s with service := { s.service with view := v } }

theorem State.withView_port (s : State) (v : View) (p : PortId) : (s.withView v).port p = s.port p := by
  cases p <;> rfl

theorem viewAct_taken {s : State} {p : PortId} {f : Frame} {v : View} (d : Dom)
    (h : viewOf s.service.view (field f.body 0 1) = some v) : viewAct (s.reserve p) f d
      = .ok ((s.withView v).reserve p) [BitVec.ofNat 8 v.code, domByte (s.withView v).viewDomain] := by
  have hv : viewOf (s.reserve p).service.view (field f.body 0 1) = some v := by cases p <;> exact h
  unfold viewAct
  rw [hv]
  cases p <;> rfl

theorem viewAct_refused {s : State} {p : PortId} {f : Frame} (d : Dom)
    (h : viewOf s.service.view (field f.body 0 1) = none) : viewAct (s.reserve p) f d
      = .refused (s.reserve p) stRange := by
  have hv : viewOf (s.reserve p).service.view (field f.body 0 1) = none := by cases p <;> exact h
  unfold viewAct
  rw [hv]

theorem viewOf_eq_none {v : View} {n : Nat} (h0 : n ≠ 0) (h1 : n ≠ 1) (h2 : n ≠ 2) (h3 : n ≠ 0xFF) :
    viewOf v n = none := by
  unfold viewOf
  split <;> trivial

/-- The body of a VIEW is its one byte. -/
theorem State.takes.view_body {s : State} {p : PortId} {f : Frame} (h : s.takes p 0x1E f) :
    ∃ b : Byte, f.body = [b] ∧ field f.body 0 1 = b.toNat := by
  obtain ⟨b, hb⟩ := List.length_eq_one_iff.1 (eq_of_beq h.body_fits)
  exact ⟨b, hb, by rw [hb]; simp [field, slice, ofLe]⟩

/-- Settles O53: both answers are given over the state with the link, or the view, that they leave. -/
theorem linkStatusAndViewAnswer : Obligations.LinkStatusAndViewAnswer := by
  unfold Obligations.LinkStatusAndViewAnswer
  refine fun s p f => ⟨fun d h hd => ⟨s.linkStatusBytes_length d, _, rfl, ?_⟩, fun h => ⟨_, rfl, fun v b d hv => ?_,
    fun h0 h1 h2 h3 => ?_⟩⟩
  · refine State.request_answered h hd rfl ?_ (State.setLink_port ..)
    rw [linkStatusAct_eq, State.reserve_linkStatusBytes, State.reserve_link, State.reserve_setLink]
    rfl
  · have hview : viewOf s.service.view (field f.body 0 1) = some v ∧ b = BitVec.ofNat 8 v.code
        ∧ d = (s.withView v).viewDomain := by
      rcases hv with ⟨hf, rfl, rfl, rfl⟩ | ⟨hf, rfl, rfl, rfl⟩ | ⟨hf, rfl, rfl, rfl⟩ | ⟨hf, rfl, rfl, rfl⟩
      all_goals rw [hf]; exact ⟨rfl, rfl, rfl⟩
    obtain ⟨ho, rfl, rfl⟩ := hview
    exact State.request_unnamed h rfl (viewAct_taken _ ho) (State.withView_port ..)
  · obtain ⟨b, hb, hf⟩ := h.view_body
    have other (k : Byte) (hk : f.body ≠ [k]) : field f.body 0 1 ≠ k.toNat := fun e =>
      hk (by rw [hb, BitVec.eq_of_toNat_eq (hf.symm.trans e)])
    exact State.request_unnamed h rfl
      (viewAct_refused _ (viewOf_eq_none (other 0 h0) (other 1 h1) (other 2 h2) (other 0xFF h3))) rfl

end Sys2Proof.Machine
end
